-- ==== Sys2Proof/Word.lean ====
section
/-!
DEFINITION. Words, tags and the plainest arithmetic of the device (spec 00 Table 0.2, spec 03).
-/
namespace Sys2Proof

/-- One byte. -/
abbrev Byte := BitVec 8
/-- A 32-bit register or memory word. -/
abbrev W32 := BitVec 32
/-- A 64-bit value: an instruction word, an address, a register pair. -/
abbrev W64 := BitVec 64
/-- A 16-bit origin tag (spec 03, Table 3.10). -/
abbrev Tag := BitVec 16

/-- A register or memory word with its origin tag (R16). -/
structure TW where
  val : W32
  tag : Tag
deriving DecidableEq, Repr, Inhabited

/-- The word 0 with the null tag (R79). -/
def TW.zero : TW := ⟨0, 0⟩

/-- One thread of the device: a resident group's identity and a lane from 0 to 7. -/
structure ThreadId where
  g : Nat
  lane : Nat
deriving DecidableEq, Repr, Inhabited

/-- A list of keyed values, kept in rising key order. -/
abbrev AL (α : Type) := List (Nat × α)

end Sys2Proof
end

