-- ==== Sys2Proof/Config.lean ====
section
/-!
DEFINITION. What the manual leaves to an implementation, or takes from outside itself: constants with no value
that a proof can see (assumption log 5), and the few numbers the manual fixes for every device.
-/
namespace Sys2Proof.Config

/-- SHAKE256 with a 512-bit output (R315, R365, R366): named by the manual and defined outside it. -/
opaque shake256 : List Byte → BitVec 512

/-- The SLH-DSA-SHAKE-256s check of a digest and a signature against a key (R315, R365), defined outside the manual. -/
opaque signatureOk : Nat → BitVec 512 → List Byte → Bool

/-- A value the manual leaves open, fresh at each use: applied to the counter `State.fresh` (assumption log 5). -/
opaque freeWord : Nat → W32

/-- A value the manual leaves open for a deterministic launch, which R316 wants the same in every run of it: applied to the
launch's code, what draws the value, and how many it has drawn before (assumption log 5). -/
opaque openWord : W64 → Nat → Nat → W32

/-- The operand code of a predicate in a STALLSHORT trap at a word (R104), which the manual does not give. -/
opaque predicateCode : W64 → W32

/-- What CB4 pack makes of a superblock's elements where the steps of R55 give no value, by place (assumption log 5). -/
opaque cb4Open : List Nat → Nat → W32

/-- The bytes of an answer of the management core beside what the manual gives (R366), fresh at each use: applied to
`State.fresh` and the request. -/
opaque spdmAnswer : Nat → List Byte → List Byte

/-- Ticks that a stage of Table 23.1 takes (R365), which the manual leaves open but for the 2 s of a start. -/
opaque stageTicks : Nat → Nat

/-- The key the management core installs on a link at its n-th re-keying (R350). -/
opaque linkKey : Nat → Nat → List Byte

/-- Where in the save area the image of a context or of an array's cells lies, and its bytes (R204). -/
opaque saveOffset : Nat → Nat → Nat
opaque saveImage : Nat → List Byte

/-- SAVESIZE (Table 18.13): the bytes that saved contexts need, for the partition registers and table entries. -/
opaque saveSize : List W64 → List W32 → W64

/-- The microcode rule a replacement image would name (R313); the model runs the shipped microcode. -/
def ruleQueueHead : Nat := 0x0001

/-- Elements a running copy stream performs in a cycle when `inbox` does not choose (R221; assumption log 6). -/
def copyElementsPerCycle : Nat := 16

/-- Cycles from issue to the earliest performance of a global access (R182). -/
def globalMin : Nat := 4

end Sys2Proof.Config
end

