-- ==== Sys2Proof/Syntax.lean ====
section
/-!
DEFINITION. Instructions: one constructor of `Instr` for each row of the opcode table. A row is a 64-bit word's
operation (spec 02 Table 2.9), a 24-bit half (Table 2.7), or a step of the device that no word encodes (spec 95).
-/
namespace Sys2Proof

/-- A register operand (R25, Table 2.2). -/
inductive Reg where
  | v (n : Fin 240)
  | o (n : Fin 6)
  | last
  | zero
  | lane
  | grp
  | flk
  | cxy
deriving DecidableEq, Repr, Inhabited

/-- A predicate source: k0 to k7, possibly negated (R107, R175). -/
structure KSel where
  k : BitVec 3
  neg : Bool
deriving DecidableEq, Repr, Inhabited

/-- The flag a flagged instruction names, or none (R30). -/
abbrev Flag := Option (Fin 12)

/-- A shift count: a register, or with .I an immediate from 0 to 31 (R110). -/
inductive ShAmt where
  | reg (r : Reg)
  | imm (n : BitVec 5)
deriving DecidableEq, Repr

/-- Outstanding counter classes (Table 1.4), numbered as in R152. -/
inductive EngClass where
  | copy | gather | tile | aa | coll
deriving DecidableEq, Repr, Inhabited

/-- Scopes of fences and commands (R154). -/
inductive Scope where
  | thr | grp | flk | pad | die | dev | sys
deriving DecidableEq, Repr, Inhabited

/-- Kinds of FENCE (Table 2.10). -/
inductive FenceKind where
  | acq | rel | acqrel | sc
deriving DecidableEq, Repr

/-- Integer comparisons of ISETP (Table 2.10). -/
inductive ICmp where
  | eq | ne | lt | le | gt | ge | ltu | leu | gtu | geu
deriving DecidableEq, Repr

/-- Floating-point comparisons of FSETP and HSETP2 (R123). -/
inductive FCmp where
  | eq | ne | lt | le | gt | ge | num | nan
deriving DecidableEq, Repr

/-- IDIV functions (R120). -/
inductive DivOp where
  | divs | divu | rems | remu
deriving DecidableEq, Repr

/-- FRND directions (R125). -/
inductive RndDir where
  | rn | floor | ceil | trunc
deriving DecidableEq, Repr

/-- WIDEN modifiers (R119). -/
inductive WidenOp where
  | sb | zb | sh | zh
deriving DecidableEq, Repr

/-- CVTF functions (R132), destination format first. -/
inductive CvtfOp where
  | f16F32 | bf16F32 | f32F16 | f32Bf16 | bf16F16 | f16Bf16
deriving DecidableEq, Repr

/-- CVTI functions (R133). -/
inductive CvtiOp where
  | i32 | u32 | i16 | i8
deriving DecidableEq, Repr

/-- TAGSET functions (R140). VALUE and COPY read register b; NULL leaves b reserved. -/
inductive TagsetOp where
  | value (b : Reg)
  | null
  | copy (b : Reg)
deriving DecidableEq, Repr

/-- SHFL modes (R172). -/
inductive ShflMode where
  | idx | xor | up | dn
deriving DecidableEq, Repr

/-- SHFL segment widths (R172). -/
inductive SegWidth where
  | w8 | w4 | w2
deriving DecidableEq, Repr

/-- QSWAP modes (R173). -/
inductive QswapMode where
  | x | y | d
deriving DecidableEq, Repr

/-- GRED functions (Table 2.10). -/
inductive GredOp where
  | addF32 | minF32 | maxF32 | addF16 | minF16 | maxF16 | addI32 | minI32 | maxI32 | minU32 | maxU32
deriving DecidableEq, Repr

/-- GSCAN functions (Table 2.10). -/
inductive GscanOp where
  | incAddI32 | excAddI32 | incAddF32 | excAddF32 | incMaxI32 | excMaxI32
deriving DecidableEq, Repr

/-- KOP functions (R175). -/
inductive KopOp where
  | and | or | xor | andn
deriving DecidableEq, Repr

/-- Scratchpad access widths (R29). -/
inductive Width where
  | b | bs | h | hs | word | w2 | w4
deriving DecidableEq, Repr

/-- Global access widths (Table 6.7). -/
inductive GWidth where
  | word | w2 | w4
deriving DecidableEq, Repr

/-- Atomic functions (Table 6.6) with AMAX, which only GATOM and folds use (R169). -/
inductive AtomOp where
  | add | min | max | umin | umax | and | or | xor | exch | cas | amax
deriving DecidableEq, Repr

/-- CCOLL functions (Table 10.14). -/
inductive CcollOp where
  | allreduce | redscatter | allgather | bcast
deriving DecidableEq, Repr

/-- AAINF functions (Table 16.4). -/
inductive AainfOp where
  | clauses | sums | argmax
deriving DecidableEq, Repr

/-- AATRN functions (R285). -/
inductive AatrnOp where
  | auto | firm | suppress
deriving DecidableEq, Repr

/-- TACCST functions with what each reads beside its slot (R248, R257). -/
inductive TaccstOp where
  | plain
  | scale (sc : BitVec 3) (row : Bool)
  | scalemax (sc : BitVec 3) (row : Bool) (b : Reg)
deriving DecidableEq, Repr

/-- How a global access is performed: plainly, or with one of the freedoms of a UN page (R186). -/
inductive PerformHow where
  | plain
  | mergedInto (later : Nat)
  | forwarded
deriving DecidableEq, Repr

/-- What microcode asks of HART_STOP (R296, R310): the partition, whether its slice is cut for a priority, and the entry of the
quantum table that runs next. -/
structure StopChoice where
  part : BitVec 2
  cut : Bool
  next : BitVec 4
deriving DecidableEq, Repr

/-- One image or configuration block the management core reads at a start-up stage (Table 23.1). -/
structure StartImage where
  image : List Byte
  signature : List Byte
deriving DecidableEq, Repr

/-- What a cold reset meets from outside the device (R365): the six stages' images, whether the links train, whether
the key store and the configuration are readable and valid, and the CXL bytes attached. -/
structure StartInput where
  images : List StartImage
  dramOk : Bool
  linksOk : Bool
  keyStoreOk : Bool
  configOk : Bool
  cxlBytes : Nat
  domain : BitVec 6
  pfRanges : List (W64 × W64)
  ownerKey : Bool
deriving DecidableEq, Repr

/-- An SPDM request body; its bytes are defined outside the manual (R366). -/
abbrev SpdmBody := List Byte

/-- An instruction, or a step of the device: one constructor for each row of the opcode table. -/
inductive Instr where
  -- control transfer (R145, R146)
  | nop
  | bra (off : BitVec 24)
  | call (off : BitVec 24)
  | ret
  | jmpi (a : Reg)
  | calli (a : Reg)
  | exit
  -- barriers (R147)
  | barf (n : BitVec 4)
  | barp (n : BitVec 4)
  | arrive (d : Reg) (n : BitVec 4) (pad : Bool)
  | bwait (a : Reg) (n : BitVec 4) (pad : Bool)
  | barrierWake (g : Nat)
  | yield
  -- safe points, traps, system (R157 to R161, R176)
  | safept (off : BitVec 16)
  | trap (imm : BitVec 16)
  | tret
  | tren
  | brk (n : BitVec 8)
  | isync
  | tmark (a : Reg) (imm : BitVec 16)
  | mfs (d : Reg) (num : BitVec 12)
  | mts (num : BitVec 12) (a : Reg)
  -- waiting (R152 to R154)
  | fence (kind : FenceKind) (scope : Scope) (mask : BitVec 5)
  | waitc (cls : EngClass) (n : BitVec 6)
  | waita (ne : Bool) (d a b : Reg)
  | qenter
  | qleave
  | forcedIssue (core port : Nat)
  | flaggedResultLand (g lane id : Nat)
  -- integer (R109 to R120)
  | iadd (d a b : Reg) (ov : Bool)
  | isub (d a b : Reg) (ov : Bool)
  | imul (d a b : Reg) (ov : Bool)
  | imulh (d a b : Reg) (u : Bool)
  | iadds (d a b : Reg) (u : Bool)
  | imin (d a b : Reg) (u : Bool)
  | imax (d a b : Reg) (u : Bool)
  | iabs (d a : Reg) (ov : Bool)
  | ineg (d a : Reg) (ov : Bool)
  | and (d a b : Reg)
  | or (d a b : Reg)
  | xor (d a b : Reg)
  | andn (d a b : Reg)
  | popc (d a : Reg)
  | clz (d a : Reg)
  | brev (d a : Reg)
  | shl (d a : Reg) (n : ShAmt)
  | shr (d a : Reg) (n : ShAmt)
  | sar (d a : Reg) (n : ShAmt)
  | rotl (d a : Reg) (n : ShAmt)
  | imad (d a b c : Reg) (ov : Bool)
  | iadd3 (d a b c : Reg) (ov : Bool)
  | funnel (d a b c : Reg) (right : Bool)
  | bfx (d a b : Reg) (u : Bool)
  | bfi (d a b c : Reg)
  | isetp (cc : ICmp) (kd : BitVec 3) (a b : Reg) (kc : KSel)
  | sel (d a b : Reg) (kc : KSel)
  | mov (d a : Reg)
  | movi (d : Reg) (imm : BitVec 16) (s : Bool)
  | movhi (d a : Reg) (imm : BitVec 16)
  | ldk (d : Reg) (off : BitVec 16) (count : BitVec 8)
  | add64 (d a b : Reg)
  | sub64 (d a b : Reg)
  | mad64w (d a b c : Reg) (s : Bool)
  | lea (d a b : Reg) (sh : BitVec 4) (s : Bool)
  | iadd2 (d a b : Reg)
  | iadd2s (d a b : Reg)
  | imax2 (d a b : Reg)
  | idot4 (d a b c : Reg) (u : Bool)
  | prmt (d a b c : Reg)
  | widen (d a : Reg) (op : WidenOp)
  | wadd (d a b : Reg) (u : Bool)
  | idiv (op : DivOp) (d a b : Reg) (f : Flag)
  -- FP32 (R121 to R126)
  | fadd (d a b : Reg)
  | fsub (d a b : Reg)
  | fmul (d a b : Reg)
  | ffma (d a b c : Reg)
  | fmin (d a b : Reg)
  | fmax (d a b : Reg)
  | fsetp (cc : FCmp) (kd : BitVec 3) (a b : Reg) (kc : KSel)
  | fclass (d a : Reg)
  | frnd (dir : RndDir) (d a : Reg)
  | frcp (d a : Reg) (f : Flag)
  | frsq (d a : Reg) (f : Flag)
  | fsqrt (d a : Reg) (f : Flag)
  | fdiv (d a b : Reg) (f : Flag)
  | fexp2 (d a : Reg) (f : Flag)
  | flog2 (d a : Reg) (f : Flag)
  | fsin (d a : Reg) (f : Flag)
  | fcos (d a : Reg) (f : Flag)
  | ftanh (d a : Reg) (f : Flag)
  -- packed halves (R127, R128)
  | hadd2 (d a b : Reg) (bf : Bool)
  | hsub2 (d a b : Reg) (bf : Bool)
  | hmul2 (d a b : Reg) (bf : Bool)
  | hfma2 (d a b c : Reg) (bf : Bool)
  | hmin2 (d a b : Reg) (bf : Bool)
  | hmax2 (d a b : Reg) (bf : Bool)
  | hsetp2 (cc : FCmp) (kd0 kd1 : BitVec 3) (a b : Reg) (kc : KSel) (bf : Bool)
  -- dot products (R129 to R131)
  | hdot2 (d a b c : Reg) (bf : Bool)
  | fdot4q (d a b : Reg) (slot : BitVec 3)
  | lutdot (d a b : Reg) (slot : BitVec 3) (bf : Bool)
  -- conversion (R132 to R138)
  | cvtf (op : CvtfOp) (d a : Reg) (h : Bool)
  | cvti (op : CvtiOp) (d a : Reg)
  | cvtfi (u : Bool) (d a : Reg)
  | pack (d a : Reg) (slot : BitVec 3)
  | unpack (d a : Reg) (slot : BitVec 3)
  | quant (d a b : Reg) (slot : BitVec 3)
  | dequant (d a b : Reg) (slot : BitVec 3)
  | cbdec (d a b c : Reg) (f16 : Bool)
  -- tags (R139 to R143)
  | tagget (d a : Reg)
  | tagset (op : TagsetOp) (d a : Reg)
  | tagbirth (d a : Reg)
  | originRefillDone (core : Nat)
  | origin (d a : Reg) (f : Flag)
  -- cross-lane, quad and predicate (R171 to R175)
  | shfl (mode : ShflMode) (d a b : Reg) (w : SegWidth)
  | qswap (mode : QswapMode) (d a : Reg)
  | qbcast (d a : Reg) (n : BitVec 2)
  | gred (op : GredOp) (d a : Reg)
  | gscan (op : GscanOp) (d a : Reg)
  | vote (all : Bool) (kd : BitVec 3) (ka : KSel)
  | voteBallot (d : Reg) (ka : KSel)
  | kop (op : KopOp) (kd : BitVec 3) (ka kb : KSel)
  | kmovGet (d : Reg)
  | kmovSet (a : Reg)
  | elect (kd : BitVec 3)
  | matchLanes (d a : Reg)
  -- scratchpad (R162 to R167)
  | ld (w : Width) (d a : Reg) (off : BitVec 16)
  | st (w : Width) (d a : Reg) (off : BitVec 16)
  | ldp (w : Width) (d a : Reg) (off : BitVec 8) (f : Flag)
  | stp (w : Width) (d a : Reg) (off : BitVec 16)
  | ldt (d a : Reg) (off : BitVec 16)
  | atom (op : AtomOp) (d a b c : Reg)
  | atomp (op : AtomOp) (d a b : Reg) (f : Flag)
  | celladd (a b : Reg) (l : BitVec 8)
  | cellrdF32 (d a : Reg) (l : BitVec 8)
  | cellrdRaw (d a : Reg)
  | cellclr (a : Reg)
  -- global memory (R168 to R170)
  | gld (w : GWidth) (d a : Reg) (f : Flag)
  | gst (w : GWidth) (a b : Reg)
  | gatom (op : AtomOp) (d a b : Reg) (f : Flag)
  | gcelladd (a b : Reg) (l : BitVec 8)
  | globalAccessPerform (id : Nat) (how : PerformHow)
  | hostPortAcknowledge (id : Nat)
  -- copy engine (R207 to R235)
  | cpy (a : Reg) (scope : Scope)
  | cpyx (a : Reg) (scope : Scope)
  | cpyi (d a b : Reg) (scope : Scope)
  | seal
  | autoSeal (g lane : Nat)
  | cbcast (d a b c : Reg)
  | ccoll (op : CcollOp) (a : Reg) (scope : Scope)
  | cpyq (d : Reg) (sel : BitVec 1) (f : Flag)
  | copyCommandStart (core : Nat)
  | copyCommandFinish (core id : Nat)
  | collectiveTimeout (core id : Nat)
  | routineRestartPoint (core id : Nat)
  | routineSleep (core id : Nat)
  | routineReturn (core id : Nat) (status : W64) (out : List (Byte × Tag))
  | routineWatchdog (core id : Nat)
  -- tile engine (R236 to R257)
  | trsv (kd : BitVec 3) (wait : Bool)
  | trel
  | tmma (td : BitVec 6) (a b : Reg) (sa sb : BitVec 3) (z : Bool)
  | tmmas (td : BitVec 6) (a b : Reg) (sa sb : BitVec 3) (z : Bool)
  | tmmal (td : BitVec 6) (a : Reg) (tt : BitVec 6) (slot : BitVec 3) (z : Bool)
  | tlutb (tt : BitVec 6) (a : Reg) (h : BitVec 1) (slot : BitVec 3) (bf : Bool)
  | tzero (td : BitVec 6)
  | taccld (td : BitVec 6) (a : Reg) (t : Bool)
  | taccst (op : TaccstOp) (td : BitVec 6) (a : Reg) (slot : BitVec 3)
  | ttrn (a b : Reg) (slot : BitVec 3)
  | taddw (td : BitVec 6) (a : Reg) (slot : BitVec 3)
  | tscan (f32 : Bool) (td : BitVec 6)
  | tscld (sc : BitVec 3) (a : Reg)
  | tstat (a : Reg)
  | tileOpStart (core : Nat)
  | tileOpComplete (core : Nat)
  | tileFold (core : Nat)
  -- pens (R258 to R276)
  | pencfg (p : BitVec 4) (a : Reg)
  | suspend (wait : Bool) (p : BitVec 4) (a : Reg) (off : BitVec 16)
  | penwakeMask (a b : Reg)
  | penwakeWord (p : BitVec 4) (a : Reg)
  | penflush (p : BitVec 4) (bin : Option Reg)
  | penhold (rel : Bool) (p : BitVec 4) (a : Reg)
  | penstat (p : BitVec 4) (a : Reg)
  | pentile (p : BitVec 4) (a b : Reg)
  | penResume (core : Nat)
  -- automaton array (R277 to R295)
  | aacfg (a : Reg)
  | aainf (op : AainfOp) (a b : Reg)
  | aatrn (op : AatrnOp) (a b : Reg)
  | aald (a b : Reg)
  | aast (a b : Reg)
  | aaq (d : Reg) (f : Flag)
  | aaServe (pad : Nat)
  | aaCommandComplete (pad id : Nat)
  -- half instructions (R33, Table 2.7)
  | nopHalf
  | iaddHalf (d a : Reg)
  | isubHalf (d a : Reg)
  | imulHalf (d a : Reg)
  | iminHalf (d a : Reg)
  | imaxHalf (d a : Reg)
  | andHalf (d a : Reg)
  | orHalf (d a : Reg)
  | xorHalf (d a : Reg)
  | shlHalf (d a : Reg)
  | shrHalf (d a : Reg)
  | sarHalf (d a : Reg)
  | movHalf (d a : Reg)
  | faddHalf (d a : Reg)
  | fsubHalf (d a : Reg)
  | fmulHalf (d a : Reg)
  | fminHalf (d a : Reg)
  | fmaxHalf (d a : Reg)
  | hadd2Half (d a : Reg)
  | hmul2Half (d a : Reg)
  -- shepherd queues and packets (R296 to R302)
  | doorbellKick (fn : BitVec 4) (q : BitVec 5)
  | doorbellResume (fn : BitVec 4) (q : BitVec 5)
  | doorbellAbort (fn : BitVec 4) (q : BitVec 5)
  | packetNop (fn : BitVec 4) (q : BitVec 5)
  | packetLaunch (fn : BitVec 4) (q : BitVec 5)
  | packetCopy (fn : BitVec 4) (q : BitVec 5)
  | packetBarrier (fn : BitVec 4) (q : BitVec 5)
  | packetSignal (fn : BitVec 4) (q : BitVec 5)
  | packetWaitsig (fn : BitVec 4) (q : BitVec 5)
  | waitsigPoll (fn : BitVec 4) (q : BitVec 5)
  | packetTraceStart (fn : BitVec 4) (q : BitVec 5)
  | packetTraceStop (fn : BitVec 4) (q : BitVec 5)
  | packetCodesync (fn : BitVec 4) (q : BitVec 5)
  | packetComplete (fn : BitVec 4) (q : BitVec 5) (seq : Nat)
  -- launches and slices (R303 to R313)
  | launchPlace (wid : Nat)
  | routingCheckTimeout (wid : Nat)
  | launchEnd (lid : Nat)
  | launchStranded (lid : Nat)
  | sliceEnd (p : BitVec 2)
  | priorityCut (p : BitVec 2)
  | stopDeadline (p : BitVec 2)
  | partitionSwap (p : BitVec 2)
  | saveEngineDone (p : BitVec 2)
  | contextRestore (p : BitVec 2) (dx dy : Nat)
  -- loads, invalidations, replay and trace that go on by themselves (R315, R329, R338, R362)
  | imageLoadDone (rt : Bool)
  | invalidationDone (fn : BitVec 4)
  | replayGateTimeout (lid station : Nat)
  | traceTick (n : Nat)
  -- the microcode environment (Table 18.14)
  | qpendRead
  | hartFetch (fn : BitVec 4) (addr : W64) (len : Nat)
  | hartCheck (fn : BitVec 4)
  | hartClaim (fn : BitVec 4) (wid x y : Nat) (release : Bool)
  | hartStart (fn : BitVec 4) (wid : Nat)
  | hartStop (fn : BitVec 4) (p : StopChoice)
  | hartSwap (fn : BitVec 4) (p : BitVec 2)
  | hartDrec (fn : BitVec 4) (kind reason : Byte) (rule : BitVec 16) (detail : W32)
  -- registers (R312, R314, R315, R338, R342, R343, R348, R349, R356)
  | qcbWrite (fn : BitVec 4) (q : BitVec 5) (hi : Bool) (v : W32)
  | partWrite (p : BitVec 2) (hi : Bool) (v : W32)
  | mcctlLoad (v : W32)
  | rtctlLoad (v : W32)
  | registerWrite (fn : BitVec 4) (off : BitVec 24) (v : W32)
  | invctl (fn : BitVec 4) (v : W32)
  | fqrespGrant (fn : BitVec 4) (seq : BitVec 63)
  | fqrespRefuse (fn : BitVec 4) (seq : BitVec 63)
  | fqtailWrite (fn : BitVec 4) (v : W32)
  | retire (v : W64)
  | rangeFilterWrite (f : BitVec 5) (n : BitVec 4) (limit hi : Bool) (v : W32)
  | hostBar2Read (fn : BitVec 4) (off : BitVec 36) (len : Nat)
  | hostBar2Write (fn : BitVec 4) (off : BitVec 36) (data : List Byte)
  -- reliability, replay, trace (R329, R355, R358, R362, R364)
  | scrubSweep (region unit : Nat) (corrected : W32) (bad : List (W64 × Bool))
  | traceRetry (stream : Nat)
  | skewMeasure (die : Nat) (offset : W32)
  -- start-up and measurement (R365 to R367)
  | coldReset (input : StartInput)
  | startTimeout
  | mgctlClrfail (v : W32)
  | getVersion (port : Bool)
  | getCapabilities (port : Bool) (body : SpdmBody)
  | negotiateAlgorithms (port : Bool) (body : SpdmBody)
  | getDigests (port : Bool)
  | getCertificate (port : Bool) (body : SpdmBody)
  | challenge (port : Bool) (body : SpdmBody)
  | getMeasurements (port : Bool) (block : Byte) (body : SpdmBody)
  | keyExchange (port : Bool) (body : SpdmBody)
  | finish (port : Bool) (body : SpdmBody)
  | endSession (port : Bool)
  -- ports, links, semaphores, supply and heat (R350, R369 to R372)
  | ideKm (port : Bool) (stream : BitVec 4) (key : SpdmBody)
  | ideIntegrityFail (port : Bool) (stream : BitVec 4)
  | soistlinkAuthFail (link : BitVec 4)
  | soistlinkRekey (link : BitVec 4) (key : SpdmBody)
  | semRead (port : Bool) (n : BitVec 5)
  | semWrite (port : Bool) (n : BitVec 5) (v : W32)
  | portmapWrite (v : W32)
  | functionLevelReset (fn : BitVec 4)
  | portLinkReset (port : Bool)
  | supplyDroop (die : Nat) (k : BitVec 3)
  | thermalThrottle (tj : Byte)
  | thermalTrip (tj : Byte)
  | soistlinkInboundAccess (pa : W64) (write : Option (List Byte)) (len : Nat)
  | soistlinkLinkFailure (link : BitVec 4)
  | supplyRecovery (die : Nat)
  | thermalThrottleEnd (tj : Byte)
deriving DecidableEq, Repr

/-- An error that lies in a line of memory until a read meets it: one that ECC corrects, one that it cannot correct
(R353), or a line of CXL memory that fails verification (R352). -/
inductive LineErr where
  | corrected | uncorrectable | integrity
deriving DecidableEq, Repr

/-- What the instructions of a loaded transform routine change (R226): the pc, registers x, f and v and user CSRs, and bytes
of data memory. -/
structure XUpdate where
  pc : W64
  x : List (Nat × W64)
  f : List (Nat × W64)
  v : List (Nat × BitVec 512)
  csr : List (Nat × W64)
  data : List (Nat × Byte)
deriving DecidableEq, Repr

/-- What the machine is given to do next from outside its own rules: a step of the device (an event of the opcode
table), the passing of one clock tick in which no event of the device happens on its own, the progress of one running
copy stream by n elements, a copy element moved out of order (R221), what a loaded routine's instructions do on its
transform core (R226), a Soistlink partner's contribution to a collective (R225, R234), an upset of a register word's
parity, in its tag bits or not and with a good copy or not (R100), an error that comes to lie in a line of memory (R352,
R353), the memory path of a trace collector that takes no record or takes them again (R363), or a reading of the highest junction (R368). -/
inductive Input where
  | event (i : Instr)
  | tick
  | copyProgress (core id n : Nat)
  | copyAhead (core id i : Nat)
  | transform (core id : Nat) (u : XUpdate)
  | partnerJoin (cid : W32) (mask : W64) (rank : Nat) (op fmt : Nat) (count : W32) (root : Nat)
      (data : List (W32 × Tag))
  | upset (g lane : Nat) (r : Reg) (inTag copied : Bool)
  | lineError (pa : Nat) (e : LineErr)
  | collector (stream : Nat) (blocked : Bool)
  | junction (tj : Byte)
deriving DecidableEq, Repr

end Sys2Proof
end

