-- ==== Sys2Proof/WellFormed.lean ====
section
/-!
DEFINITION. Which instructions are legal for a register allocation (R26, R27, R32, R34), as the reason codes of
Table 2.8 that an illegal one breaks.
-/
namespace Sys2Proof

/-- The word's field an operand stands in. -/
inductive Fld where
  | d | a | b | c
deriving DecidableEq, Repr

/-- One register operand of an instruction: its field, whether it is read and written, its first register, how many
registers it spans, and whether it is a register pair (R26). -/
structure Opnd where
  fld : Fld
  rd : Bool
  wr : Bool
  reg : Reg
  n : Nat
  pair : Bool
deriving DecidableEq, Repr

namespace Opnd
/-- A single source. -/
def src (f : Fld) (r : Reg) : Opnd := ⟨f, true, false, r, 1, false⟩
/-- A single destination. -/
def dst (r : Reg) : Opnd := ⟨.d, false, true, r, 1, false⟩
/-- A single register read and written. -/
def both (r : Reg) : Opnd := ⟨.d, true, true, r, 1, false⟩
/-- A source pair. -/
def srcPair (f : Fld) (r : Reg) : Opnd := ⟨f, true, false, r, 2, true⟩
/-- A destination pair. -/
def dstPair (r : Reg) : Opnd := ⟨.d, false, true, r, 2, true⟩
/-- A source range of n registers. -/
def srcRange (f : Fld) (r : Reg) (n : Nat) : Opnd := ⟨f, true, false, r, n, false⟩
/-- A destination range of n registers. -/
def dstRange (r : Reg) (n : Nat) : Opnd := ⟨.d, false, true, r, n, false⟩
end Opnd

/-- Registers a scratchpad access of this width moves (R165). -/
def Width.regs : Width → Nat
  | .w2 => 2
  | .w4 => 4
  | _ => 1

/-- Bytes a scratchpad access of this width moves (R162). -/
def Width.bytes : Width → Nat
  | .b | .bs => 1
  | .h | .hs => 2
  | .word => 4
  | .w2 => 8
  | .w4 => 16

/-- Registers a global access of this width moves. -/
def GWidth.regs : GWidth → Nat
  | .word => 1
  | .w2 => 2
  | .w4 => 4

/-- Registers a WIDEN writes (R119). -/
def WidenOp.regs : WidenOp → Nat
  | .sb | .zb => 4
  | .sh | .zh => 2

open Opnd in
/-- The register operands of each instruction, in the order d, a, b, c. Events and LDK's destination (R32) have none
here. -/
def Instr.opnds : Instr → List Opnd
  | .jmpi a | .calli a => [src .a a]
  | .arrive d _ _ => [dst d]
  | .bwait a _ _ => [src .a a]
  | .tmark a _ => [src .a a]
  | .mfs d _ => [dst d]
  | .mts _ a => [src .a a]
  | .waita _ d a b => [dst d, src .a a, src .b b]
  | .iadd d a b _ | .isub d a b _ | .imul d a b _ | .imulh d a b _ | .iadds d a b _ | .imin d a b _
  | .imax d a b _ => [dst d, src .a a, src .b b]
  | .iabs d a _ | .ineg d a _ => [dst d, src .a a]
  | .and d a b | .or d a b | .xor d a b | .andn d a b => [dst d, src .a a, src .b b]
  | .popc d a | .clz d a | .brev d a => [dst d, src .a a]
  | .shl d a n | .shr d a n | .sar d a n | .rotl d a n =>
    match n with
    | .reg r => [dst d, src .a a, src .b r]
    | .imm _ => [dst d, src .a a]
  | .imad d a b c _ | .iadd3 d a b c _ | .funnel d a b c _ => [dst d, src .a a, src .b b, src .c c]
  | .bfx d a b _ => [dst d, src .a a, src .b b]
  | .bfi d a b c => [dst d, src .a a, src .b b, src .c c]
  | .isetp _ _ a b _ => [src .a a, src .b b]
  | .sel d a b _ => [dst d, src .a a, src .b b]
  | .mov d a => [dst d, src .a a]
  | .movi d _ _ => [dst d]
  | .movhi d a _ => [dst d, src .a a]
  | .add64 d a b | .sub64 d a b => [dstPair d, srcPair .a a, srcPair .b b]
  | .mad64w d a b c _ => [dstPair d, src .a a, src .b b, srcPair .c c]
  | .lea d a b _ _ => [dstPair d, srcPair .a a, src .b b]
  | .iadd2 d a b | .iadd2s d a b | .imax2 d a b => [dst d, src .a a, src .b b]
  | .idot4 d a b c _ | .prmt d a b c => [dst d, src .a a, src .b b, src .c c]
  | .widen d a op => [dstRange d op.regs, src .a a]
  | .wadd d a b _ => [dstPair d, srcPair .a a, src .b b]
  | .idiv _ d a b _ => [dst d, src .a a, src .b b]
  | .fadd d a b | .fsub d a b | .fmul d a b | .fmin d a b | .fmax d a b => [dst d, src .a a, src .b b]
  | .ffma d a b c => [dst d, src .a a, src .b b, src .c c]
  | .fsetp _ _ a b _ => [src .a a, src .b b]
  | .fclass d a | .frnd _ d a => [dst d, src .a a]
  | .frcp d a _ | .frsq d a _ | .fsqrt d a _ | .fexp2 d a _ | .flog2 d a _ | .fsin d a _ | .fcos d a _
  | .ftanh d a _ => [dst d, src .a a]
  | .fdiv d a b _ => [dst d, src .a a, src .b b]
  | .hadd2 d a b _ | .hsub2 d a b _ | .hmul2 d a b _ | .hmin2 d a b _ | .hmax2 d a b _ =>
    [dst d, src .a a, src .b b]
  | .hfma2 d a b c _ => [dst d, src .a a, src .b b, src .c c]
  | .hsetp2 _ _ _ a b _ _ => [src .a a, src .b b]
  | .hdot2 d a b c _ => [dst d, src .a a, src .b b, src .c c]
  | .fdot4q d a b _ => [both d, src .a a, src .b b]
  | .lutdot d a b _ _ => [both d, src .a a, srcRange .b b 4]
  | .cvtf op d a h =>
    match op, h with
    | .f32F16, _ | .f32Bf16, _ => [dst d, src .a a]
    | _, true => [both d, src .a a]
    | _, false => [dst d, src .a a]
  | .cvti _ d a | .cvtfi _ d a => [dst d, src .a a]
  | .pack d a _ | .unpack d a _ => [dst d, src .a a]
  | .quant d a b _ | .dequant d a b _ => [dst d, src .a a, src .b b]
  | .cbdec d a b c f16 => [dstRange d (if f16 then 4 else 8), src .a a, src .b b, src .c c]
  | .tagget d a | .tagbirth d a => [dst d, src .a a]
  | .tagset op d a =>
    match op with
    | .value b | .copy b => [dst d, src .a a, src .b b]
    | .null => [dst d, src .a a]
  | .origin d a _ => [dstRange d 4, src .a a]
  | .shfl _ d a b _ => [dst d, src .a a, src .b b]
  | .qswap _ d a | .qbcast d a _ | .gred _ d a | .gscan _ d a => [dst d, src .a a]
  | .voteBallot d _ => [dst d]
  | .kmovGet d => [dst d]
  | .kmovSet a => [src .a a]
  | .matchLanes d a => [dst d, src .a a]
  | .ld w d a _ => [dstRange d w.regs, src .a a]
  | .st w d a _ | .stp w d a _ => [srcRange .d d w.regs, src .a a]
  | .ldp w d a _ _ => [dstRange d w.regs, src .a a]
  | .ldt d a _ => [dst d, src .a a]
  | .atom op d a b c =>
    match op with
    | .cas => [dst d, src .a a, src .b b, src .c c]
    | _ => [dst d, src .a a, src .b b]
  | .atomp op d a b _ =>
    match op with
    | .cas => [dst d, src .a a, srcPair .b b]
    | _ => [dst d, src .a a, src .b b]
  | .celladd a b _ => [src .a a, src .b b]
  | .cellrdF32 d a _ => [dst d, src .a a]
  | .cellrdRaw d a => [dstRange d 5, src .a a]
  | .cellclr a => [src .a a]
  | .gld w d a _ => [dstRange d w.regs, srcPair .a a]
  | .gst w a b => [srcPair .a a, srcRange .b b w.regs]
  | .gatom op d a b _ =>
    match op with
    | .cas => [both d, srcPair .a a, src .b b]
    | _ => [dst d, srcPair .a a, src .b b]
  | .gcelladd a b _ => [srcPair .a a, src .b b]
  | .cpy a _ | .cpyx a _ => [src .a a]
  | .cpyi d a b _ => [src .d d, srcPair .a a, srcPair .b b]
  | .cbcast d a b c => [src .d d, src .a a, src .b b, src .c c]
  | .ccoll _ a _ => [src .a a]
  | .cpyq d _ _ => [dstRange d 4]
  | .tmma _ a b _ _ _ | .tmmas _ a b _ _ _ => [src .a a, src .b b]
  | .tmmal _ a _ _ _ | .tlutb _ a _ _ _ | .taccld _ a _ => [src .a a]
  | .taccst op _ a _ =>
    match op with
    | .scalemax _ _ b => [src .a a, srcPair .b b]
    | _ => [src .a a]
  | .ttrn a b _ => [src .a a, src .b b]
  | .taddw _ a _ | .tscld _ a | .tstat a => [src .a a]
  | .pencfg _ a | .suspend _ _ a _ | .penwakeWord _ a | .penhold _ _ a | .penstat _ a => [src .a a]
  | .penwakeMask a b | .pentile _ a b => [src .a a, src .b b]
  | .penflush _ bin =>
    match bin with
    | some a => [src .a a]
    | none => []
  | .aacfg a => [src .a a]
  | .aainf _ a b | .aatrn _ a b => [src .a a, src .b b]
  | .aald a b | .aast a b => [srcPair .a a, src .b b]
  | .aaq d _ => [dstRange d 4]
  | .iaddHalf d a | .isubHalf d a | .imulHalf d a | .iminHalf d a | .imaxHalf d a | .andHalf d a | .orHalf d a
  | .xorHalf d a | .shlHalf d a | .shrHalf d a | .sarHalf d a | .faddHalf d a | .fsubHalf d a | .fmulHalf d a
  | .fminHalf d a | .fmaxHalf d a | .hadd2Half d a | .hmul2Half d a => [both d, src .a a]
  | .movHalf d a => [dst d, src .a a]
  | _ => []

/-- Whether a register code may be written (Table 2.2). -/
def Reg.writable : Reg → Bool
  | .v _ | .o _ | .zero => true
  | _ => false

/-- Reasons for which one operand is illegal under an allocation of `alloc` registers (R25, R26). A pair that names a
register at or above the allocation breaks both sentences of R26, so it carries both reasons. -/
def Opnd.reasons (alloc : Nat) (o : Opnd) : List Nat :=
  (if o.wr && !o.reg.writable then [0x07] else []) ++
  (match o.reg with
   | .v m =>
     (if alloc ≤ m.val then [0x08] else []) ++
     (if o.pair then (if m.val % 2 = 1 ∨ alloc ≤ m.val + 1 then [0x09] else [])
      else (if o.n > 1 ∧ alloc < m.val + o.n then [0x08] else []))
   | _ => if o.pair then [0x09] else if o.n > 1 then [0x08] else [])

/-- The signed weight of a cell instruction lies in −126 to 0 (R167). -/
def weightOk (l : BitVec 8) : Bool :=
  decide (l = 0) || (decide (130 ≤ l.toNat))

/-- Reasons an instruction's own fields break: those of immediates and of fields a form leaves unused, and the count
and range of LDK (R32). -/
def Instr.fieldReasons (alloc : Nat) : Instr → List Nat
  | .ldk d _ n =>
    match d with
    | .v m =>
      (if alloc ≤ m.val then [0x08] else []) ++
      (if n.toNat = 0 ∨ 4 < n.toNat ∨ alloc < m.val + n.toNat then [0x0A] else [])
    | .o _ | .zero => if n.toNat = 1 then [] else [0x0A]
    | _ => [0x07]
  | .atom op _ _ _ c =>
    (match op with
     | .amax => [0x03]
     | _ => []) ++
    (match op with
     | .cas => []
     | _ => if c = .v 0 then [] else [0x04])
  | .atomp op _ _ _ _ =>
    match op with
    | .amax => [0x03]
    | _ => []
  | .celladd _ _ l | .cellrdF32 _ _ l | .gcelladd _ _ l => if weightOk l then [] else [0x06]
  | _ => []

/-- Every reason for which an instruction is illegal under an allocation. -/
def Instr.reasons (alloc : Nat) (i : Instr) : List Nat :=
  i.fieldReasons alloc ++ i.opnds.flatMap (Opnd.reasons alloc)

/-- An instruction is well formed when no rule of spec 02 makes it illegal. -/
def Instr.wf (alloc : Nat) (i : Instr) : Bool := decide (i.reasons alloc = [])

/-- Main registers a half reads, for the bank count of R34. -/
def Instr.bankReads (i : Instr) : List Nat :=
  i.opnds.flatMap fun o =>
    match o.rd, o.reg with
    | true, .v m => [m.val % 4]
    | _, _ => []

/-- The destination of a half, none for NOP. -/
def Instr.halfDst (i : Instr) : Option Reg :=
  (i.opnds.find? (·.wr)).map (·.reg)

/-- Whether half `b` reads register `r` (R34). -/
def Instr.readsReg (b : Instr) (r : Reg) : Bool :=
  b.opnds.any fun o => o.rd && decide (o.reg = r)

/-- Reasons a pair of halves is illegal together (R34). -/
def pairReasons (ha hb : Instr) : List Nat :=
  let banks := ha.bankReads ++ hb.bankReads
  (if (List.range 4).any fun k => decide (2 < banks.count k) then [0x0B] else []) ++
  (match ha.halfDst, hb.halfDst with
   | some da, some db => if da = db ∧ da ≠ .zero then [0x0C] else []
   | _, _ => []) ++
  (if ha.halfDst = some .last ∨ hb.halfDst = some .last then [0x0C] else []) ++
  (match ha.halfDst with
   | some da => if da ≠ .zero ∧ hb.readsReg da then [0x0D] else []
   | none => [])

/-- Whether an instruction is one of the halves of Table 2.7. -/
def Instr.isHalf : Instr → Bool
  | .nopHalf | .iaddHalf .. | .isubHalf .. | .imulHalf .. | .iminHalf .. | .imaxHalf .. | .andHalf .. | .orHalf ..
  | .xorHalf .. | .shlHalf .. | .shrHalf .. | .sarHalf .. | .movHalf .. | .faddHalf .. | .fsubHalf .. | .fmulHalf ..
  | .fminHalf .. | .fmaxHalf .. | .hadd2Half .. | .hmul2Half .. => true
  | _ => false

end Sys2Proof
end

