-- ==== Sys2Proof/Decode.lean ====
section
/-!
DEFINITION. Decoding and encoding of 64-bit instruction words (spec 02): the control field, the four full formats and
pairs of halves. Decoding is total: every word is an instruction, a pair, or illegal for the lowest reason of Table 2.8.
-/
namespace Sys2Proof

/-- Decode-time reasons of Table 2.8, by name. -/
inductive Illegal where
  | reservedPrimary | halfNotCapable | badFunction | unusedNonzero | badFlag | badOperand | badDestination
  | badRegister | badPair | badLdk | bankReads | pairDestinations | pairForwards
deriving DecidableEq, Repr

/-- The code of a decode-time reason (Table 2.8). -/
def Illegal.code : Illegal → Nat
  | .reservedPrimary => 0x01
  | .halfNotCapable => 0x02
  | .badFunction => 0x03
  | .unusedNonzero => 0x04
  | .badFlag => 0x05
  | .badOperand => 0x06
  | .badDestination => 0x07
  | .badRegister => 0x08
  | .badPair => 0x09
  | .badLdk => 0x0A
  | .bankReads => 0x0B
  | .pairDestinations => 0x0C
  | .pairForwards => 0x0D

/-- The named reason of a code from 0x01 to 0x0D. -/
def Illegal.ofCode : Nat → Illegal
  | 0x01 => .reservedPrimary
  | 0x02 => .halfNotCapable
  | 0x03 => .badFunction
  | 0x04 => .unusedNonzero
  | 0x05 => .badFlag
  | 0x06 => .badOperand
  | 0x07 => .badDestination
  | 0x08 => .badRegister
  | 0x09 => .badPair
  | 0x0A => .badLdk
  | 0x0B => .bankReads
  | 0x0C => .pairDestinations
  | _ => .pairForwards

/-- A legal word: a full instruction under its predicate, or two halves (Table 2.1). -/
inductive Decoded where
  | full (stall : BitVec 3) (wait : BitVec 12) (k : BitVec 3) (kn : Bool) (i : Instr)
  | pair (stall : BitVec 3) (wait : BitVec 12) (ha hb : Instr)
deriving DecidableEq, Repr

/-- How one byte of a payload is read (R25, R27, R30): unused, a register code, an immediate below a limit, an
immediate whose bits outside a mask are reserved, a flag field, a cell weight, or a byte of a longer immediate. -/
inductive FieldKind where
  | un | reg | lim (n : Nat) | mask (m : BitVec 8) | flag | weight | any
deriving DecidableEq, Repr

/-- The reasons a byte breaks when it is read as a kind. -/
def FieldKind.reasons (k : FieldKind) (x : BitVec 8) : List Nat :=
  match k with
  | .un => if x = 0 then [] else [0x04]
  | .reg => if x.toNat < 0xFC then [] else [0x06]
  | .lim n => if x.toNat < n then [] else [0x06]
  | .mask m => if x &&& ~~~m = 0 then [] else [0x06]
  | .flag =>
    (if 12 ≤ x.toNat % 16 ∧ x.toNat % 16 < 15 then [0x05] else []) ++ (if x.toNat < 16 then [] else [0x06])
  | .weight => if weightOk x then [] else [0x06]
  | .any => []

/-- The number of values fn may take and the kinds of the four payload bytes [39:32], [31:24], [23:16] and [15:8]. -/
structure OpRow where
  nfn : Nat
  d : FieldKind
  a : FieldKind
  b : FieldKind
  c : FieldKind
deriving DecidableEq, Repr

/-- The rows of Table 2.9, with the fields each description gives. A row may depend on fn. -/
def opRow (op fn : Nat) : Option OpRow :=
  match op with
  | 0x00 | 0x03 | 0x06 | 0x0B | 0x0E | 0x0F | 0x15 | 0x16 | 0x18 => some ⟨1, .un, .un, .un, .un⟩
  | 0x01 | 0x02 => some ⟨1, .any, .any, .any, .un⟩
  | 0x04 | 0x05 => some ⟨1, .un, .reg, .un, .un⟩
  | 0x07 | 0x08 => some ⟨1, .un, .lim 16, .un, .un⟩
  | 0x09 => some ⟨2, .reg, .lim 16, .un, .un⟩
  | 0x0A => some ⟨2, .un, .reg, .lim 16, .un⟩
  | 0x0C | 0x0D => some ⟨1, .un, .un, .any, .any⟩
  | 0x10 => some ⟨1, .reg, .un, .mask 0x0F, .any⟩
  | 0x11 => some ⟨1, .un, .reg, .mask 0x0F, .any⟩
  | 0x12 => some ⟨4, .un, .un, .mask 0x1F, .lim 7⟩
  | 0x13 => some ⟨1, .un, .lim 5, .lim 64, .un⟩
  | 0x14 => some ⟨2, .reg, .reg, .reg, .un⟩
  | 0x17 => some ⟨1, .un, .any, .un, .un⟩
  | 0x19 => some ⟨1, .un, .reg, .any, .any⟩
  | 0x20 | 0x21 | 0x22 | 0x23 | 0x26 | 0x27 | 0x28 => some ⟨2, .reg, .reg, .reg, .un⟩
  | 0x24 | 0x25 | 0x33 | 0x41 | 0x47 => some ⟨2, .reg, .reg, .reg, .reg⟩
  | 0x29 | 0x2A => some ⟨2, .reg, .reg, .un, .un⟩
  | 0x2B | 0x2C | 0x2D | 0x2E | 0x3F | 0x40 | 0x43 | 0x44 | 0x45 => some ⟨1, .reg, .reg, .reg, .un⟩
  | 0x2F | 0x30 | 0x31 | 0x32 =>
    if fn = 1 then some ⟨2, .reg, .reg, .lim 32, .un⟩ else some ⟨2, .reg, .reg, .reg, .un⟩
  | 0x34 | 0x49 => some ⟨2, .reg, .reg, .reg, .un⟩
  | 0x35 | 0x46 => some ⟨1, .reg, .reg, .reg, .reg⟩
  | 0x36 | 0x37 | 0x38 | 0x3B => some ⟨1, .reg, .reg, .un, .un⟩
  | 0x39 => some ⟨10, .mask 0x07, .reg, .reg, .mask 0x0F⟩
  | 0x3A => some ⟨1, .reg, .reg, .reg, .mask 0x0F⟩
  | 0x3C => some ⟨2, .reg, .un, .any, .any⟩
  | 0x3D => some ⟨1, .reg, .reg, .any, .any⟩
  | 0x3E => some ⟨1, .reg, .any, .any, .any⟩
  | 0x42 => some ⟨2, .reg, .reg, .reg, .lim 16⟩
  | 0x48 => some ⟨4, .reg, .reg, .un, .un⟩
  | 0x4A => some ⟨4, .reg, .reg, .reg, .flag⟩
  | 0x50 | 0x51 | 0x52 | 0x54 | 0x55 => some ⟨1, .reg, .reg, .reg, .un⟩
  | 0x53 => some ⟨1, .reg, .reg, .reg, .reg⟩
  | 0x56 => some ⟨8, .mask 0x07, .reg, .reg, .mask 0x0F⟩
  | 0x57 => some ⟨1, .reg, .reg, .un, .un⟩
  | 0x58 => some ⟨4, .reg, .reg, .un, .un⟩
  | 0x59 | 0x5A | 0x5B | 0x5D | 0x5E | 0x5F | 0x60 | 0x61 => some ⟨1, .reg, .reg, .un, .flag⟩
  | 0x5C => some ⟨1, .reg, .reg, .reg, .flag⟩
  | 0x62 | 0x63 | 0x64 | 0x66 | 0x67 => some ⟨2, .reg, .reg, .reg, .un⟩
  | 0x65 | 0x69 | 0x72 => some ⟨2, .reg, .reg, .reg, .reg⟩
  | 0x68 => some ⟨8, .mask 0x77, .reg, .reg, .mask 0x1F⟩
  | 0x6A | 0x70 | 0x71 => some ⟨1, .reg, .reg, .reg, .mask 0x07⟩
  | 0x6B => some ⟨6, .reg, .reg, .un, .mask 0x01⟩
  | 0x6C => some ⟨4, .reg, .reg, .un, .un⟩
  | 0x6D => some ⟨2, .reg, .reg, .un, .un⟩
  | 0x6E | 0x6F => some ⟨1, .reg, .reg, .un, .mask 0x07⟩
  | 0x73 => some ⟨2, .reg, .reg, .reg, .mask 0x07⟩
  | 0x80 => some ⟨4, .reg, .reg, .reg, .lim 3⟩
  | 0x81 => some ⟨3, .reg, .reg, .un, .un⟩
  | 0x82 => some ⟨1, .reg, .reg, .lim 4, .un⟩
  | 0x83 => some ⟨11, .reg, .reg, .un, .un⟩
  | 0x84 => some ⟨6, .reg, .reg, .un, .un⟩
  | 0x85 => if fn = 2 then some ⟨3, .reg, .mask 0x0F, .un, .un⟩ else some ⟨3, .mask 0x07, .mask 0x0F, .un, .un⟩
  | 0x86 => some ⟨4, .mask 0x07, .mask 0x0F, .mask 0x0F, .un⟩
  | 0x87 => if fn = 1 then some ⟨2, .un, .reg, .un, .un⟩ else some ⟨2, .reg, .un, .un, .un⟩
  | 0x88 => some ⟨1, .mask 0x07, .un, .un, .un⟩
  | 0x89 => some ⟨1, .reg, .reg, .un, .un⟩
  | 0x90 | 0x91 | 0x93 => some ⟨7, .reg, .reg, .any, .any⟩
  | 0x92 => some ⟨7, .reg, .reg, .any, .flag⟩
  | 0x94 => some ⟨1, .reg, .reg, .any, .any⟩
  | 0x95 => if fn = 9 then some ⟨10, .reg, .reg, .reg, .reg⟩ else some ⟨10, .reg, .reg, .reg, .un⟩
  | 0x96 => some ⟨10, .reg, .reg, .reg, .flag⟩
  | 0x97 => some ⟨1, .un, .reg, .reg, .weight⟩
  | 0x98 => if fn = 1 then some ⟨2, .reg, .reg, .un, .un⟩ else some ⟨2, .reg, .reg, .un, .weight⟩
  | 0x99 => some ⟨1, .un, .reg, .un, .un⟩
  | 0x9A => some ⟨3, .reg, .reg, .un, .flag⟩
  | 0x9B => some ⟨3, .un, .reg, .reg, .un⟩
  | 0x9C => some ⟨11, .reg, .reg, .reg, .flag⟩
  | 0x9D => some ⟨1, .un, .reg, .reg, .weight⟩
  | 0xA0 | 0xA2 => some ⟨1, .reg, .reg, .un, .un⟩
  | 0xA1 => if fn = 1 then some ⟨3, .reg, .reg, .un, .un⟩ else some ⟨3, .reg, .reg, .reg, .un⟩
  | 0xA3 => some ⟨1, .reg, .reg, .un, .flag⟩
  | 0xA8 | 0xAA => some ⟨1, .un, .reg, .un, .lim 7⟩
  | 0xA9 => some ⟨1, .reg, .reg, .reg, .lim 7⟩
  | 0xAB => some ⟨1, .un, .un, .un, .un⟩
  | 0xAC => some ⟨1, .reg, .reg, .reg, .reg⟩
  | 0xAD => some ⟨4, .un, .reg, .un, .lim 7⟩
  | 0xAE => some ⟨1, .reg, .lim 2, .un, .flag⟩
  | 0xB0 => some ⟨2, .mask 0x07, .un, .un, .un⟩
  | 0xB1 => some ⟨1, .un, .un, .un, .un⟩
  | 0xB2 | 0xB3 => some ⟨2, .lim 64, .reg, .reg, .mask 0x3F⟩
  | 0xB4 => some ⟨2, .lim 64, .reg, .lim 64, .mask 0x07⟩
  | 0xB5 => some ⟨2, .lim 64, .reg, .lim 2, .mask 0x07⟩
  | 0xB6 => some ⟨1, .lim 64, .un, .un, .un⟩
  | 0xB7 => some ⟨2, .lim 64, .reg, .un, .un⟩
  | 0xB8 =>
    if fn = 0 then some ⟨3, .lim 64, .reg, .un, .mask 0x07⟩
    else if fn = 1 then some ⟨3, .lim 64, .reg, .un, .mask 0x7F⟩
    else some ⟨3, .lim 64, .reg, .reg, .mask 0x7F⟩
  | 0xB9 => some ⟨1, .un, .reg, .reg, .mask 0x07⟩
  | 0xBA => some ⟨1, .lim 64, .reg, .un, .mask 0x07⟩
  | 0xBB => some ⟨2, .lim 64, .un, .un, .un⟩
  | 0xBC => some ⟨1, .lim 8, .reg, .un, .un⟩
  | 0xBD => some ⟨1, .un, .reg, .un, .un⟩
  | 0xC0 | 0xC4 => some ⟨1, .lim 16, .reg, .un, .un⟩
  | 0xC1 => some ⟨2, .lim 16, .reg, .any, .any⟩
  | 0xC2 => if fn = 1 then some ⟨2, .lim 16, .reg, .un, .un⟩ else some ⟨2, .un, .reg, .reg, .un⟩
  | 0xC3 => if fn = 1 then some ⟨2, .lim 16, .un, .un, .un⟩ else some ⟨2, .lim 16, .reg, .un, .un⟩
  | 0xC5 => some ⟨1, .lim 16, .reg, .reg, .un⟩
  | 0xC6 => some ⟨2, .lim 16, .reg, .un, .un⟩
  | 0xC8 => some ⟨1, .un, .reg, .un, .un⟩
  | 0xC9 | 0xCA => some ⟨3, .un, .reg, .reg, .un⟩
  | 0xCB | 0xCC => some ⟨1, .un, .reg, .reg, .un⟩
  | 0xCD => some ⟨1, .reg, .un, .un, .flag⟩
  | _ => none

/-- The register an operand code names (Table 2.2); codes 0xFC to 0xFF are rejected before this is asked. -/
def Reg.ofCode (x : BitVec 8) : Reg :=
  if h : x.toNat < 240 then .v ⟨x.toNat, h⟩
  else if h : x.toNat - 240 < 6 then .o ⟨x.toNat - 240, h⟩
  else match x.toNat with
    | 0xF6 => .last
    | 0xF7 => .zero
    | 0xF8 => .lane
    | 0xF9 => .grp
    | 0xFA => .flk
    | _ => .cxy

/-- The operand code of a register (Table 2.2). -/
def Reg.code : Reg → BitVec 8
  | .v n => BitVec.ofNat 8 n.val
  | .o n => BitVec.ofNat 8 (240 + n.val)
  | .last => 0xF6
  | .zero => 0xF7
  | .lane => 0xF8
  | .grp => 0xF9
  | .flk => 0xFA
  | .cxy => 0xFB

/-- The flag a c field names (R30). -/
def Flag.ofCode (x : BitVec 8) : Flag :=
  if h : x.toNat % 16 < 12 then some ⟨x.toNat % 16, h⟩ else none

/-- The c field that names a flag. -/
def Flag.code : Flag → BitVec 8
  | some f => BitVec.ofNat 8 f.val
  | none => 15

/-- A predicate source from its immediate (R107, R175). -/
def KSel.ofCode (x : BitVec 8) : KSel := ⟨x.extractLsb' 0 3, x.getLsbD 3⟩

/-- The immediate of a predicate source. -/
def KSel.code (k : KSel) : BitVec 8 := (if k.neg then 8 else 0) ||| k.k.setWidth 8

def Scope.ofFn : Nat → Scope
  | 0 => .thr | 1 => .grp | 2 => .flk | 3 => .pad | 4 => .die | 5 => .dev | _ => .sys
def Scope.toNat : Scope → Nat
  | .thr => 0 | .grp => 1 | .flk => 2 | .pad => 3 | .die => 4 | .dev => 5 | .sys => 6
def EngClass.ofFn : Nat → EngClass
  | 0 => .copy | 1 => .gather | 2 => .tile | 3 => .aa | _ => .coll
def EngClass.toNat : EngClass → Nat
  | .copy => 0 | .gather => 1 | .tile => 2 | .aa => 3 | .coll => 4
def FenceKind.ofFn : Nat → FenceKind
  | 0 => .acq | 1 => .rel | 2 => .acqrel | _ => .sc
def FenceKind.toNat : FenceKind → Nat
  | .acq => 0 | .rel => 1 | .acqrel => 2 | .sc => 3
def ICmp.ofFn : Nat → ICmp
  | 0 => .eq | 1 => .ne | 2 => .lt | 3 => .le | 4 => .gt | 5 => .ge | 6 => .ltu | 7 => .leu | 8 => .gtu | _ => .geu
def ICmp.toNat : ICmp → Nat
  | .eq => 0 | .ne => 1 | .lt => 2 | .le => 3 | .gt => 4 | .ge => 5 | .ltu => 6 | .leu => 7 | .gtu => 8 | .geu => 9
def FCmp.ofFn : Nat → FCmp
  | 0 => .eq | 1 => .ne | 2 => .lt | 3 => .le | 4 => .gt | 5 => .ge | 6 => .num | _ => .nan
def FCmp.toNat : FCmp → Nat
  | .eq => 0 | .ne => 1 | .lt => 2 | .le => 3 | .gt => 4 | .ge => 5 | .num => 6 | .nan => 7
def DivOp.ofFn : Nat → DivOp
  | 0 => .divs | 1 => .divu | 2 => .rems | _ => .remu
def DivOp.toNat : DivOp → Nat
  | .divs => 0 | .divu => 1 | .rems => 2 | .remu => 3
def RndDir.ofFn : Nat → RndDir
  | 0 => .rn | 1 => .floor | 2 => .ceil | _ => .trunc
def RndDir.toNat : RndDir → Nat
  | .rn => 0 | .floor => 1 | .ceil => 2 | .trunc => 3
def WidenOp.ofFn : Nat → WidenOp
  | 0 => .sb | 1 => .zb | 2 => .sh | _ => .zh
def WidenOp.toNat : WidenOp → Nat
  | .sb => 0 | .zb => 1 | .sh => 2 | .zh => 3
def CvtfOp.ofFn : Nat → CvtfOp
  | 0 => .f16F32 | 1 => .bf16F32 | 2 => .f32F16 | 3 => .f32Bf16 | 4 => .bf16F16 | _ => .f16Bf16
def CvtfOp.toNat : CvtfOp → Nat
  | .f16F32 => 0 | .bf16F32 => 1 | .f32F16 => 2 | .f32Bf16 => 3 | .bf16F16 => 4 | .f16Bf16 => 5
def CvtiOp.ofFn : Nat → CvtiOp
  | 0 => .i32 | 1 => .u32 | 2 => .i16 | _ => .i8
def CvtiOp.toNat : CvtiOp → Nat
  | .i32 => 0 | .u32 => 1 | .i16 => 2 | .i8 => 3
def ShflMode.ofFn : Nat → ShflMode
  | 0 => .idx | 1 => .xor | 2 => .up | _ => .dn
def ShflMode.toNat : ShflMode → Nat
  | .idx => 0 | .xor => 1 | .up => 2 | .dn => 3
def SegWidth.ofFn : Nat → SegWidth
  | 0 => .w8 | 1 => .w4 | _ => .w2
def SegWidth.toNat : SegWidth → Nat
  | .w8 => 0 | .w4 => 1 | .w2 => 2
def QswapMode.ofFn : Nat → QswapMode
  | 0 => .x | 1 => .y | _ => .d
def QswapMode.toNat : QswapMode → Nat
  | .x => 0 | .y => 1 | .d => 2
def GredOp.ofFn : Nat → GredOp
  | 0 => .addF32 | 1 => .minF32 | 2 => .maxF32 | 3 => .addF16 | 4 => .minF16 | 5 => .maxF16
  | 6 => .addI32 | 7 => .minI32 | 8 => .maxI32 | 9 => .minU32 | _ => .maxU32
def GredOp.toNat : GredOp → Nat
  | .addF32 => 0 | .minF32 => 1 | .maxF32 => 2 | .addF16 => 3 | .minF16 => 4 | .maxF16 => 5
  | .addI32 => 6 | .minI32 => 7 | .maxI32 => 8 | .minU32 => 9 | .maxU32 => 10
def GscanOp.ofFn : Nat → GscanOp
  | 0 => .incAddI32 | 1 => .excAddI32 | 2 => .incAddF32 | 3 => .excAddF32 | 4 => .incMaxI32 | _ => .excMaxI32
def GscanOp.toNat : GscanOp → Nat
  | .incAddI32 => 0 | .excAddI32 => 1 | .incAddF32 => 2 | .excAddF32 => 3 | .incMaxI32 => 4 | .excMaxI32 => 5
def KopOp.ofFn : Nat → KopOp
  | 0 => .and | 1 => .or | 2 => .xor | _ => .andn
def KopOp.toNat : KopOp → Nat
  | .and => 0 | .or => 1 | .xor => 2 | .andn => 3
def Width.ofFn : Nat → Width
  | 0 => .b | 1 => .bs | 2 => .h | 3 => .hs | 4 => .word | 5 => .w2 | _ => .w4
def Width.toNat : Width → Nat
  | .b => 0 | .bs => 1 | .h => 2 | .hs => 3 | .word => 4 | .w2 => 5 | .w4 => 6
def GWidth.ofFn : Nat → GWidth
  | 0 => .word | 1 => .w2 | _ => .w4
def GWidth.toNat : GWidth → Nat
  | .word => 0 | .w2 => 1 | .w4 => 2
def AtomOp.ofFn : Nat → AtomOp
  | 0 => .add | 1 => .min | 2 => .max | 3 => .umin | 4 => .umax | 5 => .and | 6 => .or | 7 => .xor | 8 => .exch
  | 9 => .cas | _ => .amax
def AtomOp.toNat : AtomOp → Nat
  | .add => 0 | .min => 1 | .max => 2 | .umin => 3 | .umax => 4 | .and => 5 | .or => 6 | .xor => 7 | .exch => 8
  | .cas => 9 | .amax => 10
def CcollOp.ofFn : Nat → CcollOp
  | 0 => .allreduce | 1 => .redscatter | 2 => .allgather | _ => .bcast
def CcollOp.toNat : CcollOp → Nat
  | .allreduce => 0 | .redscatter => 1 | .allgather => 2 | .bcast => 3
def AainfOp.ofFn : Nat → AainfOp
  | 0 => .clauses | 1 => .sums | _ => .argmax
def AainfOp.toNat : AainfOp → Nat
  | .clauses => 0 | .sums => 1 | .argmax => 2
def AatrnOp.ofFn : Nat → AatrnOp
  | 0 => .auto | 1 => .firm | _ => .suppress
def AatrnOp.toNat : AatrnOp → Nat
  | .auto => 0 | .firm => 1 | .suppress => 2

/-- The instruction of a primary opcode, function code and payload bytes whose fields have been checked. -/
def buildInstr (op fn : Nat) (d a b c : BitVec 8) : Instr :=
  let rd := Reg.ofCode d
  let ra := Reg.ofCode a
  let rb := Reg.ofCode b
  let rc := Reg.ofCode c
  let f := Flag.ofCode c
  let m1 := decide (fn = 1)
  let imm16 : BitVec 16 := b ++ c
  let k3 (x : BitVec 8) : BitVec 3 := x.extractLsb' 0 3
  let n4 (x : BitVec 8) : BitVec 4 := x.extractLsb' 0 4
  let t6 (x : BitVec 8) : BitVec 6 := x.extractLsb' 0 6
  let sh : ShAmt := if fn = 1 then .imm (b.extractLsb' 0 5) else .reg rb
  match op with
  | 0x00 => .nop
  | 0x01 => .bra (d ++ a ++ b)
  | 0x02 => .call (d ++ a ++ b)
  | 0x03 => .ret
  | 0x04 => .jmpi ra
  | 0x05 => .calli ra
  | 0x06 => .exit
  | 0x07 => .barf (n4 a)
  | 0x08 => .barp (n4 a)
  | 0x09 => .arrive rd (n4 a) m1
  | 0x0A => .bwait ra (n4 b) m1
  | 0x0B => .yield
  | 0x0C => .safept imm16
  | 0x0D => .trap imm16
  | 0x0E => .tret
  | 0x0F => .tren
  | 0x10 => .mfs rd (imm16.extractLsb' 0 12)
  | 0x11 => .mts (imm16.extractLsb' 0 12) ra
  | 0x12 => .fence (FenceKind.ofFn fn) (Scope.ofFn c.toNat) (b.extractLsb' 0 5)
  | 0x13 => .waitc (EngClass.ofFn a.toNat) (t6 b)
  | 0x14 => .waita m1 rd ra rb
  | 0x15 => .qenter
  | 0x16 => .qleave
  | 0x17 => .brk a
  | 0x18 => .isync
  | 0x19 => .tmark ra imm16
  | 0x20 => .iadd rd ra rb m1
  | 0x21 => .isub rd ra rb m1
  | 0x22 => .imul rd ra rb m1
  | 0x23 => .imulh rd ra rb m1
  | 0x24 => .imad rd ra rb rc m1
  | 0x25 => .iadd3 rd ra rb rc m1
  | 0x26 => .iadds rd ra rb m1
  | 0x27 => .imin rd ra rb m1
  | 0x28 => .imax rd ra rb m1
  | 0x29 => .iabs rd ra m1
  | 0x2A => .ineg rd ra m1
  | 0x2B => .and rd ra rb
  | 0x2C => .or rd ra rb
  | 0x2D => .xor rd ra rb
  | 0x2E => .andn rd ra rb
  | 0x2F => .shl rd ra sh
  | 0x30 => .shr rd ra sh
  | 0x31 => .sar rd ra sh
  | 0x32 => .rotl rd ra sh
  | 0x33 => .funnel rd ra rb rc m1
  | 0x34 => .bfx rd ra rb m1
  | 0x35 => .bfi rd ra rb rc
  | 0x36 => .popc rd ra
  | 0x37 => .clz rd ra
  | 0x38 => .brev rd ra
  | 0x39 => .isetp (ICmp.ofFn fn) (k3 d) ra rb (KSel.ofCode c)
  | 0x3A => .sel rd ra rb (KSel.ofCode c)
  | 0x3B => .mov rd ra
  | 0x3C => .movi rd imm16 m1
  | 0x3D => .movhi rd ra imm16
  | 0x3E => .ldk rd (a ++ b) c
  | 0x3F => .add64 rd ra rb
  | 0x40 => .sub64 rd ra rb
  | 0x41 => .mad64w rd ra rb rc m1
  | 0x42 => .lea rd ra rb (n4 c) m1
  | 0x43 => .iadd2 rd ra rb
  | 0x44 => .iadd2s rd ra rb
  | 0x45 => .imax2 rd ra rb
  | 0x46 => .prmt rd ra rb rc
  | 0x47 => .idot4 rd ra rb rc m1
  | 0x48 => .widen rd ra (WidenOp.ofFn fn)
  | 0x49 => .wadd rd ra rb m1
  | 0x4A => .idiv (DivOp.ofFn fn) rd ra rb f
  | 0x50 => .fadd rd ra rb
  | 0x51 => .fsub rd ra rb
  | 0x52 => .fmul rd ra rb
  | 0x53 => .ffma rd ra rb rc
  | 0x54 => .fmin rd ra rb
  | 0x55 => .fmax rd ra rb
  | 0x56 => .fsetp (FCmp.ofFn fn) (k3 d) ra rb (KSel.ofCode c)
  | 0x57 => .fclass rd ra
  | 0x58 => .frnd (RndDir.ofFn fn) rd ra
  | 0x59 => .frcp rd ra f
  | 0x5A => .frsq rd ra f
  | 0x5B => .fsqrt rd ra f
  | 0x5C => .fdiv rd ra rb f
  | 0x5D => .fexp2 rd ra f
  | 0x5E => .flog2 rd ra f
  | 0x5F => .fsin rd ra f
  | 0x60 => .fcos rd ra f
  | 0x61 => .ftanh rd ra f
  | 0x62 => .hadd2 rd ra rb m1
  | 0x63 => .hsub2 rd ra rb m1
  | 0x64 => .hmul2 rd ra rb m1
  | 0x65 => .hfma2 rd ra rb rc m1
  | 0x66 => .hmin2 rd ra rb m1
  | 0x67 => .hmax2 rd ra rb m1
  | 0x68 => .hsetp2 (FCmp.ofFn fn) (k3 d) (d.extractLsb' 4 3) ra rb (KSel.ofCode c) (c.getLsbD 4)
  | 0x69 => .hdot2 rd ra rb rc m1
  | 0x6A => .fdot4q rd ra rb (k3 c)
  | 0x6B => .cvtf (CvtfOp.ofFn fn) rd ra (c.getLsbD 0)
  | 0x6C => .cvti (CvtiOp.ofFn fn) rd ra
  | 0x6D => .cvtfi m1 rd ra
  | 0x6E => .pack rd ra (k3 c)
  | 0x6F => .unpack rd ra (k3 c)
  | 0x70 => .quant rd ra rb (k3 c)
  | 0x71 => .dequant rd ra rb (k3 c)
  | 0x72 => .cbdec rd ra rb rc m1
  | 0x73 => .lutdot rd ra rb (k3 c) m1
  | 0x80 => .shfl (ShflMode.ofFn fn) rd ra rb (SegWidth.ofFn c.toNat)
  | 0x81 => .qswap (QswapMode.ofFn fn) rd ra
  | 0x82 => .qbcast rd ra (b.extractLsb' 0 2)
  | 0x83 => .gred (GredOp.ofFn fn) rd ra
  | 0x84 => .gscan (GscanOp.ofFn fn) rd ra
  | 0x85 => if fn = 2 then .voteBallot rd (KSel.ofCode a) else .vote m1 (k3 d) (KSel.ofCode a)
  | 0x86 => .kop (KopOp.ofFn fn) (k3 d) (KSel.ofCode a) (KSel.ofCode b)
  | 0x87 => if fn = 1 then .kmovSet ra else .kmovGet rd
  | 0x88 => .elect (k3 d)
  | 0x89 => .matchLanes rd ra
  | 0x90 => .ld (Width.ofFn fn) rd ra imm16
  | 0x91 => .st (Width.ofFn fn) rd ra imm16
  | 0x92 => .ldp (Width.ofFn fn) rd ra b f
  | 0x93 => .stp (Width.ofFn fn) rd ra imm16
  | 0x94 => .ldt rd ra imm16
  | 0x95 => .atom (AtomOp.ofFn fn) rd ra rb rc
  | 0x96 => .atomp (AtomOp.ofFn fn) rd ra rb f
  | 0x97 => .celladd ra rb c
  | 0x98 => if fn = 1 then .cellrdRaw rd ra else .cellrdF32 rd ra c
  | 0x99 => .cellclr ra
  | 0x9A => .gld (GWidth.ofFn fn) rd ra f
  | 0x9B => .gst (GWidth.ofFn fn) ra rb
  | 0x9C => .gatom (AtomOp.ofFn fn) rd ra rb f
  | 0x9D => .gcelladd ra rb c
  | 0xA0 => .tagget rd ra
  | 0xA1 => .tagset (if fn = 0 then .value rb else if fn = 1 then .null else .copy rb) rd ra
  | 0xA2 => .tagbirth rd ra
  | 0xA3 => .origin rd ra f
  | 0xA8 => .cpy ra (Scope.ofFn c.toNat)
  | 0xA9 => .cpyi rd ra rb (Scope.ofFn c.toNat)
  | 0xAA => .cpyx ra (Scope.ofFn c.toNat)
  | 0xAB => .seal
  | 0xAC => .cbcast rd ra rb rc
  | 0xAD => .ccoll (CcollOp.ofFn fn) ra (Scope.ofFn c.toNat)
  | 0xAE => .cpyq rd (a.extractLsb' 0 1) f
  | 0xB0 => .trsv (k3 d) m1
  | 0xB1 => .trel
  | 0xB2 => .tmma (t6 d) ra rb (k3 c) (c.extractLsb' 3 3) m1
  | 0xB3 => .tmmas (t6 d) ra rb (k3 c) (c.extractLsb' 3 3) m1
  | 0xB4 => .tmmal (t6 d) ra (t6 b) (k3 c) m1
  | 0xB5 => .tlutb (t6 d) ra (b.extractLsb' 0 1) (k3 c) m1
  | 0xB6 => .tzero (t6 d)
  | 0xB7 => .taccld (t6 d) ra m1
  | 0xB8 =>
    .taccst (if fn = 0 then .plain else if fn = 1 then .scale (c.extractLsb' 3 3) (c.getLsbD 6)
      else .scalemax (c.extractLsb' 3 3) (c.getLsbD 6) rb) (t6 d) ra (k3 c)
  | 0xB9 => .ttrn ra rb (k3 c)
  | 0xBA => .taddw (t6 d) ra (k3 c)
  | 0xBB => .tscan m1 (t6 d)
  | 0xBC => .tscld (k3 d) ra
  | 0xBD => .tstat ra
  | 0xC0 => .pencfg (n4 d) ra
  | 0xC1 => .suspend m1 (n4 d) ra imm16
  | 0xC2 => if fn = 1 then .penwakeWord (n4 d) ra else .penwakeMask ra rb
  | 0xC3 => .penflush (n4 d) (if fn = 1 then none else some ra)
  | 0xC4 => .penstat (n4 d) ra
  | 0xC5 => .pentile (n4 d) ra rb
  | 0xC6 => .penhold m1 (n4 d) ra
  | 0xC8 => .aacfg ra
  | 0xC9 => .aainf (AainfOp.ofFn fn) ra rb
  | 0xCA => .aatrn (AatrnOp.ofFn fn) ra rb
  | 0xCB => .aald ra rb
  | 0xCC => .aast ra rb
  | _ => .aaq rd f

/-- The half instruction of an opcode of Table 2.7. -/
def buildHalf (op : Nat) (d a : Reg) : Option Instr :=
  match op with
  | 0x00 => some .nopHalf
  | 0x20 => some (.iaddHalf d a)
  | 0x21 => some (.isubHalf d a)
  | 0x22 => some (.imulHalf d a)
  | 0x27 => some (.iminHalf d a)
  | 0x28 => some (.imaxHalf d a)
  | 0x2B => some (.andHalf d a)
  | 0x2C => some (.orHalf d a)
  | 0x2D => some (.xorHalf d a)
  | 0x2F => some (.shlHalf d a)
  | 0x30 => some (.shrHalf d a)
  | 0x31 => some (.sarHalf d a)
  | 0x3B => some (.movHalf d a)
  | 0x50 => some (.faddHalf d a)
  | 0x51 => some (.fsubHalf d a)
  | 0x52 => some (.fmulHalf d a)
  | 0x54 => some (.fminHalf d a)
  | 0x55 => some (.fmaxHalf d a)
  | 0x62 => some (.hadd2Half d a)
  | 0x64 => some (.hmul2Half d a)
  | _ => none

/-- The reasons a half breaks on its own, and the half. DEDUCED: an op byte that is no half gives 0x02 alone, a reserved
primary too; 0x01 is read as the reason of a full instruction's primary (assumption log 7). -/
def parseHalf (alloc : Nat) (h : BitVec 24) : List Nat × Instr :=
  let op := (h.extractLsb' 16 8).toNat
  let d : BitVec 8 := h.extractLsb' 8 8
  let a : BitVec 8 := h.extractLsb' 0 8
  match buildHalf op (Reg.ofCode d) (Reg.ofCode a) with
  | none => ([0x02], .nopHalf)
  | some i =>
    let k : FieldKind := if op = 0 then .un else .reg
    (k.reasons d ++ k.reasons a ++ i.reasons alloc, i)

/-- The least of a list of reasons. -/
def lowestReason : List Nat → Option Nat
  | [] => none
  | r :: rs => some (rs.foldl min r)

/-- The reasons a payload read as a full instruction breaks, and the instruction. -/
def parseFull (alloc : Nat) (p : BitVec 48) : List Nat × Instr :=
  let op := (p.extractLsb' 40 8).toNat
  let d : BitVec 8 := p.extractLsb' 32 8
  let a : BitVec 8 := p.extractLsb' 24 8
  let b : BitVec 8 := p.extractLsb' 16 8
  let c : BitVec 8 := p.extractLsb' 8 8
  let fn := (p.extractLsb' 4 4).toNat
  match opRow op fn with
  | none => ([0x01], .nop)
  | some r =>
    let i := buildInstr op fn d a b c
    ((if fn < r.nfn then [] else [0x03]) ++ r.d.reasons d ++ r.a.reasons a ++ r.b.reasons b ++ r.c.reasons c ++
      i.reasons alloc, i)

/-- Decode a word for an allocation of `alloc` registers (R36, R37). -/
def decode (alloc : Nat) (w : W64) : Except Illegal Decoded :=
  let stall : BitVec 3 := w.extractLsb' 60 3
  let wait : BitVec 12 := w.extractLsb' 48 12
  if w.getLsbD 63 then
    let (ra, ha) := parseHalf alloc (w.extractLsb' 24 24)
    let (rb, hb) := parseHalf alloc (w.extractLsb' 0 24)
    match lowestReason (ra ++ rb ++ pairReasons ha hb) with
    | some r => .error (Illegal.ofCode r)
    | none => .ok (.pair stall wait ha hb)
  else
    let (r, i) := parseFull alloc (w.extractLsb' 0 48)
    match lowestReason r with
    | some r => .error (Illegal.ofCode r)
    | none => .ok (.full stall wait (w.extractLsb' 1 3) (w.getLsbD 0) i)

/-- The little-endian value of bytes, the first at the lowest address (R5). -/
def bytesValue : List Byte → Nat
  | [] => 0
  | x :: xs => x.toNat + 256 * bytesValue xs

/-- The n little-endian bytes of a value. -/
def valueBytes : Nat → Nat → List Byte
  | 0, _ => []
  | n + 1, v => BitVec.ofNat 8 v :: valueBytes n (v / 256)

/-- The instruction word held in 8 bytes of the code (R20). -/
def wordOfBytes (bs : List Byte) : W64 := BitVec.ofNat 64 (bytesValue bs)

/-- Decode 8 bytes of code (R20). -/
def decodeBytes (alloc : Nat) (bs : List Byte) : Except Illegal Decoded := decode alloc (wordOfBytes bs)

/-- The payload fields of a full instruction: primary, fn and the four bytes. -/
structure Fields where
  op : BitVec 8
  fn : Nat
  d : BitVec 8
  a : BitVec 8
  b : BitVec 8
  c : BitVec 8
deriving DecidableEq, Repr

/-- The fields of each word instruction, from Tables 2.3, 2.9, 2.10 and the descriptions; none for halves and events. -/
def Instr.fields : Instr → Option Fields
  | .nop => some ⟨0x00, 0, 0, 0, 0, 0⟩
  | .bra o => some ⟨0x01, 0, o.extractLsb' 16 8, o.extractLsb' 8 8, o.extractLsb' 0 8, 0⟩
  | .call o => some ⟨0x02, 0, o.extractLsb' 16 8, o.extractLsb' 8 8, o.extractLsb' 0 8, 0⟩
  | .ret => some ⟨0x03, 0, 0, 0, 0, 0⟩
  | .jmpi a => some ⟨0x04, 0, 0, a.code, 0, 0⟩
  | .calli a => some ⟨0x05, 0, 0, a.code, 0, 0⟩
  | .exit => some ⟨0x06, 0, 0, 0, 0, 0⟩
  | .barf n => some ⟨0x07, 0, 0, n.setWidth 8, 0, 0⟩
  | .barp n => some ⟨0x08, 0, 0, n.setWidth 8, 0, 0⟩
  | .arrive d n p => some ⟨0x09, p.toNat, d.code, n.setWidth 8, 0, 0⟩
  | .bwait a n p => some ⟨0x0A, p.toNat, 0, a.code, n.setWidth 8, 0⟩
  | .yield => some ⟨0x0B, 0, 0, 0, 0, 0⟩
  | .safept o => some ⟨0x0C, 0, 0, 0, o.extractLsb' 8 8, o.extractLsb' 0 8⟩
  | .trap o => some ⟨0x0D, 0, 0, 0, o.extractLsb' 8 8, o.extractLsb' 0 8⟩
  | .tret => some ⟨0x0E, 0, 0, 0, 0, 0⟩
  | .tren => some ⟨0x0F, 0, 0, 0, 0, 0⟩
  | .mfs d n => some ⟨0x10, 0, d.code, 0, (n.extractLsb' 8 4).setWidth 8, n.extractLsb' 0 8⟩
  | .mts n a => some ⟨0x11, 0, 0, a.code, (n.extractLsb' 8 4).setWidth 8, n.extractLsb' 0 8⟩
  | .fence k s m => some ⟨0x12, k.toNat, 0, 0, m.setWidth 8, BitVec.ofNat 8 s.toNat⟩
  | .waitc c n => some ⟨0x13, 0, 0, BitVec.ofNat 8 c.toNat, n.setWidth 8, 0⟩
  | .waita ne d a b => some ⟨0x14, ne.toNat, d.code, a.code, b.code, 0⟩
  | .qenter => some ⟨0x15, 0, 0, 0, 0, 0⟩
  | .qleave => some ⟨0x16, 0, 0, 0, 0, 0⟩
  | .brk n => some ⟨0x17, 0, 0, n, 0, 0⟩
  | .isync => some ⟨0x18, 0, 0, 0, 0, 0⟩
  | .tmark a o => some ⟨0x19, 0, 0, a.code, o.extractLsb' 8 8, o.extractLsb' 0 8⟩
  | .iadd d a b o => some ⟨0x20, o.toNat, d.code, a.code, b.code, 0⟩
  | .isub d a b o => some ⟨0x21, o.toNat, d.code, a.code, b.code, 0⟩
  | .imul d a b o => some ⟨0x22, o.toNat, d.code, a.code, b.code, 0⟩
  | .imulh d a b u => some ⟨0x23, u.toNat, d.code, a.code, b.code, 0⟩
  | .imad d a b c o => some ⟨0x24, o.toNat, d.code, a.code, b.code, c.code⟩
  | .iadd3 d a b c o => some ⟨0x25, o.toNat, d.code, a.code, b.code, c.code⟩
  | .iadds d a b u => some ⟨0x26, u.toNat, d.code, a.code, b.code, 0⟩
  | .imin d a b u => some ⟨0x27, u.toNat, d.code, a.code, b.code, 0⟩
  | .imax d a b u => some ⟨0x28, u.toNat, d.code, a.code, b.code, 0⟩
  | .iabs d a o => some ⟨0x29, o.toNat, d.code, a.code, 0, 0⟩
  | .ineg d a o => some ⟨0x2A, o.toNat, d.code, a.code, 0, 0⟩
  | .and d a b => some ⟨0x2B, 0, d.code, a.code, b.code, 0⟩
  | .or d a b => some ⟨0x2C, 0, d.code, a.code, b.code, 0⟩
  | .xor d a b => some ⟨0x2D, 0, d.code, a.code, b.code, 0⟩
  | .andn d a b => some ⟨0x2E, 0, d.code, a.code, b.code, 0⟩
  | .shl d a (.reg r) => some ⟨0x2F, 0, d.code, a.code, r.code, 0⟩
  | .shl d a (.imm n) => some ⟨0x2F, 1, d.code, a.code, n.setWidth 8, 0⟩
  | .shr d a (.reg r) => some ⟨0x30, 0, d.code, a.code, r.code, 0⟩
  | .shr d a (.imm n) => some ⟨0x30, 1, d.code, a.code, n.setWidth 8, 0⟩
  | .sar d a (.reg r) => some ⟨0x31, 0, d.code, a.code, r.code, 0⟩
  | .sar d a (.imm n) => some ⟨0x31, 1, d.code, a.code, n.setWidth 8, 0⟩
  | .rotl d a (.reg r) => some ⟨0x32, 0, d.code, a.code, r.code, 0⟩
  | .rotl d a (.imm n) => some ⟨0x32, 1, d.code, a.code, n.setWidth 8, 0⟩
  | .funnel d a b c r => some ⟨0x33, r.toNat, d.code, a.code, b.code, c.code⟩
  | .bfx d a b u => some ⟨0x34, u.toNat, d.code, a.code, b.code, 0⟩
  | .bfi d a b c => some ⟨0x35, 0, d.code, a.code, b.code, c.code⟩
  | .popc d a => some ⟨0x36, 0, d.code, a.code, 0, 0⟩
  | .clz d a => some ⟨0x37, 0, d.code, a.code, 0, 0⟩
  | .brev d a => some ⟨0x38, 0, d.code, a.code, 0, 0⟩
  | .isetp cc kd a b kc => some ⟨0x39, cc.toNat, kd.setWidth 8, a.code, b.code, kc.code⟩
  | .sel d a b kc => some ⟨0x3A, 0, d.code, a.code, b.code, kc.code⟩
  | .mov d a => some ⟨0x3B, 0, d.code, a.code, 0, 0⟩
  | .movi d o s => some ⟨0x3C, s.toNat, d.code, 0, o.extractLsb' 8 8, o.extractLsb' 0 8⟩
  | .movhi d a o => some ⟨0x3D, 0, d.code, a.code, o.extractLsb' 8 8, o.extractLsb' 0 8⟩
  | .ldk d o n => some ⟨0x3E, 0, d.code, o.extractLsb' 8 8, o.extractLsb' 0 8, n⟩
  | .add64 d a b => some ⟨0x3F, 0, d.code, a.code, b.code, 0⟩
  | .sub64 d a b => some ⟨0x40, 0, d.code, a.code, b.code, 0⟩
  | .mad64w d a b c s => some ⟨0x41, s.toNat, d.code, a.code, b.code, c.code⟩
  | .lea d a b n s => some ⟨0x42, s.toNat, d.code, a.code, b.code, n.setWidth 8⟩
  | .iadd2 d a b => some ⟨0x43, 0, d.code, a.code, b.code, 0⟩
  | .iadd2s d a b => some ⟨0x44, 0, d.code, a.code, b.code, 0⟩
  | .imax2 d a b => some ⟨0x45, 0, d.code, a.code, b.code, 0⟩
  | .prmt d a b c => some ⟨0x46, 0, d.code, a.code, b.code, c.code⟩
  | .idot4 d a b c u => some ⟨0x47, u.toNat, d.code, a.code, b.code, c.code⟩
  | .widen d a op => some ⟨0x48, op.toNat, d.code, a.code, 0, 0⟩
  | .wadd d a b u => some ⟨0x49, u.toNat, d.code, a.code, b.code, 0⟩
  | .idiv op d a b f => some ⟨0x4A, op.toNat, d.code, a.code, b.code, Flag.code f⟩
  | .fadd d a b => some ⟨0x50, 0, d.code, a.code, b.code, 0⟩
  | .fsub d a b => some ⟨0x51, 0, d.code, a.code, b.code, 0⟩
  | .fmul d a b => some ⟨0x52, 0, d.code, a.code, b.code, 0⟩
  | .ffma d a b c => some ⟨0x53, 0, d.code, a.code, b.code, c.code⟩
  | .fmin d a b => some ⟨0x54, 0, d.code, a.code, b.code, 0⟩
  | .fmax d a b => some ⟨0x55, 0, d.code, a.code, b.code, 0⟩
  | .fsetp cc kd a b kc => some ⟨0x56, cc.toNat, kd.setWidth 8, a.code, b.code, kc.code⟩
  | .fclass d a => some ⟨0x57, 0, d.code, a.code, 0, 0⟩
  | .frnd dir d a => some ⟨0x58, dir.toNat, d.code, a.code, 0, 0⟩
  | .frcp d a f => some ⟨0x59, 0, d.code, a.code, 0, Flag.code f⟩
  | .frsq d a f => some ⟨0x5A, 0, d.code, a.code, 0, Flag.code f⟩
  | .fsqrt d a f => some ⟨0x5B, 0, d.code, a.code, 0, Flag.code f⟩
  | .fdiv d a b f => some ⟨0x5C, 0, d.code, a.code, b.code, Flag.code f⟩
  | .fexp2 d a f => some ⟨0x5D, 0, d.code, a.code, 0, Flag.code f⟩
  | .flog2 d a f => some ⟨0x5E, 0, d.code, a.code, 0, Flag.code f⟩
  | .fsin d a f => some ⟨0x5F, 0, d.code, a.code, 0, Flag.code f⟩
  | .fcos d a f => some ⟨0x60, 0, d.code, a.code, 0, Flag.code f⟩
  | .ftanh d a f => some ⟨0x61, 0, d.code, a.code, 0, Flag.code f⟩
  | .hadd2 d a b bf => some ⟨0x62, bf.toNat, d.code, a.code, b.code, 0⟩
  | .hsub2 d a b bf => some ⟨0x63, bf.toNat, d.code, a.code, b.code, 0⟩
  | .hmul2 d a b bf => some ⟨0x64, bf.toNat, d.code, a.code, b.code, 0⟩
  | .hfma2 d a b c bf => some ⟨0x65, bf.toNat, d.code, a.code, b.code, c.code⟩
  | .hmin2 d a b bf => some ⟨0x66, bf.toNat, d.code, a.code, b.code, 0⟩
  | .hmax2 d a b bf => some ⟨0x67, bf.toNat, d.code, a.code, b.code, 0⟩
  | .hsetp2 cc k0 k1 a b kc bf =>
    some ⟨0x68, cc.toNat, k0.setWidth 8 ||| (k1.setWidth 8 <<< 4), a.code, b.code, kc.code ||| (if bf then 16 else 0)⟩
  | .hdot2 d a b c bf => some ⟨0x69, bf.toNat, d.code, a.code, b.code, c.code⟩
  | .fdot4q d a b s => some ⟨0x6A, 0, d.code, a.code, b.code, s.setWidth 8⟩
  | .cvtf op d a h => some ⟨0x6B, op.toNat, d.code, a.code, 0, if h then 1 else 0⟩
  | .cvti op d a => some ⟨0x6C, op.toNat, d.code, a.code, 0, 0⟩
  | .cvtfi u d a => some ⟨0x6D, u.toNat, d.code, a.code, 0, 0⟩
  | .pack d a s => some ⟨0x6E, 0, d.code, a.code, 0, s.setWidth 8⟩
  | .unpack d a s => some ⟨0x6F, 0, d.code, a.code, 0, s.setWidth 8⟩
  | .quant d a b s => some ⟨0x70, 0, d.code, a.code, b.code, s.setWidth 8⟩
  | .dequant d a b s => some ⟨0x71, 0, d.code, a.code, b.code, s.setWidth 8⟩
  | .cbdec d a b c f => some ⟨0x72, f.toNat, d.code, a.code, b.code, c.code⟩
  | .lutdot d a b s bf => some ⟨0x73, bf.toNat, d.code, a.code, b.code, s.setWidth 8⟩
  | .shfl m d a b wd => some ⟨0x80, m.toNat, d.code, a.code, b.code, BitVec.ofNat 8 wd.toNat⟩
  | .qswap m d a => some ⟨0x81, m.toNat, d.code, a.code, 0, 0⟩
  | .qbcast d a n => some ⟨0x82, 0, d.code, a.code, n.setWidth 8, 0⟩
  | .gred op d a => some ⟨0x83, op.toNat, d.code, a.code, 0, 0⟩
  | .gscan op d a => some ⟨0x84, op.toNat, d.code, a.code, 0, 0⟩
  | .vote all kd ka => some ⟨0x85, all.toNat, kd.setWidth 8, ka.code, 0, 0⟩
  | .voteBallot d ka => some ⟨0x85, 2, d.code, ka.code, 0, 0⟩
  | .kop op kd ka kb => some ⟨0x86, op.toNat, kd.setWidth 8, ka.code, kb.code, 0⟩
  | .kmovGet d => some ⟨0x87, 0, d.code, 0, 0, 0⟩
  | .kmovSet a => some ⟨0x87, 1, 0, a.code, 0, 0⟩
  | .elect kd => some ⟨0x88, 0, kd.setWidth 8, 0, 0, 0⟩
  | .matchLanes d a => some ⟨0x89, 0, d.code, a.code, 0, 0⟩
  | .ld wd d a o => some ⟨0x90, wd.toNat, d.code, a.code, o.extractLsb' 8 8, o.extractLsb' 0 8⟩
  | .st wd d a o => some ⟨0x91, wd.toNat, d.code, a.code, o.extractLsb' 8 8, o.extractLsb' 0 8⟩
  | .ldp wd d a o f => some ⟨0x92, wd.toNat, d.code, a.code, o, Flag.code f⟩
  | .stp wd d a o => some ⟨0x93, wd.toNat, d.code, a.code, o.extractLsb' 8 8, o.extractLsb' 0 8⟩
  | .ldt d a o => some ⟨0x94, 0, d.code, a.code, o.extractLsb' 8 8, o.extractLsb' 0 8⟩
  | .atom op d a b c => some ⟨0x95, op.toNat, d.code, a.code, b.code, c.code⟩
  | .atomp op d a b f => some ⟨0x96, op.toNat, d.code, a.code, b.code, Flag.code f⟩
  | .celladd a b l => some ⟨0x97, 0, 0, a.code, b.code, l⟩
  | .cellrdF32 d a l => some ⟨0x98, 0, d.code, a.code, 0, l⟩
  | .cellrdRaw d a => some ⟨0x98, 1, d.code, a.code, 0, 0⟩
  | .cellclr a => some ⟨0x99, 0, 0, a.code, 0, 0⟩
  | .gld wd d a f => some ⟨0x9A, wd.toNat, d.code, a.code, 0, Flag.code f⟩
  | .gst wd a b => some ⟨0x9B, wd.toNat, 0, a.code, b.code, 0⟩
  | .gatom op d a b f => some ⟨0x9C, op.toNat, d.code, a.code, b.code, Flag.code f⟩
  | .gcelladd a b l => some ⟨0x9D, 0, 0, a.code, b.code, l⟩
  | .tagget d a => some ⟨0xA0, 0, d.code, a.code, 0, 0⟩
  | .tagset (.value b) d a => some ⟨0xA1, 0, d.code, a.code, b.code, 0⟩
  | .tagset .null d a => some ⟨0xA1, 1, d.code, a.code, 0, 0⟩
  | .tagset (.copy b) d a => some ⟨0xA1, 2, d.code, a.code, b.code, 0⟩
  | .tagbirth d a => some ⟨0xA2, 0, d.code, a.code, 0, 0⟩
  | .origin d a f => some ⟨0xA3, 0, d.code, a.code, 0, Flag.code f⟩
  | .cpy a s => some ⟨0xA8, 0, 0, a.code, 0, BitVec.ofNat 8 s.toNat⟩
  | .cpyi d a b s => some ⟨0xA9, 0, d.code, a.code, b.code, BitVec.ofNat 8 s.toNat⟩
  | .cpyx a s => some ⟨0xAA, 0, 0, a.code, 0, BitVec.ofNat 8 s.toNat⟩
  | .seal => some ⟨0xAB, 0, 0, 0, 0, 0⟩
  | .cbcast d a b c => some ⟨0xAC, 0, d.code, a.code, b.code, c.code⟩
  | .ccoll op a s => some ⟨0xAD, op.toNat, 0, a.code, 0, BitVec.ofNat 8 s.toNat⟩
  | .cpyq d q f => some ⟨0xAE, 0, d.code, q.setWidth 8, 0, Flag.code f⟩
  | .trsv kd wt => some ⟨0xB0, wt.toNat, kd.setWidth 8, 0, 0, 0⟩
  | .trel => some ⟨0xB1, 0, 0, 0, 0, 0⟩
  | .tmma td a b sa sb z =>
    some ⟨0xB2, z.toNat, td.setWidth 8, a.code, b.code, sa.setWidth 8 ||| (sb.setWidth 8 <<< 3)⟩
  | .tmmas td a b sa sb z =>
    some ⟨0xB3, z.toNat, td.setWidth 8, a.code, b.code, sa.setWidth 8 ||| (sb.setWidth 8 <<< 3)⟩
  | .tmmal td a tt s z => some ⟨0xB4, z.toNat, td.setWidth 8, a.code, tt.setWidth 8, s.setWidth 8⟩
  | .tlutb tt a h s bf => some ⟨0xB5, bf.toNat, tt.setWidth 8, a.code, h.setWidth 8, s.setWidth 8⟩
  | .tzero td => some ⟨0xB6, 0, td.setWidth 8, 0, 0, 0⟩
  | .taccld td a t => some ⟨0xB7, t.toNat, td.setWidth 8, a.code, 0, 0⟩
  | .taccst .plain td a s => some ⟨0xB8, 0, td.setWidth 8, a.code, 0, s.setWidth 8⟩
  | .taccst (.scale sc r) td a s =>
    some ⟨0xB8, 1, td.setWidth 8, a.code, 0, s.setWidth 8 ||| (sc.setWidth 8 <<< 3) ||| (if r then 64 else 0)⟩
  | .taccst (.scalemax sc r b) td a s =>
    some ⟨0xB8, 2, td.setWidth 8, a.code, b.code, s.setWidth 8 ||| (sc.setWidth 8 <<< 3) ||| (if r then 64 else 0)⟩
  | .ttrn a b s => some ⟨0xB9, 0, 0, a.code, b.code, s.setWidth 8⟩
  | .taddw td a s => some ⟨0xBA, 0, td.setWidth 8, a.code, 0, s.setWidth 8⟩
  | .tscan f td => some ⟨0xBB, f.toNat, td.setWidth 8, 0, 0, 0⟩
  | .tscld sc a => some ⟨0xBC, 0, sc.setWidth 8, a.code, 0, 0⟩
  | .tstat a => some ⟨0xBD, 0, 0, a.code, 0, 0⟩
  | .pencfg p a => some ⟨0xC0, 0, p.setWidth 8, a.code, 0, 0⟩
  | .suspend wt p a o => some ⟨0xC1, wt.toNat, p.setWidth 8, a.code, o.extractLsb' 8 8, o.extractLsb' 0 8⟩
  | .penwakeMask a b => some ⟨0xC2, 0, 0, a.code, b.code, 0⟩
  | .penwakeWord p a => some ⟨0xC2, 1, p.setWidth 8, a.code, 0, 0⟩
  | .penflush p (some a) => some ⟨0xC3, 0, p.setWidth 8, a.code, 0, 0⟩
  | .penflush p none => some ⟨0xC3, 1, p.setWidth 8, 0, 0, 0⟩
  | .penstat p a => some ⟨0xC4, 0, p.setWidth 8, a.code, 0, 0⟩
  | .pentile p a b => some ⟨0xC5, 0, p.setWidth 8, a.code, b.code, 0⟩
  | .penhold r p a => some ⟨0xC6, r.toNat, p.setWidth 8, a.code, 0, 0⟩
  | .aacfg a => some ⟨0xC8, 0, 0, a.code, 0, 0⟩
  | .aainf op a b => some ⟨0xC9, op.toNat, 0, a.code, b.code, 0⟩
  | .aatrn op a b => some ⟨0xCA, op.toNat, 0, a.code, b.code, 0⟩
  | .aald a b => some ⟨0xCB, 0, 0, a.code, b.code, 0⟩
  | .aast a b => some ⟨0xCC, 0, 0, a.code, b.code, 0⟩
  | .aaq d f => some ⟨0xCD, 0, d.code, 0, 0, Flag.code f⟩
  | _ => none

/-- The payload of a full instruction under a predicate (Table 2.3). -/
def encodeFull (k : BitVec 3) (kn : Bool) (f : Fields) : BitVec 48 :=
  f.op ++ f.d ++ f.a ++ f.b ++ f.c ++ BitVec.ofNat 4 f.fn ++ k ++ BitVec.ofBool kn

/-- The 24 bits of a half (Table 2.6). -/
def Instr.halfBits : Instr → Option (BitVec 24)
  | .nopHalf => some 0
  | .iaddHalf d a => some ((0x20 : BitVec 8) ++ d.code ++ a.code)
  | .isubHalf d a => some ((0x21 : BitVec 8) ++ d.code ++ a.code)
  | .imulHalf d a => some ((0x22 : BitVec 8) ++ d.code ++ a.code)
  | .iminHalf d a => some ((0x27 : BitVec 8) ++ d.code ++ a.code)
  | .imaxHalf d a => some ((0x28 : BitVec 8) ++ d.code ++ a.code)
  | .andHalf d a => some ((0x2B : BitVec 8) ++ d.code ++ a.code)
  | .orHalf d a => some ((0x2C : BitVec 8) ++ d.code ++ a.code)
  | .xorHalf d a => some ((0x2D : BitVec 8) ++ d.code ++ a.code)
  | .shlHalf d a => some ((0x2F : BitVec 8) ++ d.code ++ a.code)
  | .shrHalf d a => some ((0x30 : BitVec 8) ++ d.code ++ a.code)
  | .sarHalf d a => some ((0x31 : BitVec 8) ++ d.code ++ a.code)
  | .movHalf d a => some ((0x3B : BitVec 8) ++ d.code ++ a.code)
  | .faddHalf d a => some ((0x50 : BitVec 8) ++ d.code ++ a.code)
  | .fsubHalf d a => some ((0x51 : BitVec 8) ++ d.code ++ a.code)
  | .fmulHalf d a => some ((0x52 : BitVec 8) ++ d.code ++ a.code)
  | .fminHalf d a => some ((0x54 : BitVec 8) ++ d.code ++ a.code)
  | .fmaxHalf d a => some ((0x55 : BitVec 8) ++ d.code ++ a.code)
  | .hadd2Half d a => some ((0x62 : BitVec 8) ++ d.code ++ a.code)
  | .hmul2Half d a => some ((0x64 : BitVec 8) ++ d.code ++ a.code)
  | _ => none

/-- The 64-bit word of a decoded word (Table 2.1); none where an instruction in it is no word's. -/
def encode : Decoded → Option W64
  | .full s wt k kn i =>
    match i.fields with
    | some f => some ((0 : BitVec 1) ++ s ++ wt ++ encodeFull k kn f)
    | none => none
  | .pair s wt ha hb =>
    match ha.halfBits, hb.halfBits with
    | some x, some y => some ((1 : BitVec 1) ++ s ++ wt ++ x ++ y)
    | _, _ => none

/-- The 64-bit word that holds a table row's bits: a row of 24 bits is a half, and stands as half B of a pair whose
half A is NOP (R33); any other row is the low bits of a word whose other bits are 0. -/
def tableWord (nbits w : Nat) : W64 :=
  if nbits = 24 then (1 : BitVec 1) ++ (0 : BitVec 39) ++ BitVec.ofNat 24 w
  else BitVec.ofNat 64 (w % 2 ^ nbits)

/-- The instruction the decoder reads from a table row's bits: half B of the pair for a row of 24 bits. The register
allocation is the largest, 240. -/
def decodeTableWord (nbits w : Nat) : Option Instr :=
  match decodeBytes 240 (valueBytes 8 (tableWord nbits w).toNat) with
  | .ok (.full _ _ _ _ i) => some i
  | .ok (.pair _ _ _ hb) => some hb
  | .error _ => none

end Sys2Proof
end

