-- ==== Sys2Proof/Machine/Num.lean ====
section
/-!
DEFINITION. Exact numbers, the element formats and the one rounding of spec 03 (R49 to R56, R60), and the functions of
R126 computed to more bits than any rounding of FP32 needs.
-/
namespace Sys2Proof.Machine

/-- A number as a format holds it: ±m·2^e, an infinity, or a NaN with its sign and its payload aligned to the 23
mantissa bits of FP32 (R50). -/
inductive Num where
  | fin (neg : Bool) (m : Nat) (e : Int)
  | inf (neg : Bool)
  | nan (neg : Bool) (payload : Nat)
deriving DecidableEq, Repr, Inhabited

/-- Exceptions as the bits of FSR (Table 3.7): IV 0, DZ 1, OF 2, NS 3, IO 4, ESC 5. -/
abbrev Exc := BitVec 6

namespace Exc
def none : Exc := 0
def iv : Exc := 1
def dz : Exc := 2
def ovf : Exc := 4
def ns : Exc := 8
def io : Exc := 16
def esc : Exc := 32
end Exc

namespace Num

def zero : Num := .fin false 0 0

/-- The default NaN (Table 3.1). -/
def defaultNan : Num := .nan false 0x400000

/-- NaN or ±Inf (R71). -/
def special : Num → Bool
  | .fin .. => false
  | _ => true

def isNan : Num → Bool
  | .nan .. => true
  | _ => false

def isZero : Num → Bool
  | .fin _ m _ => decide (m = 0)
  | _ => false

def neg : Num → Bool
  | .fin s _ _ => s
  | .inf s => s
  | .nan s _ => s

def negate : Num → Num
  | .fin s m e => .fin (!s) m e
  | .inf s => .inf (!s)
  | .nan s p => .nan (!s) p

def abs : Num → Num
  | .fin _ m e => .fin false m e
  | .inf _ => .inf false
  | .nan _ p => .nan false p

/-- A NaN with the quiet bit forced to 1 (R50). -/
def quiet : Num → Num
  | .nan s p => .nan s (p ||| 0x400000)
  | x => x

def ofInt (i : Int) : Num := .fin (decide (i < 0)) i.natAbs 0
def ofNat (n : Nat) : Num := .fin false n 0

/-- The signed integer v with value v·2^e, for e at most the number's own exponent. -/
def scaled (x : Num) (e : Int) : Int :=
  match x with
  | .fin s m ex =>
    let v : Int := (m : Int) * 2 ^ (ex - e).toNat
    if s then -v else v
  | _ => 0

def expOf : Num → Int
  | .fin _ _ e => e
  | _ => 0

end Num

/-- m/2^n rounded to the nearest integer, ties to even (R49). -/
def rneShift (m n : Nat) : Nat :=
  let q := m / 2 ^ n
  let r := m % 2 ^ n
  if n = 0 then m
  else if 2 ^ (n - 1) < r ∨ (r = 2 ^ (n - 1) ∧ q % 2 = 1) then q + 1 else q

/-- m·2^e rounded to the nearest integer, ties to even. -/
def rneInt (m : Nat) (e : Int) : Nat :=
  if 0 ≤ e then m * 2 ^ e.toNat else rneShift m (-e).toNat

/-- The binary floating-point formats of Table 3.1. -/
inductive FFmt where
  | fp32 | fp16 | bf16 | e4m3 | e5m2 | e2m1
deriving DecidableEq, Repr

namespace FFmt
/-- Mantissa bits. -/
def mbits : FFmt → Nat
  | fp32 => 23 | fp16 => 10 | bf16 => 7 | e4m3 => 3 | e5m2 => 2 | e2m1 => 1
/-- Exponent bits. -/
def ebits : FFmt → Nat
  | fp32 => 8 | fp16 => 5 | bf16 => 8 | e4m3 => 4 | e5m2 => 5 | e2m1 => 2
def bias : FFmt → Nat
  | fp32 => 127 | fp16 => 15 | bf16 => 127 | e4m3 => 7 | e5m2 => 15 | e2m1 => 1
/-- Whether the format has infinities (Table 3.1). -/
def hasInf : FFmt → Bool
  | e4m3 | e2m1 => false
  | _ => true
/-- The encoding of the largest finite value, sign clear. -/
def maxBits : FFmt → Nat
  | fp32 => 0x7F7FFFFF | fp16 => 0x7BFF | bf16 => 0x7F7F | e4m3 => 0x7E | e5m2 => 0x7B | e2m1 => 0x7
def signBit (f : FFmt) : Nat := 2 ^ (f.ebits + f.mbits)
/-- The exponent field of all ones, shifted into place. -/
def infBits (f : FFmt) : Nat := (2 ^ f.ebits - 1) * 2 ^ f.mbits
/-- Exponent of the least subnormal's unit. -/
def qmin (f : FFmt) : Int := 1 - (f.bias : Int) - f.mbits
end FFmt

/-- The number an encoding stands for. Code 1000 of E2M1 is −0 here (R52). -/
def decodeF (f : FFmt) (bits : Nat) : Num :=
  let s := decide (bits / f.signBit % 2 = 1)
  let ex := bits / 2 ^ f.mbits % 2 ^ f.ebits
  let man := bits % 2 ^ f.mbits
  if f.hasInf ∧ ex = 2 ^ f.ebits - 1 then
    if man = 0 then .inf s else .nan s (man * 2 ^ (23 - f.mbits))
  else if f = .e4m3 ∧ ex = 15 ∧ man = 7 then .nan s 0x700000
  else if ex = 0 then .fin s man f.qmin
  else .fin s (man + 2 ^ f.mbits) ((ex : Int) - f.bias - f.mbits)

/-- The encoding and the exceptions when a value overflows a format (R56). -/
def overflowF (f : FFmt) (sat s : Bool) : Nat × Exc :=
  let sb := if s then f.signBit else 0
  if f.hasInf then (sb + f.infBits, Exc.ovf)
  else if !sat then (sb + f.maxBits, Exc.ns)
  else if f = .e4m3 then (sb + 0x7F, Exc.iv)
  else (sb + f.maxBits, Exc.iv)

/-- Round a number into a floating-point format (R49, R50, R56): the encoding and the exceptions raised. -/
def encodeF (f : FFmt) (sat : Bool) (x : Num) : Nat × Exc :=
  match x with
  | .nan s p =>
    let sb := if s then f.signBit else 0
    match f with
    | .e4m3 => (sb + 0x7F, Exc.none)
    | .e2m1 => (0, Exc.iv)
    | _ => (sb + f.infBits + (p ||| 0x400000) / 2 ^ (23 - f.mbits), Exc.none)
  | .inf s => if f.hasInf then ((if s then f.signBit else 0) + f.infBits, Exc.none) else overflowF f sat s
  | .fin s m e =>
    let sb := if s then f.signBit else 0
    let z := if f = .e2m1 then 0 else sb
    if m = 0 then (z, Exc.none)
    else
      let quantum := max ((Nat.log2 m : Int) + e - f.mbits) f.qmin
      let q := rneInt m (e - quantum)
      if q = 0 then (z, Exc.none)
      else
        let body := (quantum - f.qmin).toNat * 2 ^ f.mbits + q
        if body ≤ f.maxBits then (sb + body, Exc.none) else overflowF f sat s

/-- Element formats by their code (Tables 3.1 and 3.2): the floating-point format, or the range of an integer one. -/
inductive Elem where
  | flt (f : FFmt)
  | int (bits : Nat) (signed : Bool)
  | cb4
deriving DecidableEq, Repr

/-- The format of a code; codes 13 to 15 are reserved (R59). -/
def Elem.ofCode : Nat → Option Elem
  | 0 => some (.flt .fp32)
  | 1 => some (.flt .fp16)
  | 2 => some (.flt .bf16)
  | 3 => some (.flt .e4m3)
  | 4 => some (.flt .e5m2)
  | 5 => some (.flt .e2m1)
  | 6 => some .cb4
  | 7 => some (.int 8 true)
  | 8 => some (.int 8 false)
  | 9 => some (.int 16 true)
  | 10 => some (.int 32 true)
  | 11 => some (.int 4 true)
  | 12 => some (.int 16 false)
  | _ => none

/-- Bits an element takes. -/
def Elem.bits : Elem → Nat
  | .flt f => 1 + f.ebits + f.mbits
  | .int b _ => b
  | .cb4 => 4

/-- CB4 levels in units of 1/1024 (Table 3.4). -/
def cb4Level (code : Nat) : Int :=
  match code % 16 with
  | 0 => -1024 | 1 => -720 | 2 => -544 | 3 => -412 | 4 => -300 | 5 => -196 | 6 => -96 | 7 => 0
  | 8 => 84 | 9 => 172 | 10 => 264 | 11 => 364 | 12 => 480 | 13 => 620 | 14 => 792 | _ => 1024

/-- The integer a two's-complement or unsigned field holds. -/
def intOfBits (w : Nat) (signed : Bool) (b : Nat) : Int :=
  let v := b % 2 ^ w
  if signed ∧ 2 ^ (w - 1) ≤ v then (v : Int) - 2 ^ w else v

/-- The bits of an integer in a field. -/
def bitsOfInt (w : Nat) (i : Int) : Nat := (i % (2 ^ w : Int)).toNat

/-- The number an element's bits stand for, unscaled. -/
def decodeElem (f : Elem) (bits : Nat) : Num :=
  match f with
  | .flt g => decodeF g bits
  | .int w s => Num.ofInt (intOfBits w s bits)
  | .cb4 =>
    let l := cb4Level bits
    .fin (decide (l < 0)) l.natAbs (-10)

/-- Clamp an integer to a field's range (R56). -/
def clampInt (w : Nat) (signed : Bool) (i : Int) : Int × Exc :=
  let hi : Int := if signed then 2 ^ (w - 1) - 1 else 2 ^ w - 1
  let lo : Int := if signed then -(2 ^ (w - 1)) else 0
  if hi < i then (hi, Exc.ns) else if i < lo then (lo, Exc.ns) else (i, Exc.none)

/-- A number rounded into an integer format (R56). -/
def encodeInt (w : Nat) (signed : Bool) (x : Num) : Nat × Exc :=
  match x with
  | .nan .. => (0, Exc.iv)
  | .inf s =>
    let hi : Int := if signed then 2 ^ (w - 1) - 1 else 2 ^ w - 1
    let lo : Int := if signed then -(2 ^ (w - 1)) else 0
    (bitsOfInt w (if s then lo else hi), Exc.ns)
  | .fin s m e =>
    let q : Int := rneInt m e
    let (c, r) := clampInt w signed (if s then -q else q)
    (bitsOfInt w c, r)

/-- Round a number into an element format (R56). CB4 has no rounding of its own: R55 chooses codes by block. -/
def encodeElem (f : Elem) (sat : Bool) (x : Num) : Nat × Exc :=
  match f with
  | .flt g => encodeF g sat x
  | .int w s => encodeInt w s x
  | .cb4 => (7, Exc.none)

/-- FP32 value of a word. -/
def f32 (x : W32) : Num := decodeF .fp32 x.toNat

/-- A number rounded to FP32. -/
def toF32 (x : Num) : W32 × Exc :=
  let (b, r) := encodeF .fp32 false x
  (BitVec.ofNat 32 b, r)

namespace Num

/-- The first NaN of a list of operands, quieted (R50). -/
def firstNan : List Num → Option Num
  | [] => none
  | x :: xs => if x.isNan then some x.quiet else firstNan xs

/-- A non-NaN exact sum with the sign of R121: +0 unless both zeros are −0. -/
def addFin (a b : Num) : Num :=
  match a, b with
  | .fin sa ma ea, .fin sb mb eb =>
    if ma = 0 ∧ mb = 0 then .fin (sa && sb) 0 0
    else
      let e := min ea eb
      let v := (Num.fin sa ma ea).scaled e + (Num.fin sb mb eb).scaled e
      .fin (decide (v < 0)) v.natAbs e
  | x, _ => x

/-- a + b, exact, with IV for infinities of opposite sign (R50, R121). -/
def add (a b : Num) : Num × Exc :=
  match firstNan [a, b] with
  | some n => (n, Exc.none)
  | none =>
    match a, b with
    | .inf s, .inf t => if s = t then (.inf s, Exc.none) else (defaultNan, Exc.iv)
    | .inf s, _ => (.inf s, Exc.none)
    | _, .inf t => (.inf t, Exc.none)
    | _, _ => (addFin a b, Exc.none)

/-- a − b. The sign of a NaN b is not changed (R50). -/
def sub (a b : Num) : Num × Exc :=
  match firstNan [a, b] with
  | some n => (n, Exc.none)
  | none => add a b.negate

/-- a · b, exact, with IV for 0 · Inf (R121). -/
def mul (a b : Num) : Num × Exc :=
  match firstNan [a, b] with
  | some n => (n, Exc.none)
  | none =>
    let s := a.neg != b.neg
    match a, b with
    | .fin _ ma ea, .fin _ mb eb => (.fin s (ma * mb) (ea + eb), Exc.none)
    | x, y => if x.isZero || y.isZero then (defaultNan, Exc.iv) else (.inf s, Exc.none)

/-- a · b + c, exact (R121). NaN operands are taken in the order a, b, c. DEDUCED: 0 · Inf beside a NaN c gives that NaN and
raises nothing, since a NaN operand raises no exception (R50), though Table 5.5 names 0 · Inf (assumption log 68). -/
def fma (a b c : Num) : Num × Exc :=
  match firstNan [a, b, c] with
  | some n => (n, Exc.none)
  | none =>
    let (p, r) := mul a b
    if p.isNan then (p, r)
    else add p c

/-- Order of two non-NaN numbers, −0 below +0. -/
def ltOrd (a b : Num) : Bool :=
  match a, b with
  | .fin sa ma ea, .fin sb mb eb =>
    if ma = 0 ∧ mb = 0 then sa && !sb
    else
      let e := min ea eb
      decide ((Num.fin sa ma ea).scaled e < (Num.fin sb mb eb).scaled e)
  | .inf s, .inf t => s && !t
  | .inf s, _ => s
  | _, .inf t => !t
  | _, _ => false

/-- Numeric comparison of two non-NaN numbers, +0 equal to −0. -/
def lt (a b : Num) : Bool := ltOrd a b && !(a.isZero && b.isZero)

/-- The lesser under R122; none chooses a, some side tells which operand was taken (true for b). -/
def minSide (a b : Num) : Bool := if a.isNan then false else if b.isNan then true else ltOrd b a

/-- The greater under R122. -/
def maxSide (a b : Num) : Bool := if a.isNan then false else if b.isNan then true else ltOrd a b

def min (a b : Num) : Num := quiet (if minSide a b then b else a)
def max (a b : Num) : Num := quiet (if maxSide a b then b else a)

/-- A comparison of R123. -/
def cmp (c : FCmp) (a b : Num) : Bool :=
  let n := a.isNan || b.isNan
  match c with
  | .eq => !n && !lt a b && !lt b a
  | .ne => n || lt a b || lt b a
  | .lt => !n && lt a b
  | .le => !n && !lt b a
  | .gt => !n && lt b a
  | .ge => !n && !lt a b
  | .num => !n
  | .nan => n

/-- Whether |a| is greater than |b|, for magnitudes of R71. Infinities exceed every number and a NaN exceeds nothing:
no rule compares them, since a special source is taken before magnitudes are. -/
def magLt (a b : Num) : Bool := ltOrd a.abs b.abs

/-- floor(log2 |x|) of a non-zero number. -/
def ilog2 : Num → Int
  | .fin _ m e => (Nat.log2 m : Int) + e
  | _ => 0

end Num

/-- The exact product of two terms in window_sum, NaN with IV for 0 · Inf (R60). -/
def product (a b : Num) : Num × Exc := Num.mul a b

/-- The truncated sum of the terms of a window, in units of 2^(emax − 40) (R60). -/
def windowSum (terms : List Num) (emax : Int) : Int :=
  terms.foldl (fun s t =>
    match t with
    | .fin sg m e =>
      let q : Nat := if emax - 40 ≤ e then m * 2 ^ (e - (emax - 40)).toNat else m / 2 ^ ((emax - 40) - e).toNat
      if sg then s - q else s + q
    | _ => s) 0

/-- window_sum of R60 before its final rounding: the value and the exceptions. -/
def windowExact (terms : List Num) : Num × Exc :=
  match Num.firstNan terms with
  | some n => (n, Exc.none)
  | none =>
    let infs := terms.filter (·.special)
    if infs.any (·.neg) && infs.any (!·.neg) then (Num.defaultNan, Exc.iv)
    else match infs with
      | x :: _ => (x, Exc.none)
      | [] =>
        let nz := terms.filter (!·.isZero)
        match nz with
        | [] => (.fin (terms.all (·.neg)) 0 0, Exc.none)
        | x :: xs =>
          let emax := xs.foldl (fun m t => max m t.ilog2) x.ilog2
          let v := windowSum terms emax
          (.fin (decide (v < 0)) v.natAbs (emax - 40), Exc.none)

/-- window_sum of R60 in FP32, with the exceptions of its products added. -/
def windowF32 (c : Num) (ps : List (Num × Exc)) : W32 × Exc :=
  let (x, r) := windowExact (c :: ps.map (·.1))
  let (w, r2) := toF32 x
  (w, ps.foldl (fun a p => a ||| p.2) (r ||| r2))

/-- The number x · 2^n. -/
def Num.scale2 (x : Num) (n : Int) : Num :=
  match x with
  | .fin s m e => .fin s m (e + n)
  | y => y

/-- The value of an E8M0 scale byte (R51). -/
def e8m0 (b : Nat) : Num := if b % 256 = 255 then Num.defaultNan else .fin false 1 ((b % 256 : Nat) - 127 : Int)

/-! The functions of R126. Fixed-point numbers have `fxBits` fraction bits. Results that are not exact carry one more
low bit that is set, so that the one rounding of R49 never sees a false tie. -/

def fxBits : Nat := 704
def fxOne : Nat := 2 ^ fxBits
def fxMul (a b : Nat) : Nat := a * b / fxOne

/-- The square root of n rounded down, from 2^k downward. -/
def isqrtGo (n : Nat) : Nat → Nat → Nat
  | 0, r => if (r + 1) * (r + 1) ≤ n then r + 1 else r
  | k + 1, r =>
    let r' := r + 2 ^ (k + 1)
    isqrtGo n k (if r' * r' ≤ n then r' else r)

def isqrt (n : Nat) : Nat := if n = 0 then 0 else isqrtGo n (Nat.log2 n / 2 + 1) 0

/-- A positive quotient-like result m·2^e with a sticky low bit. -/
def sticky (m : Nat) (exact : Bool) (e : Int) (s : Bool) : Num :=
  .fin s (2 * m + (if exact then 0 else 1)) (e - 1)

/-- Σ t_k with t_0 = t and t_{k+1} = t_k · x / (k+1): the exponential series. -/
def expSeries (x : Nat) : Nat → Nat → Nat → Nat → Nat
  | 0, _, _, acc => acc
  | n + 1, k, t, acc =>
    let t' := fxMul t x / k
    expSeries x n (k + 1) t' (acc + t')

/-- e^x for fixed-point 0 ≤ x < 2. -/
def fxExp (x : Nat) : Nat := expSeries x 190 1 fxOne fxOne

/-- Σ z^(2k+1)/(2k+1) from p = z^(2k+1). -/
def atanhSeries (z2 : Nat) : Nat → Nat → Nat → Nat → Nat
  | 0, _, _, acc => acc
  | n + 1, k, p, acc => atanhSeries z2 n (k + 2) (fxMul p z2) (acc + p / k)

def fxAtanh (z : Nat) (n : Nat) : Nat := atanhSeries (fxMul z z) n 1 z 0

/-- ln 2. -/
def fxLn2 : Nat := 2 * fxAtanh (fxOne / 3) 240

/-- arctan(1/n), scaled by 2^bits, by its alternating series. -/
def atanInvGo (n2 : Nat) : Nat → Nat → Nat → Bool → Int → Int
  | 0, _, _, _, acc => acc
  | f + 1, k, p, s, acc => atanInvGo n2 f (k + 2) (p / n2) (!s) (if s then acc - (p / k : Nat) else acc + (p / k : Nat))

def atanInv (n bits fuel : Nat) : Int := atanInvGo (n * n) fuel 1 (2 ^ bits / n) false 0

/-- π scaled by 2^(fxBits + 160), by Machin's formula. -/
def piBits : Nat := fxBits + 160
def piScaled : Nat := (4 * (4 * atanInv 5 piBits 200 - atanInv 239 piBits 70)).toNat

/-- sin (odd = true) or cos of a fixed-point angle 0 ≤ x ≤ 1, by alternating series. -/
def trigSeries (x2 : Nat) : Nat → Nat → Nat → Bool → Int → Int
  | 0, _, _, _, acc => acc
  | n + 1, k, t, s, acc =>
    let t' := fxMul t x2 / (k * (k + 1))
    trigSeries x2 n (k + 2) t' (!s) (if s then acc - t' else acc + t')

def fxSin (x : Nat) : Int := trigSeries (fxMul x x) 90 2 x true x
def fxCos (x : Nat) : Int := trigSeries (fxMul x x) 90 1 fxOne true fxOne

/-- A non-zero finite |x| as an octant from 0 to 7 and the rest 0 ≤ r ≤ π/4, fixed-point. -/
def octant (m : Nat) (e : Int) : Nat × Nat :=
  let x := if 0 ≤ e + piBits then m * 2 ^ (e + piBits).toNat else m / 2 ^ (-(e + piBits)).toNat
  let q := piScaled / 4
  (x / q % 8, (x % q) / 2 ^ 160)

/-- sin or cos of a non-zero finite number, not exact (R126). -/
def trigNum (isCos s : Bool) (m : Nat) (e : Int) : Num :=
  let (o, r) := octant m e
  let r' := piScaled / 4 / 2 ^ 160 - r
  let x := if o % 2 = 1 then r' else r
  -- in octants 1, 2, 5 and 6 sine and cosine change places
  let useCos := isCos != decide (o % 4 = 1 ∨ o % 4 = 2)
  let v := (if useCos then fxCos x else fxSin x).toNat
  let sg := if isCos then decide (2 ≤ o ∧ o < 6) else (s != decide (4 ≤ o))
  sticky v false (-(fxBits : Int)) sg

/-- 2^x for a finite number; the integer part is an exact exponent (R126). -/
def exp2Num (s : Bool) (m : Nat) (e : Int) : Num :=
  let v := if 0 ≤ e + fxBits then m * 2 ^ (e + fxBits).toNat else m / 2 ^ (-(e + fxBits)).toNat
  let i : Int := v / fxOne
  let f := v % fxOne
  if f = 0 then .fin false 1 (if s then -i else i)
  else
    let f' := if s then fxOne - f else f
    let i' := if s then -i - 1 else i
    sticky (fxExp (fxMul f' fxLn2)) false (i' - fxBits) false

/-- log2 of a positive finite number that is no power of two (R126). -/
def log2Num (m : Nat) (e : Int) : Num :=
  let k := Nat.log2 m
  -- the mantissa in [1, 2), taken below 1 where it exceeds √2 ≈ 1.414
  let f := m * fxOne / 2 ^ k
  let high := decide (fxOne * 1414 / 1000 < f)
  let g := if high then f / 2 else f
  let n : Int := (k : Int) + e + (if high then 1 else 0)
  let below := decide (g < fxOne)
  let d := if below then fxOne - g else g - fxOne
  let l := 2 * fxAtanh (d * fxOne / (g + fxOne)) 150 * fxOne / fxLn2
  let v : Int := n * fxOne + (if below then -(l : Int) else l)
  sticky v.natAbs false (-(fxBits : Int)) (decide (v < 0))

/-- tanh of a non-zero finite number (R126). -/
def tanhNum (s : Bool) (m : Nat) (e : Int) : Num :=
  if (6 : Int) ≤ (Nat.log2 m : Int) + e then sticky (2 ^ 200 - 1) false (-200) s
  else
    let x := if 0 ≤ e + fxBits then m * 2 ^ (e + fxBits).toNat else m / 2 ^ (-(e + fxBits)).toNat
    if x < fxOne / 16 then
      -- e^2x − 1 as its own series keeps the low bits of a small argument
      let t := expSeries (2 * x) 190 1 fxOne 0
      sticky (t * fxOne / (t + 2 * fxOne)) false (-(fxBits : Int)) s
    else
      let v := x * 2 * fxOne / fxLn2
      let i := v / fxOne
      let p := fxExp (fxMul (v % fxOne) fxLn2) * 2 ^ i
      sticky ((p - fxOne) * fxOne / (p + fxOne)) false (-(fxBits : Int)) s

/-- 1/x, not rounded (R126, Table 5.6). -/
def rcpNum : Num → Num × Exc
  | .nan s p => (Num.quiet (.nan s p), Exc.none)
  | .inf s => (.fin s 0 0, Exc.none)
  | .fin s m e =>
    if m = 0 then (.inf s, Exc.dz)
    else (sticky (2 ^ 120 / m) (decide (2 ^ 120 % m = 0)) (-120 - e) s, Exc.none)

/-- a/b, not rounded (R126, Table 5.6). -/
def divNum (a b : Num) : Num × Exc :=
  match Num.firstNan [a, b] with
  | some n => (n, Exc.none)
  | none =>
    let s := a.neg != b.neg
    match a, b with
    | .inf _, .inf _ => (Num.defaultNan, Exc.iv)
    | .inf _, _ => (.inf s, Exc.none)
    | _, .inf _ => (.fin s 0 0, Exc.none)
    | .fin _ ma ea, .fin _ mb eb =>
      if mb = 0 then (if ma = 0 then (Num.defaultNan, Exc.iv) else (.inf s, Exc.dz))
      else if ma = 0 then (.fin s 0 0, Exc.none)
      else (sticky (ma * 2 ^ 120 / mb) (decide (ma * 2 ^ 120 % mb = 0)) (ea - eb - 120) s, Exc.none)
    | x, _ => (x, Exc.none)

/-- √a, not rounded (R126, Table 5.6). -/
def sqrtNum : Num → Num × Exc
  | .nan s p => (Num.quiet (.nan s p), Exc.none)
  | .inf s => if s then (Num.defaultNan, Exc.iv) else (.inf false, Exc.none)
  | .fin s m e =>
    if m = 0 then (.fin s 0 0, Exc.none)
    else if s then (Num.defaultNan, Exc.iv)
    else
      let m' := if e % 2 = 0 then m else 2 * m
      let e' := if e % 2 = 0 then e else e - 1
      let n := m' * 2 ^ 120
      let r := isqrt n
      (sticky r (decide (r * r = n)) (e' / 2 - 60) false, Exc.none)

/-- 1/√a, not rounded (R126, Table 5.6). -/
def rsqNum : Num → Num × Exc
  | .nan s p => (Num.quiet (.nan s p), Exc.none)
  | .inf s => if s then (Num.defaultNan, Exc.iv) else (.fin false 0 0, Exc.none)
  | .fin s m e =>
    if m = 0 then (.inf s, Exc.dz)
    else if s then (Num.defaultNan, Exc.iv)
    else
      let m' := if e % 2 = 0 then m else 2 * m
      let e' := if e % 2 = 0 then e else e - 1
      let r := isqrt (2 ^ 240 / m')
      (sticky r (decide (r * r * m' = 2 ^ 240)) (-120 - e' / 2) false, Exc.none)

/-- 2^a, not rounded. -/
def exp2Fn : Num → Num × Exc
  | .nan s p => (Num.quiet (.nan s p), Exc.none)
  | .inf s => if s then (Num.zero, Exc.none) else (.inf false, Exc.none)
  | .fin s m e =>
    if m = 0 then (.fin false 1 0, Exc.none)
    else if (9 : Int) ≤ (Nat.log2 m : Int) + e then (.fin false 1 (if s then -512 else 512), Exc.none)
    else (exp2Num s m e, Exc.none)

/-- log2 a, not rounded. -/
def log2Fn : Num → Num × Exc
  | .nan s p => (Num.quiet (.nan s p), Exc.none)
  | .inf s => if s then (Num.defaultNan, Exc.iv) else (.inf false, Exc.none)
  | .fin s m e =>
    if m = 0 then (.inf true, Exc.dz)
    else if s then (Num.defaultNan, Exc.iv)
    else if m = 2 ^ Nat.log2 m then (Num.ofInt ((Nat.log2 m : Int) + e), Exc.none)
    else (log2Num m e, Exc.none)

/-- sin or cos of a, in radians, not rounded. -/
def trigFn (isCos : Bool) : Num → Num × Exc
  | .nan s p => (Num.quiet (.nan s p), Exc.none)
  | .inf _ => (Num.defaultNan, Exc.iv)
  | .fin s m e =>
    if m = 0 then (if isCos then .fin false 1 0 else .fin s 0 0, Exc.none)
    else (trigNum isCos s m e, Exc.none)

/-- tanh a, not rounded. -/
def tanhFn : Num → Num × Exc
  | .nan s p => (Num.quiet (.nan s p), Exc.none)
  | .inf s => (.fin s 1 0, Exc.none)
  | .fin s m e => if m = 0 then (.fin s 0 0, Exc.none) else (tanhNum s m e, Exc.none)

/-- An integral value of a finite number, rounded in a direction (R125), the sign of zero kept. -/
def roundInt (d : RndDir) : Num → Num
  | .nan s p => Num.quiet (.nan s p)
  | .inf s => .inf s
  | .fin s m e =>
    if 0 ≤ e then .fin s m e
    else
      let n := (-e).toNat
      let t := m / 2 ^ n
      let up := if m % 2 ^ n = 0 then t else t + 1
      let q := match d with
        | .rn => rneShift m n
        | .floor => if s then up else t
        | .ceil => if s then t else up
        | .trunc => t
      .fin s q 0

end Sys2Proof.Machine
end

