-- ==== Sys2Proof/Machine/StateCore.lean ====
section
/-!
DEFINITION. The state of the cores: threads, groups, quad regions, flocks, ports and what is in flight in them (spec 04,
05, 06, 08).
-/
namespace Sys2Proof.Machine

/-- Where a result goes: a register or a predicate. -/
inductive Dest where
  | reg (r : Reg)
  | pred (k : BitVec 3)
deriving DecidableEq, Repr

/-- A write in flight (R103): its landing cycle, its place in issue order, its destination, and its value once known. A
predicate's value is bit 0. -/
structure Landing where
  cyc : Nat
  seq : Nat
  dst : Dest
  val : Option TW
deriving DecidableEq, Repr

/-- The registers of a thread, or of a helper's overlay (R88, R96 to R99): v and o registers that are not 0 with tag 0,
last and the issue place of the word it came from, k0 to k7 with k0 set, writes in flight, and the registers whose writes
landed in the present cycle, each with the issue place of its word (R103). -/
structure RegFile where
  v : AL TW
  o : AL TW
  last : TW
  lastSeq : Nat
  k : BitVec 8
  pend : List Landing
  landed : List (Reg × Nat)
deriving DecidableEq, Repr

/-- Registers as R79 creates them. -/
def RegFile.fresh : RegFile := ⟨[], [], TW.zero, 0, 1, [], []⟩

/-- What a trap reports (R193, R195): the cause, TINFO, TINFOH, the source tags and TFDET. -/
structure TrapInfo where
  cause : Byte
  info : W32
  infoh : W32
  t0 : Tag
  t1 : Tag
  t2 : Tag
  detail : W32
deriving DecidableEq, Repr

/-- The per-thread system registers of Tables 6.9 and 8.2 and of the engine chapters, but those that are views of other
state (LOGID, CLKL, MODE, CNT, FPEND, THANDLER). -/
structure SysRegs where
  tagmode : BitVec 2
  fcr : BitVec 6
  fsr : BitVec 6
  tpc : W64
  tcause : Byte
  tinfo : W32
  tinfoh : W32
  ttag0 : Tag
  ttag1 : Tag
  ttag2 : Tag
  depth : BitVec 4
  re : Bool
  tfdet : W32
  schken : Bool
  stkp : W32
  logid : W32
  clkh : Option W32
  hashl : W32
  engerr : BitVec 5
  cerrCopy : Byte
  cerrColl : Byte
  cerrSat : Bool
  terr : Byte
  aerr : Byte
deriving DecidableEq, Repr

/-- System registers of a created thread (R79, Table 6.9) with the launch's default rule and checking bit. -/
def SysRegs.fresh (tagmode : BitVec 2) (schken : Bool) (logid : W32) : SysRegs :=
  ⟨tagmode, 0, 0, 0, 0, 0, 0, 0, 0, 0, 0, false, 0, schken, 0, logid, none, 0, 0, 0, 0, false, 0, 0⟩

/-- An operation counted by an outstanding counter (R11, R12): finished or not, and whether it ended in error. -/
structure OutOp where
  id : Nat
  cls : EngClass
  finished : Bool
  err : Bool
deriving DecidableEq, Repr

/-- A flagged result in flight (R15, R102): its flag, its word's issue place, the cycles between which it may land, its
destinations, and the values once known (the value may come from an access performed later). A result that will write nothing, as a faulted
lane's (R170), has no destinations. `acq` marks the results an acquire waits for (GLD, GATOM, CPYQ; R154), and `opId` the
operation that completes when the result lands (R168). -/
structure FlagRes where
  id : Nat
  flag : Option (Fin 12)
  seq : Nat
  lo : Nat
  hi : Nat
  dests : List Reg
  vals : Option (List TW)
  acq : Bool
  opId : Option Nat
deriving DecidableEq, Repr

/-- Why a thread is not awake (R84). The `wake` cycle is set when the sleep has ended and the thread is ready from it. A
WAITA keeps the helper lanes whose overlays take its value (R91), TRSV.WAIT the cycle from which its outcome, once known,
lets the thread go on (R239), and a fault sleep the 64 KiB page and the trap that a refusal makes the thread take
(R199). -/
inductive Sleep where
  | awake
  | barrier (pad : Bool) (n : BitVec 4) (phase : W32) (wake : Option Nat)
  | bwait (pad : Bool) (n : BitVec 4) (a : W32) (wake : Option Nat)
  | waitc (cls : EngClass) (n : Nat)
  | waita (addr : Nat) (ne : Bool) (cmp : W32) (d : Reg) (first : Bool) (helpers : List Nat) (wake : Option Nat)
  | fence (scope : Scope) (mask : BitVec 5) (ids : List Nat) (ticket : Option Nat)
  | trsv (kd : BitVec 3) (wake : Option Nat)
  | suspend
  | fault (page : Nat) (ti : TrapInfo)
  | deciding
  | trapWait (t : TrapInfo) (record : Nat)
  | stopped
  | ended
deriving DecidableEq, Repr

/-- A system register write that has not taken effect (R176). -/
structure MtsPend where
  cyc : Nat
  num : BitVec 12
  val : W32
deriving DecidableEq, Repr

/-- The copy-engine batches of a thread (R209, R210): the open batch's operation id and the commands that have joined it
(none open at 0 commands), whether a member that has finished failed, and the next batch sequence number. -/
structure BatchSt where
  openId : Nat
  count : Nat
  err : Bool
  next : W32
deriving DecidableEq, Repr

def BatchSt.fresh : BatchSt := ⟨0, 0, false, 0⟩

/-- What a stop under a stop request left live (R157, R202): every register and the whole window, or a map's. -/
structure StopInfo where
  forced : Bool
  map : Option (List Nat × List (Nat × Nat))
deriving DecidableEq, Repr

/-- A thread (Table 4.1). `present` is false for an absent lane (R81). `pc` is the byte address of the word stood at and
`wpc` that of the word issued last. `parity` lists registers whose word has bad parity (R100), whether the error lies in
the tag bits, and whether a good copy exists. `fatal` is the trap that stopped the thread for good (R197). `hashq` is
the words that HASHL has still to take, in program order, each with its issue place and its value once known (R330). `stop` holds what a stop left
live. `cleared` is the flags whose results
landed in this cycle, which still hold the words that wait for them (R84). -/
structure Thread where
  present : Bool
  pc : W64
  wpc : W64
  rf : RegFile
  flags : BitVec 12
  flagged : List FlagRes
  outs : List OutOp
  nextIssue : Nat
  readySince : Option Nat
  passed : Nat
  sleep : Sleep
  sys : SysRegs
  mts : List MtsPend
  lastScratch : Nat
  hashq : List (Nat × Option W32)
  parity : List (Reg × Bool × Bool)
  fatal : Option TrapInfo
  batch : BatchSt
  stop : Option StopInfo
  cleared : BitVec 12
deriving DecidableEq, Repr

/-- A quad region (R87, R88): its members' lanes and the overlays of its helper lanes. -/
structure Region where
  members : List Nat
  helpers : AL RegFile
deriving DecidableEq, Repr

/-- A resident group: its launch's unique number, core, port, flock slot, index in the flock, logical index, its eight
lanes and the regions of its two quads. -/
structure Group where
  uid : Nat
  launch : Nat
  core : Nat
  port : Nat
  slot : Nat
  gidx : Nat
  logical : Nat
  lanes : List Thread
  q0 : Option Region
  q1 : Option Region
deriving DecidableEq, Repr

/-- A barrier (R148): its phase, and the logical ids of the threads that have arrived at it. A thread keeps its logical id
in a pen, so that it has arrived at one phase only once (R149). -/
structure Barrier where
  phase : W32
  arrived : List W32
deriving DecidableEq, Repr

def Barrier.fresh : Barrier := ⟨0, []⟩

/-- One lane an instruction executes for: a thread, or a helper lane of its group's quad region (R88). -/
structure LaneRef where
  g : Nat
  lane : Nat
  helper : Bool
deriving DecidableEq, Repr

/-- Which half of a word is being executed (R33). -/
inductive HalfPos where
  | full | a | b
deriving DecidableEq, Repr

/-- The word being issued: its core and port, its launch, its byte address, its bits, the lanes for which it executes (predicate true)
and those that take part but do not execute, and for a half the other half of the word. -/
structure IssueCtx where
  core : Nat
  port : Nat
  launch : Nat
  pc : W64
  word : W64
  cycle : Nat
  seq : Nat
  half : HalfPos
  partner : Option Instr
  lanes : List LaneRef
  off : List LaneRef
deriving DecidableEq, Repr

/-- What a scratchpad access does at its performance point (R164). -/
inductive ScratchOp where
  | load (w : Width)
  | store (w : Width) (vals : List TW)
  | loadTag
  | atom (op : AtomOp) (b c : TW)
  | cellAdd (x : TW) (l : Byte)
  | cellRdF32 (l : Byte)
  | cellRdRaw
  | cellClr
  | push (vals : List TW)
  | ret
  | tretPop (tpc : W64)
  | waita
  | pencfg (p : BitVec 4)
  | penwakeMask (mask : Byte)
  | penwakeWord (p : BitVec 4) (id : W32)
  | penflush (p : BitVec 4) (bin : Option (BitVec 4))
  | penhold (rel : Bool) (p : BitVec 4) (bin : Option (BitVec 4))
  | penstat (p : BitVec 4)
  | pentile (p : BitVec 4) (bin : BitVec 4)
  | suspendRow (ready : Bool) (p : BitVec 4) (key : BitVec 4) (row : List TW) (preds : BitVec 8)
  | resumeRow (p frame n : Nat)
  | aacfg
  | snap (cmd : Nat)
deriving DecidableEq, Repr

/-- A scratchpad access in flight: due at a cycle of the target core's die, its order class and keys of R164, who made
it, the flock it reaches, its byte address, for a load the issue place and destinations of its result or the flagged result it
feeds, and the word's address, site, high half and source tags, the lowest executing lane of its group, and the tag rule
and the FCR its thread had when it issued (R176), for a trap or a birth decided there. -/
structure ScratchAcc where
  due : Nat
  core : Nat
  cls : Nat
  src : Nat
  port : Nat
  logical : Nat
  lane : LaneRef
  flock : Nat
  addr : Nat
  op : ScratchOp
  dests : List Reg
  seq : Nat
  flagId : Option Nat
  pc : W64
  hi : W32
  site : Tag
  first : Nat
  mode : BitVec 2
  fcr : BitVec 6
  tags : Tag × Tag × Tag
deriving DecidableEq, Repr

/-- An issue port of a core (R83 to R95, R374): the current group of each deterministic launch, groups that yielded
(R151), the candidate served last (none is the non-deterministic set), and whether the port has been served in this
cycle. -/
structure Port where
  current : AL Nat
  yielded : List Nat
  lastServed : Option Nat
  served : Bool
  forced : Option (Nat × Nat)
deriving DecidableEq, Repr

def Port.fresh : Port := ⟨[], [], none, false, none⟩

/-- The origin unit of a core, for one launch (R67, R68): its reserve, whether an add is outstanding, whether no further
add is possible, whether the unit has stopped, and whether a birth was met that must wait for the reserve: a step that
would leave this set is not taken (`State.births`). -/
structure OriginUnit where
  reserve : List Nat
  refill : Bool
  full : Bool
  stopped : Bool
  starved : Bool
deriving DecidableEq, Repr

def OriginUnit.fresh : OriginUnit := ⟨[], false, false, false, false⟩

/-- An entry of a core's origin cache (R69): the launch, the site with its half, the logical group, and the number of its
record. -/
structure OriginEnt where
  launch : Nat
  site : Tag
  logical : Nat
  num : Nat
deriving DecidableEq, Repr

/-- Trace counters of a core (Table 22.5). -/
abbrev Counters := AL W32

end Sys2Proof.Machine
end

