-- ==== Sys2Proof/Machine/Store.lean ====
section
/-!
DEFINITION. Keyed lists in rising key order and sparse byte memory: the two containers the state is built from. An
entry equal to what an unlisted key reads as is never kept, so that equal contents are equal lists.
-/
namespace Sys2Proof

/-- The entry at a key. -/
def AL.find? {α : Type} (l : AL α) (k : Nat) : Option α :=
  match l with
  | [] => none
  | (j, v) :: t => if j = k then some v else AL.find? t k

/-- The value at a key, `d` where nothing is listed. -/
def AL.get {α : Type} (d : α) (l : AL α) (k : Nat) : α := (AL.find? l k).getD d

/-- Put a value at a key. -/
def AL.insert {α : Type} (l : AL α) (k : Nat) (v : α) : AL α :=
  match l with
  | [] => [(k, v)]
  | (j, w) :: t => if k < j then (k, v) :: (j, w) :: t else if k = j then (k, v) :: t else (j, w) :: AL.insert t k v

/-- Remove a key, wherever it is listed: what is set at a key is read there in every list, canonical or not. -/
def AL.erase {α : Type} (l : AL α) (k : Nat) : AL α :=
  match l with
  | [] => []
  | (j, w) :: t => if k = j then AL.erase t k else (j, w) :: AL.erase t k

/-- Put a value at a key, listing nothing where it is what an unlisted key reads as. -/
def AL.set {α : Type} [DecidableEq α] (d : α) (l : AL α) (k : Nat) (v : α) : AL α :=
  if v = d then AL.erase l k else AL.insert l k v

/-- Apply a function at a key. -/
def AL.modify {α : Type} [DecidableEq α] (d : α) (l : AL α) (k : Nat) (f : α → α) : AL α :=
  AL.set d l k (f (AL.get d l k))

/-- Keys strictly rising and above a bound, and no entry equal to the default. -/
def AL.wfFrom {α : Type} [DecidableEq α] (d : α) (lo : Nat) : AL α → Bool
  | [] => true
  | (k, v) :: t => decide (lo ≤ k) && !decide (v = d) && AL.wfFrom d (k + 1) t

/-- The canonical form of a keyed list. -/
def AL.wf {α : Type} [DecidableEq α] (d : α) (l : AL α) : Bool := AL.wfFrom d 0 l

namespace Machine

/-- Byte memory, as (address, byte) pairs. -/
abbrev Mem := List Host.Cell

/-- What an address that nothing has written reads as (assumption log 4). -/
def Mem.unlisted : Byte := 0

def Mem.read (m : Mem) (a : Nat) : Byte := AL.get Mem.unlisted m a

def Mem.write (m : Mem) (a : Nat) (b : Byte) : Mem := AL.set Mem.unlisted m a b

/-- The canonical form of a memory. -/
def Mem.wf (m : Mem) : Bool := AL.wf Mem.unlisted m

/-- n bytes from an address. -/
def Mem.readBytes (m : Mem) (a : Nat) : Nat → List Byte
  | 0 => []
  | n + 1 => Mem.read m a :: Mem.readBytes m (a + 1) n

/-- Write bytes from an address. -/
def Mem.writeBytes (m : Mem) (a : Nat) : List Byte → Mem
  | [] => m
  | b :: bs => Mem.writeBytes (Mem.write m a b) (a + 1) bs

/-- Little-endian value of n bytes (R5). -/
def Mem.readNat (m : Mem) (a : Nat) : Nat → Nat
  | 0 => 0
  | n + 1 => (Mem.read m a).toNat + 256 * Mem.readNat m (a + 1) n

/-- Write the n little-endian bytes of a value (R5). -/
def Mem.writeNat (m : Mem) (a : Nat) : Nat → Nat → Mem
  | 0, _ => m
  | n + 1, v => Mem.writeNat (Mem.write m a (BitVec.ofNat 8 v)) (a + 1) n (v / 256)

def Mem.read32 (m : Mem) (a : Nat) : W32 := BitVec.ofNat 32 (Mem.readNat m a 4)
def Mem.write32 (m : Mem) (a : Nat) (v : W32) : Mem := Mem.writeNat m a 4 v.toNat
def Mem.read64 (m : Mem) (a : Nat) : W64 := BitVec.ofNat 64 (Mem.readNat m a 8)
def Mem.write64 (m : Mem) (a : Nat) (v : W64) : Mem := Mem.writeNat m a 8 v.toNat

/-- Insert into a list ordered by a key, after equals. -/
def insertBy {α : Type} (lt : α → α → Bool) (x : α) : List α → List α
  | [] => [x]
  | y :: t => if lt x y then x :: y :: t else y :: insertBy lt x t

/-- A list in the order of a comparison, equals in their old order. -/
def sortBy {α : Type} (lt : α → α → Bool) (l : List α) : List α := l.foldl (fun acc x => insertBy lt x acc) []

/-- Whether one list of numbers comes before another. -/
def lexLt : List Nat → List Nat → Bool
  | [], [] => false
  | [], _ => true
  | _, [] => false
  | x :: xs, y :: ys => decide (x < y) || (decide (x = y) && lexLt xs ys)

/-- Replace each element that meets a condition. -/
def updateWhere {α : Type} (p : α → Bool) (f : α → α) (l : List α) : List α := l.map fun x => if p x then f x else x

/-- Replace the element at an index. -/
def updateAt {α : Type} (l : List α) (i : Nat) (f : α → α) : List α :=
  match l, i with
  | [], _ => []
  | x :: xs, 0 => f x :: xs
  | x :: xs, j + 1 => x :: updateAt xs j f

end Machine
end Sys2Proof
end

