-- ==== Sys2Proof/Machine/StateEngine.lean ====
section
/-!
DEFINITION. The state of a core's copy engine (spec 10) and tile engine (spec 12).
-/
namespace Sys2Proof.Machine

/-- Which copy-engine command an entry is. -/
inductive CopyKind where
  | cpy | cpyx | cpyi | cbcast
  | ccoll (op : CcollOp)
deriving DecidableEq, Repr

/-- The registers of a transform core as its user mode sees them (R226): pc, x1 to x31, f0 to f31, v0 to v31 of 512 bits,
and the user CSRs by number. -/
structure XRegs where
  pc : W64
  x : AL W64
  f : AL W64
  v : AL (BitVec 512)
  csr : AL W64
deriving DecidableEq, Repr

/-- A transform core (R226): its 64 KiB of instruction memory, its 128 KiB of data memory, its registers, both as they were
at the latest declared restart point (R218), and the cycle in which its routine last moved a ring. -/
structure XCore where
  code : List Byte
  data : Mem
  regs : XRegs
  point : Mem × XRegs
  moved : Nat
deriving DecidableEq, Repr

def XCore.idle : XCore := ⟨[], [], ⟨0, [], [], [], []⟩, ([], ⟨0, [], [], [], []⟩), 0⟩

/-- An element as a copy command writes it: its bits, its source word's tag, and for a conversion whether it is special and
whether it raised. -/
structure CopyElem where
  bits : Nat
  tag : Tag
  special : Bool
  raised : Bool
deriving DecidableEq, Repr

/-- A word of the destination of which a copy command has written some elements (R220): its address, what the command left
there, and the elements by their places in the word. -/
structure PartWord where
  a : Nat
  left : TW
  els : List (Nat × CopyElem)
deriving DecidableEq, Repr

/-- An entry of the copy engine's queue, from issue until it finishes (R208): what issued it and for whom, the words of
its parameters once read (R211), the accesses and copies it waits for (R224), the first cycle for an access of its own (R182), when it started, the elements delivered in
order, elements written ahead of them, the words written in part, a transform routine's core, input, restart point, output, status, output bytes or
elements sent, tag policy and sleep (R226), a collective's own contribution, and the code it ends with once that is known. -/
structure CopyCmd where
  id : Nat
  kind : CopyKind
  tid : ThreadId
  launch : Nat
  fn : Nat
  flock : Nat
  scope : Scope
  batch : Option Nat
  tagmode : BitVec 2
  site : Tag
  logical : Nat
  first : Nat
  pc : W64
  args : Option (List W32)
  after : List Nat
  prior : List Nat
  earliest : Nat
  started : Option Nat
  next : Nat
  ahead : List Nat
  parts : List PartWord
  xcore : Nat
  input : List (Byte × Tag)
  restart : Nat × Nat
  output : Option (List (Byte × Tag))
  status : Nat
  sent : Nat
  policy : Bool
  asleep : Bool
  own : Option (List TW)
  code : Option Nat
deriving DecidableEq, Repr

/-- An operation of the tile engine's queue (R240): the word, its operands, and once it has been performed the exceptions
it raised and the fold it still has to make (R254), with the code of a failed fold. -/
structure TileOp where
  id : Nat
  instr : Instr
  tid : ThreadId
  launch : Nat
  fn : Nat
  flock : Nat
  a : W32
  b : W64
  tagmode : BitVec 2
  site : Tag
  logical : Nat
  first : Nat
  pc : W64
  ready : Nat
  until_ : Option Nat
  done : Bool
  raised : Exc
  fold : Option TW
  code : Nat
deriving DecidableEq, Repr

/-- The tile engine of a core (Table 12.1): accumulator words by tile, row and column, sc entries, the reservation as
flocks, the operations that a pending release waits for, the launch of its last holder, the queue, the cycle in which it
accepted its last operation (R256) and the completed count. -/
structure TileUnit where
  acc : AL TW
  sc : AL TW
  holder : Option Nat
  releasing : Bool
  releaseAfter : List Nat
  waiting : List Nat
  lastLaunch : Option Nat
  queue : List TileOp
  lastIn : Nat
  done : W32
deriving DecidableEq, Repr

def TileUnit.fresh : TileUnit := ⟨[], [], none, false, [], [], none, [], 0, 0⟩

/-- A spilled frame tile (R264): its overflow slot, its age, and its header of 16 words. -/
structure SpillTile where
  slot : Nat
  age : Nat
  header : List W32
  failed : Bool
deriving DecidableEq, Repr

/-- A spill that waits for the fault service (R264, R274): the victim's frame, its overflow slot, the words written so far,
which are its checkpoint, and whether the service has refused it. -/
structure SpillRun where
  frame : Nat
  slot : Nat
  next : Nat
  refused : Bool
deriving DecidableEq, Repr

/-- A reload that waits for the fault service (R268, R274): the overflow slot, and the words read so far, which are its
checkpoint. -/
structure ReloadRun where
  slot : Nat
  words : List TW
deriving DecidableEq, Repr

/-- A configured pen (R258, R259): its descriptor, its suspend word index and the registers of its liveset, its hold mask,
the ages of its resident tiles by frame, the spill directory, the next age, and the spill and the reload under way. -/
structure Pen where
  fbase : Nat
  w : Nat
  nt : Nat
  obase : W64
  ocap : Nat
  word : Option W32
  live : List Nat
  hold : BitVec 16
  ages : AL Nat
  spilled : List SpillTile
  nextAge : Nat
  spill : Option SpillRun
  reload : Option ReloadRun
deriving DecidableEq, Repr

/-- The configuration of an automaton array (Table 16.2): geometry, threshold, seed, step, image address and nudge table. -/
structure ArrayCfg where
  nc : Nat
  nl : Nat
  k : Nat
  t : Nat
  seed : W64
  step : W64
  image : W64
  nudge : List (Byte × Byte)
deriving DecidableEq, Repr

/-- A command of an automaton array's queues (R287): who issued it, its operands, the cycle after which its sample may be
read, its block once checked, and the AACFGs of its launch that it is held behind (R278). -/
structure ArrayCmd where
  id : Nat
  instr : Instr
  tid : ThreadId
  core : Nat
  launch : Nat
  fn : Nat
  flock : Nat
  a : W64
  b : W32
  tagmode : BitVec 2
  site : Tag
  logical : Nat
  first : Nat
  ready : Nat
  cfg : Option ArrayCfg
  after : List Nat
deriving DecidableEq, Repr

/-- A command being served: when its last write is due, the words it will write, the cells it will write, and for AALD and
AAST the rows moved. -/
structure ArrayRun where
  cmd : ArrayCmd
  due : Nat
  words : List TW
  cells : List (Nat × Byte)
  row : Nat
deriving DecidableEq, Repr

/-- The automaton array of a paddock (Table 16.1): cells by clause · 1,024 + slot (an unlisted cell holds 127), the
configuration in force with its owner, STEP as AAQ reports it, the geometry and the flock of the latest AACFG issued,
the paddock core served last (3 before any), the queues in issue order and the command being served. -/
structure ArrayUnit where
  cells : AL Byte
  cfg : Option ArrayCfg
  owner : Option Nat
  fn : Nat
  qstep : W64
  latest : Option (ArrayCfg × Nat × Nat)
  last : Nat
  queue : List ArrayCmd
  run : Option ArrayRun
deriving DecidableEq, Repr

def ArrayUnit.fresh : ArrayUnit := ⟨[], none, none, 0, 0, none, 3, [], none⟩

/-- A thread that SUSPEND is placing (R263), from its checks to its row, with the registers and predicates as its word read
them. -/
structure SuspendReq where
  lane : LaneRef
  flock : Nat
  pen : Nat
  key : Nat
  ready : Bool
  pc : W64
  tag : Tag
  row : List TW
  preds : BitVec 8
deriving DecidableEq, Repr

end Sys2Proof.Machine
end

