-- ==== Sys2Proof/Machine/StateLaunch.lean ====
section
/-!
DEFINITION. The state of launches, flocks and dies (spec 01, 04, 18 Table 18.5, 19).
-/
namespace Sys2Proof.Machine

/-- A write-range entry (Table 19.2). -/
structure WriteRange where
  base : W64
  len : W32
  owner : W32
deriving DecidableEq, Repr

/-- A launch record as read once (R10, Table 18.5), with its write-range table. -/
structure LaunchRec where
  code : W64
  size : Nat
  handler : W32
  w : Nat
  h : Nat
  x0 : Nat
  y0 : Nat
  regs : Nat
  groups : Nat
  pens : Nat
  flocks : Nat
  scratch : Nat
  tlaunch : Bool
  tmark : Bool
  mode : BitVec 5
  anyplace : Bool
  pad : Bool
  tagmode : BitVec 2
  bell : Nat
  slots : List W64
  wrbase : W64
  wrcount : W32
  ranges : List WriteRange
  orign : Nat
  origbase : W64
  argbase : W64
  arglen : W32
  sigaddr : W64
  sigval : W64
  logbase : W64
  loglen : W32
  faultrec : W64
deriving DecidableEq, Repr

namespace LaunchRec
/-- MODE bits (Table 6.12). -/
def det (r : LaunchRec) : Bool := r.mode.getLsbD 0
def record (r : LaunchRec) : Bool := r.mode.getLsbD 1
def replay (r : LaunchRec) : Bool := r.mode.getLsbD 2
def tags (r : LaunchRec) : Bool := r.mode.getLsbD 3
def schk (r : LaunchRec) : Bool := r.mode.getLsbD 4
end LaunchRec

/-- The order log of one atomic station for a launch that records or replays (R322 to R329): chunks as (group, run), the
counts of Table 19.4, its flags, in replay the chunks left and since when the gate has held an access, how many lines of
chunks have been written or chunks read, whether a replay has read its segment, and whether the header has been written. -/
structure StationLog where
  chunks : List (Nat × Nat)
  logged : Nat
  dropped : Nat
  ovf : Bool
  past : Bool
  diverged : Bool
  logerr : Bool
  divat : W32
  pos : Nat
  used : Nat
  heldSince : Option Nat
  lines : Nat
  loaded : Bool
  closing : Bool
  closed : Bool
deriving DecidableEq, Repr

def StationLog.fresh : StationLog := ⟨[], 0, 0, false, false, false, false, 0xFFFFFFFF, 0, 0, none, 0, false, false, false⟩

/-- The trap that ended a launch (R197, Table 18.7): what it would have reported, the byte address of its word, the thread's
logical id, the cause of the stop, and where and at which tick. -/
structure FatalInfo where
  trap : TrapInfo
  pc : W64
  logid : W32
  code : Byte
  core : Nat
  tick : Nat
deriving DecidableEq, Repr

/-- A placed launch: its unique number here, its launch id (R303), the function, queue and packet it came from, its
partition, its record, its placed origin in the core grid, its field's cores, whether it is being ended and with which
status, the trap that ended it, the tick of its start, the timestamp since which it stands as stranded (R308), its paddock barriers by
(paddock, slot, number), its station logs by station, the running time of a replay, and how many open values each of its
sources has drawn (the model's own, assumption log 5). -/
structure Launch where
  uid : Nat
  id : W32
  fn : Nat
  q : Nat
  seq : Nat
  part : Nat
  rec_ : LaunchRec
  x0 : Nat
  y0 : Nat
  running : Bool
  ending : Option Nat
  fatal : Option FatalInfo
  started : Nat
  strandedAt : Option Nat
  padBars : AL Barrier
  logs : AL StationLog
  replayTime : Nat
  drawn : AL Nat
deriving DecidableEq, Repr

/-- A resident flock: its launch, core and slot, its index in the field (R19), its scratchpad window with one tag per
word (R75, R304), its flock barriers, its configured pens and its resume counter (R270). -/
structure Flock where
  uid : Nat
  launch : Nat
  core : Nat
  slot : Nat
  idx : Nat
  size : Nat
  mem : Mem
  tags : AL Tag
  barriers : AL Barrier
  pens : AL Pen
  resumed : Nat
deriving DecidableEq, Repr

/-- A die's clock (R357, R358, R371, R372): core cycles run, the credit of a stretched clock in eighths, the stretches k of a
supply sag and of heat, and the offset of its timestamp against I/O die 0's, in sixteenths of a nanosecond. -/
structure Die where
  cycle : Nat
  credit : Nat
  stretch : BitVec 3
  heat : BitVec 3
  offset : Int
deriving DecidableEq, Repr

def Die.fresh : Die := ⟨0, 0, 0, 0, 0⟩

/-- The parts of a core shared by its threads: issue ports, cached code words by launch and address (R160), and the
origin units by launch, the origin cache in order of use with the most recent first (R69), trace counters, the copy engine's queue, its two transform cores, the tile engine, and threads that SUSPEND is placing. -/
structure CoreSt where
  ports : AL Port
  icache : List (Nat × W64 × W64)
  origin : AL OriginUnit
  originCache : List OriginEnt
  counters : Counters
  copy : List CopyCmd
  xcores : AL XCore
  tile : TileUnit
  suspends : List SuspendReq
deriving DecidableEq, Repr

def CoreSt.fresh : CoreSt := ⟨[], [], [], [], [], [], [], TileUnit.fresh, []⟩

end Sys2Proof.Machine
end

