-- ==== Sys2Proof/Machine/StateMem.lean ====
section
/-!
DEFINITION. The state of global memory: translation, the fault service, the memory registers of Tables 21.5 and 21.6, and
accesses in flight (spec 06, 07, 19, 21).
-/
namespace Sys2Proof.Machine

/-- The sweep of one region of a die or port (R355): from when its next sweep is due, and when the one under way started. -/
structure Scrub where
  due : Nat
  start : Option Nat
deriving DecidableEq, Repr

def Scrub.fresh : Scrub := ⟨0, none⟩

/-- A cached translation of one 64 KiB unit (R338): where it is kept (a die, 8 for the I/O die, or 16 + the number of a
core), its function, VA[47:16], the leaf entry, where the entry lies, and the unit's physical address. -/
structure TlbEntry where
  loc : Nat
  fn : Nat
  page : Nat
  pte : W64
  pteAddr : Nat
  frame : Nat
deriving DecidableEq, Repr

/-- Who waits for the answer to a fault (R342, R343): a thread, a copy stream, an origin unit of a launch on a core, a
tile fold, an automaton array command, a spill or reload of a flock's pen, a station's log, or the shepherd for a launch. -/
inductive Waiter where
  | thread (t : ThreadId)
  | copy (core id : Nat)
  | origin (core launch : Nat)
  | fold (core : Nat)
  | array (pad id : Nat)
  | pen (flock pen : Nat) (reload : Bool)
  | station (launch station : Nat)
  | place (wid : Nat)
deriving DecidableEq, Repr

/-- An outstanding fault (R342): whether its record has been written and with which sequence number, the page, what
opened it, and its waiters. -/
structure FaultSt where
  seq : Option Nat
  page : Nat
  va : W64
  access : Nat
  reason : Nat
  unit : Nat
  cx : Nat
  cy : Nat
  waiters : List Waiter
deriving DecidableEq, Repr

/-- The memory registers of a function page (Table 21.5), the invalidations under way and the fault service's state. -/
structure FnMem where
  root : W64
  invva : W64
  invlen : W64
  invCount : Nat
  inval : List (W64 × W64)
  fqbase : W64
  fqsize : W32
  fqtail : W32
  fqhead : W32
  winbase : W64
  barerr : W32
  nextFault : Nat
  faults : List FaultSt
deriving DecidableEq, Repr

def FnMem.fresh : FnMem := ⟨0, 0, 0, 0, [], 0, 0, 0, 0, 0, 0, 0, []⟩

/-- The memory registers of the PF global page (Table 21.6), and the sweeps by 8 · region + unit. -/
structure PfMem where
  tsbase0 : W64
  tsbase1 : W64
  cecnt : W32
  uecnt : W32
  scrbase : W64
  scrsize : W32
  scrtail : W32
  scrhead : W32
  scrper : W32
  cxlc : W64
  cxlu : W64
  filters : AL (W64 × W64)
  scrubs : AL Scrub
deriving DecidableEq, Repr

def PfMem.fresh : PfMem := ⟨0, 0, 0, 0, 0, 0, 0, 0, 86400, 0, 0, [], []⟩

/-- What a global access does when it is performed (R169), or what the origin unit does (R68). -/
inductive GOp where
  | load (words : Nat)
  | store (vals : List TW)
  | atom (op : AtomOp) (b : TW) (cmp : W32)
  | cellAdd (x : TW) (l : Byte)
  | readRecord (n : Nat)
  | record (n : Nat) (words : List W32)
  | refill
  | overflow
deriving DecidableEq, Repr

/-- A global access in flight (R155, R168, R178): who made it, its addresses, what its page says (R183, R340), the cycle
of its issue and that from which it may be performed, its place in issue order, its word and the tags a trap there reports, the flagged result it feeds, the tag a page without tags gives
(R75), the lowest executing lane of its group's part of the packet (R67), the tag rule its thread had when it issued
(R176), accesses that must be performed before it, the earlier stores merged into it (R186), and whether it has been performed
at .DEV but not acknowledged at .SYS. -/
structure GAcc where
  id : Nat
  lane : LaneRef
  unit : Bool
  launch : Nat
  core : Nat
  logical : Nat
  fn : Nat
  va : W64
  pa : Nat
  tier : Nat
  kind : Nat
  tagged : Bool
  issued : Nat
  earliest : Nat
  seq : Nat
  op : GOp
  pc : W64
  tags : Tag × Tag × Tag
  flagId : Option Nat
  site : Tag
  first : Nat
  mode : BitVec 2
  after : List Nat
  merged : List Nat
  performed : Bool
deriving DecidableEq, Repr

/-- The decision log and counters of a function page (Table 18.12). -/
structure FnLog where
  base : W64
  size : W32
  tail : W32
  head : W32
  lost : W32
  placed : W32
  preempted : W32
  deadlines : W32
  refused : W32
  swaps : W32
  faults : W32
  swapwait : W32
deriving DecidableEq, Repr

def FnLog.fresh : FnLog := ⟨0, 0, 0, 0, 0, 0, 0, 0, 0, 0, 0, 0⟩

/-- A decision record to be written (Table 18.10). -/
structure Drec where
  fn : Nat
  part : Nat
  reason : Nat
  kind : Nat
  rule : Nat
  queue : Nat
  launch : W32
  rect : W32
  detail : W32
deriving DecidableEq, Repr

/-- Events the arbiter sends to hosts as MSI-X messages (R373). -/
inductive MsgKind where
  | faultRecord | queueHalted | logFull | scrubReceipt | thermalChange | thermalTrip
deriving DecidableEq, Repr

/-- What the device has sent out, oldest first: an event message to a function's host, an answer of the management core
through a port's mailbox (R366), the data of a host's read through BAR2 (R345), of a peer's read (R347), or of a read of a
semaphore (R370). -/
inductive OutMsg where
  | msix (fn : Nat) (kind : MsgKind)
  | spdm (port : Bool) (request : Nat) (answer : List Byte)
  | hostRead (fn : Nat) (data : List Byte)
  | peerRead (data : List Byte)
  | semRead (port : Bool) (value : W32)
deriving DecidableEq, Repr

end Sys2Proof.Machine
end

