-- ==== Sys2Proof/Machine/StateDev.lean ====
section
/-!
DEFINITION. The state of partitions and their slices (spec 08, 18), and contributions to collectives (spec 10).
-/
namespace Sys2Proof.Machine

/-- The end of a slice of a partition (R202, R311): its timestamp T0, the reason of its PREEMPT record, the quantum-table entry
that runs next, the dies on which the deadline has come, and whether the stop request has been sent. -/
structure StopReq where
  t0 : Nat
  reason : Nat
  next : Nat
  expired : List Nat
  sent : Bool
deriving DecidableEq, Repr

/-- A partition (R310, R312): its register, its quantum table, the entry that runs, the entry after which the rotation goes
on, the entry whose doorbell asked for a cut, when its slice began, the stop under way with the tick of the last halt, and
whether the save engine still works from the last swap and has made one wait (R204). -/
structure Part where
  reg : W64
  table : AL W32
  cur : Option Nat
  rot : Nat
  cut : Option Nat
  sliceAt : Nat
  stop : Option StopReq
  haltedAt : Option Nat
  saving : Bool
  waited : Bool
deriving DecidableEq, Repr

def Part.fresh : Part := ⟨0, [], none, 15, none, 0, none, none, false, false⟩

/-- PART0 at reset (Table 18.13): the whole grid, enabled. -/
def Part.whole : Part := { Part.fresh with reg := 0x0000000128080000 }

/-- An answer to an origin unit's fault that takes effect when its context is restored (R343): the unit's core as the context
names it, its launch, the page, and whether it was granted. -/
structure OriginAnswer where
  core : Nat
  launch : Nat
  page : Nat
  granted : Bool
deriving DecidableEq, Repr

/-- A saved context (R203 to R206): the partition and function it belongs to, its groups, flocks and cores, and the threads
and origin units whose fault was answered while it was switched out (R343). -/
structure Context where
  part : Nat
  fn : Nat
  groups : List Group
  flocks : List Flock
  cores : AL CoreSt
  refused : List ThreadId
  origins : List OriginAnswer
deriving DecidableEq, Repr

/-- What another module contributes to a collective (R225, R234), one word per element. -/
structure Join where
  cid : W32
  mask : W64
  rank : Nat
  op : Nat
  fmt : Nat
  count : W32
  root : Nat
  data : List TW
deriving DecidableEq, Repr

end Sys2Proof.Machine
end

