-- ==== Sys2Proof/Machine/StateShep.lean ====
section
/-!
DEFINITION. The state of the shepherd (spec 18), of trace (spec 22) and of the management core, the host ports and the
links (spec 21, 23).
-/
namespace Sys2Proof.Machine

/-- A launch that waits for its place (R299, R301): its number here, its packet, where its record lies, its partition as its
queue named it, the record and origin of its claim where step 1 of R304 has been made, and whether its origin-table add has
been refused (R68). -/
structure WaitLaunch where
  wid : Nat
  seq : Nat
  addr : W64
  part : Nat
  claim : Option (LaunchRec × Nat × Nat)
  refused : Bool
deriving DecidableEq, Repr

/-- What a started packet that takes time still does (R300): a copy's acknowledgement, or a trace window that opens or
closes. -/
inductive PacketWork where
  | copy | traceStart | traceStop
deriving DecidableEq, Repr

/-- A registered queue (Table 18.1, R297 to R300): its QCB's address, packets started, TAIL as last read, packets completed
in order, HALTED, an unserved doorbell, packets completed beyond LASTDONE, packets whose operation still works, the launch
that waits for its place, and when a waiting WAITSIG was last read. -/
structure QueueSt where
  qcb : W64
  head : Nat
  tail : Nat
  lastdone : Nat
  halted : Bool
  pending : Bool
  done : List Nat
  work : List (Nat × PacketWork)
  wait : Option WaitLaunch
  polled : Option Nat
deriving DecidableEq, Repr

def QueueSt.fresh : QueueSt := ⟨0, 0, 0, 0, false, false, [], [], none, none⟩

/-- The units of a function that the harts read (Table 18.14): the words FETCH read, whether it failed, the reason and
detail CHECK returned, and the answers of CLAIM and SWAP. -/
structure HartUnits where
  fetched : List W32
  fetchFail : Bool
  check : Nat × W32
  claimed : Bool
  halted : Nat
  swapWait : Nat
deriving DecidableEq, Repr

def HartUnits.fresh : HartUnits := ⟨[], false, (0, 0), false, 0, 0⟩

/-- An image load under R315: idle, busy, loaded, or rejected with a reason. -/
inductive LoadStat where
  | idle | busy | loaded
  | rejected (reason : Nat)
deriving DecidableEq, Repr

/-- The shepherd (Tables 18.12 to 18.14): queues by function · 32 + number, the queue each function was served last, the
next launch id, the registers of the PF global page, low words of 64-bit registers waiting for their high words, the loads
under way, whether replacement microcode runs, and the harts' units. -/
structure Shep where
  queues : AL QueueSt
  served : AL Nat
  nextLaunch : W32
  nextWait : Nat
  minq : W32
  savebase : W64
  mcaddr : W64
  mclen : W32
  mcstat : LoadStat
  rtaddr : W64
  rtlen : W32
  rtstat : LoadStat
  rtid : Nat
  perr : Bool
  custom : Bool
  lows : AL W32
  units : AL HartUnits
  qpend : List Nat
deriving DecidableEq, Repr

def Shep.fresh : Shep :=
  { queues := [], served := [], nextLaunch := 0, nextWait := 1, minq := 10, savebase := 0, mcaddr := 0, mclen := 0,
    mcstat := .idle, rtaddr := 0, rtlen := 0, rtstat := .idle, rtid := 0, perr := false, custom := false, lows := [],
    units := [], qpend := [] }

/-- Record kinds (Table 22.4). -/
inductive TraceKind where
  | windowOpen | windowClose | mark | sampleCore | sampleDie | launchStart | launchEnd | gap
deriving DecidableEq, Repr

/-- A record that a trace collector buffers (R363), with the bytes it takes there and the launch that made it, if one did. -/
structure HeldRecord where
  kind : TraceKind
  payload : List Byte
  ts : Nat
  size : Nat
  launch : Option Nat
deriving DecidableEq, Repr

/-- A trace stream in an open window (R360 to R364): where its next record goes, bytes written into record frames, the
timestamp of its last record, records lost in all and since it stopped, the cause of Table 22.4 for which it is stopped,
whether a full ring ended it, its die's next tick, the timestamps of its WINDOW.OPEN and WINDOW.CLOSE, whether its header has
been written, whether the memory path takes none of its records now, and those its collector holds. -/
structure TraceStream where
  pos : Nat
  written : Nat
  last : Nat
  lost : Nat
  since : Nat
  stopped : Option Nat
  full : Bool
  tick : Nat
  opened : Option Nat
  closed : Option Nat
  headed : Bool
  blocked : Bool
  held : List HeldRecord
deriving DecidableEq, Repr

def TraceStream.fresh : TraceStream := ⟨0, 0, 0, 0, 0, none, false, 0, none, none, false, false, []⟩

/-- A capture window (Table 22.2) that opens, is open or closes: its packet, its configuration, its nine streams, and the
packet that closes it. -/
structure TraceWindow where
  q : Nat
  seq : Nat
  tbase : W64
  ssize : Nat
  k : Nat
  wrap : Bool
  die : Bool
  core : Bool
  marks : Bool
  streams : List TraceStream
  closing : Option (Nat × Nat)
deriving DecidableEq, Repr

/-- Trace state (Table 22.1): the open window, SKEWd, TRDELAYd, and the die counters of Table 22.5 by die · 8 + counter. -/
structure TraceSt where
  window : Option TraceWindow
  skew : AL W32
  delay : AL W32
  dies : AL W32
deriving DecidableEq, Repr

def TraceSt.fresh : TraceSt := ⟨none, [], [], []⟩

/-- Whether a window still opens (R360): some stream has not written WINDOW.OPEN. -/
def TraceWindow.opening (w : TraceWindow) : Bool := w.streams.any fun t => t.opened.isNone

/-- A Soistlink link (R350): whether it is up, its key id, and the flit counters of the inbound and the outbound direction. -/
structure LinkSt where
  up : Bool
  keyId : Nat
  flits : Nat
  sent : Nat
deriving DecidableEq, Repr

def LinkSt.fresh : LinkSt := ⟨false, 0, 0, 0⟩

/-- An IDE stream of a host port (R350): whether it has a key and whether it is in the insecure state. -/
structure IdeSt where
  keyed : Bool
  insecure : Bool
deriving DecidableEq, Repr

def IdeSt.fresh : IdeSt := ⟨false, false⟩

/-- An SPDM session of a port (R366): none, opened by KEY_EXCHANGE, or established by FINISH. -/
inductive SessionSt where
  | none_ | opened | established
deriving DecidableEq, Repr

/-- The management core, host ports, links, semaphores and heat (Table 23.3, R350, R365 to R372): MGSTAT, the start under way
with its next stage and the tick from which it has stood before it, the measurement registers, PORTMAP and the port each VF stands on, DROOPd, THERM, the semaphores' owners, when the start began, whether an
owner key is provisioned, whether the compute dies are halted by a trip, sessions, IDE streams, links, and scrub sweeps. -/
structure Mgmt where
  state : Nat
  fails : Nat
  reason : Nat
  starting : Option (StartInput × Nat)
  stageAt : Nat
  mr : AL (BitVec 512)
  portmap : BitVec 16
  ports : BitVec 16
  droop : AL W32
  tj : Byte
  thr : Bool
  trip : Bool
  sems : AL Nat
  since : Nat
  ownerKey : Bool
  dead : Bool
  sessions : AL SessionSt
  negotiated : AL Bool
  ide : AL IdeSt
  links : AL LinkSt
  sweeps : Nat
  cxlBytes : Nat
deriving DecidableEq, Repr

def Mgmt.fresh : Mgmt :=
  { state := 0, fails := 0, reason := 0, starting := none, stageAt := 0, mr := [], portmap := 0, ports := 0, droop := [], tj := 0, thr := false,
    trip := false, sems := [], since := 0, ownerKey := false, dead := false, sessions := [], negotiated := [], ide := [],
    links := [], sweeps := 0, cxlBytes := 0 }

end Sys2Proof.Machine
end

