-- ==== Sys2Proof/Machine/State.lean ====
section
/-!
DEFINITION. The state of the module, and its state after reset.
-/
namespace Sys2Proof.Machine

/-- Reasons a step can stop with a fault. The manual gives every event an outcome, so none is raised. -/
inductive Fault where
  /-- Raised by no one: the machine of the manual does not stop. Safe. -/
  | halted
deriving DecidableEq, Repr

/-- Reasons a step is refused. -/
inductive Refusal where
  /-- Raised by an arm of `exec` whose instruction has no meaning yet. Safe: the run ends there. -/
  | notModelled (mnemonic : String)
deriving DecidableEq, Repr

/-- The whole module. -/
structure State where
  tick : Nat
  dies : AL Die
  groups : List Group
  flocks : List Flock
  launches : List Launch
  cores : AL CoreSt
  scratch : List ScratchAcc
  mem : Mem
  tlb : List TlbEntry
  gaccs : List GAcc
  fnMem : AL FnMem
  pfMem : PfMem
  fnLog : AL FnLog
  poison : List Nat
  integrity : List Nat
  latent : List (Nat × LineErr)
  retired : List Nat
  cxlCount : AL Nat
  parts : AL Part
  contexts : List Context
  joins : List Join
  arrays : AL ArrayUnit
  arraySaved : List (Nat × ArrayUnit)
  domain : Nat
  shep : Shep
  trace : TraceSt
  mgmt : Mgmt
  routines : List Nat
  images : AL (List Byte)
  nextUid : Nat
  issueSeq : Nat
  fresh : Nat
  inbox : List Input
  outbox : List OutMsg
  cur : Option IssueCtx
deriving DecidableEq, Repr

/-- The machine right after reset. -/
def State.reset : State where
  tick := 0
  dies := []
  groups := []
  flocks := []
  launches := []
  cores := []
  scratch := []
  mem := []
  tlb := []
  gaccs := []
  fnMem := []
  pfMem := PfMem.fresh
  fnLog := []
  poison := []
  integrity := []
  latent := []
  retired := []
  cxlCount := []
  parts := [(0, Part.whole)]
  contexts := []
  joins := []
  arrays := []
  arraySaved := []
  domain := 0
  shep := Shep.fresh
  trace := TraceSt.fresh
  mgmt := Mgmt.fresh
  routines := []
  images := []
  nextUid := 1
  issueSeq := 0
  fresh := 0
  inbox := []
  outbox := []
  cur := none

end Sys2Proof.Machine
end

