-- ==== Sys2Proof/Machine/Ops.lean ====
section
/-!
DEFINITION. Named operations over the state: finding and changing its parts, registers and writes in flight, and taking
a trap (R197) with the return from one (R159).
-/
namespace Sys2Proof.Machine

/-! Where a core stands (R6, R7). A core's number is y · 8 + x. -/

def coreX (c : Nat) : Nat := c % 8
def coreY (c : Nat) : Nat := c / 8
def coreAt (x y : Nat) : Nat := y * 8 + x
/-- The compute die of a core (R6). -/
def dieOf (c : Nat) : Nat := 2 * (coreY c / 10) + coreX c / 4
/-- Where a core keeps its own translations (R338). -/
def coreLoc (c : Nat) : Nat := 16 + c
/-- The paddock of a core, and its index in it (R7). -/
def padOf (c : Nat) : Nat := (coreY c / 2) * 4 + coreX c / 2
def padIdx (c : Nat) : Nat := coreX c % 2 + 2 * (coreY c % 2)
/-- The core with an index in a paddock. -/
def padCore (p i : Nat) : Nat := coreAt (2 * (p % 4) + i % 2) (2 * (p / 4) + i / 2)

namespace State

def die (s : State) (d : Nat) : Die := AL.get Die.fresh s.dies d
/-- The cycle count of a core's die. -/
def cycle (s : State) (core : Nat) : Nat := (s.die (dieOf core)).cycle
def core (s : State) (c : Nat) : CoreSt := AL.get CoreSt.fresh s.cores c
def modCore (s : State) (c : Nat) (f : CoreSt → CoreSt) : State :=
  { s with cores := AL.modify CoreSt.fresh s.cores c f }
def port (s : State) (c p : Nat) : Port := AL.get Port.fresh (s.core c).ports p
def modPort (s : State) (c p : Nat) (f : Port → Port) : State :=
  s.modCore c fun k => { k with ports := AL.modify Port.fresh k.ports p f }
def group? (s : State) (g : Nat) : Option Group := s.groups.find? fun x => decide (x.uid = g)
def modGroup (s : State) (g : Nat) (f : Group → Group) : State :=
  { s with groups := updateWhere (fun x => decide (x.uid = g)) f s.groups }
def launch? (s : State) (u : Nat) : Option Launch := s.launches.find? fun x => decide (x.uid = u)
def modLaunch (s : State) (u : Nat) (f : Launch → Launch) : State :=
  { s with launches := updateWhere (fun x => decide (x.uid = u)) f s.launches }
def flock? (s : State) (u : Nat) : Option Flock := s.flocks.find? fun x => decide (x.uid = u)
def modFlock (s : State) (u : Nat) (f : Flock → Flock) : State :=
  { s with flocks := updateWhere (fun x => decide (x.uid = u)) f s.flocks }
/-- The flock of a launch in a slot of a core. -/
def flockAt? (s : State) (l core slot : Nat) : Option Flock :=
  s.flocks.find? fun x => decide (x.launch = l ∧ x.core = core ∧ x.slot = slot)
def flockOf? (s : State) (g : Nat) : Option Flock :=
  match s.group? g with
  | some x => s.flockAt? x.launch x.core x.slot
  | none => none
def thread? (s : State) (t : ThreadId) : Option Thread :=
  match s.group? t.g with
  | some g => g.lanes[t.lane]?
  | none => none
def modThread (s : State) (t : ThreadId) (f : Thread → Thread) : State :=
  s.modGroup t.g fun g => { g with lanes := updateAt g.lanes t.lane f }
def modSys (s : State) (t : ThreadId) (f : SysRegs → SysRegs) : State :=
  s.modThread t fun x => { x with sys := f x.sys }

end State

namespace Flock

/-- The local address of a frame tile (R259). -/
def frameAddr (p : Pen) (n : Nat) : Nat := p.fbase + n * (64 + 32 * p.w)
/-- The first header word of a frame tile. -/
def header0 (f : Flock) (p : Pen) (n : Nat) : W32 := Mem.read32 f.mem (frameAddr p n)
/-- STATE, KEY, WAKE and FILL of a header word (Table 14.2). -/
def hState (h : W32) : Nat := h.toNat / 2 ^ 24 % 4
def hKey (h : W32) : Nat := h.toNat / 2 ^ 16 % 256
def hWake (h : W32) : Nat := h.toNat / 2 ^ 8 % 256
def hFill (h : W32) : Nat := h.toNat % 256
/-- Frames of a pen in use. -/
def usedFrames (f : Flock) (p : Pen) : List Nat := (List.range p.nt).filter fun n => decide (hState (f.header0 p n) ≠ 0)
/-- Whether a flock has a row asleep in a pen, resident or spilled. -/
def rowsAsleep (f : Flock) : Bool :=
  f.pens.any fun e => !e.2.spilled.isEmpty || (f.usedFrames e.2).any fun n => decide (hFill (f.header0 e.2 n) ≠ 0)

end Flock

/-- The quad region a lane's quad is in. -/
def Group.region (g : Group) (lane : Nat) : Option Region := if lane < 4 then g.q0 else g.q1
def Group.setRegion (g : Group) (lane : Nat) (r : Option Region) : Group :=
  if lane < 4 then { g with q0 := r } else { g with q1 := r }

/-- Whether a lane is a member of a quad region of which some member meets a condition. -/
def Group.sharesRegion (g : Group) (lane : Nat) (c : Thread → Bool) : Bool :=
  match g.region lane with
  | some r => r.members.contains lane && r.members.any fun m => (g.lanes[m]?).any c
  | none => false

namespace LaneRef
def tid (l : LaneRef) : ThreadId := ⟨l.g, l.lane⟩
end LaneRef

namespace State

/-- The registers of a lane: the thread's, or the overlay of a helper lane (R88). -/
def rf (s : State) (l : LaneRef) : RegFile :=
  if l.helper then
    match s.group? l.g with
    | some g =>
      match g.region l.lane with
      | some r => AL.get RegFile.fresh r.helpers l.lane
      | none => RegFile.fresh
    | none => RegFile.fresh
  else
    match s.thread? l.tid with
    | some t => t.rf
    | none => RegFile.fresh

def modRf (s : State) (l : LaneRef) (f : RegFile → RegFile) : State :=
  if l.helper then
    s.modGroup l.g fun g =>
      match g.region l.lane with
      | some r => g.setRegion l.lane (some { r with helpers := AL.insert r.helpers l.lane (f (AL.get RegFile.fresh r.helpers l.lane)) })
      | none => g
  else s.modThread l.tid fun t => { t with rf := f t.rf }

end State

/-! Registers (R96 to R99). -/

namespace RegFile

def getV (r : RegFile) (n : Nat) : TW := AL.get TW.zero r.v n
/-- A register that the file holds; codes that hold no state read 0 here (`State.operand` gives them their value). -/
def get (r : RegFile) : Reg → TW
  | .v n => r.getV n.val
  | .o n => AL.get TW.zero r.o n.val
  | .last => r.last
  | _ => TW.zero
/-- Write a register at once; a write to zero is discarded (R25). -/
def put (r : RegFile) (x : Reg) (w : TW) : RegFile :=
  match x with
  | .v n => { r with v := AL.set TW.zero r.v n.val w }
  | .o n => { r with o := AL.set TW.zero r.o n.val w }
  | _ => r
/-- A predicate; k0 reads 1 (R99). -/
def pred (r : RegFile) (n : BitVec 3) : Bool := decide (n = 0) || r.k.getLsbD n.toNat
def setPred (r : RegFile) (n : BitVec 3) (b : Bool) : RegFile :=
  if n = 0 then r
  else { r with k := if b then r.k ||| ((1 : BitVec 8) <<< n.toNat) else r.k &&& ~~~((1 : BitVec 8) <<< n.toNat) }
/-- A predicate source with its negation (R24). -/
def ksel (r : RegFile) (k : KSel) : Bool := r.pred k.k != k.neg

/-- Put one landed write in place (R103). A write to last takes effect only if no later word's has (R98). -/
def land (r : RegFile) (w : Landing) : RegFile :=
  match w.val with
  | none => r
  | some x =>
    match w.dst with
    | .pred k => r.setPred k (x.val.getLsbD 0)
    | .reg .last => if r.lastSeq ≤ w.seq then { r with last := x, lastSeq := w.seq } else r
    | .reg q => r.put q x

/-- Whether a landing writes a register: last takes no write of a word before the one it holds (R98). -/
def writtenBy (r : RegFile) (w : Landing) (x : Reg) : Bool :=
  decide (w.dst = .reg x) && (!decide (x = .last) || decide (r.lastSeq ≤ w.seq))

/-- Whether one write lands before another. -/
def landsBefore (a b : Landing) : Bool := decide (a.cyc < b.cyc) || (decide (a.cyc = b.cyc) && decide (a.seq < b.seq))

/-- The register a landing writes, with the issue place of its word. -/
def landedReg (w : Landing) : Option (Reg × Nat) :=
  match w.dst with
  | .reg q => some (q, w.seq)
  | .pred _ => none

/-- Put every write that lands at or before a cycle in place, in landing order (R103). -/
def landAll (r : RegFile) (cyc : Nat) : RegFile :=
  let due := r.pend.filter fun w => decide (w.cyc ≤ cyc)
  let r' := { r with pend := r.pend.filter fun w => !decide (w.cyc ≤ cyc), landed := due.filterMap landedReg }
  (sortBy landsBefore due).foldl land r'

/-- Put a flagged result's write in place in its landing cycle: a write of a word issued later that has landed in the same
cycle stays (R103). -/
def landLate (r : RegFile) (seq : Nat) (q : Reg) (w : TW) : RegFile :=
  if r.landed.any fun e => decide (e.1 = q ∧ seq < e.2) then r
  else { r.put q w with landed := r.landed ++ [(q, seq)] }

end RegFile

/-- The number of the register above a main register; other codes have none. -/
def regPlus : Reg → Nat → Reg
  | .v n, i => if h : n.val + i < 240 then .v ⟨n.val + i, h⟩ else .zero
  | r, _ => r

/-- The registers of a range (R105). -/
def regRange (r : Reg) (n : Nat) : List Reg := (List.range n).map (regPlus r)

/-- The tag a helper lane's results carry (R88). -/
def helperTag : Tag := 0xFFFD

namespace State

/-- The value a lane reads from an operand code (R25). -/
def operand (s : State) (l : LaneRef) (r : Reg) : TW :=
  match r with
  | .lane => ⟨BitVec.ofNat 32 l.lane, 0⟩
  | .grp =>
    match s.group? l.g with
    | some g => ⟨BitVec.ofNat 32 g.gidx, 0⟩
    | none => TW.zero
  | .flk =>
    match s.flockOf? l.g with
    | some f => ⟨BitVec.ofNat 32 f.idx, 0⟩
    | none => TW.zero
  | .cxy =>
    match s.group? l.g with
    | some g => ⟨BitVec.ofNat 32 (coreX g.core + 256 * coreY g.core), 0⟩
    | none => TW.zero
  | r => (s.rf l).get r

/-- Put writes of a word in flight: they land at a cycle, for a fixed-latency word the last of them also in last (R98).
Of a pair's two results last takes half B's, unless half B is NOP (R35). -/
def inFlight (s : State) (c : IssueCtx) (l : LaneRef) (lat : Nat) (toLast : Bool) (ws : List (Reg × TW)) : State :=
  let tag (w : TW) : TW := if l.helper then ⟨w.val, helperTag⟩ else w
  let keep := toLast ∧ (c.half ≠ .a ∨ c.partner = some .nopHalf ∨ c.partner = none)
  let mk (r : Reg) (w : TW) : Landing := ⟨c.cycle + lat, c.seq, .reg r, some (tag w)⟩
  let regs := (ws.filter fun w => decide (w.1 ≠ .zero)).map fun w => mk w.1 w.2
  let lst := match ws.getLast? with
    | some w => if keep then [mk .last w.2] else []
    | none => []
  s.modRf l fun r => { r with pend := r.pend ++ regs ++ lst }

/-- Put a predicate write in flight; a write to k0 is discarded (R99). -/
def predInFlight (s : State) (c : IssueCtx) (l : LaneRef) (lat : Nat) (k : BitVec 3) (b : Bool) : State :=
  if k = 0 then s
  else s.modRf l fun r => { r with pend := r.pend ++ [⟨c.cycle + lat, c.seq, .pred k, some ⟨if b then 1 else 0, 0⟩⟩] }

/-- Close the quad region of which a lane's quad is a part: overlays are discarded (R89). -/
def closeRegion (s : State) (t : ThreadId) : State :=
  s.modGroup t.g fun g =>
    match g.region t.lane with
    | some r => if r.members.contains t.lane then g.setRegion t.lane none else g
    | none => g

/-- Whether a group could be made current (R94): some present lane does not sleep at a switch point, or its sleep there has
ended. A fault sleep is at no switch point; a thread that SUSPEND is placing runs no further word. -/
def awakeGroup (s : State) (g : Group) : Bool :=
  let cyc := s.cycle g.core
  let due (w : Option Nat) : Bool := match w with
    | some t => decide (t ≤ cyc)
    | none => false
  g.lanes.any fun t => t.present && (match t.sleep with
    | .awake => true
    | .barrier _ _ _ w => due w
    | .bwait _ _ _ w => due w
    | .waita _ _ _ _ _ _ w => due w
    | .trsv _ w => due w
    | .deciding => true
    | .fence .. => true
    | .fault .. => true
    | .trapWait .. => true
    | .stopped => true
    | _ => false)

/-- The groups of a launch bound to a port. -/
def portGroups (s : State) (core port launch : Nat) : List Group :=
  s.groups.filter fun g => decide (g.core = core ∧ g.port = port ∧ g.launch = launch)

/-- The group a deterministic port makes current: the runnable one with the lowest logical index (R94, R151). -/
def nextCurrent (s : State) (core port launch : Nat) : Option Nat :=
  let gs := (s.portGroups core port launch).filter s.awakeGroup
  let y := (s.port core port).yielded
  let free := gs.filter fun g => !y.contains g.uid
  let pool := if free.isEmpty then gs else free
  match sortBy (fun a b : Group => decide (a.logical < b.logical)) pool with
  | g :: _ => some g.uid
  | [] => none

/-- A port takes its next current group for a deterministic launch (R94); the groups that yield are passed over (R151). DESIGN
CHOICE: where only groups that yielded are runnable the lowest is taken, and the others stay passed over until the next switch
point (assumption log 91). With no runnable group it has none, and takes the lowest that is runnable when it is next served
(assumption log 70). -/
def switchPort (s : State) (core port launch : Nat) (yields : List Nat) : State :=
  match s.launch? launch with
  | none => s
  | some l =>
    if !l.rec_.det then s
    else
      let mine := (s.portGroups core port launch).map (·.uid)
      let s2 := s.modPort core port fun p =>
        { p with yielded := (p.yielded.filter fun u => !mine.contains u) ++ yields }
      match s2.nextCurrent core port launch with
      | some u => s2.modPort core port fun p => { p with current := AL.insert p.current launch u }
      | none => s2.modPort core port fun p => { p with current := AL.erase p.current launch }

/-- Whether a group is its port's current one (R94). -/
def isCurrent (s : State) (g : Group) : Bool := decide (AL.find? (s.port g.core g.port).current g.launch = some g.uid)

/-- A switch point of a group (R94): the port takes its next current group where the group is the current one; `yields` are
the groups that yield with it (R151). Outside deterministic mode nothing happens. -/
def switchPoint (s : State) (g : Nat) (yields : List Nat) : State :=
  match s.group? g with
  | none => s
  | some x => if s.isCurrent x then s.switchPort x.core x.port x.launch yields else s

end State

/-! Taking a trap (R193 to R198). -/

/-- The byte address of a word of a launch's code (R20). DESIGN CHOICE: an index below word 0 is the 32-bit index modulo 2^32,
so that TINFOH:TINFO of an LDK that names one is CODE + 8 · (2^32 − k) (assumption log 69). -/
def LaunchRec.addrOf (r : LaunchRec) (idx : W32) : W64 := r.code + (idx.setWidth 64 <<< 3)

/-- The index of the word at a byte address, modulo 2^32. -/
def LaunchRec.idxOf (r : LaunchRec) (a : W64) : W32 := ((a - r.code) >>> 3).setWidth 32

namespace State

/-- A fatal stop (R197): the thread stops in place, and the first to fail in its launch ends the launch with status FAULT. -/
def fatalStop (s : State) (t : ThreadId) (ti : TrapInfo) (pc : W64) (code : Byte) : State :=
  match s.group? t.g, s.thread? t with
  | some g, some th =>
    let s1 := s.modThread t fun x => { x with sleep := .ended, fatal := some ti }
    let s2 := s1.modLaunch g.launch fun l =>
      { l with
        ending := if l.ending = none then some 1 else l.ending,
        fatal := if l.fatal = none then some ⟨ti, pc, th.sys.logid, code, g.core, s.tick⟩ else l.fatal }
    s2.switchPoint t.g []
  | _, _ => s

/-- Whether a tag names an origin record of a launch whose write has not been performed (R70). -/
def recordPending (s : State) (launch : Nat) (t : Tag) : Bool :=
  s.gaccs.any fun g => decide (g.launch = launch) && (match g.op with
    | .record n _ => decide (n = t.toNat)
    | _ => false)

/-- The effect of a system register write (R176, Tables 3.6, 3.7, 4.5, 6.10, 6.13, 10.4). -/
def sysWrite (y : SysRegs) (num : BitVec 12) (v : W32) : SysRegs :=
  match num.toNat with
  | 0x000 => { y with tagmode := v.setWidth 2 }
  | 0x001 => { y with fcr := v.setWidth 6 }
  | 0x002 => { y with fsr := y.fsr &&& ~~~(v.setWidth 6) }
  | 0x010 => { y with tpc := ((y.tpc >>> 32).setWidth 32 : W32) ++ v }
  | 0x011 => { y with tpc := v ++ (y.tpc.setWidth 32 : W32) }
  | 0x020 => { y with schken := v.getLsbD 0 }
  | 0x030 => { y with stkp := v &&& 0xFFFFFFFC }
  | 0x102 => { y with engerr := y.engerr &&& ~~~(v.setWidth 5) }
  | 0x104 => { y with cerrSat := y.cerrSat && !v.getLsbD 16 }
  | _ => y

/-- System registers with the writes of earlier words that have not taken effect yet (R176, R196). -/
def sysWrites (y : SysRegs) (ms : List MtsPend) : SysRegs := ms.foldl (fun y m => sysWrite y m.num m.val) y

/-- The system registers of a thread that has taken a trap (R197). -/
def trapSys (y : SysRegs) (ti : TrapInfo) (pc : W64) : SysRegs :=
  { y with
    tpc := pc, tcause := ti.cause, tinfo := ti.info, tinfoh := ti.infoh,
    ttag0 := ti.t0, ttag1 := ti.t1, ttag2 := ti.t2, tfdet := ti.detail,
    depth := y.depth + 1, re := false }

/-- take_trap of R197: a thread takes a trap raised by the word at `pc`, and is ready in its handler from cycle `ready` or
from the bound its last word left (R21). TFDET comes whole in `ti`; the system register writes of the thread's earlier
words take effect before it (R196). A trap that reports a tag naming a record waits until the record has been written
(R70). -/
def takeTrap (s : State) (t : ThreadId) (ti : TrapInfo) (pc : W64) (ready : Nat) : State :=
  match s.group? t.g, s.thread? t with
  | some g, some th =>
    match s.launch? g.launch with
    | none => s
    | some l =>
      match [ti.t0, ti.t1, ti.t2].find? (s.recordPending g.launch) with
      | some x => s.modThread t fun y => { y with sleep := .trapWait ti x.toNat, wpc := pc }
      | none =>
      if l.rec_.handler = 0xFFFFFFFF then s.fatalStop t ti pc ti.cause
      else if th.sys.depth = 15 ∨ (1 ≤ th.sys.depth.toNat ∧ th.sys.re = false) then s.fatalStop t ti pc 0x16
      else
        let s1 := s.modThread t fun x =>
          { x with
            pc := l.rec_.addrOf l.rec_.handler,
            sleep := .awake,
            nextIssue := max x.nextIssue ready,
            sys := trapSys (sysWrites x.sys x.mts) ti pc,
            mts := [] }
        (s1.closeRegion t).switchPoint t.g []
  | _, _ => s

/-- The eight words of the trap state that TREN pushes and TRET pops (R159), the tags zero-extended. -/
def trapWords (y : SysRegs) : List W32 :=
  [y.tpc.setWidth 32, (y.tpc >>> 32).setWidth 32, y.tcause.setWidth 32, y.tinfo, y.tinfoh,
   y.ttag0.setWidth 32, y.ttag1.setWidth 32, y.ttag2.setWidth 32]

/-- The trap state set from eight popped words (R159). -/
def setTrapWords (y : SysRegs) (w : List W32) : SysRegs :=
  let g (i : Nat) : W32 := w.getD i 0
  { y with
    tpc := (g 1 ++ g 0 : BitVec 64), tcause := (g 2).setWidth 8, tinfo := g 3, tinfoh := g 4,
    ttag0 := (g 5).setWidth 16, ttag1 := (g 6).setWidth 16, ttag2 := (g 7).setWidth 16 }

/-- Return from a trap at depth 1 or more (R159): to `tpc`, TPCH:TPCL as TRET read it, the depth one less; at a new depth of
1 or more, `popped` is the trap state read from the stack, and re-entry is allowed again. -/
def trapReturn (s : State) (t : ThreadId) (tpc : W64) (popped : Option (List W32)) : State :=
  s.modThread t fun x =>
    let y := { x.sys with depth := x.sys.depth - 1 }
    match popped with
    | some w => { x with pc := tpc, sys := { setTrapWords y w with stkp := y.stkp + 32, re := true } }
    | none => { x with pc := tpc, sys := y }

end State

end Sys2Proof.Machine
end

