-- ==== Sys2Proof/Machine/Tags.lean ====
section
/-!
DEFINITION. Origin tags: births (R67 to R69) and the four tag rules (R71 to R74).
-/
namespace Sys2Proof.Machine

/-- The site-only tag of a word: half and word index modulo 4,096 (Table 3.10, R65). -/
def siteTag (idx : W32) (half : Bool) : Tag :=
  0x8000 ||| (if half then 0x1000 else 0) ||| (idx.setWidth 12).setWidth 16

/-- What a unit does when its reserve has changed (R68): with 4 numbers or fewer it has an add outstanding, unless no
further add is possible. -/
def OriginUnit.settle (u : OriginUnit) : OriginUnit :=
  { u with refill := decide (u.reserve.length ≤ 4) && !u.full && !u.stopped }

/-- Whether an atomic's result takes its tag by the rule (R166, R169), and so may be born. -/
def atomBears : AtomOp → Bool
  | .add | .and | .or | .xor => true
  | _ => false
def ScratchOp.mayBear : ScratchOp → Bool
  | .atom op _ _ => atomBears op
  | .cellRdF32 _ => true
  | _ => false
def GOp.mayBear : GOp → Bool
  | .atom op _ _ => atomBears op
  | _ => false

namespace State

/-- A die's raw timestamp in units of 1 ns: 33 core cycles at the nominal clock are 10 ns (R8, R357). It lies off I/O die 0's,
which is die 8, by the die's offset (R358), and is 0 until the die has left reset. -/
def timestamp (s : State) (die : Nat) : Nat :=
  if die = 8 then s.tick * 10 / 33 else (((s.tick * 160 / 33 : Nat) : Int) + (s.die die).offset).toNat / 16

/-- The site-only tag of the word being issued. -/
def siteOf (s : State) (c : IssueCtx) : Tag :=
  match s.launch? c.launch with
  | some l => siteTag (l.rec_.idxOf c.pc) (decide (c.half = .b))
  | none => 0x8000

def originUnit (s : State) (core launch : Nat) : OriginUnit := AL.get OriginUnit.fresh (s.core core).origin launch
def modOrigin (s : State) (core launch : Nat) (f : OriginUnit → OriginUnit) : State :=
  s.modCore core fun k => { k with origin := AL.modify OriginUnit.fresh k.origin launch f }

/-- Queue a background access of the origin unit, to an entry of the origin table (R68). -/
def queueOrigin (s : State) (core launch : Nat) (off : Nat) (op : GOp) : State :=
  match s.launch? launch with
  | none => s
  | some l =>
    let g : GAcc :=
      { id := s.nextUid, lane := ⟨0, 0, false⟩, unit := true, launch := launch, core := core, logical := 0, fn := l.fn,
        va := l.rec_.origbase + BitVec.ofNat 64 off, pa := 0, tier := 0, kind := 1, tagged := false, issued := s.cycle core,
        earliest := s.cycle core + Config.globalMin, seq := s.issueSeq, op := op, pc := 0, tags := (0, 0, 0), flagId := none, site := 0, first := 0,
        mode := 0, after := [], merged := [], performed := false }
    { s with gaccs := s.gaccs ++ [g], nextUid := s.nextUid + 1 }

/-- The number that a core's origin cache holds for a key (R67, R69). -/
def cachedNum (s : State) (core launch logical : Nat) (st : Tag) : Option Nat :=
  ((s.core core).originCache.find? fun e => decide (e.launch = launch ∧ e.site = st ∧ e.logical = logical)).map (·.num)

/-- Put a key first in a core's origin cache, which keeps its 64 latest (R69). -/
def cacheNum (s : State) (core : Nat) (e : OriginEnt) : State :=
  s.modCore core fun k =>
    { k with originCache := (e :: k.originCache.filter fun x => !decide (x.launch = e.launch ∧ x.site = e.site ∧ x.logical = e.logical)).take 64 }

/-- The keys for which accesses of a core's threads in flight may still make a birth: the core keeps a number for each
(assumption log 55). -/
def pledged (s : State) (core launch : Nat) : List (Tag × Nat) :=
  let far := (s.scratch.filter fun a =>
    a.op.mayBear && !a.lane.helper && ((s.group? a.lane.g).any fun g => decide (g.core = core ∧ g.launch = launch))).map fun a =>
      (a.site, a.logical)
  let global := (s.gaccs.filter fun g => !g.unit && !g.performed && g.op.mayBear && decide (g.core = core ∧ g.launch = launch)).map
    fun g => (g.site, g.logical)
  ((far ++ global).filter fun k => (s.cachedNum core launch k.2 k.1).isNone).eraseDups

/-- A birth was met that must wait for the reserve (R68). -/
def starve (s : State) (core launch : Nat) : State := s.modOrigin core launch fun u => { u with starved := true }

/-- Whether a step, tried on a state, meets a birth that must wait for the reserve of a core's unit. -/
def mustWait (s : State) (core launch : Nat) (f : State → State) : Bool :=
  ((f (s.modOrigin core launch fun u => { u with starved := false })).originUnit core launch).starved

/-- Whether a core's origin unit may have too few numbers for n births (R68), beside those kept for accesses in flight. -/
def shortOf (s : State) (core launch n : Nat) : Bool :=
  let u := s.originUnit core launch
  ((s.launch? launch).any fun l => l.rec_.tags) && !u.stopped && !u.full &&
    decide (u.reserve.length < n + (s.pledged core launch).length)

/-- Whether a step of an engine waits, since it would make a birth that must wait for the reserve (R68): an operation of an
engine makes births of one key. -/
def birthHeld (s : State) (core launch : Nat) (f : State → State) : Bool := s.shortOf core launch 1 && s.mustWait core launch f

/-- The site-only tag, or the number of an origin record, of a birth at a site by a lane of a group (R67). `first` is the
lowest executing lane of the packet in the group. On a miss the lowest number of the reserve is taken, those kept for
accesses in flight aside; with none to be had the birth waits where an add is outstanding, and else takes the site-only
tag and is counted (R68). -/
def born (s : State) (core launch g logical : Nat) (first : Nat) (st : Tag) : Tag × State :=
  match s.launch? launch with
  | none => (st, s)
  | some l =>
    if !l.rec_.tags then (st, s)
    else
      let u := s.originUnit core launch
      match s.cachedNum core launch logical st with
      | some n => (BitVec.ofNat 16 n, s.cacheNum core ⟨launch, st, logical, n⟩)
      | none =>
        if u.stopped then (st, s)
        else
          let kept := ((s.pledged core launch).filter fun k => !decide (k = (st, logical))).length
          if (u.refill || decide (kept ≠ 0)) && !u.full && decide (u.reserve.length ≤ kept) then (st, s.starve core launch)
          else
            match sortBy (fun a b : Nat => decide (a < b)) u.reserve with
            | [] => (st, s.queueOrigin core launch 4 .overflow)
            | n :: rest =>
              let slot := match s.group? g with
                | some x => x.slot
                | none => 0
              let words : List W32 :=
                [st.setWidth 32, BitVec.ofNat 32 logical,
                 BitVec.ofNat 32 (coreX core + 256 * coreY core + 65536 * slot + 16777216 * first),
                 BitVec.ofNat 32 (s.timestamp (dieOf core))]
              let s1 := (s.modOrigin core launch fun v => OriginUnit.settle { v with reserve := rest }).cacheNum core
                ⟨launch, st, logical, n⟩
              (BitVec.ofNat 16 n, s1.queueOrigin core launch (16 * n) (.record n words))

/-- A birth that a word may make at the point of its access waits, before the word issues, where no number could be kept for
it (R68, R84; assumption log 55). -/
def pledgeBirth (s : State) (core launch logical : Nat) (st : Tag) : State :=
  match s.launch? launch with
  | none => s
  | some l =>
    let u := s.originUnit core launch
    let ks := s.pledged core launch
    if l.rec_.tags && u.refill && !u.stopped && !u.full && (s.cachedNum core launch logical st).isNone && !ks.contains (st, logical) &&
        decide (u.reserve.length ≤ ks.length) then s.starve core launch
    else s

/-- The lowest lane of a lane's group that executes the word being issued (R67). -/
def firstLane (c : IssueCtx) (l : LaneRef) : Nat :=
  ((c.lanes.filter fun x => decide (x.g = l.g) && !x.helper).map (·.lane)).foldl min l.lane

/-- born_here of R67 for a lane of the word being issued. -/
def bornHere (s : State) (c : IssueCtx) (l : LaneRef) : Tag × State :=
  match s.group? l.g with
  | none => (0, s)
  | some g => s.born c.core c.launch l.g g.logical (firstLane c l) (s.siteOf c)

end State

/-- A source of a tag rule: its tag and whether its value is special (R71). -/
structure TSrc where
  tag : Tag
  special : Bool
deriving DecidableEq, Repr

/-- A candidate of DOMINANT: a magnitude and the tag that stands for it (R71). -/
structure TDom where
  tag : Tag
  mag : Num
deriving DecidableEq, Repr

/-- The non-null candidate of the greatest magnitude, the earlier on a tie (R71). -/
def dominant : List TDom → Option TDom → Option TDom
  | [], best => best
  | x :: xs, best =>
    dominant xs (if x.tag = 0 then best else match best with
      | none => some x
      | some b => if Num.magLt b.mag x.mag then some x else some b)

/-- tagrule of R71 without its births: none where the result is born. `doms` is given for add-like and fma-like
operations. -/
def tagrule (mode : BitVec 2) (srcs : List TSrc) (doms : Option (List TDom)) (raised : Bool) : Option Tag :=
  let first := (srcs.find? fun x => decide (x.tag ≠ 0)).map (·.tag)
  if mode = 3 then none
  else if mode = 0 then first
  else match srcs.find? (·.special) with
    | some x => some x.tag
    | none =>
      if raised then none
      else match decide (mode = 2), doms with
        | true, some ds => (dominant ds none).map (·.tag)
        | _, _ => first

/-- How a result gets its tag. -/
inductive TagWant where
  | fixed (t : Tag)
  | born
  | rule (srcs : List TSrc) (doms : Option (List TDom)) (raised : Bool)
deriving DecidableEq, Repr

/-- The tag a result takes under a rule, with the birth it may make. -/
def State.resolveTag (s : State) (c : IssueCtx) (l : LaneRef) (mode : BitVec 2) : TagWant → Tag × State
  | .fixed t => (t, s)
  | .born => s.bornHere c l
  | .rule srcs doms raised =>
    match tagrule mode srcs doms raised with
    | some t => (t, s)
    | none => s.bornHere c l

end Sys2Proof.Machine
end

