-- ==== Sys2Proof/Machine/Operands.lean ====
section
/-!
DEFINITION. What the instructions of spec 05 read: operands of a lane with their tags, specialness and magnitudes (R71),
packed elements, register pairs (R26, R116) and format slots (R108).
-/
namespace Sys2Proof.Machine

/-- The value of a register pair, low word in the even register (R26). -/
def State.pairOperand (s : State) (l : LaneRef) (r : Reg) : W64 × Tag :=
  let lo := s.operand l r
  let hi := s.operand l (regPlus r 1)
  (hi.val ++ lo.val, lo.tag)

/-- An integer source: never special. -/
def intSrc (w : TW) : TSrc := ⟨w.tag, false⟩
/-- An FP32 source. -/
def f32Src (w : TW) : TSrc := ⟨w.tag, (f32 w.val).special⟩
/-- The 16-bit element i of a word. -/
def half16 (w : W32) (i : Nat) : Nat := w.toNat / 2 ^ (16 * i) % 65536
/-- The 16-bit format of packed instructions: BF16 under .BF16, else FP16 (R127). -/
def hfmt (bf : Bool) : FFmt := if bf then .bf16 else .fp16
/-- The number in the 16-bit element i of a word. -/
def hnum (bf : Bool) (w : W32) (i : Nat) : Num := decodeF (hfmt bf) (half16 w i)
/-- A packed 16-bit floating-point source, special when an element is (R71). -/
def h2Src (bf : Bool) (w : TW) : TSrc := ⟨w.tag, (hnum bf w.val 0).special || (hnum bf w.val 1).special⟩

/-- The magnitude of a 32-bit integer read as INT32 (R71). -/
def intMag (w : TW) : TDom := ⟨w.tag, (Num.ofInt w.val.toInt).abs⟩
/-- The magnitude of an FP32 value. -/
def f32Mag (w : TW) : TDom := ⟨w.tag, (f32 w.val).abs⟩
/-- The greater magnitude of two, the first on a tie. -/
def maxMag (a b : Num) : Num := if Num.magLt a b then b else a
/-- The largest magnitude of two packed INT16 elements (R71). -/
def i16Mag (w : TW) : TDom :=
  let e (i : Nat) := (Num.ofInt (intOfBits 16 true (half16 w.val i))).abs
  ⟨w.tag, maxMag (e 0) (e 1)⟩
/-- The largest magnitude of two packed 16-bit floats. -/
def h2Mag (bf : Bool) (w : TW) : TDom := ⟨w.tag, maxMag (hnum bf w.val 0).abs (hnum bf w.val 1).abs⟩
/-- A product's candidate: a's tag, or b's if a's is null (R71). -/
def prodDom (a b : Tag) (mag : Num) : TDom := ⟨if a = 0 then b else a, mag⟩

/-- A 16-bit format's two encodings in a word. -/
def pack16 (lo hi : Nat) : W32 := BitVec.ofNat 32 (lo % 65536 + 65536 * (hi % 65536))

/-- A format slot's descriptor (Table 3.8). -/
def Launch.slot (l : Launch) (n : BitVec 3) : W64 := l.rec_.slots.getD n.toNat 0

namespace Slot
/-- Fields of a format slot descriptor (Table 3.8). -/
def fmt (d : W64) : Nat := d.toNat % 16
def scale (d : W64) : Nat := d.toNat / 16 % 16
def blk (d : W64) : Nat := d.toNat / 256 % 16
def sparse (d : W64) : Nat := d.toNat / 4096 % 4
def sat (d : W64) : Bool := d.getLsbD 14
def esc (d : W64) : Bool := d.getLsbD 15
def acc (d : W64) : Nat := d.toNat / 65536 % 16
end Slot

/-- Elements in a packed word of a format (R135); none where the format is not accepted. -/
def packCount (fmt : Nat) : Option Nat :=
  match fmt with
  | 0 | 10 => some 1
  | 1 | 2 | 9 | 12 => some 2
  | 3 | 4 | 7 | 8 => some 4
  | 5 | 11 => some 8
  | _ => none

/-- Whether a range of registers that a slot fixes is legal (R108): more than one register starts at vN and stays in the
allocation. -/
def slotRangeOk (alloc : Nat) (r : Reg) (n : Nat) : Bool :=
  match r with
  | .v m => decide (m.val + n ≤ alloc)
  | _ => decide (n ≤ 1)

end Sys2Proof.Machine
end

