-- ==== Sys2Proof/Machine/Flags.lean ====
section
/-!
DEFINITION. What one lane's operation gives, and how it is delivered: exceptions into FSR and their traps (R57, R58,
R105), tags, and results at a fixed latency or under a flag (R101, R102).
-/
namespace Sys2Proof.Machine

/-- The trap cause of the lowest-numbered enabled exception (R58, Table 8.1). -/
def excCause (e : Exc) : Byte :=
  if e.getLsbD 0 then 5
  else if e.getLsbD 1 then 6
  else if e.getLsbD 2 then 7
  else if e.getLsbD 3 then 8
  else if e.getLsbD 4 then 9
  else 0x18

/-- What an operation gives a lane: groups of registers that share a tag, predicates, exceptions, another trap (cause,
TINFO, TINFOH) with none of the rest, and the source tags of a trap (R77). -/
structure LaneRes where
  writes : List (List (Reg × W32) × TagWant)
  preds : List (BitVec 3 × Bool)
  raised : Exc
  trap : Option (Byte × W32 × W32)
  tags : Tag × Tag × Tag
deriving Repr

/-- How a result is delivered: at a fixed latency, or under a flag between two latencies. -/
inductive Deliver where
  | lat (l : Nat)
  | flag (f : Flag) (lo hi : Nat)
deriving DecidableEq, Repr

/-- A result of one register with a tag rule. -/
def LaneRes.one (d : Reg) (v : W32) (t : TagWant) (raised : Exc) (tags : Tag × Tag × Tag) : LaneRes :=
  ⟨[([(d, v)], t)], [], raised, none, tags⟩

/-- A trap with no other effect. -/
def LaneRes.trapped (cause : Byte) (info infoh : W32) (tags : Tag × Tag × Tag) : LaneRes :=
  ⟨[], [], 0, some (cause, info, infoh), tags⟩

/-- The trap of R108, reason 0x0E. -/
def LaneRes.badSlot (c : IssueCtx) (tags : Tag × Tag × Tag) : LaneRes :=
  .trapped 0x01 0x0E ((c.word >>> 32).setWidth 32) tags

/-- TFDET's HALF bit for a trap of the word being issued (R194). -/
def halfDetail (c : IssueCtx) : W32 := if c.half = .b then 0x20 else 0

namespace State

/-- Trap a lane at the word being issued. Helper lanes take no trap (R88). -/
def trapLane (s : State) (c : IssueCtx) (l : LaneRef) (cause : Byte) (info infoh : W32) (tags : Tag × Tag × Tag)
    (detail : W32) : State :=
  if l.helper then s
  else s.takeTrap l.tid ⟨cause, info, infoh, tags.1, tags.2.1, tags.2.2, detail ||| halfDetail c⟩ c.pc
    (c.cycle + 4)

/-- The trap a lane's result raises, if any: its own, or the lowest enabled exception (R58, R194). -/
def resTrap (s : State) (l : LaneRef) (r : LaneRes) : Option (Byte × W32 × W32) :=
  if l.helper then none
  else match r.trap with
    | some t => some t
    | none =>
      match s.thread? l.tid with
      | some th => if r.raised &&& th.sys.fcr = 0 then none else some (excCause (r.raised &&& th.sys.fcr), 0, 0)
      | none => none

/-- The tag mode of a lane: the thread's TAGMODE. -/
def tagModeOf (s : State) (l : LaneRef) : BitVec 2 :=
  match s.thread? l.tid with
  | some t => t.sys.tagmode
  | none => 0

/-- The writes of a result with their tags decided. -/
def resolveWrites (s : State) (c : IssueCtx) (l : LaneRef) :
    List (List (Reg × W32) × TagWant) → List (Reg × TW) × State
  | [] => ([], s)
  | (rs, want) :: rest =>
    let (t, s1) := if l.helper then (helperTag, s) else s.resolveTag c l (s.tagModeOf l) want
    let (ws, s2) := s1.resolveWrites c l rest
    (rs.map (fun p => (p.1, ⟨p.2, t⟩)) ++ ws, s2)

/-- Put a flagged result in flight: the flag is pending until it lands (R15, R102). A helper arms no flag (R88): its
overlay takes the result at the earliest landing. -/
def armFlag (s : State) (c : IssueCtx) (l : LaneRef) (f : Flag) (lo hi : Nat) (dests : List Reg)
    (vals : Option (List TW)) (acq : Bool) (opId : Option Nat) : State :=
  if l.helper then
    match vals with
    | some vs => s.inFlight c l lo false (dests.zip vs)
    | none => s
  else
    let s1 := s.modThread l.tid fun t =>
      { t with
        flags := (match f with
          | some n => t.flags ||| (1#12 <<< n.val)
          | none => t.flags),
        flagged := t.flagged ++ [⟨s.nextUid, f, c.seq, c.cycle + lo, c.cycle + hi, dests, vals, acq, opId⟩] }
    { s1 with nextUid := s1.nextUid + 1 }

/-- Deliver a lane's result (R58, R105): a trap with nothing written, or FSR bits and the writes. -/
def deliver (s : State) (c : IssueCtx) (l : LaneRef) (d : Deliver) (r : LaneRes) : State :=
  let s0 := if l.helper then s else s.modSys l.tid fun y => { y with fsr := y.fsr ||| r.raised }
  match s.resTrap l r with
  | some t => (if r.trap.isSome then s else s0).trapLane c l t.1 t.2.1 t.2.2 r.tags 0
  | none =>
    let (ws, s1) := s0.resolveWrites c l r.writes
    match d with
    | .lat n =>
      let s2 := r.preds.foldl (fun s p => s.predInFlight c l n p.1 p.2) s1
      s2.inFlight c l n true ws
    | .flag f lo hi => s1.armFlag c l f lo hi (ws.map (·.1)) (some (ws.map (·.2))) false none

end State

/-- Run a per-lane operation for every executing lane of the word being issued, in lane order (R105). With no word being
issued nothing happens (assumption log 3). -/
def execLanes (s : State) (d : Deliver) (f : IssueCtx → LaneRef → LaneRes) : Host.Outcome State Fault Refusal :=
  match s.cur with
  | none => .next s
  | some c => .next (c.lanes.foldl (fun s' l => s'.deliver c l d (f c l)) s)

end Sys2Proof.Machine
end

