-- ==== Sys2Proof/Machine/IntAlu.lean ====
section
/-!
DEFINITION. Integer arithmetic and logic: R106, R107, R109 to R120.
-/
namespace Sys2Proof.Machine

/-- A signed integer fits in INT32 (R106). -/
def fitsI32 (i : Int) : Bool := decide (-(2 ^ 31) ≤ i ∧ i < 2 ^ 31)

/-- IO of a trapping form whose exact signed result does not fit (R106). -/
def ovExc (ov : Bool) (i : Int) : Exc := if ov && !fitsI32 i then Exc.io else Exc.none

/-- A signed or unsigned reading of a word. -/
def asInt (u : Bool) (w : W32) : Int := if u then (w.toNat : Int) else w.toInt

def ofI (i : Int) : W32 := BitVec.ofInt 32 i

/-- A one-source integer result (R109). -/
def int1 (s : State) (l : LaneRef) (d a : Reg) (f : W32 → W32 × Exc) : LaneRes :=
  let x := s.operand l a
  let (v, e) := f x.val
  .one d v (.rule [intSrc x] none (decide (e ≠ 0))) e (x.tag, 0, 0)

/-- A two-source integer result (R109); `dom` for add-like operations. -/
def int2 (s : State) (l : LaneRef) (d a b : Reg) (dom : Bool) (f : W32 → W32 → W32 × Exc) : LaneRes :=
  let x := s.operand l a
  let y := s.operand l b
  let (v, e) := f x.val y.val
  .one d v (.rule [intSrc x, intSrc y] (if dom then some [intMag x, intMag y] else none) (decide (e ≠ 0))) e
    (x.tag, y.tag, 0)

/-- A three-source integer result (R111). -/
def int3 (s : State) (l : LaneRef) (d a b c : Reg) (doms : TW → TW → TW → Option (List TDom))
    (f : W32 → W32 → W32 → W32 × Exc) : LaneRes :=
  let x := s.operand l a
  let y := s.operand l b
  let z := s.operand l c
  let (v, e) := f x.val y.val z.val
  .one d v (.rule [intSrc x, intSrc y, intSrc z] (doms x y z) (decide (e ≠ 0))) e (x.tag, y.tag, z.tag)

/-! Values (Table 5.1). -/

def iaddV (ov : Bool) (x y : W32) : W32 × Exc := (x + y, ovExc ov (x.toInt + y.toInt))
def isubV (ov : Bool) (x y : W32) : W32 × Exc := (x - y, ovExc ov (x.toInt - y.toInt))
def imulV (ov : Bool) (x y : W32) : W32 × Exc := (x * y, ovExc ov (x.toInt * y.toInt))
def imulhV (u : Bool) (x y : W32) : W32 × Exc := (ofI (asInt u x * asInt u y / 2 ^ 32), Exc.none)
def iaddsV (u : Bool) (x y : W32) : W32 × Exc :=
  (ofI (clampInt 32 (!u) (asInt u x + asInt u y)).1, Exc.none)
def iminV (u : Bool) (x y : W32) : W32 × Exc := (if asInt u y < asInt u x then y else x, Exc.none)
def imaxV (u : Bool) (x y : W32) : W32 × Exc := (if asInt u x < asInt u y then y else x, Exc.none)
def iabsV (ov : Bool) (x : W32) : W32 × Exc := (if x.toInt < 0 then -x else x, ovExc ov (x.toInt.natAbs : Int))
def inegV (ov : Bool) (x : W32) : W32 × Exc := (-x, ovExc ov (-x.toInt))
def popcV (x : W32) : W32 := BitVec.ofNat 32 ((List.range 32).countP fun i => x.getLsbD i)
def clzV (x : W32) : W32 := if x = 0 then 32 else BitVec.ofNat 32 (31 - Nat.log2 x.toNat)
def brevV (x : W32) : W32 :=
  BitVec.ofNat 32 ((List.range 32).foldl (fun v i => 2 * v + (if x.getLsbD i then 1 else 0)) 0)

/-! Shifts (R110). -/

def shlV (x : W32) (n : Nat) : W32 := if 32 ≤ n then 0 else x <<< n
def shrV (x : W32) (n : Nat) : W32 := if 32 ≤ n then 0 else x >>> n
def sarV (x : W32) (n : Nat) : W32 := x.sshiftRight (min n 31)
def rotlV (x : W32) (n : Nat) : W32 := x.rotateLeft (n % 32)

/-- A shift with its count in a register or in the word (R110). -/
def shiftRes (s : State) (l : LaneRef) (d a : Reg) (n : ShAmt) (f : W32 → Nat → W32) : LaneRes :=
  match n with
  | .reg b => int2 s l d a b false fun x y => (f x (y.toNat % 256), Exc.none)
  | .imm k => int1 s l d a fun x => (f x k.toNat, Exc.none)

/-! Fields (R111). -/

/-- The position and length a descriptor gives (R111). -/
def fieldPos (w : W32) : Nat := min (w.toNat % 256) 32
def fieldLen (w : W32) : Nat := min (w.toNat / 256 % 256) 32

def bfxV (u : Bool) (x y : W32) : W32 :=
  let n := fieldLen y
  let f := x.toNat / 2 ^ fieldPos y % 2 ^ n
  if n = 0 then 0 else ofI (intOfBits n (!u) f)

def bfiV (x y z : W32) : W32 :=
  let p := fieldPos z
  let mask := (2 ^ fieldLen z - 1) * 2 ^ p % 2 ^ 32
  BitVec.ofNat 32 ((y.toNat * 2 ^ p) &&& mask) ||| (x &&& ~~~(BitVec.ofNat 32 mask))

def funnelV (right : Bool) (x y z : W32) : W32 :=
  let v := y.toNat * 2 ^ 32 + x.toNat
  let n := z.toNat % 32
  BitVec.ofNat 32 (if right then v / 2 ^ n else v * 2 ^ n / 2 ^ 32)

/-- Comparisons (R112). -/
def icmpV (cc : ICmp) (x y : W32) : Bool :=
  match cc with
  | .eq => decide (x = y)
  | .ne => decide (x ≠ y)
  | .lt => decide (x.toInt < y.toInt)
  | .le => decide (x.toInt ≤ y.toInt)
  | .gt => decide (y.toInt < x.toInt)
  | .ge => decide (y.toInt ≤ x.toInt)
  | .ltu => decide (x.toNat < y.toNat)
  | .leu => decide (x.toNat ≤ y.toNat)
  | .gtu => decide (y.toNat < x.toNat)
  | .geu => decide (y.toNat ≤ x.toNat)

/-- A predicate result: each comparison with the combining predicate (R107). -/
def predRes (s : State) (l : LaneRef) (ps : List (BitVec 3 × Bool)) (kc : KSel) (tags : Tag × Tag × Tag) : LaneRes :=
  ⟨[], ps.map fun p => (p.1, p.2 && (s.rf l).ksel kc), 0, none, tags⟩

/-- A result in a register pair with one tag (R116). -/
def pairRes (d : Reg) (v : W64) (t : TagWant) (tags : Tag × Tag × Tag) : LaneRes :=
  ⟨[([(d, v.setWidth 32), (regPlus d 1, (v >>> 32).setWidth 32)], t)], [], 0, none, tags⟩

/-- Two packed 16-bit elements by a function of signed elements. -/
def packed2 (x y : W32) (f : Int → Int → Int) : W32 :=
  let e (i : Nat) : Nat :=
    bitsOfInt 16 (f (intOfBits 16 true (half16 x i)) (intOfBits 16 true (half16 y i)))
  pack16 (e 0) (e 1)

/-- Byte i of a word, signed or unsigned. -/
def byteInt (u : Bool) (w : W32) (i : Nat) : Int := intOfBits 8 (!u) (w.toNat / 2 ^ (8 * i) % 256)

def idot4V (u : Bool) (x y z : W32) : W32 :=
  ofI ((List.range 4).foldl (fun v i => v + byteInt u x i * byteInt u y i) z.toInt)

/-- IDIV (R120, Table 5.4): quotient or remainder and whether IO is raised. -/
def idivV (op : DivOp) (x y : W32) : W32 × Exc :=
  match op with
  | .divs =>
    if y = 0 then (0xFFFFFFFF, Exc.io)
    else
      let q := x.toInt.tdiv y.toInt
      (ofI q, ovExc true q)
  | .divu => if y = 0 then (0xFFFFFFFF, Exc.io) else (BitVec.ofNat 32 (x.toNat / y.toNat), Exc.none)
  | .rems => if y = 0 then (x, Exc.io) else (ofI (x.toInt.tmod y.toInt), Exc.none)
  | .remu => if y = 0 then (x, Exc.io) else (BitVec.ofNat 32 (x.toNat % y.toNat), Exc.none)

/-! Per-lane results that halves share with their primaries (R33). -/

def iaddRes (s : State) (l : LaneRef) (d a b : Reg) (ov : Bool) : LaneRes := int2 s l d a b true (iaddV ov)
def isubRes (s : State) (l : LaneRef) (d a b : Reg) (ov : Bool) : LaneRes := int2 s l d a b true (isubV ov)
def imulRes (s : State) (l : LaneRef) (d a b : Reg) (ov : Bool) : LaneRes := int2 s l d a b false (imulV ov)
def iminRes (s : State) (l : LaneRef) (d a b : Reg) (u : Bool) : LaneRes := int2 s l d a b false (iminV u)
def imaxRes (s : State) (l : LaneRef) (d a b : Reg) (u : Bool) : LaneRes := int2 s l d a b false (imaxV u)
def andRes (s : State) (l : LaneRef) (d a b : Reg) : LaneRes := int2 s l d a b false fun x y => (x &&& y, Exc.none)
def orRes (s : State) (l : LaneRef) (d a b : Reg) : LaneRes := int2 s l d a b false fun x y => (x ||| y, Exc.none)
def xorRes (s : State) (l : LaneRef) (d a b : Reg) : LaneRes := int2 s l d a b false fun x y => (x ^^^ y, Exc.none)

/-- MOV: the value and tag of a, unchanged (R114). -/
def movRes (s : State) (l : LaneRef) (d a : Reg) : LaneRes :=
  let x := s.operand l a
  .one d x.val (.fixed x.tag) 0 (x.tag, 0, 0)

/-! Meanings. -/

def execIadd (d a b : Reg) (ov : Bool) (s : State) : Host.Outcome State Fault Refusal :=
  execLanes s (.lat 2) fun _ l => iaddRes s l d a b ov
def execIsub (d a b : Reg) (ov : Bool) (s : State) : Host.Outcome State Fault Refusal :=
  execLanes s (.lat 2) fun _ l => isubRes s l d a b ov
def execImul (d a b : Reg) (ov : Bool) (s : State) : Host.Outcome State Fault Refusal :=
  execLanes s (.lat 4) fun _ l => imulRes s l d a b ov
def execImulh (d a b : Reg) (u : Bool) (s : State) : Host.Outcome State Fault Refusal :=
  execLanes s (.lat 4) fun _ l => int2 s l d a b false (imulhV u)
def execIadds (d a b : Reg) (u : Bool) (s : State) : Host.Outcome State Fault Refusal :=
  execLanes s (.lat 2) fun _ l => int2 s l d a b false (iaddsV u)
def execImin (d a b : Reg) (u : Bool) (s : State) : Host.Outcome State Fault Refusal :=
  execLanes s (.lat 2) fun _ l => iminRes s l d a b u
def execImax (d a b : Reg) (u : Bool) (s : State) : Host.Outcome State Fault Refusal :=
  execLanes s (.lat 2) fun _ l => imaxRes s l d a b u
def execIabs (d a : Reg) (ov : Bool) (s : State) : Host.Outcome State Fault Refusal :=
  execLanes s (.lat 2) fun _ l => int1 s l d a (iabsV ov)
def execIneg (d a : Reg) (ov : Bool) (s : State) : Host.Outcome State Fault Refusal :=
  execLanes s (.lat 2) fun _ l => int1 s l d a (inegV ov)
def execAnd (d a b : Reg) (s : State) : Host.Outcome State Fault Refusal :=
  execLanes s (.lat 2) fun _ l => andRes s l d a b
def execOr (d a b : Reg) (s : State) : Host.Outcome State Fault Refusal :=
  execLanes s (.lat 2) fun _ l => orRes s l d a b
def execXor (d a b : Reg) (s : State) : Host.Outcome State Fault Refusal :=
  execLanes s (.lat 2) fun _ l => xorRes s l d a b
def execAndn (d a b : Reg) (s : State) : Host.Outcome State Fault Refusal :=
  execLanes s (.lat 2) fun _ l => int2 s l d a b false fun x y => (x &&& ~~~y, Exc.none)
def execPopc (d a : Reg) (s : State) : Host.Outcome State Fault Refusal :=
  execLanes s (.lat 2) fun _ l => int1 s l d a fun x => (popcV x, Exc.none)
def execClz (d a : Reg) (s : State) : Host.Outcome State Fault Refusal :=
  execLanes s (.lat 2) fun _ l => int1 s l d a fun x => (clzV x, Exc.none)
def execBrev (d a : Reg) (s : State) : Host.Outcome State Fault Refusal :=
  execLanes s (.lat 2) fun _ l => int1 s l d a fun x => (brevV x, Exc.none)
def execShl (d a : Reg) (n : ShAmt) (s : State) : Host.Outcome State Fault Refusal :=
  execLanes s (.lat 2) fun _ l => shiftRes s l d a n shlV
def execShr (d a : Reg) (n : ShAmt) (s : State) : Host.Outcome State Fault Refusal :=
  execLanes s (.lat 2) fun _ l => shiftRes s l d a n shrV
def execSar (d a : Reg) (n : ShAmt) (s : State) : Host.Outcome State Fault Refusal :=
  execLanes s (.lat 2) fun _ l => shiftRes s l d a n sarV
def execRotl (d a : Reg) (n : ShAmt) (s : State) : Host.Outcome State Fault Refusal :=
  execLanes s (.lat 2) fun _ l => shiftRes s l d a n rotlV

/-- IMAD: fma-like, |a·b| against |c| read signed (R71, R111). -/
def execImad (d a b c : Reg) (ov : Bool) (s : State) : Host.Outcome State Fault Refusal :=
  execLanes s (.lat 4) fun _ l =>
    int3 s l d a b c
      (fun x y z => some [prodDom x.tag y.tag (Num.ofInt (x.val.toInt * y.val.toInt)).abs, intMag z])
      fun x y z => (x * y + z, ovExc ov (x.toInt * y.toInt + z.toInt))
def execIadd3 (d a b c : Reg) (ov : Bool) (s : State) : Host.Outcome State Fault Refusal :=
  execLanes s (.lat 4) fun _ l =>
    int3 s l d a b c (fun x y z => some [intMag x, intMag y, intMag z])
      fun x y z => (x + y + z, ovExc ov (x.toInt + y.toInt + z.toInt))
def execFunnel (d a b c : Reg) (right : Bool) (s : State) : Host.Outcome State Fault Refusal :=
  execLanes s (.lat 2) fun _ l => int3 s l d a b c (fun _ _ _ => none) fun x y z => (funnelV right x y z, Exc.none)
def execBfx (d a b : Reg) (u : Bool) (s : State) : Host.Outcome State Fault Refusal :=
  execLanes s (.lat 2) fun _ l => int2 s l d a b false fun x y => (bfxV u x y, Exc.none)
def execBfi (d a b c : Reg) (s : State) : Host.Outcome State Fault Refusal :=
  execLanes s (.lat 2) fun _ l => int3 s l d a b c (fun _ _ _ => none) fun x y z => (bfiV x y z, Exc.none)
def execIsetp (cc : ICmp) (kd : BitVec 3) (a b : Reg) (kc : KSel) (s : State) : Host.Outcome State Fault Refusal :=
  execLanes s (.lat 2) fun _ l =>
    let x := s.operand l a
    let y := s.operand l b
    predRes s l [(kd, icmpV cc x.val y.val)] kc (x.tag, y.tag, 0)
def execSel (d a b : Reg) (kc : KSel) (s : State) : Host.Outcome State Fault Refusal :=
  execLanes s (.lat 2) fun _ l =>
    let x := s.operand l a
    let y := s.operand l b
    let z := if (s.rf l).ksel kc then x else y
    .one d z.val (.fixed z.tag) 0 (x.tag, y.tag, 0)
def execMov (d a : Reg) (s : State) : Host.Outcome State Fault Refusal :=
  execLanes s (.lat 2) fun _ l => movRes s l d a
def execMovi (d : Reg) (imm : BitVec 16) (sx : Bool) (s : State) : Host.Outcome State Fault Refusal :=
  execLanes s (.lat 2) fun _ _ =>
    .one d (if sx then imm.signExtend 32 else imm.setWidth 32) (.fixed 0) 0 (0, 0, 0)
def execMovhi (d a : Reg) (imm : BitVec 16) (s : State) : Host.Outcome State Fault Refusal :=
  execLanes s (.lat 2) fun _ l =>
    let x := s.operand l a
    .one d (imm ++ (x.val.setWidth 16 : BitVec 16)) (.fixed x.tag) 0 (x.tag, 0, 0)

/-- The magnitude of a register pair read as a signed 64-bit value (R71). -/
def pairMag (x : W64 × Tag) : TDom := ⟨x.2, (Num.ofInt x.1.toInt).abs⟩

/-- ADD64 and SUB64 (R116): add-like, each pair one source. -/
def add64Res (s : State) (l : LaneRef) (d a b : Reg) (f : W64 → W64 → W64) : LaneRes :=
  let x := s.pairOperand l a
  let y := s.pairOperand l b
  pairRes d (f x.1 y.1) (.rule [⟨x.2, false⟩, ⟨y.2, false⟩] (some [pairMag x, pairMag y]) false) (x.2, y.2, 0)
def execAdd64 (d a b : Reg) (s : State) : Host.Outcome State Fault Refusal :=
  execLanes s (.lat 2) fun _ l => add64Res s l d a b fun x y => x + y
def execSub64 (d a b : Reg) (s : State) : Host.Outcome State Fault Refusal :=
  execLanes s (.lat 2) fun _ l => add64Res s l d a b fun x y => x - y
def execMad64w (d a b c : Reg) (sg : Bool) (s : State) : Host.Outcome State Fault Refusal :=
  execLanes s (.lat 4) fun _ l =>
    let x := s.operand l a
    let y := s.operand l b
    let z := s.pairOperand l c
    pairRes d (BitVec.ofInt 64 (asInt (!sg) x.val * asInt (!sg) y.val) + z.1)
      (.rule [intSrc x, intSrc y, ⟨z.2, false⟩]
        (some [prodDom x.tag y.tag (Num.ofInt (x.val.toInt * y.val.toInt)).abs, pairMag z]) false)
      (x.tag, y.tag, z.2)
/-- LEA (R116): add-like over the pair and b, whose magnitude is that of the register. -/
def execLea (d a b : Reg) (sh : BitVec 4) (sg : Bool) (s : State) : Host.Outcome State Fault Refusal :=
  execLanes s (.lat 2) fun _ l =>
    let x := s.pairOperand l a
    let y := s.operand l b
    let e : W64 := if sg then y.val.signExtend 64 else y.val.setWidth 64
    pairRes d (x.1 + (e <<< sh.toNat)) (.rule [⟨x.2, false⟩, intSrc y] (some [pairMag x, intMag y]) false)
      (x.2, y.tag, 0)

/-- A packed 16-bit integer result; `dom` for the add-like ones (R117). -/
def packed2Res (s : State) (l : LaneRef) (d a b : Reg) (dom : Bool) (f : Int → Int → Int) : LaneRes :=
  let x := s.operand l a
  let y := s.operand l b
  .one d (packed2 x.val y.val f)
    (.rule [intSrc x, intSrc y] (if dom then some [i16Mag x, i16Mag y] else none) false) 0 (x.tag, y.tag, 0)
def execIadd2 (d a b : Reg) (s : State) : Host.Outcome State Fault Refusal :=
  execLanes s (.lat 2) fun _ l => packed2Res s l d a b true fun x y => x + y
def execIadd2s (d a b : Reg) (s : State) : Host.Outcome State Fault Refusal :=
  execLanes s (.lat 2) fun _ l => packed2Res s l d a b true fun x y => (clampInt 16 true (x + y)).1
def execImax2 (d a b : Reg) (s : State) : Host.Outcome State Fault Refusal :=
  execLanes s (.lat 2) fun _ l => packed2Res s l d a b false fun x y => max x y
def execIdot4 (d a b c : Reg) (u : Bool) (s : State) : Host.Outcome State Fault Refusal :=
  execLanes s (.lat 4) fun _ l => int3 s l d a b c (fun _ _ _ => none) fun x y z => (idot4V u x y z, Exc.none)

/-- PRMT (R118): four bytes chosen by nibbles of c, the tag over the four in byte order. -/
def execPrmt (d a b c : Reg) (s : State) : Host.Outcome State Fault Refusal :=
  execLanes s (.lat 2) fun _ l =>
    let x := s.operand l a
    let y := s.operand l b
    let z := s.operand l c
    let v := y.val.toNat * 2 ^ 32 + x.val.toNat
    let nib (j : Nat) : Nat := z.val.toNat / 2 ^ (4 * j) % 16
    let byte (j : Nat) : Nat := if nib j < 8 then v / 2 ^ (8 * nib j) % 256 else 0
    let tag (j : Nat) : TSrc := ⟨if nib j < 4 then x.tag else if nib j < 8 then y.tag else 0, false⟩
    .one d (BitVec.ofNat 32 (byte 0 + 256 * byte 1 + 65536 * byte 2 + 16777216 * byte 3))
      (.rule [tag 0, tag 1, tag 2, tag 3] none false) 0 (x.tag, y.tag, z.tag)

/-- WIDEN (R119): each element in its own register, all with a's tag. -/
def execWiden (d a : Reg) (op : WidenOp) (s : State) : Host.Outcome State Fault Refusal :=
  execLanes s (.lat 4) fun _ l =>
    let x := s.operand l a
    let el (i : Nat) : W32 := match op with
      | .sb => ofI (byteInt false x.val i)
      | .zb => ofI (byteInt true x.val i)
      | .sh => ofI (intOfBits 16 true (half16 x.val i))
      | .zh => BitVec.ofNat 32 (half16 x.val i)
    ⟨[((List.range op.regs).map (fun i => (regPlus d i, el i)), .fixed x.tag)], [], 0, none, (x.tag, 0, 0)⟩
def execWadd (d a b : Reg) (u : Bool) (s : State) : Host.Outcome State Fault Refusal :=
  execLanes s (.lat 4) fun _ l =>
    let x := s.pairOperand l a
    let y := s.operand l b
    pairRes d (x.1 + BitVec.ofInt 64 (asInt u y.val)) (.rule [⟨x.2, false⟩, intSrc y] (some [pairMag x, intMag y]) false)
      (x.2, y.tag, 0)
def execIdiv (op : DivOp) (d a b : Reg) (f : Flag) (s : State) : Host.Outcome State Fault Refusal :=
  execLanes s (.flag f 1 36) fun _ l => int2 s l d a b false (idivV op)

end Sys2Proof.Machine
end

