-- ==== Sys2Proof/Machine/Float.lean ====
section
/-!
DEFINITION. FP32, packed halves and dot products: R121 to R131.
-/
namespace Sys2Proof.Machine

/-- A one-source FP32 result from a function of numbers, rounded once (R121, R126). -/
def f1 (s : State) (l : LaneRef) (d a : Reg) (f : Num → Num × Exc) : LaneRes :=
  let x := s.operand l a
  let (v, e) := f (f32 x.val)
  let (w, e2) := toF32 v
  let r := e ||| e2
  .one d w (.rule [f32Src x] none (decide (r ≠ 0))) r (x.tag, 0, 0)

/-- A two-source FP32 result, rounded once; `dom` for add-like operations. -/
def f2 (s : State) (l : LaneRef) (d a b : Reg) (dom : Bool) (f : Num → Num → Num × Exc) : LaneRes :=
  let x := s.operand l a
  let y := s.operand l b
  let (v, e) := f (f32 x.val) (f32 y.val)
  let (w, e2) := toF32 v
  let r := e ||| e2
  .one d w (.rule [f32Src x, f32Src y] (if dom then some [f32Mag x, f32Mag y] else none) (decide (r ≠ 0))) r
    (x.tag, y.tag, 0)

def faddRes (s : State) (l : LaneRef) (d a b : Reg) : LaneRes := f2 s l d a b true Num.add
def fsubRes (s : State) (l : LaneRef) (d a b : Reg) : LaneRes := f2 s l d a b true Num.sub
def fmulRes (s : State) (l : LaneRef) (d a b : Reg) : LaneRes := f2 s l d a b false Num.mul
def fminRes (s : State) (l : LaneRef) (d a b : Reg) : LaneRes :=
  f2 s l d a b false fun x y => ((Num.firstNan [x, y]).getD (Num.min x y), Exc.none)
def fmaxRes (s : State) (l : LaneRef) (d a b : Reg) : LaneRes :=
  f2 s l d a b false fun x y => ((Num.firstNan [x, y]).getD (Num.max x y), Exc.none)

def execFadd (d a b : Reg) (s : State) : Host.Outcome State Fault Refusal :=
  execLanes s (.lat 4) fun _ l => faddRes s l d a b
def execFsub (d a b : Reg) (s : State) : Host.Outcome State Fault Refusal :=
  execLanes s (.lat 4) fun _ l => fsubRes s l d a b
def execFmul (d a b : Reg) (s : State) : Host.Outcome State Fault Refusal :=
  execLanes s (.lat 4) fun _ l => fmulRes s l d a b

/-- The magnitude of a product of two numbers (R71). -/
def prodMag (x y : Num) : Num := (Num.mul x.abs y.abs).1

/-- FFMA (R121): fma-like, rounded once. -/
def execFfma (d a b c : Reg) (s : State) : Host.Outcome State Fault Refusal :=
  execLanes s (.lat 4) fun _ l =>
    let x := s.operand l a
    let y := s.operand l b
    let z := s.operand l c
    let (v, e) := Num.fma (f32 x.val) (f32 y.val) (f32 z.val)
    let (w, e2) := toF32 v
    let r := e ||| e2
    .one d w
      (.rule [f32Src x, f32Src y, f32Src z]
        (some [prodDom x.tag y.tag (prodMag (f32 x.val) (f32 y.val)), f32Mag z]) (decide (r ≠ 0))) r
      (x.tag, y.tag, z.tag)
def execFmin (d a b : Reg) (s : State) : Host.Outcome State Fault Refusal :=
  execLanes s (.lat 4) fun _ l => fminRes s l d a b
def execFmax (d a b : Reg) (s : State) : Host.Outcome State Fault Refusal :=
  execLanes s (.lat 4) fun _ l => fmaxRes s l d a b
def execFsetp (cc : FCmp) (kd : BitVec 3) (a b : Reg) (kc : KSel) (s : State) : Host.Outcome State Fault Refusal :=
  execLanes s (.lat 4) fun _ l =>
    let x := s.operand l a
    let y := s.operand l b
    predRes s l [(kd, Num.cmp cc (f32 x.val) (f32 y.val))] kc (x.tag, y.tag, 0)

/-- The class mask of FCLASS (R124). -/
def fclassV (w : W32) : W32 :=
  let ex := w.toNat / 2 ^ 23 % 256
  let man := w.toNat % 2 ^ 23
  let s := w.getLsbD 31
  let bit : Nat :=
    if ex = 255 then
      if man = 0 then (if s then 0 else 7) else if w.getLsbD 22 then 9 else 8
    else if ex = 0 then
      if man = 0 then (if s then 3 else 4) else (if s then 2 else 5)
    else (if s then 1 else 6)
  BitVec.ofNat 32 (2 ^ bit)

def execFclass (d a : Reg) (s : State) : Host.Outcome State Fault Refusal :=
  execLanes s (.lat 4) fun _ l =>
    let x := s.operand l a
    .one d (fclassV x.val) (.rule [f32Src x] none false) 0 (x.tag, 0, 0)
def execFrnd (dir : RndDir) (d a : Reg) (s : State) : Host.Outcome State Fault Refusal :=
  execLanes s (.lat 4) fun _ l => f1 s l d a fun x => (roundInt dir x, Exc.none)
def execFrcp (d a : Reg) (f : Flag) (s : State) : Host.Outcome State Fault Refusal :=
  execLanes s (.flag f 12 20) fun _ l => f1 s l d a rcpNum
def execFrsq (d a : Reg) (f : Flag) (s : State) : Host.Outcome State Fault Refusal :=
  execLanes s (.flag f 12 20) fun _ l => f1 s l d a rsqNum
def execFsqrt (d a : Reg) (f : Flag) (s : State) : Host.Outcome State Fault Refusal :=
  execLanes s (.flag f 1 24) fun _ l => f1 s l d a sqrtNum
def execFdiv (d a b : Reg) (f : Flag) (s : State) : Host.Outcome State Fault Refusal :=
  execLanes s (.flag f 1 24) fun _ l => f2 s l d a b false divNum
def execFexp2 (d a : Reg) (f : Flag) (s : State) : Host.Outcome State Fault Refusal :=
  execLanes s (.flag f 12 20) fun _ l => f1 s l d a exp2Fn
def execFlog2 (d a : Reg) (f : Flag) (s : State) : Host.Outcome State Fault Refusal :=
  execLanes s (.flag f 12 20) fun _ l => f1 s l d a log2Fn
def execFsin (d a : Reg) (f : Flag) (s : State) : Host.Outcome State Fault Refusal :=
  execLanes s (.flag f 12 20) fun _ l => f1 s l d a (trigFn false)
def execFcos (d a : Reg) (f : Flag) (s : State) : Host.Outcome State Fault Refusal :=
  execLanes s (.flag f 12 20) fun _ l => f1 s l d a (trigFn true)
def execFtanh (d a : Reg) (f : Flag) (s : State) : Host.Outcome State Fault Refusal :=
  execLanes s (.flag f 12 20) fun _ l => f1 s l d a tanhFn

/-! Packed halves (R127, R128). -/

/-- A packed two-source result by a function of element numbers. -/
def h2 (s : State) (l : LaneRef) (d a b : Reg) (bf dom : Bool) (f : Num → Num → Num × Exc) : LaneRes :=
  let x := s.operand l a
  let y := s.operand l b
  let el (i : Nat) : Nat × Exc :=
    let (v, e) := f (hnum bf x.val i) (hnum bf y.val i)
    let (w, e2) := encodeF (hfmt bf) false v
    (w, e ||| e2)
  let r := (el 0).2 ||| (el 1).2
  .one d (pack16 (el 0).1 (el 1).1)
    (.rule [h2Src bf x, h2Src bf y] (if dom then some [h2Mag bf x, h2Mag bf y] else none) (decide (r ≠ 0))) r
    (x.tag, y.tag, 0)

def hadd2Res (s : State) (l : LaneRef) (d a b : Reg) (bf : Bool) : LaneRes := h2 s l d a b bf true Num.add
def hmul2Res (s : State) (l : LaneRef) (d a b : Reg) (bf : Bool) : LaneRes := h2 s l d a b bf false Num.mul

def execHadd2 (d a b : Reg) (bf : Bool) (s : State) : Host.Outcome State Fault Refusal :=
  execLanes s (.lat 4) fun _ l => hadd2Res s l d a b bf
def execHsub2 (d a b : Reg) (bf : Bool) (s : State) : Host.Outcome State Fault Refusal :=
  execLanes s (.lat 4) fun _ l => h2 s l d a b bf true Num.sub
def execHmul2 (d a b : Reg) (bf : Bool) (s : State) : Host.Outcome State Fault Refusal :=
  execLanes s (.lat 4) fun _ l => hmul2Res s l d a b bf
def execHmin2 (d a b : Reg) (bf : Bool) (s : State) : Host.Outcome State Fault Refusal :=
  execLanes s (.lat 4) fun _ l =>
    h2 s l d a b bf false fun x y => ((Num.firstNan [x, y]).getD (Num.min x y), Exc.none)
def execHmax2 (d a b : Reg) (bf : Bool) (s : State) : Host.Outcome State Fault Refusal :=
  execLanes s (.lat 4) fun _ l =>
    h2 s l d a b bf false fun x y => ((Num.firstNan [x, y]).getD (Num.max x y), Exc.none)

/-- HFMA2 (R127): the greatest exact element product stands against the greatest element of c (R71). -/
def execHfma2 (d a b c : Reg) (bf : Bool) (s : State) : Host.Outcome State Fault Refusal :=
  execLanes s (.lat 4) fun _ l =>
    let x := s.operand l a
    let y := s.operand l b
    let z := s.operand l c
    let el (i : Nat) : Nat × Exc :=
      let (v, e) := Num.fma (hnum bf x.val i) (hnum bf y.val i) (hnum bf z.val i)
      let (w, e2) := encodeF (hfmt bf) false v
      (w, e ||| e2)
    let pm (i : Nat) : Num := prodMag (hnum bf x.val i) (hnum bf y.val i)
    let r := (el 0).2 ||| (el 1).2
    .one d (pack16 (el 0).1 (el 1).1)
      (.rule [h2Src bf x, h2Src bf y, h2Src bf z]
        (some [prodDom x.tag y.tag (maxMag (pm 0) (pm 1)), h2Mag bf z]) (decide (r ≠ 0))) r
      (x.tag, y.tag, z.tag)

/-- HSETP2 (R128): one predicate named twice receives the AND of both bits. -/
def execHsetp2 (cc : FCmp) (kd0 kd1 : BitVec 3) (a b : Reg) (kc : KSel) (bf : Bool) (s : State) :
    Host.Outcome State Fault Refusal :=
  execLanes s (.lat 4) fun _ l =>
    let x := s.operand l a
    let y := s.operand l b
    let p (i : Nat) : Bool := Num.cmp cc (hnum bf x.val i) (hnum bf y.val i)
    predRes s l (if kd0 = kd1 then [(kd0, p 0 && p 1)] else [(kd0, p 0), (kd1, p 1)]) kc (x.tag, y.tag, 0)

/-! Dot products (R73, R129 to R131). -/

/-- A factor of a product: its number, its tag, and whether it is special. -/
structure Factor where
  num : Num
  tag : Tag
deriving Repr

/-- A window sum over an FP32 accumulator, with the tag rule of R73: each product's tag is decided over its two factors
without a birth, and every term counts as add-like. -/
def windowRes (s : State) (l : LaneRef) (d : Reg) (acc : TW) (ps : List (Factor × Factor)) (tags : Tag × Tag × Tag) :
    LaneRes :=
  let mode := s.tagModeOf l
  let prods := ps.map fun p => product p.1.num p.2.num
  let (w, r) := windowF32 (f32 acc.val) prods
  let ptag (p : Factor × Factor) : Tag :=
    (tagrule (if mode = 3 then 0 else mode)
      [⟨p.1.tag, p.1.num.special⟩, ⟨p.2.tag, p.2.num.special⟩] none false).getD 0
  let srcs := f32Src acc :: ps.map fun p => ⟨ptag p, p.1.num.special || p.2.num.special⟩
  let doms := f32Mag acc :: ps.map fun p => ⟨ptag p, prodMag p.1.num p.2.num⟩
  .one d w (.rule srcs (some doms) (decide (r ≠ 0))) r tags

def execHdot2 (d a b c : Reg) (bf : Bool) (s : State) : Host.Outcome State Fault Refusal :=
  execLanes s (.lat 6) fun _ l =>
    let x := s.operand l a
    let y := s.operand l b
    let z := s.operand l c
    windowRes s l d z ((List.range 2).map fun i => (⟨hnum bf x.val i, x.tag⟩, ⟨hnum bf y.val i, y.tag⟩))
      (x.tag, y.tag, z.tag)

/-- The format slot an instruction names, in the launch of the word being issued. -/
def State.slotOf (s : State) (c : IssueCtx) (n : BitVec 3) : W64 :=
  match s.launch? c.launch with
  | some l => l.slot n
  | none => 0

def State.allocOf (s : State) (c : IssueCtx) : Nat :=
  match s.launch? c.launch with
  | some l => l.rec_.regs
  | none => 0

def execFdot4q (d a b : Reg) (slot : BitVec 3) (s : State) : Host.Outcome State Fault Refusal :=
  execLanes s (.lat 6) fun c l =>
    let x := s.operand l a
    let y := s.operand l b
    let tags := (x.tag, y.tag, (0 : Tag))
    let go (f : FFmt) : LaneRes :=
      let el (w : W32) (i : Nat) : Num := decodeF f (w.toNat / 2 ^ (8 * i) % 256)
      windowRes s l d (s.operand l d)
        ((List.range 4).map fun i => (⟨el x.val i, x.tag⟩, ⟨el y.val i, y.tag⟩)) tags
    match Slot.fmt (s.slotOf c slot) with
    | 3 => go .e4m3
    | 4 => go .e5m2
    | _ => .badSlot c tags

/-- The level a code of LUTDOT stands for (R131). -/
def lutLevel (fmt code : Nat) : Option Num :=
  match fmt with
  | 6 => some (decodeElem .cb4 code)
  | 5 => some (decodeF .e2m1 code)
  | 11 => some (Num.ofInt (intOfBits 4 true code))
  | _ => none

def execLutdot (d a b : Reg) (slot : BitVec 3) (bf : Bool) (s : State) : Host.Outcome State Fault Refusal :=
  execLanes s (.lat 6) fun c l =>
    let x := s.operand l a
    let y (i : Nat) : TW := s.operand l (regPlus b i)
    let tags := (x.tag, (y 0).tag, (0 : Tag))
    let fmt := Slot.fmt (s.slotOf c slot)
    if fmt = 6 ∨ fmt = 5 ∨ fmt = 11 then
      windowRes s l d (s.operand l d)
        ((List.range 8).map fun i =>
          (⟨(lutLevel fmt (x.val.toNat / 2 ^ (4 * i) % 16)).getD Num.zero, x.tag⟩,
           ⟨hnum bf (y (i / 2)).val (i % 2), (y (i / 2)).tag⟩)) tags
    else .badSlot c tags

end Sys2Proof.Machine
end

