-- ==== Sys2Proof/Machine/Convert.lean ====
section
/-!
DEFINITION. Conversion, packing and quantisation (R132 to R138) and the tag instructions TAGGET, TAGSET and TAGBIRTH (R139
to R141).
-/
namespace Sys2Proof.Machine

/-- CVTF (R132). A suffix names the destination first. A masked write re-derives the word's tag over its two elements
(R74). DEDUCED: BF16.F16 is rounded by rne(), since BF16 cannot hold every FP16 number (assumption log 18). -/
def cvtfRes (s : State) (l : LaneRef) (op : CvtfOp) (d a : Reg) (h : Bool) : LaneRes :=
  let x := s.operand l a
  let old := s.operand l d
  let i := if h then 1 else 0
  -- the source number, the destination format, whether the destination is one half, whether .H selects it
  let (n, df, toHalf) : Num × FFmt × Bool := match op with
    | .f16F32 => (f32 x.val, .fp16, true)
    | .bf16F32 => (f32 x.val, .bf16, true)
    | .f32F16 => (hnum false x.val i, .fp32, false)
    | .f32Bf16 => (hnum true x.val i, .fp32, false)
    | .bf16F16 => (hnum false x.val i, .bf16, true)
    | .f16Bf16 => (hnum true x.val i, .fp16, true)
  let (w, r) := encodeF df false n
  let raised := decide (r ≠ 0)
  let src : TSrc := ⟨x.tag, n.special⟩
  if toHalf && h then
    .one d (pack16 (half16 old.val 0) w)
      (.rule [⟨old.tag, (decodeF df (half16 old.val 0)).special⟩, src] none raised) r (x.tag, 0, 0)
  else .one d (BitVec.ofNat 32 w) (.rule [src] none raised) r (x.tag, 0, 0)

def execCvtf (op : CvtfOp) (d a : Reg) (h : Bool) (s : State) : Host.Outcome State Fault Refusal :=
  execLanes s (.lat 4) fun _ l => cvtfRes s l op d a h

/-- CVTI (R133): I16 and I8 results are sign-extended. -/
def execCvti (op : CvtiOp) (d a : Reg) (s : State) : Host.Outcome State Fault Refusal :=
  execLanes s (.lat 4) fun _ l =>
    let x := s.operand l a
    let (w, sg) : Nat × Bool := match op with
      | .i32 => (32, true)
      | .u32 => (32, false)
      | .i16 => (16, true)
      | .i8 => (8, true)
    let (v, r) := encodeInt w sg (f32 x.val)
    .one d (ofI (intOfBits w sg v)) (.rule [f32Src x] none (decide (r ≠ 0))) r (x.tag, 0, 0)

def execCvtfi (u : Bool) (d a : Reg) (s : State) : Host.Outcome State Fault Refusal :=
  execLanes s (.lat 4) fun _ l =>
    let x := s.operand l a
    .one d (toF32 (Num.ofInt (asInt u x.val))).1 (.rule [intSrc x] none false) 0 (x.tag, 0, 0)

/-- The enabled exceptions of a lane's thread. -/
def State.fcrOf (s : State) (l : LaneRef) : Exc :=
  match s.thread? l.tid with
  | some t => t.sys.fcr
  | none => 0

/-- PACK and QUANT (R135, R137): each element rounded once; TTAG0 is the tag of the lowest register whose element raised
an enabled exception. DESIGN CHOICE: TTAG1 of a QUANT is its source b's tag, as R77 has it (assumption log 90). -/
def packRes (s : State) (c : IssueCtx) (l : LaneRef) (d a : Reg) (slot : BitVec 3) (scale : Option TW) : LaneRes :=
  let desc := s.slotOf c slot
  let fmt := Slot.fmt desc
  let x0 := s.operand l a
  let btag := (scale.map (·.tag)).getD 0
  match packCount fmt, Elem.ofCode fmt with
  | some n, some el =>
    if !slotRangeOk (s.allocOf c) a n then .badSlot c (x0.tag, btag, 0)
    else
      let srcs := (List.range n).map fun i => s.operand l (regPlus a i)
      let one (x : TW) : Nat × Exc :=
        let (v, e) := match scale with
          | some b => Num.mul (f32 x.val) (f32 b.val)
          | none => (f32 x.val, Exc.none)
        let (w, e2) := encodeElem el (Slot.sat desc) v
        (w, e ||| e2)
      let w := 32 / n
      let word := (List.range n).foldl (fun acc i => acc + (one (srcs.getD i TW.zero)).1 * 2 ^ (w * i)) 0
      let r := srcs.foldl (fun acc x => acc ||| (one x).2) (0 : Exc)
      let en := s.fcrOf l
      let bad := (srcs.find? fun x => decide ((one x).2 &&& en ≠ 0)).map (·.tag)
      .one d (BitVec.ofNat 32 word)
        (.rule (srcs.map f32Src ++ (scale.map fun b => [f32Src b]).getD []) none (decide (r ≠ 0))) r
        (bad.getD x0.tag, btag, 0)
  | _, _ => .badSlot c (x0.tag, btag, 0)

/-- UNPACK and DEQUANT (R136, R137). For DEQUANT of fmt 10 the exact INT32 times b is rounded once,
R137's rne(value(element) · b); the other reading, with the INT32 rounded to FP32 first as UNPACK does, is not taken
(DESIGN CHOICE, assumption log 76). -/
def unpackRes (s : State) (c : IssueCtx) (l : LaneRef) (d a : Reg) (slot : BitVec 3) (scale : Option TW) : LaneRes :=
  let fmt := Slot.fmt (s.slotOf c slot)
  let x := s.operand l a
  let btag := (scale.map (·.tag)).getD 0
  match packCount fmt, Elem.ofCode fmt with
  | some n, some el =>
    if !slotRangeOk (s.allocOf c) d n then .badSlot c (x.tag, btag, 0)
    else
      let w := 32 / n
      let num (i : Nat) : Num := decodeElem el (x.val.toNat / 2 ^ (w * i) % 2 ^ w)
      let asrc : TSrc := ⟨x.tag, (List.range n).any fun i => (num i).special⟩
      let one (i : Nat) : W32 × Exc :=
        let (v, e) := match scale with
          | some b => Num.mul (num i) (f32 b.val)
          | none => (num i, Exc.none)
        let (v2, e2) := toF32 v
        (v2, e ||| e2)
      let want (i : Nat) : TagWant := match scale with
        | some b => .rule [asrc, f32Src b] none (decide ((one i).2 ≠ 0))
        | none => .fixed x.tag
      ⟨(List.range n).map (fun i => ([(regPlus d i, (one i).1)], want i)), [],
        (List.range n).foldl (fun acc i => acc ||| (one i).2) 0, none, (x.tag, btag, 0)⟩
  | _, _ => .badSlot c (x.tag, btag, 0)

def execPack (d a : Reg) (slot : BitVec 3) (s : State) : Host.Outcome State Fault Refusal :=
  execLanes s (.lat 4) fun c l => packRes s c l d a slot none
def execUnpack (d a : Reg) (slot : BitVec 3) (s : State) : Host.Outcome State Fault Refusal :=
  execLanes s (.lat 4) fun c l => unpackRes s c l d a slot none
def execQuant (d a b : Reg) (slot : BitVec 3) (s : State) : Host.Outcome State Fault Refusal :=
  execLanes s (.lat 4) fun c l => packRes s c l d a slot (some (s.operand l b))
def execDequant (d a b : Reg) (slot : BitVec 3) (s : State) : Host.Outcome State Fault Refusal :=
  execLanes s (.lat 4) fun c l => unpackRes s c l d a slot (some (s.operand l b))

/-- CBDEC (R138): level · s8 · S, rounded once. -/
def execCbdec (d a b c : Reg) (f16 : Bool) (s : State) : Host.Outcome State Fault Refusal :=
  execLanes s (.lat 4) fun _ l =>
    let x := s.operand l a
    let y := s.operand l b
    let z := s.operand l c
    let one (i : Nat) : Nat × Exc :=
      let lv := decodeElem .cb4 (x.val.toNat / 2 ^ (4 * i) % 16)
      let p := (Num.mul lv (Num.ofNat (y.val.toNat % 256))).1
      let (v, e) := Num.mul p (f32 z.val)
      let (w, e2) := encodeF (if f16 then .fp16 else .fp32) false v
      (w, e ||| e2)
    let want (r : Exc) : TagWant := .rule [intSrc x, intSrc y, f32Src z] none (decide (r ≠ 0))
    let all := (List.range 8).foldl (fun acc i => acc ||| (one i).2) (0 : Exc)
    let ws : List (List (Reg × W32) × TagWant) :=
      if f16 then (List.range 4).map fun j =>
        ([(regPlus d j, pack16 (one (2 * j)).1 (one (2 * j + 1)).1)], want ((one (2 * j)).2 ||| (one (2 * j + 1)).2))
      else (List.range 8).map fun i => ([(regPlus d i, BitVec.ofNat 32 (one i).1)], want (one i).2)
    ⟨ws, [], all, none, (x.tag, y.tag, z.tag)⟩

/-! Tag instructions (R139 to R141). -/

def execTagget (d a : Reg) (s : State) : Host.Outcome State Fault Refusal :=
  execLanes s (.lat 2) fun _ l =>
    let x := s.operand l a
    .one d (x.tag.setWidth 32) (.fixed 0) 0 (x.tag, 0, 0)
def execTagset (op : TagsetOp) (d a : Reg) (s : State) : Host.Outcome State Fault Refusal :=
  execLanes s (.lat 2) fun _ l =>
    let x := s.operand l a
    match op with
    | .value b => .one d x.val (.fixed ((s.operand l b).val.setWidth 16)) 0 (x.tag, (s.operand l b).tag, 0)
    | .null => .one d x.val (.fixed 0) 0 (x.tag, 0, 0)
    | .copy b => .one d x.val (.fixed (s.operand l b).tag) 0 (x.tag, (s.operand l b).tag, 0)
def execTagbirth (d a : Reg) (s : State) : Host.Outcome State Fault Refusal :=
  execLanes s (.lat 2) fun _ l =>
    let x := s.operand l a
    .one d x.val .born 0 (x.tag, 0, 0)

end Sys2Proof.Machine
end

