-- ==== Sys2Proof/Machine/Halves.lean ====
section
/-!
DEFINITION. Half instructions (R33 to R35, R194): both halves of a word read its old state, and a trap of either leaves
the lane with the effect of neither.
-/
namespace Sys2Proof.Machine

/-- What a half gives a lane (R33): its primary with b taken from a and d read as the first source. -/
def halfRes (i : Instr) (s : State) (l : LaneRef) : LaneRes :=
  match i with
  | .iaddHalf d a => iaddRes s l d d a false
  | .isubHalf d a => isubRes s l d d a false
  | .imulHalf d a => imulRes s l d d a false
  | .iminHalf d a => iminRes s l d d a false
  | .imaxHalf d a => imaxRes s l d d a false
  | .andHalf d a => andRes s l d d a
  | .orHalf d a => orRes s l d d a
  | .xorHalf d a => xorRes s l d d a
  | .shlHalf d a => shiftRes s l d d (.reg a) shlV
  | .shrHalf d a => shiftRes s l d d (.reg a) shrV
  | .sarHalf d a => shiftRes s l d d (.reg a) sarV
  | .movHalf d a => movRes s l d a
  | .faddHalf d a => faddRes s l d d a
  | .fsubHalf d a => fsubRes s l d d a
  | .fmulHalf d a => fmulRes s l d d a
  | .fminHalf d a => fminRes s l d d a
  | .fmaxHalf d a => fmaxRes s l d d a
  | .hadd2Half d a => hadd2Res s l d d a false
  | .hmul2Half d a => hmul2Res s l d d a false
  | _ => ⟨[], [], 0, none, (0, 0, 0)⟩

/-- Whether the other half of the word traps for a lane (R194). Half A's own trap goes first. -/
def State.partnerTraps (s : State) (c : IssueCtx) (l : LaneRef) : Bool :=
  match c.partner with
  | some p => (s.resTrap l (halfRes p s l)).isSome
  | none => false

/-- Run one half for every executing lane: nothing for a lane whose other half traps, except that half A's trap is taken
before half B's (R194). -/
def execHalf (i : Instr) (lat : Nat) (s : State) : Host.Outcome State Fault Refusal :=
  match s.cur with
  | none => .next s
  | some c =>
    .next (c.lanes.foldl (fun s' l =>
      let r := halfRes i s l
      if s.partnerTraps c l && !(decide (c.half = .a) && (s.resTrap l r).isSome) then s'
      else s'.deliver c l (.lat lat) r) s)

def execNopHalf (s : State) : Host.Outcome State Fault Refusal := .next s
def execIaddHalf (d a : Reg) (s : State) : Host.Outcome State Fault Refusal := execHalf (.iaddHalf d a) 2 s
def execIsubHalf (d a : Reg) (s : State) : Host.Outcome State Fault Refusal := execHalf (.isubHalf d a) 2 s
def execImulHalf (d a : Reg) (s : State) : Host.Outcome State Fault Refusal := execHalf (.imulHalf d a) 4 s
def execIminHalf (d a : Reg) (s : State) : Host.Outcome State Fault Refusal := execHalf (.iminHalf d a) 2 s
def execImaxHalf (d a : Reg) (s : State) : Host.Outcome State Fault Refusal := execHalf (.imaxHalf d a) 2 s
def execAndHalf (d a : Reg) (s : State) : Host.Outcome State Fault Refusal := execHalf (.andHalf d a) 2 s
def execOrHalf (d a : Reg) (s : State) : Host.Outcome State Fault Refusal := execHalf (.orHalf d a) 2 s
def execXorHalf (d a : Reg) (s : State) : Host.Outcome State Fault Refusal := execHalf (.xorHalf d a) 2 s
def execShlHalf (d a : Reg) (s : State) : Host.Outcome State Fault Refusal := execHalf (.shlHalf d a) 2 s
def execShrHalf (d a : Reg) (s : State) : Host.Outcome State Fault Refusal := execHalf (.shrHalf d a) 2 s
def execSarHalf (d a : Reg) (s : State) : Host.Outcome State Fault Refusal := execHalf (.sarHalf d a) 2 s
def execMovHalf (d a : Reg) (s : State) : Host.Outcome State Fault Refusal := execHalf (.movHalf d a) 2 s
def execFaddHalf (d a : Reg) (s : State) : Host.Outcome State Fault Refusal := execHalf (.faddHalf d a) 4 s
def execFsubHalf (d a : Reg) (s : State) : Host.Outcome State Fault Refusal := execHalf (.fsubHalf d a) 4 s
def execFmulHalf (d a : Reg) (s : State) : Host.Outcome State Fault Refusal := execHalf (.fmulHalf d a) 4 s
def execFminHalf (d a : Reg) (s : State) : Host.Outcome State Fault Refusal := execHalf (.fminHalf d a) 4 s
def execFmaxHalf (d a : Reg) (s : State) : Host.Outcome State Fault Refusal := execHalf (.fmaxHalf d a) 4 s
def execHadd2Half (d a : Reg) (s : State) : Host.Outcome State Fault Refusal := execHalf (.hadd2Half d a) 4 s
def execHmul2Half (d a : Reg) (s : State) : Host.Outcome State Fault Refusal := execHalf (.hmul2Half d a) 4 s

end Sys2Proof.Machine
end

