-- ==== Sys2Proof/Machine/Scratch.lean ====
section
/-!
DEFINITION. Scratchpad (R74, R162 to R167, R375): words with tags, accesses queued at issue and performed at their points,
and the scratchpad instructions.
-/
namespace Sys2Proof.Machine

/-! Words of a flock's window. -/

namespace Flock

def tagAt (f : Flock) (a : Nat) : Tag := AL.get 0 f.tags (a / 4)
def word (f : Flock) (a : Nat) : TW := ⟨Mem.read32 f.mem (a / 4 * 4), f.tagAt a⟩
def setWord (f : Flock) (a : Nat) (w : TW) : Flock :=
  { f with mem := Mem.write32 f.mem (a / 4 * 4) w.val, tags := AL.set 0 f.tags (a / 4) w.tag }

/-- A write of n < 4 bytes: they merge into the word, whose tag is the first non-null tag of its elements in order (R74,
R180). -/
def mergeSub (f : Flock) (a n : Nat) (w : TW) : Flock :=
  let old := f.tagAt a
  let first := if a % 4 = 0 then w.tag else old
  let other := if a % 4 = 0 then old else w.tag
  { f with
    mem := Mem.writeNat f.mem a n w.val.toNat,
    tags := AL.set 0 f.tags (a / 4) (if first = 0 then other else first) }

/-- Consecutive words from an address. -/
def setWords (f : Flock) (a : Nat) : List TW → Flock
  | [] => f
  | w :: ws => setWords (f.setWord a w) (a + 4) ws

end Flock

/-! Cells (R62 to R64). A cell's value, its sticky bits and its tag. -/

/-- FP32 addend x with weight L: the integer added and the sticky bits set (R62). -/
def cellAddend (x : W32) (l : Byte) : Int × Nat :=
  match f32 x with
  | .nan .. => (0, 1)
  | .inf s => (0, if s then 4 else 2)
  | .fin s m e =>
    let q : Int := rneInt m (e - l.toInt)
    (if s then -q else q, 0)

/-- The 144-bit value and the sticky bits of 19 bytes, after an addend. -/
def cellSum (v sticky : Nat) (x : W32) (l : Byte) : Nat × Nat :=
  let (i, st) := cellAddend x l
  if st = 0 then (bitsOfInt 144 ((v : Int) + i), sticky) else (v, sticky ||| st)

/-- The cell tag after an addend (R64). -/
def cellTagAfter (old : Tag) (sticky : Nat) (x : TW) : Tag :=
  let low (a b : Tag) : Tag := if a.toNat ≤ b.toNat then a else b
  if (f32 x.val).special then (if sticky = 0 then x.tag else low old x.tag)
  else if sticky = 0 ∧ x.tag ≠ 0 then (if old = 0 then x.tag else low old x.tag)
  else old

/-- The value CELLRD.F32 reads and what it raises (R63). -/
def cellRead (v sticky : Nat) (l : Byte) : W32 × Exc :=
  let st := sticky % 8
  if st % 2 = 1 ∨ st / 2 = 3 then (0x7FC00000, Exc.iv)
  else if st = 2 then (0x7F800000, Exc.none)
  else if st = 4 then (0xFF800000, Exc.none)
  else
    let i := intOfBits 144 true v
    toF32 (.fin (decide (i < 0)) i.natAbs l.toInt)

/-- The five words CELLRD.RAW gives of a cell (R167): the value and the sticky bits, the rest zero, all with the cell tag. -/
def cellRawWords (v sticky : Nat) (t : Tag) : List TW :=
  (List.range 5).map fun i => ⟨BitVec.ofNat 32 ((v + sticky * 2 ^ 144) / 2 ^ (32 * i)), t⟩

namespace Flock

def cellVal (f : Flock) (a : Nat) : Nat := Mem.readNat f.mem a 18
/-- The sticky bits of a cell slot (Table 3.9). DESIGN CHOICE: where software has written bits [7:3] non-zero they count for
nothing, and an add writes them as zero (assumption log 86). -/
def cellSticky (f : Flock) (a : Nat) : Nat := (Mem.read f.mem (a + 18)).toNat % 8
def cellTag (f : Flock) (a : Nat) : Tag := f.tagAt a

/-- Write a cell slot whole: value, sticky bits, zero bytes and one tag for its eight words (Table 3.9, R64). -/
def putCell (f : Flock) (a v sticky : Nat) (t : Tag) : Flock :=
  { f with
    mem := Mem.writeNat f.mem a 32 (v + sticky * 2 ^ 144),
    tags := (List.range 8).foldl (fun m i => AL.set 0 m (a / 4 + i) t) f.tags }

def addCell (f : Flock) (a : Nat) (x : TW) (l : Byte) : Flock :=
  let (v, st) := cellSum (f.cellVal a) (f.cellSticky a) x.val l
  f.putCell a v st (cellTagAfter (f.cellTag a) (f.cellSticky a) x)

end Flock

/-! Atomics (R166, Table 6.6). -/

/-- The new word of an atomic, and how it takes its tag: kept, b's, or by the tag rule over (old, b). -/
inductive AtomTag where
  | old | b | rule (dom : Bool)
deriving DecidableEq, Repr

def atomNew (op : AtomOp) (old b : TW) (cmp : W32) : W32 × AtomTag :=
  match op with
  | .add => (old.val + b.val, .rule true)
  | .min => if b.val.toInt < old.val.toInt then (b.val, .b) else (old.val, .old)
  | .max => if old.val.toInt < b.val.toInt then (b.val, .b) else (old.val, .old)
  | .umin => if b.val.toNat < old.val.toNat then (b.val, .b) else (old.val, .old)
  | .umax => if old.val.toNat < b.val.toNat then (b.val, .b) else (old.val, .old)
  | .and => (old.val &&& b.val, .rule false)
  | .or => (old.val ||| b.val, .rule false)
  | .xor => (old.val ^^^ b.val, .rule false)
  | .exch => (b.val, .b)
  | .cas => if old.val = cmp then (b.val, .b) else (old.val, .old)
  | .amax =>
    let x := (f32 old.val).abs
    let y := (f32 b.val).abs
    let v := (Num.firstNan [x, y]).getD (Num.max x y)
    ((toF32 v).1, if Num.maxSide x y then .b else .old)

/-- The rule form of an atomic's tag (R166). -/
def atomWant (t : AtomTag) (old b : TW) : TagWant :=
  match t with
  | .old => .fixed old.tag
  | .b => .fixed b.tag
  | .rule dom => .rule [intSrc old, intSrc b] (if dom then some [intMag old, intMag b] else none) false

namespace State

/-- The tag of a rule for a lane that is no longer issuing: the rule is its thread's when its word issued (R176), and births
use the site kept with its access. -/
def resolveAt (s : State) (core launch : Nat) (l : LaneRef) (mode : BitVec 2) (logical first : Nat) (site : Tag)
    (w : TagWant) : Tag × State :=
  match w with
  | .fixed t => (t, s)
  | .born => s.born core launch l.g logical first site
  | .rule srcs doms raised =>
    match tagrule mode srcs doms raised with
    | some t => (t, s)
    | none => s.born core launch l.g logical first site

/-- Give a word performed for HASHL its value, and let HASHL take every word whose turn has come (R330). -/
def hashTake (h : W32) : List (Nat × Option W32) → W32 × List (Nat × Option W32)
  | (_, some w) :: t => hashTake ((h * 33) ^^^ w) t
  | q => (h, q)

def hashSettle (t : Thread) : Thread :=
  let (h, q) := hashTake t.sys.hashl t.hashq
  { t with hashq := q, sys := { t.sys with hashl := h } }

/-- Queue words for HASHL in program order; a helper makes no update (R330). -/
def hashPush (s : State) (l : LaneRef) (ws : List (Nat × Option W32)) : State :=
  if l.helper then s else s.modThread l.tid fun t => hashSettle { t with hashq := t.hashq ++ ws }

/-- A thread with the value of a queued word filled in. -/
def hashFillIn (seq : Nat) (w : W32) (t : Thread) : Thread :=
  hashSettle { t with hashq := t.hashq.map fun p => if p.1 = seq ∧ p.2 = none then (p.1, some w) else p }

/-- Fill in the value of a queued word: an ATOM's at its point, an ATOMP's or GATOM's when it lands (R330). -/
def hashFill (s : State) (l : LaneRef) (seq : Nat) (w : W32) : State :=
  if l.helper then s else s.modThread l.tid (hashFillIn seq w)

/-- Give a load's or atomic's result its values: writes in flight wait for them, or a flagged result does. -/
def fillResult (s : State) (l : LaneRef) (seq : Nat) (flagId : Option Nat) (dests : List Reg) (vals : List TW) : State :=
  let vs := if l.helper then vals.map fun v => (⟨v.val, helperTag⟩ : TW) else vals
  match flagId with
  | some id =>
    s.modThread l.tid fun t =>
      { t with flagged := updateWhere (fun f => decide (f.id = id)) (fun f => { f with vals := some vs }) t.flagged }
  | none =>
    s.modRf l fun r =>
      { r with
        pend := r.pend.map fun w =>
          if w.seq = seq ∧ w.val = none then
            match w.dst with
            | .reg .last => { w with val := vs.getLast? }
            | .reg q => { w with val := vs[dests.idxOf q]? }
            | .pred _ => w
          else w }

/-- Reserve the landing of a result whose value is known later (R101, R104). -/
def reserve (s : State) (c : IssueCtx) (l : LaneRef) (lat : Nat) (toLast : Bool) (dests : List Reg) : State :=
  let mk (r : Reg) : Landing := ⟨c.cycle + lat, c.seq, .reg r, none⟩
  s.modRf l fun r =>
    { r with pend := r.pend ++ (dests.filter fun d => decide (d ≠ .zero)).map mk ++ (if toLast then [mk .last] else []) }

/-- Whether a WAITA condition holds (R153). -/
def waitaHolds (ne : Bool) (v cmp : W32) : Bool := decide (v = cmp) != ne

/-- End a WAITA: d takes the value and loses any parity error, in the overlays of the helper lanes that execute the word with
the quad's lowest member too (R91), and the thread is ready from a cycle. -/
def waitaWake (s : State) (t : ThreadId) (v : TW) (at_ : Nat) : State :=
  match s.thread? t with
  | none => s
  | some th =>
    match th.sleep with
    | .waita addr ne cmp d _ hs _ =>
      let s1 := s.modThread t fun x =>
        { x with
          rf := x.rf.put d v, sleep := .waita addr ne cmp d false hs (some at_),
          parity := x.parity.filter fun p => !decide (p.1 = d) }
      hs.foldl (fun s h => s.modRf ⟨t.g, h, true⟩ fun r => r.put d ⟨v.val, helperTag⟩) s1
    | _ => s

/-- A write to a word of a flock's window was performed: each sleeper at WAITA whose condition the word's value meets
wakes 2 cycles later (R153). -/
def wroteWord (s : State) (fl a : Nat) : State :=
  match s.flock? fl with
  | none => s
  | some f =>
    let w := a / 4 * 4
    let v := f.word w
    let cyc := s.cycle f.core
    let ids : List ThreadId :=
      (s.groups.filter fun g => decide (g.launch = f.launch ∧ g.core = f.core ∧ g.slot = f.slot)).flatMap fun g =>
        ((List.range g.lanes.length).zip g.lanes).filterMap fun p =>
          match p.2.sleep with
          | .waita addr ne cmp _ false _ none =>
            if p.2.present && decide (addr = w) && waitaHolds ne v.val cmp then some ⟨g.uid, p.1⟩ else none
          | _ => none
    ids.foldl (fun s t => s.waitaWake t v (cyc + 2)) s

/-- Write words of a flock's window in address order, waking sleepers at each. -/
def writeWords (s : State) (fl a : Nat) : List TW → State
  | [] => s
  | w :: ws => ((s.modFlock fl fun f => f.setWord a w).wroteWord fl a).writeWords fl (a + 4) ws

/-- The source tags TTAG0 to TTAG2 would take (R77). -/
abbrev Tags3 := Tag × Tag × Tag

/-- Queue a scratchpad access of a lane of the word being issued, to be performed at its point (R164). A birth it may make
there keeps a number of the reserve (R68). -/
def queueScratch (s : State) (c : IssueCtx) (l : LaneRef) (f : Flock) (pad : Bool) (addr : Nat) (op : ScratchOp)
    (dests : List Reg) (flagId : Option Nat) (tags : Tags3) : State :=
  let due := c.cycle + (if pad then 12 else 3)
  let logical := match s.group? l.g with
    | some g => g.logical
    | none => 0
  let a : ScratchAcc :=
    { due := due, core := f.core, cls := if pad then 2 else 1, src := if pad then padIdx c.core else 0, port := c.port,
      logical := logical, lane := l, flock := f.uid, addr := addr, op := op, dests := dests, seq := c.seq,
      flagId := flagId, pc := c.pc, hi := (c.word >>> 32).setWidth 32, site := s.siteOf c, first := firstLane c l,
      mode := s.tagModeOf l, fcr := s.fcrOf l, tags := tags }
  let s0 := if op.mayBear && !l.helper then s.pledgeBirth c.core c.launch logical (s.siteOf c) else s
  let s1 := { s0 with scratch := s0.scratch ++ [a] }
  if l.helper then s1 else s1.modThread l.tid fun t => { t with lastScratch := max t.lastScratch due }

/-- The lane waits for a decision at its access's point, and is not ready before the cycle after it (R375). -/
def decideAt (s : State) (c : IssueCtx) (l : LaneRef) : State :=
  if l.helper then s
  else s.modThread l.tid fun t => { t with sleep := .deciding, nextIssue := max t.nextIssue (c.cycle + 4) }

/-- Why a local access traps (R162): SP_RANGE before ALIGN (R194). -/
def localTrap (size addr n : Nat) : Option Byte :=
  if size < addr + n then some 0x03 else if addr % n ≠ 0 then some 0x04 else none

/-- The flock a paddock address of a lane reaches, and the local address (R162). -/
def padTarget (s : State) (l : LaneRef) (addr : W32) : Option (Flock × Nat) :=
  match s.group? l.g with
  | none => none
  | some g =>
    if addr.toNat / 2 ^ 23 ≠ 0 then none
    else match s.flockAt? g.launch (padCore (padOf g.core) (addr.toNat / 2 ^ 21)) g.slot with
      | some f => some (f, addr.toNat % 2 ^ 21)
      | none => none

/-- Whether the launch of the word being issued has PAD set (R18). -/
def padSet (s : State) (c : IssueCtx) : Bool :=
  match s.launch? c.launch with
  | some l => l.rec_.pad
  | none => false

def isDet (s : State) (c : IssueCtx) : Bool :=
  match s.launch? c.launch with
  | some l => l.rec_.det
  | none => false

/-- Trap ILLEGAL with a reason raised at execution (Table 2.8). -/
def illegalLane (s : State) (c : IssueCtx) (l : LaneRef) (reason : W32) (tags : Tags3) : State :=
  s.trapLane c l 0x01 reason ((c.word >>> 32).setWidth 32) tags 0

/-- TFDET's WRITE bit (Table 8.2): set for an access that is a write or an atomic. -/
def writeDetail (write : Bool) : W32 := if write then 1 else 0

/-- A local access of n bytes by a lane, checked: a trap, or the access done by `k` (R162). Helper lanes trap nothing. -/
def localAccess (s : State) (c : IssueCtx) (l : LaneRef) (addr : W32) (n : Nat) (write : Bool) (tags : Tags3)
    (k : State → Flock → State) : State :=
  match s.flockOf? l.g with
  | none => s
  | some f =>
    match localTrap f.size addr.toNat n with
    | some cause => s.trapLane c l cause addr 0 tags (writeDetail write)
    | none => k s f

/-- A paddock access of n bytes by a lane, checked (R18, R162, and for ATOMP the RACE of R166). -/
def padAccess (s : State) (c : IssueCtx) (l : LaneRef) (addr : W32) (n : Nat) (write race : Bool) (tags : Tags3)
    (k : State → Flock → Nat → State) : State :=
  if !s.padSet c then s.illegalLane c l 0x14 tags
  else
    match s.padTarget l addr with
    | none => s.trapLane c l 0x03 addr 0 tags (writeDetail write)
    | some (f, x) =>
      match localTrap f.size x n with
      | some cause => s.trapLane c l cause addr 0 tags (writeDetail write)
      | none =>
        if race && s.isDet c && !decide (f.core = c.core) then s.trapLane c l 0x10 addr 0 tags (writeDetail write)
        else k s f x

end State

/-- The source words of a store, in register order. -/
def State.storeVals (s : State) (l : LaneRef) (w : Width) (d : Reg) : List TW := (regRange d w.regs).map (s.operand l)

/-- What HASHL takes of a store's words (R330). -/
def storeHash (w : Width) (v : TW) : W32 :=
  match w with
  | .b | .bs => v.val &&& 0xFF
  | .h | .hs => v.val &&& 0xFFFF
  | _ => v.val

/-- Do something for every executing lane of the word being issued, in lane order. -/
def eachLane (s : State) (f : IssueCtx → State → LaneRef → State) : Host.Outcome State Fault Refusal :=
  match s.cur with
  | none => .next s
  | some c => .next (c.lanes.foldl (f c) s)

/-! The instructions. -/

def execLd (w : Width) (d a : Reg) (off : BitVec 16) (s : State) : Host.Outcome State Fault Refusal :=
  eachLane s fun c s l =>
    let x := s.operand l a
    s.localAccess c l (x.val + off.signExtend 32) w.bytes false (x.tag, 0, 0) fun s f =>
      let ds := regRange d w.regs
      (s.reserve c l 6 true ds).queueScratch c l f false (x.val + off.signExtend 32).toNat (.load w) ds none (x.tag, 0, 0)

def execSt (w : Width) (d a : Reg) (off : BitVec 16) (s : State) : Host.Outcome State Fault Refusal :=
  eachLane s fun c s l =>
    let x := s.operand l a
    let vs := s.storeVals l w d
    s.localAccess c l (x.val + off.signExtend 32) w.bytes true (x.tag, 0, 0) fun s f =>
      if l.helper then s
      else
        (s.hashPush l (vs.map fun v => (c.seq, some (storeHash w v)))).queueScratch c l f false
          (x.val + off.signExtend 32).toNat (.store w vs) [] none (x.tag, 0, 0)

def execLdp (w : Width) (d a : Reg) (off : BitVec 8) (fl : Flag) (s : State) : Host.Outcome State Fault Refusal :=
  eachLane s fun c s l =>
    let x := s.operand l a
    let addr := x.val + off.signExtend 32 * BitVec.ofNat 32 w.bytes
    s.padAccess c l addr w.bytes false false (x.tag, 0, 0) fun s f y =>
      let ds := regRange d w.regs
      if l.helper then (s.reserve c l 24 false ds).queueScratch c l f true y (.load w) ds none (x.tag, 0, 0)
      else
        let id := s.nextUid
        (s.armFlag c l fl 24 24 ds none false none).queueScratch c l f true y (.load w) ds (some id) (x.tag, 0, 0)

def execStp (w : Width) (d a : Reg) (off : BitVec 16) (s : State) : Host.Outcome State Fault Refusal :=
  eachLane s fun c s l =>
    let x := s.operand l a
    let vs := s.storeVals l w d
    s.padAccess c l (x.val + off.signExtend 32) w.bytes true false (x.tag, 0, 0) fun s f y =>
      if l.helper then s
      else
        (s.hashPush l (vs.map fun v => (c.seq, some (storeHash w v)))).queueScratch c l f true y (.store w vs) [] none
          (x.tag, 0, 0)

def execLdt (d a : Reg) (off : BitVec 16) (s : State) : Host.Outcome State Fault Refusal :=
  eachLane s fun c s l =>
    let x := s.operand l a
    s.localAccess c l (x.val + off.signExtend 32) 4 false (x.tag, 0, 0) fun s f =>
      (s.reserve c l 6 true [d]).queueScratch c l f false (x.val + off.signExtend 32).toNat .loadTag [d] none (x.tag, 0, 0)

/-- ATOM (R166). DESIGN CHOICE: in a helper lane it is suppressed (R88) and leaves d as it was, as ATOMP does (assumption
log 71). -/
def execAtom (op : AtomOp) (d a b cc : Reg) (s : State) : Host.Outcome State Fault Refusal :=
  eachLane s fun c s l =>
    let x := s.operand l a
    let y := s.operand l b
    let z := if op = .cas then s.operand l cc else TW.zero
    let tags := (x.tag, y.tag, z.tag)
    s.localAccess c l x.val 4 true tags fun s f =>
      if l.helper then s
      else
        ((s.hashPush l [(c.seq, none)]).reserve c l 6 true [d]).queueScratch c l f false x.val.toNat (.atom op y z) [d] none
          tags

def execAtomp (op : AtomOp) (d a b : Reg) (fl : Flag) (s : State) : Host.Outcome State Fault Refusal :=
  eachLane s fun c s l =>
    let x := s.operand l a
    let y := s.operand l b
    let z := if op = .cas then s.operand l (regPlus b 1) else TW.zero
    let tags := (x.tag, y.tag, (0 : Tag))
    s.padAccess c l x.val 4 true true tags fun s f p =>
      if l.helper then s
      else
        let id := s.nextUid
        ((s.hashPush l [(c.seq, none)]).armFlag c l fl 24 24 [d] none false none).queueScratch c l f true p (.atom op y z) [d]
          (some id) tags

def execCelladd (a b : Reg) (w : BitVec 8) (s : State) : Host.Outcome State Fault Refusal :=
  eachLane s fun c s l =>
    let x := s.operand l a
    let y := s.operand l b
    s.localAccess c l x.val 32 true (x.tag, y.tag, 0) fun s f =>
      if l.helper then s else s.queueScratch c l f false x.val.toNat (.cellAdd y w) [] none (x.tag, y.tag, 0)

/-- CELLRD.F32 (R61, R167). DESIGN CHOICE: a trap of it reports the address register's tag in TTAG0 and no tag of the cell,
as R77 does not say which of TTAG0 to TTAG2 a scratchpad operand would take (assumption log 67). -/
def execCellrdF32 (d a : Reg) (w : BitVec 8) (s : State) : Host.Outcome State Fault Refusal :=
  eachLane s fun c s l =>
    let x := s.operand l a
    s.localAccess c l x.val 32 false (x.tag, 0, 0) fun s f =>
      ((s.reserve c l 6 true [d]).decideAt c l).queueScratch c l f false x.val.toNat (.cellRdF32 w) [d] none (x.tag, 0, 0)

def execCellrdRaw (d a : Reg) (s : State) : Host.Outcome State Fault Refusal :=
  eachLane s fun c s l =>
    let x := s.operand l a
    s.localAccess c l x.val 32 false (x.tag, 0, 0) fun s f =>
      let ds := regRange d 5
      (s.reserve c l 6 true ds).queueScratch c l f false x.val.toNat .cellRdRaw ds none (x.tag, 0, 0)

def execCellclr (a : Reg) (s : State) : Host.Outcome State Fault Refusal :=
  eachLane s fun c s l =>
    let x := s.operand l a
    s.localAccess c l x.val 32 true (x.tag, 0, 0) fun s f =>
      if l.helper then s else s.queueScratch c l f false x.val.toNat .cellClr [] none (x.tag, 0, 0)

/-! Performance points. -/

/-- The words a load of a width gives (R165). -/
def loadWords (f : Flock) (w : Width) (a : Nat) : List TW :=
  let x := f.word a
  let b := Mem.readNat f.mem a 1
  let h := Mem.readNat f.mem a 2
  match w with
  | .b => [⟨BitVec.ofNat 32 b, x.tag⟩]
  | .bs => [⟨ofI (intOfBits 8 true b), x.tag⟩]
  | .h => [⟨BitVec.ofNat 32 h, x.tag⟩]
  | .hs => [⟨ofI (intOfBits 16 true h), x.tag⟩]
  | .word => [x]
  | .w2 => [x, f.word (a + 4)]
  | .w4 => [x, f.word (a + 4), f.word (a + 8), f.word (a + 12)]

namespace State

/-- Drop the landings a trapped word had reserved: it takes none of its effect (R375). -/
def dropReserved (s : State) (l : LaneRef) (seq : Nat) : State :=
  s.modRf l fun r => { r with pend := r.pend.filter fun w => !(decide (w.seq = seq) && decide (w.val = none)) }

/-- The thread goes on after a decision (R375). -/
def decided (s : State) (l : LaneRef) : State :=
  if l.helper then s
  else s.modThread l.tid fun t => if t.sleep = .deciding then { t with sleep := .awake } else t

/-- Trap a thread at the point of its access (R375). -/
def trapAt (s : State) (a : ScratchAcc) (cause : Byte) (info infoh : W32) : State :=
  if a.lane.helper then s
  else s.takeTrap a.lane.tid ⟨cause, info, infoh, a.tags.1, a.tags.2.1, a.tags.2.2, 0⟩ a.pc (a.due + 1)

/-- CELLRD.F32 at its point (R63, R64, R167): its exceptions and their trap, or the value with the cell tag or a birth. -/
def cellRdPoint (s : State) (a : ScratchAcc) (f : Flock) (w : Byte) : State :=
  let (v, e) := cellRead (f.cellVal a.addr) (f.cellSticky a.addr) w
  let s0 := if a.lane.helper then s else s.modSys a.lane.tid fun y => { y with fsr := y.fsr ||| e }
  if !a.lane.helper && decide (e &&& a.fcr ≠ 0) then
    (s0.dropReserved a.lane a.seq).trapAt a (excCause (e &&& a.fcr)) 0 0
  else
    let want : TagWant :=
      if e ≠ 0 ∧ a.mode ≠ 0 ∧ a.lane.helper = false then .born else .fixed (f.cellTag a.addr)
    let (t, s1) := s0.resolveAt a.core f.launch a.lane a.mode a.logical a.first a.site want
    (s1.fillResult a.lane a.seq a.flagId a.dests [⟨v, t⟩]).decided a.lane

/-- ATOM and ATOMP at their point (R166). -/
def atomPoint (s : State) (a : ScratchAcc) (f : Flock) (op : AtomOp) (b cmp : TW) : State :=
  let old := f.word a.addr
  let (v, t) := atomNew op old b cmp.val
  let core := match s.group? a.lane.g with
    | some g => g.core
    | none => a.core
  let (tag, s1) := s.resolveAt core f.launch a.lane a.mode a.logical a.first a.site (atomWant t old b)
  let s2 := (s1.modFlock f.uid fun f => f.setWord a.addr ⟨v, tag⟩).wroteWord f.uid a.addr
  (if a.flagId.isNone then s2.hashFill a.lane a.seq old.val else s2).fillResult a.lane a.seq a.flagId a.dests [old]

/-- RET at its point (R80, R375). -/
def retPoint (s : State) (a : ScratchAcc) (f : Flock) : State :=
  match s.launch? f.launch with
  | none => s
  | some l =>
    (s.modThread a.lane.tid fun t =>
      { t with pc := l.rec_.addrOf (f.word a.addr).val, sys := { t.sys with stkp := t.sys.stkp + 4 } }).decided a.lane

/-- The check of WAITA at its own point (R153). -/
def waitaPoint (s : State) (a : ScratchAcc) (f : Flock) : State :=
  match s.thread? a.lane.tid with
  | none => s
  | some th =>
    match th.sleep with
    | .waita addr ne cmp d true hs w =>
      let v := f.word addr
      let s1 := s.modThread a.lane.tid fun x => { x with sleep := .waita addr ne cmp d false hs w }
      if waitaHolds ne v.val cmp then s1.waitaWake a.lane.tid v (a.due + 2) else s1
    | _ => s

end State

end Sys2Proof.Machine
end

