-- ==== Sys2Proof/Machine/Control.lean ====
section
/-!
DEFINITION. Control transfer, barriers, waits, fences, traps and the return from them, system registers, and quad regions
(R87 to R91, R144 to R161, R176, R177).
-/
namespace Sys2Proof.Machine

/-- Do something for every executing thread of the word being issued; a helper lane does nothing (R91). -/
def eachThread (s : State) (f : IssueCtx → State → LaneRef → State) : Host.Outcome State Fault Refusal :=
  match s.cur with
  | none => .next s
  | some c => .next ((c.lanes.filter fun l => !l.helper).foldl (f c) s)

/-- Do something for every helper lane of the word being issued, after its members (R91). -/
def eachHelper (s : State) (f : IssueCtx → State → LaneRef → State) : State :=
  match s.cur with
  | none => s
  | some c => (c.lanes.filter fun l => l.helper).foldl (f c) s

def afterHelpers (o : Host.Outcome State Fault Refusal) (f : IssueCtx → State → LaneRef → State) :
    Host.Outcome State Fault Refusal :=
  match o with
  | .next s => .next (eachHelper s f)
  | o => o

namespace State

def recOf (s : State) (c : IssueCtx) : Option LaunchRec := (s.launch? c.launch).map (·.rec_)

/-- Send a thread to a word index (R145). -/
def jump (s : State) (c : IssueCtx) (l : LaneRef) (idx : W32) : State :=
  match s.recOf c with
  | none => s
  | some r => s.modThread l.tid fun t => { t with pc := r.addrOf idx }

/-- The index of the word being issued. -/
def idxNow (s : State) (c : IssueCtx) : W32 :=
  match s.recOf c with
  | some r => r.idxOf c.pc
  | none => 0

def stkpOf (s : State) (l : LaneRef) : W32 :=
  match s.thread? l.tid with
  | some t => t.sys.stkp
  | none => 0

/-- A word that moves STKP: an MTS of it by the thread's word before, which has not taken effect, is overwritten
(assumption log 75). -/
def ownStkp (s : State) (l : LaneRef) : State :=
  s.modThread l.tid fun t => { t with mts := t.mts.filter fun m => !decide (m.num = 0x030) }

/-- Push words below STKP, the first at the lowest address, then go on; a push outside the window traps (R80, R145). -/
def pushWords (s : State) (c : IssueCtx) (l : LaneRef) (ws : List W32) (tags : Tags3) (k : State → State) : State :=
  let n := 4 * ws.length
  let a := s.stkpOf l - BitVec.ofNat 32 n
  match s.flockOf? l.g with
  | none => s
  | some f =>
    if f.size < a.toNat + n then s.trapLane c l 0x03 a 0 tags (State.writeDetail true)
    else if a.toNat % 4 ≠ 0 then s.trapLane c l 0x04 a 0 tags (State.writeDetail true)
    else
      k (((s.queueScratch c l f false a.toNat (.push (ws.map fun w => ⟨w, 0⟩)) [] none tags).ownStkp l).modSys l.tid
        fun y => { y with stkp := a })

/-- Read words at STKP at the access's point; outside the window it traps now (R80, R159). -/
def popWords (s : State) (c : IssueCtx) (l : LaneRef) (n : Nat) (op : ScratchOp) : State :=
  let a := s.stkpOf l
  match s.flockOf? l.g with
  | none => s
  | some f =>
    if f.size < a.toNat + n then s.trapLane c l 0x03 a 0 (0, 0, 0) 0
    else if a.toNat % 4 ≠ 0 then s.trapLane c l 0x04 a 0 (0, 0, 0) 0
    else ((s.decideAt c l).queueScratch c l f false a.toNat op [] none (0, 0, 0)).ownStkp l

end State

/-! Control transfer (R145). -/

def execNop (s : State) : Host.Outcome State Fault Refusal := .next s
def execBra (off : BitVec 24) (s : State) : Host.Outcome State Fault Refusal :=
  eachThread s fun c s l => s.jump c l (s.idxNow c + 1 + off.signExtend 32)
def execCall (off : BitVec 24) (s : State) : Host.Outcome State Fault Refusal :=
  eachThread s fun c s l =>
    let i := s.idxNow c
    s.pushWords c l [i + 1] (0, 0, 0) fun s => s.jump c l (i + 1 + off.signExtend 32)
def execRet (s : State) : Host.Outcome State Fault Refusal :=
  eachThread s fun c s l => s.popWords c l 4 .ret
def execJmpi (a : Reg) (s : State) : Host.Outcome State Fault Refusal :=
  eachThread s fun c s l => s.jump c l (s.operand l a).val
def execCalli (a : Reg) (s : State) : Host.Outcome State Fault Refusal :=
  eachThread s fun c s l =>
    let x := s.operand l a
    s.pushWords c l [s.idxNow c + 1] (x.tag, 0, 0) fun s => s.jump c l x.val

/-! Barriers (R147 to R151). -/

namespace State

/-- The counted threads of a flock barrier (R148). -/
def flockThreads (s : State) (launch core slot : Nat) : List ThreadId :=
  (s.groups.filter fun g => decide (g.launch = launch ∧ g.core = core ∧ g.slot = slot)).flatMap fun g =>
    ((List.range g.lanes.length).zip g.lanes).filterMap fun p => if p.2.present then some ⟨g.uid, p.1⟩ else none

/-- The counted threads of a barrier of a flock or of its paddock (R148). -/
def countedThreads (s : State) (pad : Bool) (launch core slot : Nat) : List ThreadId :=
  if pad then (List.range 4).flatMap fun i => s.flockThreads launch (padCore (padOf core) i) slot
  else s.flockThreads launch core slot

/-- The key of a paddock barrier in its launch. -/
def padKey (core slot n : Nat) : Nat := (padOf core * 16 + slot) * 16 + n

def barrier (s : State) (pad : Bool) (launch core slot : Nat) (n : Nat) : Barrier :=
  if pad then
    match s.launch? launch with
    | some l => AL.get Barrier.fresh l.padBars (padKey core slot n)
    | none => Barrier.fresh
  else
    match s.flockAt? launch core slot with
    | some f => AL.get Barrier.fresh f.barriers n
    | none => Barrier.fresh

def setBarrier (s : State) (pad : Bool) (launch core slot : Nat) (n : Nat) (b : Barrier) : State :=
  if pad then s.modLaunch launch fun l => { l with padBars := AL.set Barrier.fresh l.padBars (padKey core slot n) b }
  else
    match s.flockAt? launch core slot with
    | some f => s.modFlock f.uid fun f => { f with barriers := AL.set Barrier.fresh f.barriers n b }
    | none => s

/-- Whether a phase has passed a value (Table 6.2, BWAIT). -/
def phasePassed (phase a : W32) : Bool := decide (1 ≤ (phase - a).toNat ∧ (phase - a).toNat < 2 ^ 31)

/-- The logical id of a thread. -/
def logidOf (s : State) (t : ThreadId) : Option W32 := (s.thread? t).map (·.sys.logid)

/-- Set the wake cycle of each sleeper at a barrier whose phase has just advanced (R149). -/
def wakeBarrier (s : State) (pad : Bool) (launch core slot n : Nat) (phase : W32) : State :=
  let at_ := s.cycle core + (if pad then 12 else 4)
  (s.countedThreads pad launch core slot).foldl (fun s t =>
    s.modThread t fun x =>
      match x.sleep with
      | .barrier p m ph none =>
        if p = pad ∧ m.toNat = n ∧ ph ≠ phase then { x with sleep := .barrier p m ph (some at_) } else x
      | .bwait p m a none =>
        if p = pad ∧ m.toNat = n ∧ phasePassed phase a = true then { x with sleep := .bwait p m a (some at_) } else x
      | _ => x) s

/-- A barrier completes when every counted thread has arrived at its phase, some thread being counted (R148). -/
def checkBarrier (s : State) (pad : Bool) (launch core slot n : Nat) : State :=
  let b := s.barrier pad launch core slot n
  let ts := s.countedThreads pad launch core slot
  if !ts.isEmpty && ts.all (fun t => (s.logidOf t).any b.arrived.contains) then
    (s.setBarrier pad launch core slot n ⟨b.phase + 1, []⟩).wakeBarrier pad launch core slot n (b.phase + 1)
  else s

/-- Check every barrier of a flock and of its paddock again, as after an exit, a suspend or a resume (R148). -/
def recheckBarriers (s : State) (launch core slot : Nat) : State :=
  (List.range 16).foldl (fun s n =>
    (s.checkBarrier false launch core slot n).checkBarrier true launch core slot n) s

/-- Arrive at a barrier (R147, R148). -/
def arriveAt (s : State) (pad : Bool) (g : Group) (t : ThreadId) (n : Nat) : State :=
  let b := s.barrier pad g.launch g.core g.slot n
  (s.setBarrier pad g.launch g.core g.slot n { b with arrived := b.arrived ++ (s.logidOf t).toList }).checkBarrier pad
    g.launch g.core g.slot n

/-- BARF and BARP: sleep until the phase arrived at has advanced. The sleep is set before the arrival, which may complete
the barrier. -/
def barSleep (s : State) (c : IssueCtx) (l : LaneRef) (pad : Bool) (n : BitVec 4) : State :=
  match s.group? l.g with
  | none => s
  | some g =>
    if pad && !s.padSet c then s.illegalLane c l 0x14 (0, 0, 0)
    else
      let b := s.barrier pad g.launch g.core g.slot n.toNat
      (s.modThread l.tid fun t => { t with sleep := .barrier pad n b.phase none }).arriveAt pad g l.tid n.toNat

end State

def execBarf (n : BitVec 4) (s : State) : Host.Outcome State Fault Refusal :=
  eachThread s fun c s l => s.barSleep c l false n
def execBarp (n : BitVec 4) (s : State) : Host.Outcome State Fault Refusal :=
  eachThread s fun c s l => s.barSleep c l true n

/-- The lowest member of the quad region a helper lane belongs to (R91). -/
def State.leadOf (s : State) (l : LaneRef) : LaneRef :=
  match s.group? l.g with
  | some g =>
    match g.region l.lane with
    | some r => ⟨l.g, r.members.headD l.lane, false⟩
    | none => l
  | none => l

/-- ARRIVE (R147): the phase arrived at, tag 0x0000; a helper takes its lowest member's phase (R91). -/
def execArrive (d : Reg) (n : BitVec 4) (pad : Bool) (s : State) : Host.Outcome State Fault Refusal :=
  let s0 := s
  afterHelpers
    (eachThread s fun c s l =>
      match s.group? l.g with
      | none => s
      | some g =>
        if pad && !s.padSet c then s.illegalLane c l 0x14 (0, 0, 0)
        else
          let b := s.barrier pad g.launch g.core g.slot n.toNat
          (s.inFlight c l 2 true [(d, ⟨b.phase, 0⟩)]).arriveAt pad g l.tid n.toNat)
    fun c s l =>
      match s0.group? l.g with
      | none => s
      | some g =>
        if pad && !s0.padSet c then s
        else s.inFlight c l 2 true [(d, ⟨(s0.barrier pad g.launch g.core g.slot n.toNat).phase, 0⟩)]

def execBwait (a : Reg) (n : BitVec 4) (pad : Bool) (s : State) : Host.Outcome State Fault Refusal :=
  eachThread s fun c s l =>
    let x := s.operand l a
    match s.group? l.g with
    | none => s
    | some g =>
      if pad && !s.padSet c then s.illegalLane c l 0x14 (x.tag, 0, 0)
      else if State.phasePassed (s.barrier pad g.launch g.core g.slot n.toNat).phase x.val then s
      else s.modThread l.tid fun t => { t with sleep := .bwait pad n x.val none }

/-- BARRIER_WAKE (R149): the sleepers of a group whose wake cycle has come are ready. -/
def execBarrierWake (g : Nat) (s : State) : Host.Outcome State Fault Refusal :=
  match s.group? g with
  | none => .next s
  | some x =>
    let cyc := s.cycle x.core
    .next (s.modGroup g fun y =>
      { y with
        lanes := y.lanes.map fun t =>
          match t.sleep with
          | .barrier _ _ _ (some w) => if w ≤ cyc then { t with sleep := .awake } else t
          | .bwait _ _ _ (some w) => if w ≤ cyc then { t with sleep := .awake } else t
          | _ => t })

/-- YIELD (R151): its switch point is taken when the word has issued (`isSwitchWord`). -/
def execYield (s : State) : Host.Outcome State Fault Refusal := .next s

/-! Traps (R158, R159). -/

def execTrap (imm : BitVec 16) (s : State) : Host.Outcome State Fault Refusal :=
  eachThread s fun c s l => s.trapLane c l 0x0B (imm.setWidth 32) 0 (0, 0, 0) 0
def execBrk (n : BitVec 8) (s : State) : Host.Outcome State Fault Refusal :=
  eachThread s fun c s l => s.trapLane c l 0x0C (n.setWidth 32) 0 (0, 0, 0) 0
def execTren (s : State) : Host.Outcome State Fault Refusal :=
  eachThread s fun c s l =>
    match s.thread? l.tid with
    | none => s
    | some t =>
      if t.sys.depth = 0 then s.illegalLane c l 0x13 (0, 0, 0)
      else s.pushWords c l (State.trapWords t.sys) (0, 0, 0) fun s => s.modSys l.tid fun y => { y with re := true }
def execTret (s : State) : Host.Outcome State Fault Refusal :=
  eachThread s fun c s l =>
    match s.thread? l.tid with
    | none => s
    | some t =>
      if t.sys.depth = 0 then s.illegalLane c l 0x13 (0, 0, 0)
      else if t.sys.depth = 1 then s.trapReturn l.tid t.sys.tpc none
      else s.popWords c l 32 (.tretPop t.sys.tpc)

/-- ISYNC (R160): the core holds no line of the launch's code fetched before. -/
def execIsync (s : State) : Host.Outcome State Fault Refusal :=
  match s.cur with
  | none => .next s
  | some c =>
    if (c.lanes.filter fun l => !l.helper).isEmpty then .next s
    else .next (s.modCore c.core fun k => { k with icache := k.icache.filter fun e => !decide (e.1 = c.launch) })

/-! Waiting (R152 to R154). -/

/-- The counter of a class (R11). -/
def Thread.count (t : Thread) (cls : EngClass) : Nat := t.outs.countP fun o => decide (o.cls = cls)

/-- WAITC returns (R152): a set ENGERR bit of the class is cleared and the thread traps ENGINE. -/
def State.waitcReturn (s : State) (t : ThreadId) (cls : EngClass) (pc : W64) (ready : Nat) : State :=
  match s.thread? t with
  | none => s
  | some th =>
    if th.sys.engerr.getLsbD cls.toNat then
      (s.modSys t fun y => { y with engerr := y.engerr &&& ~~~((1 : BitVec 5) <<< cls.toNat) }).takeTrap t
        ⟨0x14, BitVec.ofNat 32 cls.toNat, 0, 0, 0, 0, 0⟩ pc ready
    else s.modThread t fun x => { x with sleep := .awake }

def execWaitc (cls : EngClass) (n : BitVec 6) (s : State) : Host.Outcome State Fault Refusal :=
  eachThread s fun c s l =>
    match s.thread? l.tid with
    | none => s
    | some t =>
      if t.count cls ≤ n.toNat then s.waitcReturn l.tid cls c.pc (c.cycle + 4)
      else s.modThread l.tid fun x => { x with sleep := .waitc cls n.toNat }

/-- The helper lanes that execute the word being issued with a lane, where it is its region's lowest member (R91). -/
def State.helpersWith (s : State) (c : IssueCtx) (l : LaneRef) : List Nat :=
  match s.group? l.g with
  | none => []
  | some g =>
    match g.region l.lane with
    | none => []
    | some r =>
      if r.members.head? = some l.lane then
        (c.lanes.filter fun x => x.helper && decide (x.g = l.g) && (AL.find? r.helpers x.lane).isSome).map (·.lane)
      else []

/-- WAITA (R153): checked now for its address, and for its word at its point. -/
def execWaita (ne : Bool) (d a b : Reg) (s : State) : Host.Outcome State Fault Refusal :=
  eachThread s fun c s l =>
    let x := s.operand l a
    let y := s.operand l b
    let hs := s.helpersWith c l
    s.localAccess c l x.val 4 false (x.tag, y.tag, 0) fun s f =>
      ((s.queueScratch c l f false x.val.toNat .waita [d] none (x.tag, y.tag, 0)).modThread l.tid fun t =>
        { t with sleep := .waita x.val.toNat ne y.val d true hs none, nextIssue := max t.nextIssue (c.cycle + 4) })

namespace State

/-- The accesses a fence waits for (R154): the thread's writes under REL, and under ACQ the flagged results of its GLD,
GATOM and CPYQ words. -/
def fenceIds (s : State) (t : Thread) (l : LaneRef) (kind : FenceKind) : List Nat :=
  let acq := match kind with
    | .rel => false
    | _ => true
  let rel := match kind with
    | .acq => false
    | _ => true
  let writes := s.gaccs.filter fun g => decide (g.lane = l) && !g.unit && (match g.op with
    | .load _ => false
    | .readRecord _ => false
    | _ => true)
  (if rel then writes.map (·.id) else []) ++ (if acq then (t.flagged.filter (·.acq)).map (·.id) else [])

/-- Whether a fence's accesses and classes are done, its place among FENCE.SC aside (R154, R155, R188). -/
def fenceBaseDone (s : State) (t : Thread) (scope : Scope) (mask : BitVec 5) (ids : List Nat) : Bool :=
  (ids.all fun id =>
    (s.gaccs.all fun g => !decide (g.id = id) || (g.performed && !decide (scope = .sys))) &&
    (t.flagged.all fun f => !decide (f.id = id))) &&
  ([EngClass.copy, .gather, .tile, .aa, .coll].all fun k => !mask.getLsbD k.toNat || decide (t.count k = 0))

/-- Whether a fence is done: FENCE.SC words also complete in one order, that of their tickets (R154). -/
def fenceDone (s : State) (t : Thread) : Bool :=
  match t.sleep with
  | .fence scope mask ids ticket =>
    s.fenceBaseDone t scope mask ids &&
    (match ticket with
     | none => true
     | some k =>
       s.groups.all fun g => g.lanes.all fun u =>
         match u.sleep with
         | .fence sc m is (some j) => decide (k ≤ j) || s.fenceBaseDone u sc m is
         | _ => true)
  | _ => true

end State

def execFence (kind : FenceKind) (scope : Scope) (mask : BitVec 5) (s : State) : Host.Outcome State Fault Refusal :=
  eachThread s fun c s l =>
    match s.thread? l.tid with
    | none => s
    | some t =>
      let ids := s.fenceIds t l kind
      let ticket := if kind = .sc then some (c.seq * 4096 + l.g * 8 + l.lane) else none
      s.modThread l.tid fun x => { x with sleep := .fence scope mask ids ticket }

/-! System registers (R176, R177). -/

/-- A read of a system register: its value, or none where MFS traps PRIV. -/
def State.sysValue (s : State) (l : LaneRef) (num : BitVec 12) : Option W32 :=
  match s.group? l.g, s.thread? l.tid with
  | some g, some t =>
    match s.launch? g.launch with
    | none => none
    | some la =>
      let y := t.sys
      let ts := s.timestamp (dieOf g.core)
      match num.toNat with
      | 0x000 => some (y.tagmode.setWidth 32)
      | 0x001 => some (y.fcr.setWidth 32)
      | 0x002 => some (y.fsr.setWidth 32)
      | 0x010 => some (y.tpc.setWidth 32)
      | 0x011 => some ((y.tpc >>> 32).setWidth 32)
      | 0x012 => some (y.tcause.setWidth 32)
      | 0x014 => some y.tinfo
      | 0x015 => some y.tinfoh
      | 0x016 => some (y.ttag0.setWidth 32)
      | 0x017 => some (y.ttag1.setWidth 32)
      | 0x018 => some (y.ttag2.setWidth 32)
      | 0x019 => some ((if y.re then 16 else 0) ||| y.depth.setWidth 32)
      | 0x01A => some la.rec_.handler
      | 0x020 => some (if y.schken then 1 else 0)
      | 0x030 => some y.stkp
      | 0x040 => some y.logid
      | 0x050 => some (BitVec.ofNat 32 ts)
      | 0x051 => some (y.clkh.getD (BitVec.ofNat 32 (ts / 2 ^ 32)))
      | 0x060 => some y.hashl
      | 0x070 => some (la.rec_.mode.setWidth 32)
      | 0x100 =>
        some (BitVec.ofNat 32 (t.count .copy + 2 ^ 6 * t.count .gather + 2 ^ 12 * t.count .tile + 2 ^ 18 * t.count .aa +
          2 ^ 24 * t.count .coll))
      | 0x101 => some (t.flags.setWidth 32)
      | 0x102 => some (y.engerr.setWidth 32)
      | 0x103 => some y.tfdet
      | 0x104 =>
        some (BitVec.ofNat 32 (y.cerrCopy.toNat + 256 * y.cerrColl.toNat + (if y.cerrSat then 65536 else 0)))
      | 0x105 => some (y.terr.setWidth 32)
      | 0x106 => some (y.aerr.setWidth 32)
      | _ => none
  | _, _ => none

/-- What an MFS does beside reading: CLKL latches the high half, CLKH takes it (R177). -/
def State.sysReadEffect (s : State) (l : LaneRef) (num : BitVec 12) : State :=
  match s.group? l.g with
  | none => s
  | some g =>
    if num = 0x050 then
      s.modSys l.tid fun y => { y with clkh := some (BitVec.ofNat 32 (s.timestamp (dieOf g.core) / 2 ^ 32)) }
    else if num = 0x051 then s.modSys l.tid fun y => { y with clkh := none }
    else s

/-- MFS (R176): a helper takes the value its lowest member reads (R91). -/
def execMfs (d : Reg) (num : BitVec 12) (s : State) : Host.Outcome State Fault Refusal :=
  let s0 := s
  afterHelpers
    (eachThread s fun c s l =>
      match s.sysValue l num with
      | some v => (s.inFlight c l 2 true [(d, ⟨v, 0⟩)]).sysReadEffect l num
      | none => s.trapLane c l 0x02 (num.setWidth 32) 0 (0, 0, 0) 0)
    fun c s l =>
      match s0.sysValue (s0.leadOf l) num with
      | some v => s.inFlight c l 2 true [(d, ⟨v, 0⟩)]
      | none => s

/-- Whether MTS may write a register (R176): it has an RW or W1C field, and TPCL and TPCH only at trap depth 1 or more. -/
def sysWritable (y : SysRegs) (num : BitVec 12) : Bool :=
  match num.toNat with
  | 0x000 | 0x001 | 0x002 | 0x020 | 0x030 | 0x102 | 0x104 => true
  | 0x010 | 0x011 => decide (y.depth ≠ 0)
  | _ => false

/-- MTS (R176): the write takes effect for words issued two cycles later. -/
def execMts (num : BitVec 12) (a : Reg) (s : State) : Host.Outcome State Fault Refusal :=
  eachThread s fun c s l =>
    let x := s.operand l a
    match s.thread? l.tid with
    | none => s
    | some t =>
      if sysWritable t.sys num then s.modThread l.tid fun t => { t with mts := t.mts ++ [⟨c.cycle + 2, num, x.val⟩] }
      else s.trapLane c l 0x02 (num.setWidth 32) 0 (x.tag, 0, 0) 0

/-! Quad regions (R87 to R90). -/

/-- Open a region for each quad with an executing thread and no region: the quad's threads that are active in the packet,
executing or not, are members, every other lane a helper with a copy of the lowest member's registers. -/
def State.openRegion (s : State) (c : IssueCtx) (g quad : Nat) : State :=
  let ms := (((c.lanes ++ c.off).filter fun l => !l.helper && decide (l.g = g ∧ l.lane / 4 = quad)).map (·.lane))
  let ms := sortBy (fun a b : Nat => decide (a < b)) ms
  match s.group? g, ms with
  | some x, m :: _ =>
    if (x.region (4 * quad)).isSome then s
    else
      let base := { s.rf ⟨g, m, false⟩ with pend := [] }
      let hs := ((List.range 4).map fun i => 4 * quad + i).filter fun i => !ms.contains i
      s.modGroup g fun y => y.setRegion (4 * quad) (some ⟨ms, hs.map fun i => (i, base)⟩)
  | _, _ => s

def execQenter (s : State) : Host.Outcome State Fault Refusal :=
  match s.cur with
  | none => .next s
  | some c =>
    let qs := ((c.lanes.filter fun l => !l.helper).map fun l => (l.g, l.lane / 4)).eraseDups
    .next (qs.foldl (fun s q => s.openRegion c q.1 q.2) s)
def execQleave (s : State) : Host.Outcome State Fault Refusal :=
  eachThread s fun _ s l => s.closeRegion l.tid

/-- Close each region whose members stand at different words (R89). A member still deciding where to go holds it open. DESIGN
CHOICE: a member that stays at its word in a fault sleep (R199) while others pass it parts from them like one that branches
(assumption log 88). -/
def Group.closeParted (g : Group) : Group :=
  let parted (r : Option Region) : Bool := match r with
    | none => false
    | some r =>
      let ts := r.members.filterMap fun m => g.lanes[m]?
      ts.all (fun t => !decide (t.sleep = .deciding)) &&
      (match ts with
       | [] => true
       | t :: us => us.any fun u => !decide (u.pc = t.pc))
  { g with q0 := if parted g.q0 then none else g.q0, q1 := if parted g.q1 then none else g.q1 }

def State.closeParted (s : State) : State := { s with groups := s.groups.map Group.closeParted }

/-! Flagged results (R15, R102, R103). -/

/-- Whether a flagged result may land: its value is known and its earliest cycle has come. -/
def FlagRes.canLand (f : FlagRes) (cyc : Nat) : Bool := f.vals.isSome && decide (f.lo ≤ cyc)

/-- Land a flagged result: registers and tags are written, in landing order with the writes in flight, the flag clears, and
HASHL takes the word of an ATOMP or GATOM (R330). -/
def Thread.landFlag (t : Thread) (f : FlagRes) : Thread :=
  State.hashFillIn f.seq (((f.vals.getD []).headD TW.zero).val)
  { t with
    rf := (f.dests.zip (f.vals.getD [])).foldl (fun r p => r.landLate f.seq p.1 p.2) t.rf,
    flagged := t.flagged.filter (fun x => !decide (x.id = f.id)),
    flags := (match f.flag with
      | some n => t.flags &&& ~~~(1#12 <<< n.val)
      | none => t.flags),
    parity := t.parity.filter (fun p => !f.dests.contains p.1),
    cleared := match f.flag with
      | some n => t.cleared ||| (1#12 <<< n.val)
      | none => t.cleared }

/-! Operations that finish (R11, R12, R152). -/

/-- Remove every operation that has finished with every older one of its class completed; the classes whose errors are
then set (R12, R152). -/
def settleOuts : List OutOp → List EngClass → List OutOp × List EngClass
  | [], _ => ([], [])
  | o :: os, blocked =>
    if o.finished && !blocked.contains o.cls then
      let (k, e) := settleOuts os blocked
      (k, if o.err then o.cls :: e else e)
    else
      let (k, e) := settleOuts os (o.cls :: blocked)
      (o :: k, e)

namespace State

/-- A sleeper at WAITC whose counter has fallen far enough goes on (R152); one that a stop request has stopped checks again at
its restore (R205). -/
def wakeWaitc (s : State) (t : ThreadId) : State :=
  match s.group? t.g, s.thread? t with
  | some g, some th =>
    match th.sleep with
    | .waitc cls n =>
      if th.stop.isNone && decide (th.count cls ≤ n) then s.waitcReturn t cls th.wpc (s.cycle g.core + 4) else s
    | _ => s
  | _, _ => s

/-- An operation of a thread finishes; those whose turn has come complete, in order (R12). -/
def finishOp (s : State) (t : ThreadId) (id : Nat) (err : Bool) : State :=
  (s.modThread t fun x =>
    let (k, es) := settleOuts (updateWhere (fun o => decide (o.id = id)) (fun o => { o with finished := true, err := err }) x.outs) []
    { x with
      outs := k,
      sys := { x.sys with engerr := es.foldl (fun e c => e ||| (1#5 <<< c.toNat)) x.sys.engerr } }).wakeWaitc t

/-- Raise a thread's counter of a class by an operation (R11). -/
def startOp (s : State) (t : ThreadId) (cls : EngClass) (id : Nat) : State :=
  s.modThread t fun x => { x with outs := x.outs ++ [⟨id, cls, false, false⟩] }

/-- Land a flagged result of a thread now, and complete the operation it ends (R168). -/
def landFlagged (s : State) (t : ThreadId) (id : Nat) : State :=
  match s.thread? t with
  | none => s
  | some th =>
    match th.flagged.find? fun f => decide (f.id = id) with
    | none => s
    | some f =>
      let s1 := s.modThread t fun x => x.landFlag f
      match f.opId with
      | some o => s1.finishOp t o false
      | none => s1

end State

/-- FLAGGED_RESULT_LAND (R103): a flagged result whose value is known lands from its earliest cycle on. -/
def execFlaggedResultLand (g lane id : Nat) (s : State) : Host.Outcome State Fault Refusal :=
  match s.group? g, s.thread? ⟨g, lane⟩ with
  | some x, some t =>
    match t.flagged.find? fun f => decide (f.id = id) with
    | some f => if f.canLand (s.cycle x.core) then .next (s.landFlagged ⟨g, lane⟩ id) else .next s
    | none => .next s
  | _, _ => .next s

end Sys2Proof.Machine
end

