-- ==== Sys2Proof/Machine/Memory.lean ====
section
/-!
DEFINITION. Global memory: the physical map (R332), page walks and their cache (R335 to R338), range filters (R349), tag
planes (R340), poison (R354), CXL write counters (R352), words with tags (R75), and the fault service (R341 to R343).
-/
namespace Sys2Proof.Machine

/-- What a virtual access meets (R336): a page (physical address, tier, ordering kind, tagged), a failure that traps
ACCESS with TFDET.PERM, not present, or owned by the host. -/
inductive Trans where
  | ok (pa tier kind : Nat) (tagged : Bool)
  | access (perm : Bool)
  | notPresent
  | hostOwned
deriving DecidableEq, Repr

/-- Kinds of access a translation is asked for. -/
inductive AccKind where
  | read | write | atomic | fetch
deriving DecidableEq, Repr

def AccKind.writes : AccKind → Bool
  | .write | .atomic => true
  | _ => false

/-- Bits [hi:lo] of a 64-bit value. -/
def bits (x : W64) (hi lo : Nat) : Nat := x.toNat / 2 ^ lo % 2 ^ (hi - lo + 1)

def cxlBase : Nat := 2 ^ 48
def peerBase : Nat := 2 ^ 49
def hostBase : Nat := 2 ^ 51

/-- The base of a tier's region (Table 21.1). -/
def tierBase (tier : Nat) : Nat := if tier = 1 then cxlBase else if tier = 2 then hostBase else if tier = 3 then peerBase else 0

namespace State

def fnMemOf (s : State) (fn : Nat) : FnMem := AL.get FnMem.fresh s.fnMem fn
def modFnMem (s : State) (fn : Nat) (f : FnMem → FnMem) : State :=
  { s with fnMem := AL.modify FnMem.fresh s.fnMem fn f }
def modPfMem (s : State) (f : PfMem → PfMem) : State := { s with pfMem := f s.pfMem }

/-- The tier of a physical address, none in a hole (Table 21.1). -/
def tierOf (s : State) (pa : Nat) : Option Nat :=
  if pa < 2 ^ 38 then some 0
  else if cxlBase ≤ pa ∧ pa < cxlBase + s.pfMem.cxlu.toNat then some 1
  else if peerBase ≤ pa ∧ pa < peerBase + 2 ^ 44 then some 3
  else if hostBase ≤ pa ∧ pa < 2 ^ 52 then some 2
  else none

/-- Whether a physical access falls in an enabled range filter of a function (R349); 16 is the fabric. -/
def filterOk (s : State) (fn pa n : Nat) : Bool :=
  (List.range 16).any fun i =>
    let (lo, hi) := AL.get (0, 0) s.pfMem.filters (16 * fn + i)
    lo.getLsbD 0 && decide (bits lo 51 16 * 65536 ≤ pa) && decide (pa + n ≤ bits hi 51 16 * 65536)

/-- Whether a read of bytes meets a poisoned line or a retired page (R354). -/
def lineBad (s : State) (pa n : Nat) : Bool :=
  (s.poison.any fun x => decide (pa / 64 ≤ x ∧ x ≤ (pa + n - 1) / 64)) ||
  (s.retired.any fun x => decide (pa / 65536 ≤ x ∧ x ≤ (pa + n - 1) / 65536))

/-- Where the tag of the word at a physical address lies (R340). -/
def tagAddr (s : State) (tier pa : Nat) : Nat :=
  (if tier = 1 then s.pfMem.tsbase1.toNat else s.pfMem.tsbase0.toNat) + (pa - tierBase tier) / 4 * 2

/-- Where a function's access to a physical address goes: host memory is that of the port on which the function is exposed
(Table 21.1, R369), and port B's is kept above port A's. -/
def routed (s : State) (fn pa : Nat) : Nat :=
  if hostBase ≤ pa ∧ pa < 2 ^ 52 ∧ s.mgmt.ports.getLsbD fn = true then pa + 2 ^ 52 else pa

/-- A saturating 32-bit count. -/
def satInc (w n : W32) : W32 := BitVec.ofNat 32 (min (w.toNat + n.toNat) (2 ^ 32 - 1))

/-- Count corrected errors of a line: in CECNT, and in the counter of its die (R353, Table 22.5). -/
def countCorrected (s : State) (line n : Nat) : State :=
  let s1 := s.modPfMem fun m => { m with cecnt := satInc m.cecnt (BitVec.ofNat 32 n) }
  if line < 2 ^ 32 then
    { s1 with trace := { s1.trace with
        dies := AL.modify 0 s1.trace.dies (8 * (line / 2 ^ 29) + 3) (· + BitVec.ofNat 32 n) } }
  else s1

/-- A line is poisoned and UECNT increments: by an uncorrectable error (R353) or by an integrity failure (R352). -/
def poisonLine (s : State) (line : Nat) (integ : Bool) : State :=
  { s with
    poison := if s.poison.contains line then s.poison else s.poison ++ [line],
    integrity := if integ && !s.integrity.contains line then s.integrity ++ [line] else s.integrity,
    pfMem := { s.pfMem with uecnt := satInc s.pfMem.uecnt 1 } }

/-- An integrity failure of the line of an address (R352). -/
def integrityFail (s : State) (pa : Nat) : State := s.poisonLine (pa / 64) true

/-- A read meets an error that lies in a line. -/
def meetError (s : State) (e : Nat × LineErr) : State :=
  let s1 := { s with latent := s.latent.filter fun x => !decide (x = e) }
  match e.2 with
  | .corrected => s1.countCorrected e.1 1
  | .uncorrectable => s1.poisonLine e.1 false
  | .integrity => s1.poisonLine e.1 true

/-- A read of bytes meets the errors that lie in their lines (R352, R353). -/
def meetErrors (s : State) (pa n : Nat) : State :=
  (s.latent.filter fun e => decide (pa / 64 ≤ e.1 ∧ e.1 ≤ (pa + n - 1) / 64)).foldl meetError s

/-- Write bytes at a physical address. A write of a whole line clears its poison (R354) and whatever error lay in it. A
write to CXL memory increments the counters of its lines (R352). -/
def physWrite (s : State) (pa : Nat) (bs : List Byte) : State :=
  let s1 := { s with mem := Mem.writeBytes s.mem pa bs }
  let s2 := if decide (pa % 64 = 0) && decide (bs.length = 64) then
    { s1 with
      poison := s1.poison.filter (fun x => !decide (x = pa / 64)),
      integrity := s1.integrity.filter (fun x => !decide (x = pa / 64)),
      latent := s1.latent.filter (fun e => !decide (e.1 = pa / 64)) } else s1
  if cxlBase ≤ pa ∧ pa < cxlBase + s.pfMem.cxlu.toNat then
    { s2 with cxlCount := AL.modify 0 s2.cxlCount (pa / 64) (· + 1) }
  else s2

/-- Whether a write to a line would pass its CXL write counter: it is not performed and counts as an integrity failure
(R352). -/
def cxlFull (s : State) (pa : Nat) : Bool :=
  decide (cxlBase ≤ pa ∧ pa < cxlBase + s.pfMem.cxlu.toNat ∧ AL.get 0 s.cxlCount (pa / 64) = 2 ^ 56 - 1)

/-- A physical write as an agent makes it: not performed where a CXL counter is full. -/
def physPut (s : State) (pa : Nat) (bs : List Byte) : State :=
  if s.cxlFull pa then s.integrityFail pa else s.physWrite pa bs

def readTag (s : State) (tier pa : Nat) : Tag := BitVec.ofNat 16 (Mem.readNat s.mem (s.tagAddr tier pa) 2)

/-- A word at a physical address: its tag is the page's, or `none` without a tag plane gives the caller's (R75). -/
def gWord (s : State) (pa tier : Nat) (tagged : Bool) (site : Tag) : TW :=
  ⟨Mem.read32 s.mem pa, if tagged then s.readTag tier pa else site⟩

/-- A range in pieces that lie each in one 64-byte line. -/
def linePieces : Nat → Nat → Nat → List (Nat × Nat)
  | 0, _, _ => []
  | fuel + 1, a, n =>
    if n = 0 then []
    else
      let k := min n (64 - a % 64)
      (a, k) :: linePieces fuel (a + k) (n - k)

/-- Write bytes of one line, and on a tagged page the tags of the words they lie in, as one access (R340); tags are dropped
on another page (R75). Nothing is written where a counter of the line or of its tags' line is full (R352). -/
def gBytes (s : State) (pa tier : Nat) (tagged : Bool) (bs : List Byte) (ts : List Tag) : State :=
  let ta := s.tagAddr tier pa
  if s.cxlFull pa then s.integrityFail pa
  else if tagged && s.cxlFull ta then s.integrityFail ta
  else
    let s1 := s.physWrite pa bs
    if tagged then s1.physWrite ta (ts.flatMap fun t => valueBytes 2 t.toNat) else s1

/-- Write bytes, line by line, with one tag for the words they lie in. -/
def gFill (s : State) (pa tier : Nat) (tagged : Bool) (bs : List Byte) (t : Tag) : State :=
  (linePieces bs.length pa bs.length).foldl (fun s p =>
    s.gBytes p.1 tier tagged ((bs.drop (p.1 - pa)).take p.2) (List.replicate ((p.1 % 4 + p.2 + 3) / 4) t)) s

/-- Write words of one line, with their tags. -/
def gLine (s : State) (pa tier : Nat) (tagged : Bool) (ws : List TW) : State :=
  s.gBytes pa tier tagged (ws.flatMap fun w => valueBytes 4 w.val.toNat) (ws.map (·.tag))

def gPut (s : State) (pa tier : Nat) (tagged : Bool) (w : TW) : State := s.gLine pa tier tagged [w]

/-- Consecutive words from an address, cut into those of one line each. -/
def lineRuns (pa : Nat) : List TW → List (Nat × List TW)
  | [] => []
  | w :: ws =>
    match lineRuns (pa + 4) ws with
    | [] => [(pa, [w])]
    | (a, vs) :: rest => if (pa + 4) % 64 = 0 then (pa, [w]) :: (a, vs) :: rest else (pa, w :: vs) :: rest

/-- Write consecutive words, line by line. -/
def gPuts (s : State) (pa tier : Nat) (tagged : Bool) (ws : List TW) : State :=
  (lineRuns pa ws).foldl (fun s r => s.gLine r.1 tier tagged r.2) s

/-- A write of n < 4 bytes merges into its word; on a tagged page the tag is re-derived (R74, R180). -/
def gMerge (s : State) (pa tier : Nat) (tagged : Bool) (n : Nat) (w : TW) : State :=
  let old := s.readTag tier pa
  let first := if pa % 4 = 0 then w.tag else old
  let other := if pa % 4 = 0 then old else w.tag
  s.gBytes pa tier tagged (valueBytes n w.val.toNat) [if first = 0 then other else first]

end State

/-! Walks (R335 to R338). -/

/-- The outcome of one level of a walk. -/
inductive WalkStep where
  | stop (t : Trans)
  | table (pa : Nat)
  | leaf (pte : W64) (addr : Nat) (frame : Nat)
deriving DecidableEq, Repr

/-- Shift of the index bits of a level (Table 21.2). -/
def levelShift : Nat → Nat
  | 3 => 39
  | 2 => 30
  | 1 => 21
  | _ => 16

/-- Entries of a level's table. -/
def levelSize : Nat → Nat
  | 0 => 32
  | _ => 512

namespace State

/-- Whether a leaf entry is malformed at a level (R336). -/
def leafBad (s : State) (level : Nat) (e : W64) : Bool :=
  let frame := bits e 51 16 * 65536
  let size := 2 ^ levelShift level
  let tier := bits e 9 8
  decide (bits e 63 52 ≠ 0) || decide (bits e 15 13 ≠ 0) || decide (level = 3) || decide (frame % size ≠ 0) ||
  decide (bits e 5 4 = 3) || decide (s.tierOf frame ≠ some tier) || (e.getLsbD 6 && decide (2 ≤ tier))

/-- Where a level's table holds the entry of a virtual address. -/
def entryAddr (level table : Nat) (va : W64) : Nat := table + 8 * (va.toNat / 2 ^ levelShift level % levelSize level)

/-- One level of a walk: the entry read through the function's range filters, then its checks in the order of R336. -/
def walkLevel (s : State) (fn level table : Nat) (va : W64) : WalkStep :=
  let addr := entryAddr level table va
  if !s.filterOk fn addr 8 || s.lineBad addr 8 then .stop (.access false)
  else
    let e := Mem.read64 s.mem (s.routed fn addr)
    if !e.getLsbD 0 then .stop .notPresent
    else if e.getLsbD 1 then
      if s.leafBad level e then .stop (.access false)
      else .leaf e (s.routed fn addr) (bits e 51 16 * 65536 + va.toNat % 2 ^ levelShift level / 65536 * 65536)
    else if level = 0 ∨ bits e 63 52 ≠ 0 ∨ bits e 7 2 ≠ 0 then .stop (.access false)
    else .table (bits e 51 8 * 256)

/-- A walk from a level down. -/
def walkFrom (s : State) (fn : Nat) (va : W64) : Nat → Nat → WalkStep
  | 0, table => s.walkLevel fn 0 table va
  | level + 1, table =>
    match s.walkLevel fn (level + 1) table va with
    | .table t => s.walkFrom fn va level t
    | r => r

/-- The errors that a walk from a level down meets in the lines of the entries it reads (R336, R353). -/
def walkErrors (s : State) (fn : Nat) (va : W64) : Nat → Nat → State
  | 0, table => if s.filterOk fn (entryAddr 0 table va) 8 then s.meetErrors (entryAddr 0 table va) 8 else s
  | level + 1, table =>
    if s.filterOk fn (entryAddr (level + 1) table va) 8 then
      let s1 := s.meetErrors (entryAddr (level + 1) table va) 8
      match s1.walkLevel fn (level + 1) table va with
      | .table t => s1.walkErrors fn va level t
      | _ => s1
    else s

/-- Set A, and D where the access writes, in the entry in memory (R337): an atomic update of the entry as it stands, which
may no longer be the one that was cached (R344). Only the bits that the cached entry lacks are set. The answer says whether it
could: the range filters and the errors of the entry's line are checked as for its read (R336, R349, R354). -/
def recordUse (s : State) (e : TlbEntry) (writes : Bool) : Bool × State × TlbEntry :=
  let use : W64 := 0x800 ||| (if writes then 0x1000 else 0)
  let addr := e.pteAddr % 2 ^ 52
  if !e.pte.getLsbD 10 || decide (e.pte &&& use = use) then (true, s, e)
  else if !s.filterOk e.fn addr 8 then (false, s, e)
  else
    let s1 := s.meetErrors addr 8
    if s1.lineBad addr 8 then (false, s1, e)
    else (true, s1.physPut e.pteAddr (valueBytes 8 (Mem.read64 s1.mem e.pteAddr ||| use).toNat), { e with pte := e.pte ||| use })

/-- The checks of a leaf entry against the access (R336), with A and D set where REC asks for it (R337). -/
def useLeaf (s : State) (e : TlbEntry) (kind : AccKind) (va : W64) : Trans × State × TlbEntry :=
  let p := e.pte
  if (kind.writes && !p.getLsbD 2) || (decide (kind = .fetch) && !p.getLsbD 3) then (.access true, s, e)
  else if p.getLsbD 7 then (.hostOwned, s, e)
  else
    match s.recordUse e kind.writes with
    | (true, s1, e1) => (.ok (e.frame + va.toNat % 65536) (bits p 9 8) (bits p 5 4) (p.getLsbD 6), s1, e1)
    | (false, s1, e1) => (.access false, s1, e1)

/-- Translations kept in a place: 128 in each core and 8,192 in each compute die (R338). -/
def tlbSize (loc : Nat) : Nat := if 16 ≤ loc then 128 else 8192
/-- The places in which an agent looks a translation up and keeps it: a core's own, then its die's. -/
def tlbPath (loc : Nat) : List Nat := if 16 ≤ loc then [loc, dieOf (loc - 16)] else [loc]

/-- Keep a translation in a place, which drops its oldest where it is full. -/
def keepTlb (s : State) (e : TlbEntry) : State :=
  let others := s.tlb.filter fun x => !decide (x.loc = e.loc)
  let mine := s.tlb.filter fun x => decide (x.loc = e.loc)
  { s with tlb := others ++ (mine ++ [e]).drop (mine.length + 1 - tlbSize e.loc) }

/-- The translation of a page that an agent finds kept. -/
def findTlb (s : State) (loc fn page : Nat) : Option TlbEntry :=
  (tlbPath loc).findSome? fun l => s.tlb.find? fun e => decide (e.loc = l ∧ e.fn = fn ∧ e.page = page)

/-- Translate a virtual address for a function, through the translations that a place keeps. -/
def translate (s : State) (loc fn : Nat) (va : W64) (kind : AccKind) : Trans × State :=
  if bits va 63 48 ≠ 0 then (.access false, s)
  else
    let page := va.toNat / 65536
    match s.findTlb loc fn page with
    | some e =>
      let (t, s1, e') := s.useLeaf e kind va
      let s2 := if e' = e then s1 else { s1 with tlb := s1.tlb.map fun x => if x = e then e' else x }
      (t, if e.loc = loc then s2 else s2.keepTlb { e' with loc := loc })
    | none =>
      let root := (s.fnMemOf fn).root
      if !root.getLsbD 0 then (.notPresent, s)
      else
        let s0 := s.walkErrors fn va 3 (bits root 51 12 * 4096)
        match s0.walkFrom fn va 3 (bits root 51 12 * 4096) with
        | .stop t => (t, s0)
        | .table _ => (.access false, s0)
        | .leaf p addr frame =>
          let (t, s1, e') := s0.useLeaf ⟨loc, fn, page, p, addr, frame⟩ kind va
          match t with
          | .ok .. => (t, (tlbPath loc).foldl (fun s l => s.keepTlb { e' with loc := l }) s1)
          | _ => (t, s1)

/-- The physical address and tier of a page's entry that is present, even where the host owns the page (R335). -/
def frameOf (s : State) (loc fn : Nat) (va : W64) : Option (Nat × Nat) :=
  match s.findTlb loc fn (va.toNat / 65536) with
  | some e => some (e.frame + va.toNat % 65536, bits e.pte 9 8)
  | none =>
    match s.walkFrom fn va 3 (bits (s.fnMemOf fn).root 51 12 * 4096) with
    | .leaf p _ frame => some (frame + va.toNat % 65536, bits p 9 8)
    | _ => none

/-- What the slice or port finds of an access to physical memory. -/
inductive PhysCheck where
  | ok | filtered | poisoned
deriving DecidableEq, Repr

/-- The checks of an access of n bytes at a slice or port: the range filters for the data and, on a tagged page, for its
tags (R340, R349), then the errors its lines hold and poison (R353, R354). A write that covers whole lines does not read
them. -/
def physCheck (s : State) (fn pa tier n : Nat) (tagged whole : Bool) : PhysCheck × State :=
  let ta := s.tagAddr tier pa
  let tn := (n + 3) / 4 * 2
  if !s.filterOk fn pa n || (tagged && !s.filterOk fn ta tn) then (.filtered, s)
  else
    let s1 := if whole then s else s.meetErrors pa n
    let s2 := if tagged then s1.meetErrors ta tn else s1
    if (!whole && s2.lineBad pa n) || (tagged && s2.lineBad ta tn) then (.poisoned, s2) else (.ok, s2)

/-! Soistlink (R350). -/

/-- Links of Soistlink (Table 1.2). -/
def linkCount : Nat := 12

def link (s : State) (n : Nat) : LinkSt := AL.get LinkSt.fresh s.mgmt.links n
def modMgmt (s : State) (f : Mgmt → Mgmt) : State := { s with mgmt := f s.mgmt }
def modLink (s : State) (n : Nat) (f : LinkSt → LinkSt) : State :=
  s.modMgmt fun m => { m with links := AL.modify LinkSt.fresh m.links n f }
def anyLink (s : State) : Bool := (List.range linkCount).any fun n => (s.link n).up

/-- A count of flits that does not reach 2^32 before the link has its next key (R350). -/
def flitInc (n : Nat) : Nat := min (n + 1) (2 ^ 32 - 1)

/-- An access to peer memory sends a flit: over the lowest link that is up, as the manual names none (assumption log 39). -/
def countSent (s : State) (tier : Nat) : State :=
  if tier = 3 then
    match (List.range linkCount).find? fun i => (s.link i).up with
    | some i => s.modLink i fun l => { l with sent := flitInc l.sent }
    | none => s
  else s

/-- Translate and check an access of n bytes, of which a whole-line write does not meet what its lines hold. -/
def accessPage (s : State) (loc fn : Nat) (va : W64) (n : Nat) (kind : AccKind) : Trans × State :=
  match s.translate loc fn va kind with
  | (.ok pa tier k tagged, s1) =>
    match s1.physCheck fn pa tier n tagged (decide (kind = .write) && decide (pa % 64 = 0) && decide (n % 64 = 0)) with
    | (.ok, s2) => (.ok (s2.routed fn pa) tier k tagged, s2.countSent tier)
    | (_, s2) => (.access false, s2)
  | r => r

/-! Service accesses: the shepherd, the fault service and other units at the I/O die, word by word at .SYS (R297). -/

/-- Read words of a function's memory; none where an access fails. -/
def svcRead (s : State) (fn : Nat) (va : W64) : Nat → Option (List TW) × State
  | 0 => (some [], s)
  | n + 1 =>
    match s.accessPage 8 fn va 4 .read with
    | (.ok pa tier _ tagged, s1) =>
      match s1.svcRead fn (va + 4) n with
      | (some ws, s2) => (some (s1.gWord pa tier tagged 0 :: ws), s2)
      | (none, s2) => (none, s2)
    | (_, s1) => (none, s1)

/-- Write words of a function's memory with one tag; none where an access fails, with the words before it written. -/
def svcWrite (s : State) (fn : Nat) (va : W64) (tag : Tag) : List W32 → Bool × State
  | [] => (true, s)
  | w :: ws =>
    match s.accessPage 8 fn va 4 .write with
    | (.ok pa tier _ tagged, s1) => (s1.gPut pa tier tagged ⟨w, tag⟩).svcWrite fn (va + 4) tag ws
    | (_, s1) => (false, s1)

def send (s : State) (m : OutMsg) : State := { s with outbox := s.outbox ++ [m] }
/-- Send the event of a record that has been performed; one that has not is never announced (R373). -/
def announce (s : State) (performed : Bool) (fn : Nat) (k : MsgKind) : State := if performed then s.send (.msix fn k) else s

/-! The fault service (R341 to R343). -/

/-- A 64-bit value as two words. -/
def words64 (n : Nat) : List W32 := [BitVec.ofNat 32 n, BitVec.ofNat 32 (n / 2 ^ 32)]

/-- Write the records of faults that have none while the ring has room (R342, Table 21.4), in the order they came. -/
def writeFaults (s : State) (fn : Nat) : Nat → State
  | 0 => s
  | fuel + 1 =>
    let m := s.fnMemOf fn
    match m.faults.find? fun f => decide (f.seq = none) with
    | none => s
    | some f =>
      if m.fqsize.toNat ≤ (m.fqhead - m.fqtail).toNat then s
      else
        let words := words64 f.va.toNat ++
          [BitVec.ofNat 32 (f.access + 256 * f.reason + 65536 * f.unit), BitVec.ofNat 32 (f.cx + 65536 * f.cy)] ++
          words64 m.nextFault ++ [BitVec.ofNat 32 (s.timestamp 8), 0]
        let slot := m.fqhead.toNat % m.fqsize.toNat
        let (ok, s1) := s.svcWrite fn (m.fqbase + BitVec.ofNat 64 (32 * slot)) 0 words
        let mine (g : FaultSt) : Bool := decide (g.page = f.page) && decide (g.seq = none)
        let s2 := s1.modFnMem fn fun m =>
          let fs := updateWhere mine (fun g => { g with seq := some m.nextFault }) m.faults
          { m with faults := fs, nextFault := m.nextFault + 1, fqhead := m.fqhead + 1 }
        (s2.announce ok fn .faultRecord).writeFaults fn fuel

/-- Raise a fault for a waiter (R342): it joins an outstanding record of its page, where it waits once, or opens one; with
FQSIZE = 0 it is refused at once, which the answer says. -/
def raiseFault (s : State) (fn : Nat) (w : Waiter) (va : W64) (access reason unit cx cy : Nat) : Bool × State :=
  let m := s.fnMemOf fn
  if m.fqsize = 0 then (false, s)
  else
    let page := va.toNat / 65536
    if m.faults.any fun f => decide (f.page = page) then
      let join (f : FaultSt) : FaultSt := { f with waiters := if f.waiters.contains w then f.waiters else f.waiters ++ [w] }
      (true, s.modFnMem fn fun m => { m with faults := updateWhere (fun f => decide (f.page = page)) join m.faults })
    else
      let s1 := s.modFnMem fn fun m =>
        { m with faults := m.faults ++ [⟨none, page, va, access, reason, unit, cx, cy, [w]⟩] }
      (true, s1.writeFaults fn 1)

/-- Whether a waiter already waits on an outstanding fault. -/
def waits (s : State) (fn : Nat) (w : Waiter) : Bool :=
  (s.fnMemOf fn).faults.any fun f => f.waiters.contains w

end State

/-! Decision records (R313). -/

namespace State

def fnLogOf (s : State) (fn : Nat) : FnLog := AL.get FnLog.fresh s.fnLog fn
def modFnLog (s : State) (fn : Nat) (f : FnLog → FnLog) : State :=
  { s with fnLog := AL.modify FnLog.fresh s.fnLog fn f }

/-- Append a record to the log of one function: dropped and counted when the ring is full or disabled, of which a full one
is announced (R373). -/
def logAppend (s : State) (fn : Nat) (words : List W32) : State :=
  let g := s.fnLogOf fn
  if g.size = 0 ∨ g.size.toNat < (g.head - g.tail).toNat + 1 then
    (s.modFnLog fn fun g => { g with lost := g.lost + 1 }).announce (decide (g.size ≠ 0)) fn .logFull
  else
    let slot := g.head.toNat % g.size.toNat
    (s.svcWrite fn (g.base + BitVec.ofNat 64 (32 * slot)) 0xFFFE words).2.modFnLog fn fun g =>
      { g with head := g.head + 1 }

/-- The decision counter a kind of record increments (Tables 18.11 and 18.12). -/
def countDrec (g : FnLog) (d : Drec) : FnLog :=
  match d.kind with
  | 1 => { g with placed := g.placed + 1 }
  | 2 => { g with preempted := g.preempted + 1 }
  | 3 => { g with deadlines := g.deadlines + 1 }
  | 4 => { g with refused := g.refused + 1 }
  | 5 => { g with swaps := g.swaps + 1, swapwait := g.swapwait + (if d.reason = 0x13 then d.detail else 0) }
  | 8 => { g with faults := g.faults + 1 }
  | _ => g

/-- Write a decision record to the function's log and the PF's, and count it (R313). -/
def drec (s : State) (d : Drec) : State :=
  let words := words64 (s.timestamp 8) ++
    [BitVec.ofNat 32 (d.kind + 256 * d.reason + 65536 * d.part + 16777216 * d.fn),
     BitVec.ofNat 32 (d.queue + 65536 * d.rule), d.launch, d.rect, d.detail, 0]
  let s1 := (s.modFnLog d.fn fun g => countDrec g d).logAppend d.fn words
  if d.fn = 0 then s1 else s1.logAppend 0 words

/-- The rectangle word of a launch's field in the core grid (Table 18.10). -/
def rectWord (x y w h : Nat) : W32 := BitVec.ofNat 32 (x + 256 * y + 65536 * w + 16777216 * h)

def launchRect (l : Launch) : W32 := rectWord l.x0 l.y0 l.rec_.w l.rec_.h

/-- A FAULT decision record about a launch (R68, R326). -/
def faultDrec (s : State) (launch reason rule : Nat) (detail : W32) : State :=
  match s.launch? launch with
  | none => s
  | some l => s.drec ⟨l.fn, l.part, reason, 8, rule, l.q, l.id, launchRect l, detail⟩

end State

/-! Ordering and determinism checks of a write (R318 to R321). -/

/-- How the write ranges see an access of bytes by a flock (Table 19.3). -/
inductive RangeOwner where
  | own | shared | other | outside
deriving DecidableEq, Repr

/-- The owner of one byte's range. -/
def byteOwner (rs : List WriteRange) (flock : Nat) (a : Nat) : RangeOwner :=
  match rs.find? fun r => decide (r.len ≠ 0 ∧ r.base.toNat ≤ a ∧ a < r.base.toNat + r.len.toNat) with
  | none => .outside
  | some r => if r.owner = 0xFFFFFFFF then .shared else if r.owner.toNat = flock then .own else .other

/-- The owner of an access: outside if a byte is outside, else another's, else shared, else own. -/
def accessOwner (rs : List WriteRange) (flock a n : Nat) : RangeOwner :=
  let os := (List.range n).map fun i => byteOwner rs flock (a + i)
  if os.contains .outside then .outside
  else if os.contains .other then .other
  else if os.contains .shared then .shared
  else .own

end Sys2Proof.Machine
end

