-- ==== Sys2Proof/Machine/Global.lean ====
section
/-!
DEFINITION. Global accesses of threads (R168 to R170, R178 to R187, R199, R200), their performance, the order logs and
gates of atomic stations (R322 to R329), and the origin unit's traffic (R68, R142, R143).
-/
namespace Sys2Proof.Machine

/-- What an access does to memory, for its rights (R334). -/
def GOp.acc : GOp → AccKind
  | .store _ => .write
  | .atom .. | .cellAdd .. => .atomic
  | _ => .read

namespace State

/-- TFDET bits of a failed access (Table 8.2). -/
def accDetail (kind : AccKind) (perm : Bool) : W32 := (if kind.writes then 1 else 0) ||| (if perm then 4 else 0)

/-- The owner of the ranges an access of a lane meets (R320). -/
def laneOwner (s : State) (c : IssueCtx) (l : LaneRef) (va : W64) (n : Nat) : RangeOwner :=
  match s.launch? c.launch, s.flockOf? l.g with
  | some la, some f => accessOwner la.rec_.ranges f.idx va.toNat n
  | _, _ => .outside

/-- The trap of Table 19.3 for a thread's access, if any: OWNERSHIP or RACE. `gatom` for a GATOM other than AMAX. -/
def rangeTrap (o : RangeOwner) (gatom : Bool) : Option Byte :=
  match o, gatom with
  | .own, _ => none
  | .shared, false => none
  | .shared, true => some 0x10
  | .other, false => some 0x0F
  | .other, true => some 0x10
  | .outside, _ => some 0x0F

/-- Reasons of a fault record (Table 21.4), and TFDET bits of a PAGE trap. -/
def faultReason (t : Trans) : Nat := if t = .hostOwned then 2 else 1
def pageDetail (t : Trans) (kind : AccKind) (svc : Bool) : W32 :=
  (if kind.writes then 1 else 0) ||| (if t = .hostOwned then 8 else 2) ||| (if svc then 16 else 0)

def accCode : AccKind → Nat
  | .read | .fetch => 0
  | .write => 1
  | .atomic => 2

/-- A fault sleep (R199): the thread stands at the instruction and the fault service is asked; a refusal at once traps
PAGE. -/
def faultSleep (s : State) (c : IssueCtx) (l : LaneRef) (va : W64) (kind : AccKind) (t : Trans) (tags : Tags3) : State :=
  match s.launch? c.launch with
  | none => s
  | some la =>
    let (asked, s1) := s.raiseFault la.fn (.thread l.tid) va (accCode kind) (faultReason t) 0 (coreX c.core) (coreY c.core)
    let ti : TrapInfo := ⟨0x0D, va.setWidth 32, BitVec.ofNat 32 (bits va 47 32), tags.1, tags.2.1, tags.2.2, pageDetail t kind true⟩
    if asked then s1.modThread l.tid fun x => { x with sleep := .fault (va.toNat / 65536) ti, pc := c.pc }
    else s1.trapLane c l 0x0D (va.setWidth 32) (BitVec.ofNat 32 (bits va 47 32)) tags (pageDetail t kind true)

/-- One lane's global access with its checks (R168, R199, R320, R334): a trap, a fault sleep, or the access made by `k` at
its page. A helper makes no access (R191). -/
def globalAccess (s : State) (c : IssueCtx) (l : LaneRef) (va : W64) (n : Nat) (kind : AccKind) (ranged gatom : Bool)
    (tags : Tags3) (k : State → Nat → Nat → Nat → Bool → State) : State :=
  match s.launch? c.launch with
  | none => s
  | some la =>
    let lo : W32 := va.setWidth 32
    let hi : W32 := (va >>> 32).setWidth 32
    if va.toNat % n ≠ 0 then s.trapLane c l 0x04 lo hi tags (writeDetail kind.writes)
    else
      match s.accessPage (coreLoc c.core) la.fn va n kind with
      | (.access perm, s1) => s1.trapLane c l 0x0E lo hi tags (accDetail kind perm)
      | (.notPresent, s1) => s1.faultSleep c l va kind .notPresent tags
      | (.hostOwned, s1) => s1.faultSleep c l va kind .hostOwned tags
      | (.ok pa tier pk tagged, s1) =>
        if decide (kind = .atomic) && decide (2 ≤ tier) then s1.trapLane c l 0x0E lo hi tags (accDetail kind false)
        else
          match (if ranged && la.rec_.det then rangeTrap (s1.laneOwner c l va n) gatom else none) with
          | some cause => s1.trapLane c l cause lo (BitVec.ofNat 32 (bits va 47 32)) tags 1
          | none => k s1 pa tier pk tagged

/-- Bytes an access covers. -/
def gopBytes : GOp → Nat
  | .load w => 4 * w
  | .store vs => 4 * vs.length
  | .atom .. => 4
  | .cellAdd .. => 32
  | _ => 16

/-- The accesses in flight that must be performed before a new one of a lane (R179, R184, R185): those of the same thread
to a common word, or both on SO pages; and within one instruction those of earlier lanes. -/
def orderAfter (s : State) (c : IssueCtx) (l : LaneRef) (pa n pk : Nat) : List Nat :=
  (s.gaccs.filter fun g =>
    !g.unit && !g.performed && (decide (g.lane = l) || decide (g.seq = c.seq)) &&
    (decide (g.kind = 0 ∧ pk = 0) ||
      decide (g.pa / 4 * 4 < pa + n ∧ pa / 4 * 4 < g.pa + gopBytes g.op))).map (·.id)

/-- Put a global access of a lane in flight, its operation counted in GATHER (R11, R168, R182); the id it takes is
`nextUid`. -/
def queueGlobal (s : State) (c : IssueCtx) (l : LaneRef) (va : W64) (pa tier pk : Nat) (tagged : Bool) (op : GOp)
    (tags : Tags3) (flagId : Option Nat) : State :=
  match s.launch? c.launch, s.thread? l.tid, s.group? l.g with
  | some la, some t, some gr =>
    let g : GAcc :=
      { id := s.nextUid, lane := l, unit := false, launch := c.launch, core := c.core, logical := gr.logical, fn := la.fn,
        va := va, pa := pa, tier := tier, kind := pk, tagged := tagged, issued := c.cycle,
        earliest := max (c.cycle + Config.globalMin) (t.lastScratch + 1), seq := c.seq, op := op, pc := c.pc, tags := tags,
        flagId := flagId,
        site := s.siteOf c, first := firstLane c l, mode := t.sys.tagmode,
        after := s.orderAfter c l pa (gopBytes op) pk, merged := [], performed := false }
    let s1 := if op.mayBear then s.pledgeBirth c.core c.launch gr.logical (s.siteOf c) else s
    ({ s1 with gaccs := s1.gaccs ++ [g], nextUid := s1.nextUid + 1 }).startOp l.tid .gather s.nextUid
  | _, _, _ => s

/-- A global access with a register result: the flag is armed with the access (R15, R168). -/
def queueFlagged (s : State) (c : IssueCtx) (l : LaneRef) (va : W64) (pa tier pk : Nat) (tagged : Bool) (op : GOp)
    (tags : Tags3) (f : Flag) (dests : List Reg) : State :=
  let id := s.nextUid
  let s1 := s.queueGlobal c l va pa tier pk tagged op tags (some (id + 1))
  s1.armFlag c l f Config.globalMin Config.globalMin dests none true (some id)

/-- A fresh value the manual leaves open (assumption log 5). -/
def freeWord (s : State) : W32 × State := (Config.freeWord s.fresh, { s with fresh := s.fresh + 1 })

/-- A value the manual leaves open in what a launch computes. In deterministic mode it depends on nothing but the launch's
code, its source and the values that has drawn before, so that R316 holds (assumption log 5). -/
def openWord (s : State) (launch source : Nat) : W32 × State :=
  match s.launch? launch with
  | some l =>
    if l.rec_.det then
      (Config.openWord l.rec_.code source (AL.get 0 l.drawn source),
        s.modLaunch launch fun l => { l with drawn := AL.modify 0 l.drawn source (· + 1) })
    else s.freeWord
  | none => s.freeWord

/-- Open values of one source. -/
def openWords (s : State) (launch source : Nat) : Nat → List W32 × State
  | 0 => ([], s)
  | n + 1 =>
    let (v, s1) := s.openWord launch source
    let (vs, s2) := s1.openWords launch source n
    (v :: vs, s2)

/-- The sources of open values: a helper lane by its group, and by flock the array's samples, collectives and tile stores. -/
def helperSource (s : State) (l : LaneRef) : Nat := 4 * (8 * ((s.group? l.g).map (·.logical)).getD 0 + l.lane)
def sampleSource (flock : Nat) : Nat := 4 * flock + 1
def collSource (flock : Nat) : Nat := 4 * flock + 2
def tileSource (flock : Nat) : Nat := 4 * flock + 3

/-- A helper lane's result of an instruction that makes no access in a helper: values the manual does not give, with the
helper tag (R88, R191; assumption log 5). -/
def freeResult (s : State) (c : IssueCtx) (l : LaneRef) (lat : Nat) : List Reg → State
  | [] => s
  | d :: ds =>
    let (v, s1) := s.openWord c.launch (s.helperSource l)
    (s1.inFlight c l lat false [(d, ⟨v, helperTag⟩)]).freeResult c l lat ds

end State

def execGld (w : GWidth) (d a : Reg) (f : Flag) (s : State) : Host.Outcome State Fault Refusal :=
  eachLane s fun c s l =>
    let (va, t) := s.pairOperand l a
    let ds := regRange d w.regs
    if l.helper then s.freeResult c l Config.globalMin ds
    else s.globalAccess c l va (4 * w.regs) .read false false (t, 0, 0) fun s pa tier pk tagged =>
      s.queueFlagged c l va pa tier pk tagged (.load w.regs) (t, 0, 0) f ds

def execGst (w : GWidth) (a b : Reg) (s : State) : Host.Outcome State Fault Refusal :=
  eachThread s fun c s l =>
    let (va, t) := s.pairOperand l a
    let vs := (regRange b w.regs).map (s.operand l)
    let tags : State.Tags3 := (t, (s.operand l b).tag, 0)
    s.globalAccess c l va (4 * w.regs) .write true false tags fun s pa tier pk tagged =>
      (s.hashPush l (vs.map fun v => (c.seq, some v.val))).queueGlobal c l va pa tier pk tagged (.store vs) tags none

/-- GATOM (R169). DESIGN CHOICE: in a helper lane it is suppressed (R88) and leaves d as it was (assumption log 71). -/
def execGatom (op : AtomOp) (d a b : Reg) (f : Flag) (s : State) : Host.Outcome State Fault Refusal :=
  eachThread s fun c s l =>
    let (va, t) := s.pairOperand l a
    let y := s.operand l b
    let cmp := (s.operand l d).val
    s.globalAccess c l va 4 .atomic true (decide (op ≠ .amax)) (t, y.tag, 0) fun s pa tier pk tagged =>
      (s.hashPush l [(c.seq, none)]).queueFlagged c l va pa tier pk tagged (.atom op y cmp) (t, y.tag, 0) f [d]

def execGcelladd (a b : Reg) (w : BitVec 8) (s : State) : Host.Outcome State Fault Refusal :=
  eachThread s fun c s l =>
    let (va, t) := s.pairOperand l a
    let y := s.operand l b
    s.globalAccess c l va 32 .atomic true false (t, y.tag, 0) fun s pa tier pk tagged =>
      s.queueGlobal c l va pa tier pk tagged (.cellAdd y w) (t, y.tag, 0) none

/-! Order logs of atomic stations (R322 to R329). -/

/-- The station that owns a physical address (Table 21.1, R323). -/
def stationOf (tier pa : Nat) : Nat :=
  let slice := pa / 64 % 16
  let die := if tier = 1 then pa / 1024 % 8 else pa / 2 ^ 35 % 8
  16 * die + slice

/-- The bytes of a segment, and the chunks it has room for (R323). -/
def segSize (r : LaunchRec) : Nat := 64 * (r.loglen.toNat / 8192)
def segChunks (r : LaunchRec) : Nat := (segSize r - 64) / 4
/-- The address of a station's segment (R323). -/
def segBase (r : LaunchRec) (st : Nat) : Nat := r.logbase.toNat / 64 * 64 + st * segSize r

/-- Log one access of a group (R324, R325). -/
def logAccess (cap : Nat) (g : Nat) (l : StationLog) : StationLog :=
  if l.ovf then { l with dropped := l.dropped + 1 }
  else
    match l.chunks.getLast? with
    | some (k, n) =>
      if k = g ∧ n < 255 then { l with chunks := l.chunks.dropLast ++ [(k, n + 1)], logged := l.logged + 1 }
      else if l.chunks.length < cap then { l with chunks := l.chunks ++ [(g, 1)], logged := l.logged + 1 }
      else { l with ovf := true, dropped := l.dropped + 1 }
    | none =>
      if 0 < cap then { l with chunks := [(g, 1)], logged := l.logged + 1 }
      else { l with ovf := true, dropped := l.dropped + 1 }

/-- Whether the replay gate admits an access of a group now (R328). -/
def gateAdmits (l : StationLog) (g : Nat) : Bool :=
  l.diverged || (match l.chunks[l.pos]? with
    | some (k, _) => decide (k = g % 2 ^ 24)
    | none => l.loaded)

/-- The gate after an admitted access (R328, R329). -/
def gatePass (l : StationLog) : StationLog :=
  if l.diverged then l
  else match l.chunks[l.pos]? with
    | some (_, n) =>
      if l.used + 1 < n then { l with used := l.used + 1, heldSince := none }
      else { l with pos := l.pos + 1, used := 0, heldSince := none }
    | none => { l with past := true }

namespace State

def stationLog (s : State) (launch st : Nat) : StationLog :=
  match s.launch? launch with
  | some l => AL.get StationLog.fresh l.logs st
  | none => StationLog.fresh
def modStation (s : State) (launch st : Nat) (f : StationLog → StationLog) : State :=
  s.modLaunch launch fun l => { l with logs := AL.modify StationLog.fresh l.logs st f }

/-- Whether a station's gate lets an access of a group be performed now. -/
def gateOpen (s : State) (launch st logical : Nat) : Bool :=
  match s.launch? launch with
  | some l => !l.rec_.replay || gateAdmits (AL.get StationLog.fresh l.logs st) logical
  | none => true

/-! A station's accesses to its segment (R326): at .DEV, through the launch's tables. -/

/-- A log access fails for good: record mode stops logging, replay mode gives up the order at a chunk (R326). -/
def stationFail (s : State) (l : Launch) (st at_ : Nat) : State :=
  (s.modStation l.uid st fun x =>
    if l.rec_.replay then
      { x with logerr := true, diverged := true, loaded := true,
               divat := if x.diverged then x.divat else BitVec.ofNat 32 at_ }
    else { x with ovf := true, logerr := true }).faultDrec l.uid 0x16 0x0063 (BitVec.ofNat 32 (st / 16 + 256 * (st % 16)))

/-- Write words of a segment: whether they are written. A page that is not there asks the fault service (R217, R326). -/
def stationWrite (s : State) (l : Launch) (st va : Nat) (ws : List W32) : Bool × State :=
  match s.accessPage (st / 16) l.fn (BitVec.ofNat 64 va) (4 * ws.length) .write with
  | (.ok pa tier _ tagged, s1) => (true, s1.gPuts pa tier tagged (ws.map fun w => ⟨w, 0⟩))
  | (.access _, s1) => (false, s1.stationFail l st 0)
  | (t, s1) =>
    let (asked, s2) := s1.raiseFault l.fn (.station l.uid st) (BitVec.ofNat 64 va) 1 (if t = .hostOwned then 2 else 1) 1
      (st / 16) (st % 16)
    (false, if asked then s2 else s2.stationFail l st 0)

/-- The words of line i of the chunks (R323, R324). -/
def chunkLine (cs : List (Nat × Nat)) (i : Nat) : List W32 :=
  (List.range 16).map fun j => match cs[16 * i + j]? with
    | some (g, n) => BitVec.ofNat 32 (256 * g + n)
    | none => 0

/-- Write the lines that are full, or every line at the end of the launch. A full line is written when the next chunk
opens, since its last chunk can still grow (R325). -/
def stationFlush (s : State) (l : Launch) (st : Nat) (final : Bool) : Nat → State
  | 0 => s
  | n + 1 =>
    let x := s.stationLog l.uid st
    let full := if final then (x.chunks.length + 15) / 16 else x.chunks.length / 16
    if x.logerr || decide (full ≤ x.lines) || s.waits l.fn (.station l.uid st) then s
    else
      match s.stationWrite l st (segBase l.rec_ st + 64 + 64 * x.lines) (chunkLine x.chunks x.lines) with
      | (true, s1) => (s1.modStation l.uid st fun x => { x with lines := x.lines + 1 }).stationFlush l st final n
      | (false, s1) => s1

/-- Whether a logged access of a group opens a new chunk (R324). -/
def opensChunk (x : StationLog) (g : Nat) : Bool :=
  match x.chunks.getLast? with
  | some (k, n) => !decide (k = g ∧ n < 255)
  | none => true

/-- Log an access in record mode. A chunk that a new line is to hold is opened only once the line before is written; while
that waits for the fault service there is no room, and the access is dropped (R326). -/
def stationRecord (s : State) (l : Launch) (st g : Nat) : State :=
  let x := s.stationLog l.uid st
  let s1 := if !x.ovf && opensChunk x g && decide (x.chunks.length < segChunks l.rec_) then s.stationFlush l st false 1 else s
  let held := s1.waits l.fn (.station l.uid st)
  let cap := if held then min (segChunks l.rec_) (16 * ((s1.stationLog l.uid st).lines + 1)) else segChunks l.rec_
  s1.modStation l.uid st (logAccess cap g)

/-- Read one word of a segment: none where it waits or fails. -/
def stationRead (s : State) (l : Launch) (st va at_ : Nat) : Option W32 × State :=
  match s.accessPage (st / 16) l.fn (BitVec.ofNat 64 va) 4 .read with
  | (.ok pa _ _ _, s1) => (some (Mem.read32 s1.mem pa), s1)
  | (.access _, s1) => (none, s1.stationFail l st at_)
  | (t, s1) =>
    let (asked, s2) := s1.raiseFault l.fn (.station l.uid st) (BitVec.ofNat 64 va) 0 (if t = .hostOwned then 2 else 1) 1
      (st / 16) (st % 16)
    (none, if asked then s2 else s2.stationFail l st at_)

/-- Read chunks of a segment until `upto` of its `count` chunks are read (R328). -/
def stationChunks (s : State) (l : Launch) (st count upto : Nat) : Nat → State
  | 0 => s
  | n + 1 =>
    let x := s.stationLog l.uid st
    if count ≤ x.chunks.length then s.modStation l.uid st fun x => { x with loaded := true }
    else if upto ≤ x.chunks.length then s
    else
      match s.stationRead l st (segBase l.rec_ st + 64 + 4 * x.chunks.length) x.chunks.length with
      | (some w, s1) =>
        (s1.modStation l.uid st fun x => { x with chunks := x.chunks ++ [(w.toNat / 256, w.toNat % 256)] }).stationChunks l
          st count upto n
      | (none, s1) => s1

/-- A station reads the line of its segment that the gate has come to, for a replay (R328). -/
def stationLoad (s : State) (l : Launch) (st : Nat) : State :=
  let x := s.stationLog l.uid st
  if x.loaded || decide (x.pos < x.chunks.length) then s
  else
    match s.stationRead l st (segBase l.rec_ st) x.chunks.length with
    | (some w, s1) => s1.stationChunks l st (min w.toNat (segChunks l.rec_)) (x.pos / 16 * 16 + 16) 17
    | (none, s1) => s1

/-- Log or gate an access that a station has performed (R322, R328). -/
def stationDone (s : State) (launch st logical : Nat) : State :=
  match s.launch? launch with
  | some l =>
    if l.rec_.record then s.stationRecord l st (logical % 2 ^ 24)
    else if l.rec_.replay then (s.modStation launch st gatePass).stationLoad l st
    else s
  | none => s

/-- The flags of a segment header (Table 19.4). -/
def stationFlags (x : StationLog) : Nat :=
  (if x.ovf then 1 else 0) + (if x.past then 2 else 0) + (if x.diverged then 4 else 0) + (if x.logerr then 8 else 0)

/-- A station closes its log at the end of its launch: last line and header in record mode, outcome in replay mode (R323,
R329). A log access that failed leaves the header as its write leaves it. -/
def stationClose (s : State) (l : Launch) (st : Nat) : State :=
  let x := s.stationLog l.uid st
  if x.closed || s.waits l.fn (.station l.uid st) then s
  else
    let close (s : State) : State := s.modStation l.uid st fun x => { x with closed := true }
    let begin_ (s : State) : State := s.modStation l.uid st fun x => { x with closing := true }
    let base := segBase l.rec_ st
    if l.rec_.record then
      let s1 := s.stationFlush l st true (x.chunks.length + 1)
      let y := s1.stationLog l.uid st
      if s1.waits l.fn (.station l.uid st) then s1
      else
        let n := if y.logerr then min y.chunks.length (16 * y.lines) else y.chunks.length
        let ws := [BitVec.ofNat 32 n, BitVec.ofNat 32 (stationFlags y &&& 9), BitVec.ofNat 32 y.logged,
          BitVec.ofNat 32 y.dropped, 0xFFFFFFFF] ++ List.replicate 11 0
        match (begin_ s1).stationWrite l st base ws with
        | (true, s2) => close s2
        | (false, s2) => if s2.waits l.fn (.station l.uid st) then s2 else close s2
    else if l.rec_.replay then
      let y := if !x.diverged && (!x.loaded || decide (x.pos < x.chunks.length)) then
          { x with diverged := true, divat := BitVec.ofNat 32 x.pos } else x
      match (begin_ s).stationRead l st (base + 4) x.pos with
      | (none, s1) => if s1.waits l.fn (.station l.uid st) then s1 else close s1
      | (some w, s1) =>
        let flags : W32 := (w &&& ~~~(0xE : W32)) ||| (BitVec.ofNat 32 (stationFlags y) &&& 0xE)
        match s1.stationWrite l st (base + 4) [flags] with
        | (true, s2) =>
          match s2.stationWrite l st (base + 16) [y.divat] with
          | (true, s3) => close s3
          | (false, s3) => if s3.waits l.fn (.station l.uid st) then s3 else close s3
        | (false, s2) => if s2.waits l.fn (.station l.uid st) then s2 else close s2
    else close s

/-- The fault service refuses a station's access (R326): a station that was writing its header or outcome gives it up. -/
def stationRefused (s : State) (l : Launch) (st : Nat) : State :=
  let x := s.stationLog l.uid st
  let s1 := s.stationFail l st x.chunks.length
  if x.closing then s1.modStation l.uid st fun x => { x with closed := true } else s1

/-- Remove an access in flight, or keep it performed at .DEV until its host or peer acknowledges it (R155, R347). -/
def retireAcc (s : State) (g : GAcc) (ack : Bool) : State :=
  if ack then { s with gaccs := updateWhere (fun x => decide (x.id = g.id)) (fun x => { x with performed := true }) s.gaccs }
  else { s with gaccs := s.gaccs.filter fun x => !decide (x.id = g.id) }

/-- The cell slot at a physical address after an addend (R62, R64, R169). -/
def gCellAdd (s : State) (pa tier : Nat) (tagged : Bool) (x : TW) (w : Byte) : State :=
  let st := (Mem.read s.mem (pa + 18)).toNat % 8
  let (v, st') := cellSum (Mem.readNat s.mem pa 18) st x.val w
  let t := cellTagAfter (if tagged then s.readTag tier pa else 0) st x
  s.gBytes pa tier tagged (valueBytes 32 (v + st' * 2 ^ 144)) (List.replicate 8 t)

/-- Gather instructions whose accesses are not all performed (R229). -/
def gatherEntries (s : State) (core : Nat) : Nat :=
  ((s.gaccs.filter fun g => decide (g.core = core) && !g.unit && !g.performed && (match g.op with
    | .readRecord _ => false
    | _ => true)).map (·.seq)).eraseDups.length

/-- Whether a thread's access reads, so that its value lands under a flag. -/
def gopReads : GOp → Bool
  | .load _ | .atom .. | .readRecord _ => true
  | _ => false

/-- Results of ORIGIN for a tag value (Table 5.9); `rec` is the record's four words where the table has a valid one. -/
def originWords (t : Tag) (rec : Option (List W32)) : List W32 :=
  let kind (k : Nat) (lo : W32) : List W32 := [BitVec.ofNat 32 (k * 16777216) ||| lo, 0xFFFFFFFF, 0, 0]
  if t = 0 then kind 0 0
  else if t.toNat < 0x8000 then
    match rec with
    | some (a :: b :: c :: d :: _) => [0x01000000 ||| (a &&& 0xFFFF), b, c, d]
    | _ => kind 7 0
  else if t.toNat < 0xA000 then kind 2 (t.setWidth 32 &&& 0x1FFF)
  else if t = 0xFFFD then kind 3 0
  else if t = 0xFFFE then kind 4 0
  else if t = 0xFFFF then kind 5 0
  else kind 6 0

/-- What the slice or port finds of a thread's access when it is performed (R354). -/
def atLine (s : State) (g : GAcc) : PhysCheck × State := s.physCheck g.fn (g.pa % 2 ^ 52) g.tier (gopBytes g.op) g.tagged false

/-- An access that meets a poisoned line or a retired page only when it is performed: it does nothing, its flag clears with
its destinations as they were, and its thread traps ACCESS at its word (R170, R354). DESIGN CHOICE: what the thread has issued
since stands (assumption log 82). -/
def failThread (s : State) (g : GAcc) : State :=
  let s1 := s.retireAcc g false
  let s2 := match g.flagId with
    | some id =>
      (s1.modThread g.lane.tid fun t =>
        { t with flagged := updateWhere (fun f => decide (f.id = id)) (fun f => { f with dests := [], vals := some [] }) t.flagged
        }).landFlagged g.lane.tid id
    | none => (g.id :: g.merged).foldl (fun s id => s.finishOp g.lane.tid id false) s1
  s2.takeTrap g.lane.tid ⟨0x0E, g.va.setWidth 32, (g.va >>> 32).setWidth 32, g.tags.1, g.tags.2.1, g.tags.2.2,
    accDetail g.op.acc false⟩ g.pc (s.cycle g.core + 4)

/-- A thread's access takes effect at its page (R155, R169, R179). -/
def accessEffect (s : State) (g : GAcc) : State :=
  let host := decide (2 ≤ g.tier)
  let words (n : Nat) : List TW := (List.range n).map fun i => s.gWord (g.pa + 4 * i) g.tier g.tagged g.site
  match g.op with
  | .load n => (s.fillResult g.lane 0 g.flagId [] (words n)).retireAcc g false
  | .store vs =>
    (g.id :: g.merged).foldl (fun s id => s.finishOp g.lane.tid id false) ((s.gPuts g.pa g.tier g.tagged vs).retireAcc g host)
  | .atom op b cmp =>
    let old := s.gWord g.pa g.tier g.tagged g.site
    let (v, t) := atomNew op old b cmp
    let (tag, s1) := s.resolveAt g.core g.launch g.lane g.mode g.logical g.first g.site (atomWant t old b)
    let s2 := (s1.gPut g.pa g.tier g.tagged ⟨v, tag⟩).stationDone g.launch (stationOf g.tier g.pa) g.logical
    (s2.fillResult g.lane 0 g.flagId [] [old]).retireAcc g false
  | .cellAdd x w => ((s.gCellAdd g.pa g.tier g.tagged x w).retireAcc g false).finishOp g.lane.tid g.id false
  | .readRecord n =>
    let ws := (words 4).map (·.val)
    let valid := (ws.headD 0).getLsbD 15
    let vs := originWords (BitVec.ofNat 16 n) (if valid then some ws else none)
    (s.fillResult g.lane 0 g.flagId [] (vs.map fun v => ⟨v, 0⟩)).retireAcc g false
  | _ => s

/-- Perform a thread's access, or trap it where its line is bad by then (R354). -/
def performThread (s : State) (g : GAcc) : State :=
  match s.atLine g with
  | (.ok, s1) => s1.accessEffect g
  | (_, s1) => s1.failThread g

/-- The origin unit of a core stops for a launch (R68): the failed access is dropped and the FAULT record written. -/
def stopOrigin (s : State) (g : GAcc) : State :=
  let s1 := (s.retireAcc g false).modOrigin g.core g.launch fun u => { u with stopped := true, refill := false }
  if (s.originUnit g.core g.launch).stopped then s1
  else s1.faultDrec g.launch 0x14 0x0061 (BitVec.ofNat 32 (coreX g.core + 256 * coreY g.core))

/-- Threads that waited for a record before they trapped take their trap (R70). -/
def recordDone (s : State) (launch n : Nat) : State :=
  let ts : List (ThreadId × TrapInfo × W64 × Nat) := (s.groups.filter fun g => decide (g.launch = launch)).flatMap fun g =>
    ((List.range g.lanes.length).zip g.lanes).filterMap fun p =>
      match p.2.sleep with
      | .trapWait ti m => if m = n then some (⟨g.uid, p.1⟩, ti, p.2.wpc, s.cycle g.core + 4) else none
      | _ => none
  ts.foldl (fun s p => s.takeTrap p.1 p.2.1 p.2.2.1 p.2.2.2) s

/-- Perform a background access of the origin unit (R68): through the launch's page tables at .DEV, serviced like a copy
stream's where the page is not present or host-owned. -/
def performUnit (s : State) (g : GAcc) : State :=
  match s.accessPage (coreLoc g.core) g.fn g.va (match g.op with
      | .record .. => 16
      | _ => 4) .write with
  | (.ok pa tier _ tagged, s1) =>
    match g.op with
    | .record n ws => (((s1.gPuts pa tier tagged (ws.map fun w => ⟨w, 0⟩)).retireAcc g false).recordDone g.launch n)
    | .overflow => (s1.gPut pa tier tagged ⟨(s1.gWord pa tier tagged 0).val + 1, 0⟩).retireAcc g false
    | _ => s1.retireAcc g false
  | (.access _, s1) =>
    match g.op with
    | .record n _ => (s1.stopOrigin g).recordDone g.launch n
    | _ => s1.stopOrigin g
  | (t, s1) =>
    let (asked, s2) := s1.raiseFault g.fn (.origin g.core g.launch) g.va 1 (faultReason t) 0 (coreX g.core) (coreY g.core)
    if asked then s2
    else match g.op with
      | .record n _ => (s2.stopOrigin g).recordDone g.launch n
      | _ => s2.stopOrigin g

/-- Whether the origin unit of a launch waits for a fault: for its answer, or switched out for the answer's effect (R343). -/
def originWaits (s : State) (fn core launch : Nat) : Bool :=
  s.waits fn (.origin core launch) || s.contexts.any fun c => c.origins.any fun o => decide (o.core = core ∧ o.launch = launch)

/-- Whether ORIGIN's read of a record must still wait (R143): for a birth that an earlier word of its thread makes at a point
to come, or for the write of the record itself. -/
def recordWaits (s : State) (g : GAcc) (n : Nat) : Bool :=
  (s.scratch.any fun a => decide (a.lane = g.lane ∧ a.seq < g.seq) && a.op.mayBear) ||
  (s.gaccs.any fun x => decide (x.lane = g.lane ∧ x.seq < g.seq) && !x.unit && !x.performed && x.op.mayBear) ||
  s.recordPending g.launch (BitVec.ofNat 16 n)

/-- Whether an access may be performed now: its earliest cycle has come, everything it follows is performed, its station's
gate admits it, and the origin unit does not wait for a fault. -/
def accReady (s : State) (g : GAcc) : Bool :=
  !g.performed && decide (g.earliest ≤ s.cycle g.core) &&
  (s.gaccs.all fun x => !g.after.contains x.id || x.performed) &&
  (match g.op with
   | .atom .. => s.gateOpen g.launch (stationOf g.tier g.pa) g.logical
   | .readRecord n => !s.recordWaits g n
   | _ => true) &&
  (!g.unit || !s.originWaits g.fn g.core g.launch)

end State

/-- Whether a copy command releases, or may once its block is read (R224, Table 10.1). -/
def CopyCmd.mayRelease (c : CopyCmd) : Bool :=
  (decide (c.kind = .cpy) || decide (c.kind = .cpyx)) &&
  (match c.args with
   | none => true
   | some ws => (ws.getD 5 0).getLsbD 27)

namespace State

/-- Whether an access touches a byte range's words. -/
def touches (g : GAcc) (pa n : Nat) : Bool := decide (g.pa / 4 * 4 < pa + n ∧ pa / 4 * 4 < g.pa + gopBytes g.op)

/-- The accesses of an access's thread that were issued before it and are not performed. -/
def earlierOwn (s : State) (g : GAcc) : List GAcc :=
  s.gaccs.filter fun x => decide (x.lane = g.lane ∧ x.seq < g.seq) && !x.unit && !x.performed

/-- Whether a store on a UN page may be merged into a later one of its thread (R186): the later one writes all its words,
no other access of the thread to them comes between, and no copy command that waits for the earlier one, whose release is an
ordering point (R224). -/
def mayMerge (s : State) (g x : GAcc) : Bool :=
  match g.op, x.op with
  | .store vs, .store ws =>
    decide (g.kind = 2 ∧ x.kind = 2 ∧ g.lane = x.lane ∧ g.seq < x.seq) && !g.performed && !x.performed &&
      decide (x.pa ≤ g.pa ∧ g.pa + 4 * vs.length ≤ x.pa + 4 * ws.length) &&
      ((s.earlierOwn x).all fun y => !decide (g.seq < y.seq) || !touches y g.pa (4 * vs.length)) &&
      !(s.cores.any fun e => e.2.copy.any fun c => c.after.contains g.id && !c.after.contains x.id && c.mayRelease)
  | _, _ => false

/-- Merge a store into a later one: it is never performed by itself, and its operation completes with the merged write. -/
def mergeStore (s : State) (g x : GAcc) : State :=
  let into : GAcc := { x with merged := x.merged ++ g.id :: g.merged, after := (x.after ++ g.after).filter fun i => !decide (i = g.id) }
  { s with gaccs := (s.gaccs.filter fun y => !decide (y.id = g.id)).map fun y => if y.id = x.id then into else y }

/-- The word a load may take at an address before it is performed in its turn (R186): its thread's latest earlier store on a
UN page, or memory where no earlier access of the thread to the word is left; none where another access comes last. -/
def forwardWord (s : State) (g : GAcc) (pa : Nat) : Option (TW × Bool) :=
  match ((s.earlierOwn g).filter fun x => touches x pa 4).getLast? with
  | none => some (s.gWord pa g.tier g.tagged g.site, false)
  | some x =>
    match x.op with
    | .store vs =>
      if x.kind = 2 then
        let v := vs.getD ((pa - x.pa) / 4) ⟨0, 0⟩
        some (if g.tagged then v else ⟨v.val, g.site⟩, true)
      else none
    | _ => none

/-- The words of a load that R186 lets be performed at its own issue, with a store's value in at least one of them. DESIGN
CHOICE: a load of several words is forwarded too where the thread's stores cover only some of them, and takes the others from
memory at its issue (assumption log 79). -/
def forwardWords (s : State) (g : GAcc) (n : Nat) : Option (List TW) :=
  let ws := (List.range n).map fun i => s.forwardWord g (g.pa + 4 * i)
  if g.issued ≠ s.cycle g.core then none
  else if ws.all (·.isSome) && ws.any fun w => w.any (·.2) then some (ws.filterMap fun w => w.map (·.1)) else none

/-- Whether a replay's order gate holds an access (R328). -/
def gateHolds (s : State) (g : GAcc) : Bool :=
  match g.op with
  | .atom .. => !s.gateOpen g.launch (stationOf g.tier g.pa) g.logical
  | _ => false

/-- The accesses of a launch that are left are performed, in the order of issue, but for those that its gate holds. -/
def performLeft (s : State) (u : Nat) (units : Bool) : State :=
  (sortBy (fun a b : GAcc => decide (a.seq < b.seq)) (s.gaccs.filter fun g => decide (g.launch = u))).foldl (fun s g =>
    match s.gaccs.find? fun x => decide (x.id = g.id) with
    | some g =>
      if g.performed || s.gateHolds g then s
      else if !g.unit then s.performThread g
      else if units then s.performUnit g
      else s
    | none => s) s

/-- Every access of a launch that its gate admits in the end is performed (R307, R328, R372): each pass may let it admit more.
One that it never admits is not performed. -/
def performAll (s : State) (u : Nat) : State :=
  (List.range (s.gaccs.countP fun g => decide (g.launch = u))).foldl (fun s _ => s.performLeft u false) (s.performLeft u true)

end State

/-- GLOBAL_ACCESS_PERFORM (R155, R169, R179): an access whose turn has come is performed. On a UN page a store may be merged
into a later one of the same thread to the same words, and a load, at its own issue, may take its words from the thread's own
latest earlier stores (R186). -/
def execGlobalAccessPerform (id : Nat) (how : PerformHow) (s : State) : Host.Outcome State Fault Refusal :=
  match s.gaccs.find? fun g => decide (g.id = id) with
  | none => .next s
  | some g =>
    match how with
    | .plain => if s.accReady g then .next (if g.unit then s.performUnit g else s.performThread g) else .next s
    | .mergedInto later =>
      match s.gaccs.find? fun x => decide (x.id = later) with
      | some x => .next (if s.mayMerge g x then s.mergeStore g x else s)
      | none => .next s
    | .forwarded =>
      match g.op with
      | .load n =>
        match s.forwardWords g n with
        | some ws =>
          if g.kind ≠ 2 then .next s
          else match s.atLine g with
            | (.ok, s1) => .next ((s1.fillResult g.lane 0 g.flagId [] ws).retireAcc g false)
            | (_, s1) => .next (s1.failThread g)
        | none => .next s
      | _ => .next s

/-- HOST_PORT_ACKNOWLEDGE (R155, R347): a write to host or peer memory is performed at .SYS. -/
def execHostPortAcknowledge (id : Nat) (s : State) : Host.Outcome State Fault Refusal :=
  match s.gaccs.find? fun g => decide (g.id = id) with
  | some g => if g.performed then .next (s.retireAcc g false) else .next s
  | none => .next s

/-- ORIGIN_REFILL_DONE (R68): the unit's atomic add of 8 to the table header returns, and the reserve takes the numbers; with 4
or fewer still, and no end of the table met, the unit adds again. -/
def execOriginRefillDone (core : Nat) (s : State) : Host.Outcome State Fault Refusal :=
  let due (e : Nat × OriginUnit) : Bool :=
    e.2.refill && !e.2.stopped && (s.launch? e.1).any fun l => !s.originWaits l.fn core e.1
  match List.find? due (s.core core).origin with
  | none => .next s
  | some (launch, _) =>
    match s.launch? launch with
    | none => .next s
    | some l =>
      let stop (s : State) : State :=
        (s.modOrigin core launch fun u => { u with stopped := true, refill := false }).faultDrec launch 0x14 0x0061
          (BitVec.ofNat 32 (coreX core + 256 * coreY core))
      match s.accessPage (coreLoc core) l.fn l.rec_.origbase 4 .atomic with
      | (.ok pa tier _ tagged, s1) =>
        if 2 ≤ tier then .next (stop s1)
        else
          let v := (s1.gWord pa tier tagged 0).val
          let ns := ((List.range 8).map fun i => v.toNat + 1 + i).filter fun n => decide (n ≤ l.rec_.orign - 1)
          .next ((s1.gPut pa tier tagged ⟨v + 8, 0⟩).modOrigin core launch fun u =>
            OriginUnit.settle { u with reserve := u.reserve ++ ns, full := decide (l.rec_.orign - 1 ≤ v.toNat) })
      | (.access _, s1) => .next (stop s1)
      | (t, s1) =>
        let (asked, s2) := s1.raiseFault l.fn (.origin core launch) l.rec_.origbase 2 (State.faultReason t) 0 (coreX core)
          (coreY core)
        .next (if asked then s2 else stop s2)

/-- ORIGIN (R142, R143): the origin table is read for a record number, and every other tag value answers at once. It traps
PAGE or ACCESS at once where the table's translation fails (R201). -/
def execOrigin (d a : Reg) (f : Flag) (s : State) : Host.Outcome State Fault Refusal :=
  eachLane s fun c s l =>
    let x := s.operand l a
    let t : Tag := x.val.setWidth 16
    let ds := regRange d 4
    match s.launch? c.launch with
    | none => s
    | some la =>
        let inTable := decide (t ≠ 0 ∧ t.toNat < 0x8000) && la.rec_.tags && decide (t.toNat + 1 ≤ la.rec_.orign)
        if l.helper && inTable then
          -- the table's answer, which the manual does not give for a helper: a valid record, or none (assumption log 5)
          let (ws, s1) := s.openWords c.launch (s.helperSource l) 5
          let rec_ := if (ws.getD 4 0).getLsbD 0 then some ((ws.headD 0 ||| 0x8000) :: (ws.take 4).drop 1) else none
          s1.inFlight c l Config.globalMin false (ds.zip ((State.originWords t rec_).map fun v => ⟨v, helperTag⟩))
        else if l.helper then
          s.inFlight c l Config.globalMin false (ds.zip ((State.originWords t none).map fun v => ⟨v, helperTag⟩))
        else if !inTable then
          s.armFlag c l f Config.globalMin Config.globalMin ds (some ((State.originWords t none).map fun v => ⟨v, 0⟩)) false
            none
        else
          let va := la.rec_.origbase + BitVec.ofNat 64 (16 * t.toNat)
          let lo : W32 := va.setWidth 32
          match s.accessPage (coreLoc c.core) la.fn va 16 .read with
          | (.access perm, s1) =>
            s1.trapLane c l 0x0E lo ((va >>> 32).setWidth 32) (x.tag, 0, 0) (State.accDetail .read perm)
          | (.ok pa tier pk tagged, s1) =>
            -- the read follows every record the thread's earlier births wrote (R143), and the thread's own accesses that
            -- R179 and R183 put before it
            let recs := (s1.gaccs.filter fun g => g.unit && decide (g.core = c.core ∧ g.launch = c.launch)).map (·.id)
            let g : GAcc :=
              { id := s1.nextUid, lane := l, unit := false, launch := c.launch, core := c.core, logical := 0, fn := la.fn,
                va := va, pa := pa, tier := tier, kind := pk, tagged := tagged, issued := c.cycle,
                earliest := max (c.cycle + Config.globalMin) (((s1.thread? l.tid).map fun t => t.lastScratch + 1).getD 0),
                seq := c.seq, op := .readRecord t.toNat, pc := c.pc, tags := (x.tag, 0, 0),
                flagId := some (s1.nextUid + 1), site := s1.siteOf c, first := 0, mode := 0,
                after := recs ++ s1.orderAfter c l pa 16 pk, merged := [], performed := false }
            ({ s1 with gaccs := s1.gaccs ++ [g], nextUid := s1.nextUid + 1 }).armFlag c l f Config.globalMin
              Config.globalMin ds none false none
          | (t', s1) =>
            s1.trapLane c l 0x0D lo (BitVec.ofNat 32 (bits va 47 32)) (x.tag, 0, 0) (State.pageDetail t' .read false)

end Sys2Proof.Machine
end

