-- ==== Sys2Proof/Machine/CrossLane.lean ====
section
/-!
DEFINITION. Code as a core reads it (R20, R115, R160), cross-lane words and words over predicates (R92, R93, R171 to R175).
-/
namespace Sys2Proof.Machine

/-! Code words. -/

/-- What a read of a code word gives: the word, or ACCESS with TFDET.PERM. -/
inductive CodeRead where
  | word (w : W64)
  | access (perm : Bool)
deriving DecidableEq, Repr

namespace State

/-- Read the code word at a byte address for a launch on a core: from the lines the core holds, else from memory through
the function's pages, which the core then holds (R20, R160). A page that is not present or host-owned gives ACCESS
(R336). -/
def codeWord (s : State) (core launch : Nat) (a : W64) : CodeRead × State :=
  match s.launch? launch with
  | none => (.access false, s)
  | some l =>
    let off := a - l.rec_.code
    if off.toNat % 8 ≠ 0 ∨ l.rec_.size ≤ off.toNat / 8 then (.access false, s)
    else
      match (s.core core).icache.find? fun e => decide (e.1 = launch ∧ e.2.1 = a) with
      | some e => (.word e.2.2, s)
      | none =>
        match s.accessPage (coreLoc core) l.fn a 8 .fetch with
        | (.ok pa _ _ _, s1) =>
          let w := Mem.read64 s1.mem pa
          (.word w, s1.modCore core fun k => { k with icache := k.icache ++ [(launch, a, w)] })
        | (.access perm, s1) => (.access perm, s1)
        | (_, s1) => (.access false, s1)

/-- Read n code words from an address; the first that fails, with TFDET.PERM, ends the reading. -/
def codeWords (s : State) (core launch : Nat) (a : W64) : Nat → (List W64 × Option (W64 × Bool)) × State
  | 0 => (([], none), s)
  | n + 1 =>
    match s.codeWord core launch a with
    | (.access perm, s1) => (([], some (a, perm)), s1)
    | (.word w, s1) =>
      let ((ws, bad), s2) := s1.codeWords core launch (a + 8) n
      ((w :: ws, bad), s2)

end State

/-- LDK (R32, R115): count registers from the literal words, all of which must be code. -/
def execLdk (d : Reg) (off : BitVec 16) (count : BitVec 8) (s : State) : Host.Outcome State Fault Refusal :=
  match s.cur with
  | none => .next s
  | some c =>
    match s.recOf c with
    | none => .next s
    | some r =>
      let n := count.toNat
      let a := r.addrOf (s.idxNow c + 1 + off.signExtend 32)
      let ((ws, bad), s1) := s.codeWords c.core c.launch a ((n + 1) / 2)
      let vals := (ws.flatMap fun (w : W64) => [(w.setWidth 32 : W32), ((w >>> 32).setWidth 32 : W32)]).take n
      eachLane s1 fun c s l =>
        match bad with
        | some (x, perm) =>
          s.trapLane c l 0x0E (x.setWidth 32) ((x >>> 32).setWidth 32) (0, 0, 0) (if perm then 4 else 0)
        | none => s.inFlight c l 6 true ((regRange d n).zip (vals.map fun v => ⟨v, 0⟩))

/-! Cross-lane words (R171): participants are the lanes at the word, contributors those whose predicate is true. -/

namespace State

/-- The lanes of a group that take part in the word being issued. -/
def participants (c : IssueCtx) (g : Nat) : List LaneRef := (c.lanes ++ c.off).filter fun l => decide (l.g = g)
def contributors (c : IssueCtx) (g : Nat) : List LaneRef := c.lanes.filter fun l => decide (l.g = g)

/-- The value a lane takes from another lane, or its own where that lane takes no part (R172, R173). -/
def fromLane (s : State) (c : IssueCtx) (l : LaneRef) (src : Nat) (a : Reg) : TW :=
  match (participants c l.g).find? fun p => decide (p.lane = src) with
  | some p => s.operand p a
  | none => s.operand l a

end State

def segLanes : SegWidth → Nat
  | .w8 => 8
  | .w4 => 4
  | .w2 => 2

/-- SHFL's source lane, or none outside the segment (R172). -/
def shflSource (mode : ShflMode) (w lane j : Nat) : Option Nat :=
  let base := lane - lane % w
  match mode with
  | .idx => some (base + j % w)
  | .xor => some (lane ^^^ (j % w))
  | .up => if base + j ≤ lane then some (lane - j) else none
  | .dn => if lane + j < base + w then some (lane + j) else none

def execShfl (mode : ShflMode) (d a b : Reg) (w : SegWidth) (s : State) : Host.Outcome State Fault Refusal :=
  execLanes s (.lat 6) fun c l =>
    let j := (s.operand l b).val.toNat % 8
    let x := match shflSource mode (segLanes w) l.lane j with
      | some src => s.fromLane c l src a
      | none => s.operand l a
    .one d x.val (.fixed x.tag) 0 (0, 0, 0)

def qswapDist : QswapMode → Nat
  | .x => 1
  | .y => 2
  | .d => 3

def execQswap (mode : QswapMode) (d a : Reg) (s : State) : Host.Outcome State Fault Refusal :=
  execLanes s (.lat 6) fun c l =>
    let x := s.fromLane c l (l.lane ^^^ qswapDist mode) a
    .one d x.val (.fixed x.tag) 0 (0, 0, 0)
def execQbcast (d a : Reg) (n : BitVec 2) (s : State) : Host.Outcome State Fault Refusal :=
  execLanes s (.lat 6) fun c l =>
    let x := s.fromLane c l (l.lane / 4 * 4 + n.toNat) a
    .one d x.val (.fixed x.tag) 0 (0, 0, 0)

/-! Reductions and scans (R93, R174). -/

/-- How two partials combine: the value, what is raised, the sources, and the candidates of an add-like rule. -/
structure Combine where
  val : W32
  raised : Exc
  srcs : List TSrc
  doms : Option (List TDom)

def combF32 (isAdd : Bool) (f : Num → Num → Num × Exc) (x y : TW) : Combine :=
  let (v, e) := f (f32 x.val) (f32 y.val)
  let (w, e2) := toF32 v
  ⟨w, e ||| e2, [f32Src x, f32Src y], if isAdd then some [f32Mag x, f32Mag y] else none⟩

def combF16 (isAdd : Bool) (f : Num → Num → Num × Exc) (x y : TW) : Combine :=
  let one (i : Nat) : Nat × Exc :=
    let (v, e) := f (hnum false x.val i) (hnum false y.val i)
    let (w, e2) := encodeF .fp16 false v
    (w, e ||| e2)
  ⟨pack16 (one 0).1 (one 1).1, (one 0).2 ||| (one 1).2, [h2Src false x, h2Src false y],
    if isAdd then some [h2Mag false x, h2Mag false y] else none⟩

def combInt (isAdd : Bool) (v : W32) (x y : TW) : Combine :=
  ⟨v, 0, [intSrc x, intSrc y], if isAdd then some [intMag x, intMag y] else none⟩

def fminPair (x y : Num) : Num × Exc := ((Num.firstNan [x, y]).getD (Num.min x y), Exc.none)
def fmaxPair (x y : Num) : Num × Exc := ((Num.firstNan [x, y]).getD (Num.max x y), Exc.none)

/-- One combine of a reduction, the partial of the lower lane first (R72, R174). -/
def combine (op : GredOp) (x y : TW) : Combine :=
  match op with
  | .addF32 => combF32 true Num.add x y
  | .minF32 => combF32 false fminPair x y
  | .maxF32 => combF32 false fmaxPair x y
  | .addF16 => combF16 true Num.add x y
  | .minF16 => combF16 false fminPair x y
  | .maxF16 => combF16 false fmaxPair x y
  | .addI32 => combInt true (x.val + y.val) x y
  | .minI32 => combInt false (if y.val.toInt < x.val.toInt then y.val else x.val) x y
  | .maxI32 => combInt false (if x.val.toInt < y.val.toInt then y.val else x.val) x y
  | .minU32 => combInt false (if y.val.toNat < x.val.toNat then y.val else x.val) x y
  | .maxU32 => combInt false (if x.val.toNat < y.val.toNat then y.val else x.val) x y

/-- The identity of a reduction (R174). -/
def gredIdentity : GredOp → W32
  | .addF32 | .addF16 | .addI32 => 0
  | .minF32 => 0x7F800000
  | .maxF32 => 0xFF800000
  | .minF16 => 0x7C007C00
  | .maxF16 => 0xFC00FC00
  | .minI32 => 0x7FFFFFFF
  | .maxI32 => 0x80000000
  | .minU32 => 0xFFFFFFFF
  | .maxU32 => 0

/-- The reduction a scan function runs, and whether a lane's own value counts (Table 2.10). -/
def scanRed : GscanOp → GredOp × Bool
  | .incAddI32 => (.addI32, true)
  | .excAddI32 => (.addI32, false)
  | .incAddF32 => (.addF32, true)
  | .excAddF32 => (.addF32, false)
  | .incMaxI32 => (.maxI32, true)
  | .excMaxI32 => (.maxI32, false)

namespace State

/-- Combine two partials that may be missing for a lane, with the tag rule of its thread (R72, R93). -/
def combineTags (s : State) (c : IssueCtx) (l : LaneRef) (op : GredOp) (x y : Option TW) : (Option TW × Exc) × State :=
  match x, y with
  | some p, some q =>
    let r := combine op p q
    let (t, s1) := if l.helper then (helperTag, s)
      else s.resolveTag c l (s.tagModeOf l) (.rule r.srcs r.doms (decide (r.raised ≠ 0)))
    ((some ⟨r.val, t⟩, r.raised), s1)
  | some p, none => ((some p, 0), s)
  | none, q => ((q, 0), s)

/-- One level of the pairwise tree: neighbours combine (R93). -/
def treeLevel (s : State) (c : IssueCtx) (l : LaneRef) (op : GredOp) : List (Option TW) → (List (Option TW) × Exc) × State
  | x :: y :: rest =>
    let ((z, e), s1) := s.combineTags c l op x y
    let ((zs, e2), s2) := s1.treeLevel c l op rest
    ((z :: zs, e ||| e2), s2)
  | xs => ((xs, 0), s)

/-- The reduction of eight partials for a lane (R93). -/
def treeReduce (s : State) (c : IssueCtx) (l : LaneRef) (op : GredOp) (xs : List (Option TW)) : (TW × Exc) × State :=
  let ((a, e1), s1) := s.treeLevel c l op xs
  let ((b, e2), s2) := s1.treeLevel c l op a
  let ((z, e3), s3) := s2.treeLevel c l op b
  (((z.headD none).getD ⟨gredIdentity op, 0⟩, e1 ||| e2 ||| e3), s3)

/-- The partials of a group: each contributor's value in the lanes below a limit. -/
def partials (s : State) (c : IssueCtx) (g : Nat) (a : Reg) (limit : Nat) : List (Option TW) :=
  (List.range 8).map fun i =>
    if i < limit then ((contributors c g).find? fun l => decide (l.lane = i)).map fun l => s.operand l a else none

/-- Reduce for one contributor and deliver its result (R58, R174). The partials are those before the word. DESIGN CHOICE: the
births of its combines are made even where the result then traps (R72, assumption log 85). -/
def reduceLane (s : State) (c : IssueCtx) (l : LaneRef) (op : GredOp) (d : Reg) (t : Tag) (xs : List (Option TW)) :
    State :=
  let ((w, e), s1) := s.treeReduce c l op xs
  s1.deliver c l (.lat 6) (.one d w.val (.fixed w.tag) e (t, 0, 0))

end State

def execGred (op : GredOp) (d a : Reg) (s : State) : Host.Outcome State Fault Refusal :=
  eachLane s fun c s' l => s'.reduceLane c l op d (s.operand l a).tag (s.partials c l.g a 8)
def execGscan (op : GscanOp) (d a : Reg) (s : State) : Host.Outcome State Fault Refusal :=
  eachLane s fun c s' l =>
    s'.reduceLane c l (scanRed op).1 d (s.operand l a).tag (s.partials c l.g a (l.lane + if (scanRed op).2 then 1 else 0))

/-! Predicates across lanes (R175). -/

/-- The mask of a group's contributors that meet a condition. -/
def laneMask (c : IssueCtx) (g : Nat) (p : LaneRef → Bool) : W32 :=
  (State.contributors c g).foldl (fun m l => if p l then m ||| (1#32 <<< l.lane) else m) 0

def execVote (all : Bool) (kd : BitVec 3) (ka : KSel) (s : State) : Host.Outcome State Fault Refusal :=
  execLanes s (.lat 6) fun c l =>
    let p (x : LaneRef) : Bool := (s.rf x).ksel ka
    let cs := State.contributors c l.g
    ⟨[], [(kd, if all then cs.all p else cs.any p)], 0, none, (0, 0, 0)⟩
def execVoteBallot (d : Reg) (ka : KSel) (s : State) : Host.Outcome State Fault Refusal :=
  execLanes s (.lat 6) fun c l => .one d (laneMask c l.g fun x => (s.rf x).ksel ka) (.fixed 0) 0 (0, 0, 0)
def execElect (kd : BitVec 3) (s : State) : Host.Outcome State Fault Refusal :=
  execLanes s (.lat 6) fun c l =>
    ⟨[], [(kd, (State.contributors c l.g).all fun x => decide (l.lane ≤ x.lane))], 0, none, (0, 0, 0)⟩
def execMatch (d a : Reg) (s : State) : Host.Outcome State Fault Refusal :=
  execLanes s (.lat 6) fun c l =>
    .one d (laneMask c l.g fun x => decide ((s.operand x a).val = (s.operand l a).val)) (.fixed 0) 0 (0, 0, 0)

def kopVal (op : KopOp) (x y : Bool) : Bool :=
  match op with
  | .and => x && y
  | .or => x || y
  | .xor => x != y
  | .andn => x && !y

def execKop (op : KopOp) (kd : BitVec 3) (ka kb : KSel) (s : State) : Host.Outcome State Fault Refusal :=
  execLanes s (.lat 2) fun _ l => ⟨[], [(kd, kopVal op ((s.rf l).ksel ka) ((s.rf l).ksel kb))], 0, none, (0, 0, 0)⟩
def execKmovGet (d : Reg) (s : State) : Host.Outcome State Fault Refusal :=
  execLanes s (.lat 2) fun _ l => .one d (((s.rf l).k ||| 1).setWidth 32) (.fixed 0) 0 (0, 0, 0)
def execKmovSet (a : Reg) (s : State) : Host.Outcome State Fault Refusal :=
  execLanes s (.lat 2) fun _ l =>
    let x := s.operand l a
    ⟨[], (List.range 7).map fun i => (BitVec.ofNat 3 (i + 1), x.val.getLsbD (i + 1)), 0, none, (x.tag, 0, 0)⟩

end Sys2Proof.Machine
end

