-- ==== Sys2Proof/Machine/Routines.lean ====
section
/-!
DEFINITION. The shipped transform routines (Table 10.11, R53 to R55, R228): what each makes of its input stream. A
stream is bytes, each with the tag of the word it came from.
-/
namespace Sys2Proof.Machine

abbrev ByteTag := Byte × Tag

/-- What a routine returns: its status, and its output by words, each with how it gets its tag. -/
structure RoutineOut where
  status : Nat
  words : List (List Byte × TagWant)

def leNat (l : List Byte) : Nat := l.foldr (fun b acc => b.toNat + 256 * acc) 0

/-- Cut a list into pieces of n, the last perhaps shorter; fuel is the list's length. -/
def chunksGo {α : Type} (n : Nat) : Nat → List α → List (List α)
  | 0, _ => []
  | _, [] => []
  | fuel + 1, l => l.take n :: chunksGo n fuel (l.drop n)
def chunks {α : Type} (n : Nat) (l : List α) : List (List α) := chunksGo n l.length l

/-- Fill a list up to a length. -/
def padTo {α : Type} (n : Nat) (x : α) (l : List α) : List α := l ++ List.replicate (n - l.length) x

/-- A stream's elements of n bytes, each with the tag of the word holding its first byte. -/
def streamElems (n : Nat) (l : List ByteTag) : List (Nat × Tag) :=
  (chunks n l).map fun c => (leNat (c.map (·.1)), (c.head?.map (·.2)).getD 0)

/-- The tag of an output word made from elements (R74). -/
def packWant (es : List (Nat × Tag)) (special : Nat → Bool) (raised : Bool) : TagWant :=
  .rule (es.map fun e => ⟨e.2, special e.1⟩) none raised

def f32Special (x : Nat) : Bool := (f32 (BitVec.ofNat 32 x)).special

/-! CB4 pack (R53, R55). -/

/-- The greater magnitude of a list of numbers, at least 0. -/
def maxAbs (xs : List Num) : Num := xs.foldl (fun m x => maxMag m x.abs) Num.zero

/-- The exact comparison |a − x| < |b − x| of a level product and a number, all finite. -/
def nearer (x a b : Num) : Bool :=
  Num.magLt (Num.add a x.negate).1 (Num.add b x.negate).1

/-- The level code nearest to x / (s8 · S): the product level · s8 · S nearest to x, ties to the even code (R55). -/
def cb4Code (x unit : Num) : Nat :=
  (List.range 16).foldl (fun best c =>
    let p (k : Nat) : Num := (Num.mul (decodeElem .cb4 k) unit).1
    if nearer x (p c) (p best) || (!nearer x (p best) (p c) && decide (c % 2 = 0) && decide (best % 2 = 1)) then c
    else best) 0

/-- s8 of a block from its maximum and a scale S that is not 0: rounded, clamped to 0 to 255, and 0 for a NaN (R55, R56), with
whether it clamped or came of a NaN. -/
def cb4Scale (m s : Num) : Nat × Bool :=
  match (divNum m s).1 with
  | .fin _ a e => (min 255 (rneInt a e), decide (255 < rneInt a e))
  | .inf _ => (255, true)
  | .nan .. => (0, true)

/-- A superblock from 16,384 elements: S, the s8 of each block with whether it raised, and the codes (R55). What the steps do not
give is open, a function of the elements (assumption log 5): with a NaN the maximum of its block and so S, and the code of an element that
is no number beside which one level is nearest. -/
def cb4Block (xs : List (Nat × Tag)) : W32 × List (Nat × Bool) × List Nat :=
  let nums := xs.map fun e => f32 (BitVec.ofNat 32 e.1)
  let blocks := chunks 64 nums
  let free (i : Nat) : W32 := Config.cb4Open (xs.map (·.1)) i
  let maxes := ((List.range blocks.length).zip blocks).map fun b =>
    if b.2.any (·.isNan) then f32 (free (b.1 + 1) &&& 0x7FFFFFFF) else maxAbs b.2
  let s : W32 := if nums.any (·.isNan) then free 0 &&& 0x7FFFFFFF
    else (toF32 (divNum (maxAbs maxes) (Num.ofNat 255)).1).1
  let sv := f32 s
  let s8 := maxes.map fun m => if sv.isZero then (0, false) else cb4Scale m sv
  let codes := ((List.range blocks.length).zip (blocks.zip s8)).flatMap fun (b : Nat × List Num × Nat × Bool) =>
    let unit := (Num.mul (Num.ofNat b.2.2.1) sv).1
    ((List.range b.2.1.length).zip b.2.1).map fun x =>
      if sv.isZero ∨ b.2.2.1 = 0 then 7
      else match x.2 with
        | .fin .. => cb4Code x.2 unit
        | _ => (free (257 + 64 * b.1 + x.1)).toNat % 16
  (s, s8, codes)

def pairUp : List Nat → List Byte
  | a :: b :: t => BitVec.ofNat 8 (a + 16 * b) :: pairUp t
  | [a] => [BitVec.ofNat 8 a]
  | [] => []

/-- One superblock's words (R53, R74): padding has code 7, and a block of it s8 = 0. -/
def cb4Words (xs : List (Nat × Tag)) : List (List Byte × TagWant) :=
  let xs := padTo 16384 (0, 0) xs
  let (s, s8, codes) := cb4Block xs
  let bytes : List Byte := pairUp codes ++ s8.map (fun x => BitVec.ofNat 8 x.1) ++ valueBytes 4 s.toNat
  let all := chunks 4 (bytes ++ List.replicate 60 0)
  let tag (i : Nat) : TagWant :=
    if i < 2048 then packWant ((xs.drop (8 * i)).take 8) f32Special false
    else if i < 2112 then
      packWant ((xs.drop (256 * (i - 2048))).take 256) f32Special (((s8.drop (4 * (i - 2048))).take 4).any (·.2))
    else if i = 2112 then packWant xs f32Special false
    else .fixed 0
  (List.range all.length).zip all |>.map fun p => (p.2, tag p.1)

def cb4Pack (l : List ByteTag) : RoutineOut :=
  ⟨if l.length % 4 = 0 then 0 else 1, (chunks 16384 (streamElems 4 (l.take (l.length / 4 * 4)))).flatMap cb4Words⟩

/-! CB4 unpack (R54). -/

/-- Whole superblocks give their elements; a part of one then ends the routine with status 1 (assumption log 21). -/
def cb4Unpack (half : Bool) (l : List ByteTag) : RoutineOut :=
  let sbs := (chunks 8512 l).filter fun c => decide (c.length = 8512)
  let one (sb : List ByteTag) : List (List Byte × TagWant) :=
    let byte (i : Nat) : Nat := ((sb[i]?).map fun x => x.1.toNat).getD 0
    let t := (sb.head?.map (·.2)).getD 0
    let s := f32 (BitVec.ofNat 32 (leNat (((sb.drop 8448).take 4).map (·.1))))
    let elem (i : Nat) : Nat :=
      let code := byte (i / 2) / (if i % 2 = 0 then 1 else 16) % 16
      let p := (Num.mul (Num.mul (decodeElem .cb4 code) (Num.ofNat (byte (8192 + i / 64)))).1 s).1
      (encodeF (if half then .fp16 else .fp32) false p).1
    let bytes := (List.range 16384).flatMap fun i => valueBytes (if half then 2 else 4) (elem i)
    (chunks 4 bytes).map fun w => (w, .fixed t)
  ⟨if l.length % 8512 = 0 then 0 else 1, sbs.flatMap one⟩

/-! E2M1X pack (Table 10.11). -/

/-- ⌈log2(m / 6)⌉ clamped to −127 to 127, −127 for 0 (Table 10.11). -/
def e2m1Exp (m : Num) : Int :=
  match m with
  | .fin _ a e =>
    if a = 0 then -127
    else
      -- the least x with 6 · 2^x ≥ a · 2^e
      let x0 : Int := e + Nat.log2 a - 3
      let ok (x : Int) : Bool := !Num.magLt (.fin false 6 x) (.fin false a e)
      let x := if ok x0 then x0 else if ok (x0 + 1) then x0 + 1 else if ok (x0 + 2) then x0 + 2 else x0 + 3
      max (-127) (min 127 x)
  | _ => 127

/-- Positions of a list in falling order of magnitude, the lower index first on a tie. -/
def byMagnitude (xs : List Num) : List Nat :=
  let ps := (List.range xs.length).zip (xs.map Num.abs)
  (sortBy (fun a b : Nat × Num => Num.magLt b.2 a.2) ps).map (·.1)

/-- A block of 32 elements: its codes, its scale exponent, its outliers in element order with what they raise, the positions
of its escapes, and the positions that raised (R52, R56, Table 10.11). DESIGN CHOICE: a NaN has magnitude zero in the choice
of the scale and of the escapes (assumption log 87). -/
def e2m1Block (escape : Bool) (xs : List Num) : List Nat × Int × List (Nat × Exc) × List Nat × List Nat :=
  let finite := xs.map fun x => if x.isNan then Num.zero else x
  let order := byMagnitude finite
  let at_ (i : Nat) : Num := (finite[order.getD i 0]?).getD Num.zero
  let e := e2m1Exp (at_ (if escape then 2 else 0)).abs
  let exceeds (x : Num) : Bool := Num.magLt (.fin false 6 e) x
  let esc := if escape then (order.take 2).filter fun i => exceeds ((finite[i]?).getD Num.zero) else []
  let esc := sortBy (fun a b : Nat => decide (a < b)) esc
  let code (i : Nat) (x : Num) : Nat × Exc :=
    if esc.contains i then (8, 0) else encodeElem (.flt .e2m1) false (Num.scale2 x (-e))
  let rs := (List.range xs.length).zip xs |>.map fun p => code p.1 p.2
  let outl := esc.map fun i => encodeF .fp16 false ((xs[i]?).getD Num.zero)
  let raised := ((List.range rs.length).zip rs).filterMap fun p => if p.2.2 = 0 then none else some p.1
  (rs.map (·.1), e, outl, esc, raised)

def e2m1Words (escape : Bool) (xs : List (Nat × Tag)) : List (List Byte × TagWant) :=
  let xs := padTo 32 (0, 0) xs
  let (codes, e, outl, esc, raised) := e2m1Block escape (xs.map fun x => f32 (BitVec.ofNat 32 x.1))
  let word (i : Nat) : List Byte × TagWant :=
    (pairUp ((codes.drop (8 * i)).take 8),
      packWant ((xs.drop (8 * i)).take 8) f32Special (raised.any fun r => decide (r / 8 = i)))
  (List.range 4).map word ++
  [(valueBytes 4 (e + 127).toNat, packWant xs f32Special false),
   (valueBytes 2 (outl.getD 0 (0, 0)).1 ++ valueBytes 2 (outl.getD 1 (0, 0)).1,
     packWant (esc.filterMap fun i => xs[i]?) f32Special (outl.any fun o => decide (o.2 ≠ 0)))]

def e2m1Pack (escape : Bool) (l : List ByteTag) : RoutineOut :=
  ⟨if l.length % 4 = 0 then 0 else 1, (chunks 32 (streamElems 4 (l.take (l.length / 4 * 4)))).flatMap (e2m1Words escape)⟩

/-! 2:4 and 1:4 compaction (Table 10.11, Table 12.2, R243). -/

/-- The element of a format code in raw bits. Of more bits than the format has the low ones count (assumption log 21). -/
def rawNum (fmt : Nat) (bits : Nat) : Num :=
  match Elem.ofCode fmt with
  | some f => decodeElem f (bits % 2 ^ f.bits)
  | none => Num.ofNat bits

/-- A stream's elements of n bytes, each with the tags of the words it lies in. -/
def streamWide (n : Nat) (l : List ByteTag) : List (Nat × List Tag) :=
  (chunks n l).map fun c => (leNat (c.map (·.1)), (chunks 4 c).map fun w => (w.head?.map (·.2)).getD 0)

/-- The positions a run of 4 keeps, in index order. -/
def keepRun (keep fmt : Nat) (run : List (Nat × List Tag)) : List Nat :=
  sortBy (fun a b : Nat => decide (a < b)) ((byMagnitude (run.map fun x => rawNum fmt x.1)).take keep)

/-- A row of 32 elements: the values it keeps, and its index bits. -/
def compactRow (keep fmt : Nat) (row : List (Nat × List Tag)) : List (Nat × List Tag) × Nat :=
  let runs := chunks 4 row
  let kept := runs.map fun r => (keepRun keep fmt r).map fun p => (p, (r[p]?).getD (0, []))
  let flat := kept.flatten
  (flat.map (·.2), ((List.range flat.length).zip flat).foldl (fun acc p => acc + p.2.1 * 4 ^ p.1) 0)

/-- A tile of 32 rows: values, then the index tile. A value of one word or more has the tag of each of its words by that word's
alone; a word of the index tile counts each element of its rows by the tag of its first word (R74). -/
def compactTile (keep fmt e : Nat) (xs : List (Nat × List Tag)) : List (List Byte × TagWant) :=
  let rows := chunks 32 (padTo 1024 (0, []) xs)
  let done := rows.map (compactRow keep fmt)
  let special (x : Nat) : Bool := (rawNum fmt x).special
  let whole (k : Nat) (v : Nat × List Tag) : Nat × Tag := (v.1, v.2.getD k 0)
  let values := (done.flatMap (·.1)).flatMap fun v =>
    ((List.range e).zip (valueBytes e v.1)).map fun b => (b.2, whole (b.1 / 4) v)
  let words := (chunks 4 values).map fun w =>
    (w.map (·.1), packWant (if 4 ≤ e then (w.take 1).map (·.2) else (chunks e w).filterMap fun c => c.head?.map (·.2))
      special false)
  let idx := (rows.zip done).flatMap fun p => (valueBytes (2 * keep) p.2.2).map fun b => (b, p.1.map (whole 0))
  words ++ (chunks 4 idx).map fun w =>
    (w.map (·.1), packWant ((chunks (2 * keep) w).flatMap fun c => (c.head?.map (·.2)).getD []) special false)

def compact (one4 : Bool) (fmt e : Nat) (l : List ByteTag) : RoutineOut :=
  ⟨if l.length % e = 0 then 0 else 1,
    (chunks 1024 (streamWide e (l.take (l.length / e * e)))).flatMap (compactTile (if one4 then 1 else 2) fmt e)⟩

/-! VBZ (R228). -/

/-- Read a field's continuation bytes: each adds its value, and another follows a 255. -/
def vbzExtend : List ByteTag → Nat → Option (Nat × List ByteTag)
  | [], _ => none
  | (b, _) :: t, acc => if b = 255 then vbzExtend t (acc + 255) else some (acc + b.toNat, t)

def vbzField (f : Nat) (p : List ByteTag) : Option (Nat × List ByteTag) := if f = 15 then vbzExtend p 15 else some (f, p)

/-- Copy bytes from o back in what a block has produced, newest first, up to a room. -/
def vbzMatch (o : Nat) : Nat → List Byte → List Byte
  | 0, out => out
  | n + 1, out => vbzMatch o n ((out[o - 1]?).getD 0 :: out)

/-- The tokens of an LZ payload: what the block has produced, newest first, and whether all went well. -/
def vbzLz (olen : Nat) : Nat → List ByteTag → List Byte → List Byte × Bool
  | 0, _, out => (out, false)
  | _ + 1, [], out => (out, false)
  | fuel + 1, (t, _) :: p, out =>
    match vbzField (t.toNat % 16) p with
    | none => (out, false)
    | some (lits, p1) =>
      match vbzField (t.toNat / 16) p1 with
      | none => (out, false)
      | some (ml, p2) =>
        let room := olen - out.length
        let take := min (min lits room) p2.length
        let out1 := ((p2.take take).map (·.1)).reverse ++ out
        if take < lits then (out1, false)
        else if out1.length = olen then (out1, decide (t.toNat / 16 = 0) && (p2.drop take).isEmpty)
        else
          match p2.drop take with
          | (a, _) :: (b, _) :: p3 =>
            let o := a.toNat + 256 * b.toNat
            if o = 0 ∨ out1.length < o then (out1, false)
            else
              let len := ml + 4
              let room := olen - out1.length
              let out2 := vbzMatch o (min len room) out1
              if room < len then (out2, false)
              else if out2.length = olen then (out2, p3.isEmpty)
              else vbzLz olen fuel p3 out2
          | _ => (out1, false)

/-- The blocks of a stream from an offset: output with each byte's tag, newest first, and the status. -/
def vbzBlocks (arg : Nat) : Nat → Nat → List ByteTag → List ByteTag → List ByteTag × Nat
  | 0, _, _, out => (out, 1)
  | fuel + 1, pos, inp, out =>
    let skip := (4 - pos % 4) % 4
    let inp := inp.drop skip
    let pos := pos + skip
    if inp.length < 4 then (out, 1)
    else
      let h := leNat ((inp.take 4).map (·.1))
      let tag := (inp.head?.map (·.2)).getD 0
      let plen := h / 16384
      let olen := h / 4 % 4096 + 1
      let kind := h % 4
      let body := inp.drop 4
      if kind = 3 then (out, if h = 3 ∧ (arg = 0 ∨ out.length = arg) then 0 else 1)
      else
        let pay := body.take plen
        let whole := decide (plen ≤ body.length)
        let (made, ok) : List Byte × Bool :=
          if kind = 0 then (((pay.take olen).map (·.1)).reverse, decide (plen = olen))
          else if kind = 1 then
            match decide (plen = 1), pay with
            | true, b :: _ => (List.replicate olen b.1, true)
            | _, _ => ([], false)
          else vbzLz olen (pay.length + 1) pay []
        let out1 := made.map (fun b => (b, tag)) ++ out
        if whole && ok then vbzBlocks arg fuel (pos + 4 + plen) (body.drop plen) out1 else (out1, 1)

def vbz (arg : Nat) (l : List ByteTag) : RoutineOut :=
  let (out, st) := vbzBlocks arg (l.length + 1) 0 l []
  ⟨st, (chunks 4 out.reverse).map fun w => (w.map (·.1), .fixed ((w.head?.map (·.2)).getD 0))⟩

/-- A shipped routine on its whole input (Table 10.11). -/
def shipped (rid arg fin fout esz : Nat) (l : List ByteTag) : RoutineOut :=
  match rid with
  | 1 => cb4Pack l
  | 2 => cb4Unpack (decide (fout = 1)) l
  | 3 => e2m1Pack (decide (arg % 2 = 1)) l
  | 4 => compact (decide (arg % 2 = 1)) fin (2 ^ esz) l
  | _ => vbz arg l

end Sys2Proof.Machine
end

