-- ==== Sys2Proof/Machine/CopyDesc.lean ====
section
/-!
DEFINITION. What a copy-engine command's parameters say, and their checks (R211 to R214, R225, R227, R231, R233).
-/
namespace Sys2Proof.Machine

/-- A copy parameter block (Table 10.1). -/
structure CopyDesc where
  src : W64
  dst : W64
  ex : Nat
  ey : Nat
  ez : Nat
  rel : Bool
  slot : Nat
  fout : Nat
  fin : Nat
  ssy : Int
  ssz : Int
  dsy : Int
  dsz : Int
  lx : Nat
  ly : Nat
  lz : Nat
  esz : Nat
  dlay : Nat
  slay : Nat
  cwo : W32
  cwv : W32
  arg : Nat
  rid : Nat
  badZero : Bool
  badSize : Bool
deriving DecidableEq, Repr

/-- Bits [hi:lo] of a word. -/
def wbits (x : W32) (hi lo : Nat) : Nat := x.toNat / 2 ^ lo % 2 ^ (hi - lo + 1)

def wordAt (ws : List W32) (i : Nat) : W32 := ws.getD i 0
def dwordAt (ws : List W32) (i : Nat) : W64 := wordAt ws (i + 1) ++ wordAt ws i

/-- Whether a SRC or DST breaks its zero field. -/
def localZeroBad (a : W64) : Bool := a.getLsbD 63 && decide (bits a 62 32 ≠ 0)

/-- The fields of a 64-byte block. -/
def parseBlock (ws : List W32) : CopyDesc :=
  let w := wordAt ws
  let f := w 5
  let g := w 10
  { src := dwordAt ws 0, dst := dwordAt ws 2, ex := wbits (w 4) 15 0, ey := wbits (w 4) 31 16, ez := wbits f 15 0,
    rel := f.getLsbD 27, slot := wbits f 26 24, fout := wbits f 23 20, fin := wbits f 19 16,
    ssy := (w 6).toInt, ssz := (w 7).toInt, dsy := (w 8).toInt, dsz := (w 9).toInt,
    lx := wbits g 15 12, ly := wbits g 19 16, lz := wbits g 23 20, esz := wbits g 11 8, dlay := wbits g 7 4,
    slay := wbits g 3 0, cwo := w 11, cwv := w 12, arg := wbits (w 13) 31 8, rid := wbits (w 13) 7 0,
    badZero := decide (wbits f 31 28 ≠ 0) || decide (wbits g 31 24 ≠ 0) || decide (w 14 ≠ 0) || decide (w 15 ≠ 0) ||
      localZeroBad (dwordAt ws 0) || localZeroBad (dwordAt ws 2),
    badSize := false }

/-- CPYI as a block: n, source and destination (R231). -/
def parseCpyi (ws : List W32) : CopyDesc :=
  let n := (wordAt ws 0).toNat
  let bad := decide (n % 4 ≠ 0) || decide (2 ^ 24 ≤ n)
  let src := dwordAt ws 1
  let dst := dwordAt ws 3
  { src := src, dst := dst, ex := if bad then 0 else n / 4, ey := 1, ez := 1, rel := false, slot := 0, fout := 0,
    fin := 0, ssy := 0, ssz := 0, dsy := 0, dsz := 0, lx := 0, ly := 0, lz := 0, esz := 2, dlay := 0, slay := 0,
    cwo := 0, cwv := 0, arg := 0, rid := 0, badZero := localZeroBad src || localZeroBad dst, badSize := bad }

namespace CopyDesc

def total (d : CopyDesc) : Nat := d.ex * d.ey * d.ez
def converts (d : CopyDesc) : Bool := decide (d.fin ≠ d.fout)

/-- Byte width of a format code (R213); 0 where it has none. -/
def width (fmt : Nat) : Nat :=
  match fmt with
  | 0 | 10 => 4
  | 1 | 2 | 9 | 12 => 2
  | 3 | 4 | 7 | 8 => 1
  | _ => 0

/-- Element sizes of the two sides of a CPY or CPYI (R213). -/
def srcSize (d : CopyDesc) : Nat := if d.converts then width d.fin else 2 ^ d.esz
def dstSize (d : CopyDesc) : Nat := if d.converts then width d.fout else 2 ^ d.esz

end CopyDesc

/-- The index of an element in its Morton tile from (log2 side, coordinate) pairs in the order x, y, z (R212). -/
def mortonIdx (dims : List (Nat × Nat)) : Nat :=
  ((List.range 16).foldl (fun acc i =>
    dims.foldl (fun acc p =>
      if i < p.1 then (acc.1 + p.2 / 2 ^ i % 2 * 2 ^ acc.2, acc.2 + 1) else acc) acc) ((0, 0) : Nat × Nat)).1

/-- The offset of element (x, y, z) from a side's base (R212). -/
def sideOff (lay e : Nat) (sy sz : Int) (lx ly lz x y z : Nat) : Int :=
  if lay = 0 then (x * e : Nat) + y * sy + z * sz
  else
    ((x / 2 ^ lx) * 2 ^ (lx + ly + lz) * e : Nat) + (y / 2 ^ ly : Nat) * sy + (z / 2 ^ lz : Nat) * sz +
      (mortonIdx [(lx, x % 2 ^ lx), (ly, y % 2 ^ ly), (lz, z % 2 ^ lz)] * e : Nat)

/-- The offsets along one dimension: the least, the greatest, and whether all are multiples of e. Offsets of the three
dimensions add. -/
def dimRange (lay e n : Nat) (off : Nat → Int) : Int × Int × Bool :=
  if lay = 0 then
    let last := off (n - 1)
    (min 0 last, max 0 last, decide (n ≤ 1) || decide (off 1 % e = 0))
  else
    (List.range n).foldl (fun acc i =>
      let o := off i
      (min acc.1 o, max acc.2.1 o, acc.2.2 && decide (o % e = 0))) (0, 0, true)

/-- A side of a command: whether it is local, its base, element size, layout and strides. -/
structure Side where
  isLocal : Bool
  base : Nat
  e : Nat
  lay : Nat
  sy : Int
  sz : Int
deriving DecidableEq, Repr

namespace CopyDesc

def sideBase (a : W64) : Nat := if a.getLsbD 63 then bits a 31 0 else a.toNat

def srcSide (d : CopyDesc) : Side := ⟨d.src.getLsbD 63, sideBase d.src, d.srcSize, d.slay, d.ssy, d.ssz⟩
def dstSide (d : CopyDesc) : Side := ⟨d.dst.getLsbD 63, sideBase d.dst, d.dstSize, d.dlay, d.dsy, d.dsz⟩

def off (d : CopyDesc) (s : Side) (x y z : Nat) : Int := sideOff s.lay s.e s.sy s.sz d.lx d.ly d.lz x y z

/-- The bytes a side covers, [lo, hi), and whether every element is aligned (R214). -/
def range (d : CopyDesc) (s : Side) : Int × Int × Bool :=
  let rx := dimRange s.lay s.e d.ex fun i => d.off s i 0 0
  let ry := dimRange s.lay s.e d.ey fun i => d.off s 0 i 0
  let rz := dimRange s.lay s.e d.ez fun i => d.off s 0 0 i
  ((s.base : Int) + rx.1 + ry.1 + rz.1, (s.base : Int) + rx.2.1 + ry.2.1 + rz.2.1 + s.e,
    decide (s.base % s.e = 0) && rx.2.2 && ry.2.2 && rz.2.2)

/-- The address of the element with an index in copy order (R212). -/
def addr (d : CopyDesc) (s : Side) (i : Nat) : Nat :=
  ((s.base : Int) + d.off s (i % d.ex) (i / d.ex % d.ey) (i / (d.ex * d.ey))).toNat

/-- Whether layouts and Morton sides are bad (R214). -/
def layoutBad (d : CopyDesc) : Bool :=
  decide (2 < d.slay) || decide (2 < d.dlay) ||
  (if d.slay = 0 ∧ d.dlay = 0 then decide (d.lx ≠ 0 ∨ d.ly ≠ 0 ∨ d.lz ≠ 0)
   else decide (16 < d.lx + d.ly + d.lz) || (decide (d.slay = 1 ∨ d.dlay = 1) && decide (d.lz ≠ 0)))

/-- Whether the formats of a CPY are bad (R213). -/
def formatBad (d : CopyDesc) : Bool :=
  if d.converts then decide (d.esz ≠ 0) || decide (width d.fin = 0) || decide (width d.fout = 0)
  else decide (12 < d.fin) || decide (4 < d.esz)

/-- Whether FIN and FOUT match a shipped routine's row (Table 10.11); a loaded routine has none, and any format codes
(R213) serve. -/
def routineFormats (d : CopyDesc) : Bool :=
  match d.rid with
  | 1 => decide (d.fin = 0 ∧ d.fout = 6)
  | 2 => decide (d.fin = 6 ∧ (d.fout = 0 ∨ d.fout = 1))
  | 3 => decide (d.fin = 0 ∧ d.fout = 5)
  | 4 | 5 => decide (d.fin = d.fout ∧ d.fin ≤ 12)
  | _ => decide (d.fin ≤ 12 ∧ d.fout ≤ 12)

/-- The element size of a CPYX destination: the format's byte width, 2^ESZ for a raw routine, and 1 where FOUT packs
several elements in a byte or a block, for which the manual names none (assumption log 21). -/
def outSize (d : CopyDesc) : Nat := if d.fin = d.fout then 2 ^ d.esz else max 1 (width d.fout)

/-- Elements in bytes of output (R227). -/
def delivered (d : CopyDesc) (n : Nat) : Nat :=
  if d.fin = d.fout then n / 2 ^ d.esz
  else match d.fout with
    | 5 => n / 24 * 32
    | 6 => n / 8512 * 16384
    | 11 => n * 2
    | f => n / max 1 (width f)

end CopyDesc

/-- A completion word's check: its alignment, then its place in the window (R215). -/
def cwoBad (size : Nat) (cwo : W32) : Option Nat :=
  if cwo = 0 then none
  else if cwo.toNat % 4 ≠ 0 then some 3
  else if size < cwo.toNat + 4 then some 4
  else none

/-- The lowest code among checks that fail, 0 where none does (R214). -/
def lowestCode (checks : List (Nat × Bool)) : Nat :=
  ((checks.filter (·.2)).map (·.1)).foldl (fun m c => if m = 0 ∨ c < m then c else m) 0

/-- Whether a global byte range is outside the write ranges of a flock (R320). -/
def rangeBad (rs : List WriteRange) (flock a n : Nat) : Bool :=
  match accessOwner rs flock a n with
  | .own | .shared => false
  | _ => true

/-- Whether a destination of a copy has a byte outside the write ranges. -/
def CopyDesc.destBad (d : CopyDesc) (rs : List WriteRange) (flock : Nat) : Bool :=
  let s := d.dstSide
  !s.isLocal && (List.range d.total).any fun i => rangeBad rs flock (d.addr s i) s.e

/-- The checks of a CPY or CPYI before any access (R214); `det` gives the write ranges of a deterministic launch. With an
extent of 0 there is no element, and so no address that could fail alignment, window or width (assumption log 73). -/
def CopyDesc.check (d : CopyDesc) (size flock : Nat) (det : Option (List WriteRange)) : Nat :=
  let early := lowestCode [(1, d.badZero), (2, d.layoutBad), (3, d.formatBad || d.badSize)]
  if early ≠ 0 then early
  else
    let rs := d.range d.srcSide
    let rd := d.range d.dstSide
    let some_ := decide (d.total ≠ 0)
    let out (r : Int × Int × Bool) (s : Side) : Bool :=
      some_ && s.isLocal && (decide (r.1 < 0) || decide ((size : Int) < r.2.1))
    let wide (r : Int × Int × Bool) (s : Side) : Bool :=
      some_ && !s.isLocal && (decide (r.1 < 0) || decide ((2 ^ 48 : Int) < r.2.1))
    lowestCode
      [(3, (some_ && (!rs.2.2 || !rd.2.2)) || decide (cwoBad size d.cwo = some 3)),
       (4, out rs d.srcSide || out rd d.dstSide || decide (cwoBad size d.cwo = some 4)),
       (5, wide rs d.srcSide || wide rd d.dstSide),
       (8, match det with
        | some ranges => !(wide rd d.dstSide) && d.destBad ranges flock
        | none => false),
       (9, decide (d.rid ≠ 0) || decide (d.arg ≠ 0))]

/-- The checks of a CPYX that need no output (R214, R227). -/
def CopyDesc.checkX (d : CopyDesc) (size : Nat) (loaded : Bool) : Nat :=
  let early := lowestCode
    [(1, d.badZero), (2, d.layoutBad || decide (d.dlay ≠ 0) || decide (d.dsy ≠ 0) || decide (d.dsz ≠ 0)),
     (3, decide (4 < d.esz) || !d.routineFormats)]
  if early ≠ 0 then early
  else
    let s : Side := ⟨d.src.getLsbD 63, sideBase d.src, 2 ^ d.esz, d.slay, d.ssy, d.ssz⟩
    let r := d.range s
    let some_ := decide (d.total ≠ 0)
    let dl := d.dst.getLsbD 63
    lowestCode
      [(3, (some_ && (!r.2.2 || decide (sideBase d.dst % d.outSize ≠ 0))) || decide (cwoBad size d.cwo = some 3)),
       (4, (some_ && ((s.isLocal && (decide (r.1 < 0) || decide ((size : Int) < r.2.1))) ||
         (dl && decide (size < sideBase d.dst)))) || decide (cwoBad size d.cwo = some 4)),
       (5, some_ && ((!s.isLocal && (decide (r.1 < 0) || decide ((2 ^ 48 : Int) < r.2.1))) ||
         (!dl && decide (2 ^ 48 ≤ sideBase d.dst)))),
       (9, !loaded)]

/-! Collective descriptors (Table 10.9). -/

structure CollDesc where
  src : W64
  dst : W64
  count : Nat
  root : Nat
  op : Nat
  fmt : Nat
  mask : W64
  cwo : W32
  cwv : W32
  cid : W32
  badZero : Bool
deriving DecidableEq, Repr

def parseColl (ws : List W32) : CollDesc :=
  let w := wordAt ws
  { src := dwordAt ws 0, dst := dwordAt ws 2, count := (w 4).toNat, root := wbits (w 5) 15 8, op := wbits (w 5) 7 4,
    fmt := wbits (w 5) 3 0, mask := dwordAt ws 6, cwo := w 8, cwv := w 9, cid := w 10,
    badZero := decide (wbits (w 5) 31 16 ≠ 0) || ([11, 12, 13, 14, 15].any fun i => decide (w i ≠ 0)) ||
      localZeroBad (dwordAt ws 2) }

/-- Members of a mask below a domain number. -/
def maskRank (mask : W64) (n : Nat) : Nat := ((List.range 64).filter fun i => mask.getLsbD i && decide (i < n)).length
def maskCount (mask : W64) : Nat := maskRank mask 64

namespace CollDesc

def e (d : CollDesc) : Nat := max 1 (CopyDesc.width d.fmt)
/-- Elements a member reads and writes (Table 10.14). -/
def reads (d : CollDesc) (op : CcollOp) (rank : Nat) : Nat :=
  match op with
  | .allreduce | .allgather => d.count
  | .redscatter => maskCount d.mask * d.count
  | .bcast => if rank = d.root then d.count else 0
def writes (d : CollDesc) (op : CcollOp) : Nat :=
  match op with
  | .allgather => maskCount d.mask * d.count
  | _ => d.count

/-- The checks of a collective (R225, as R214). A BCAST ignores SRC but at ROOT (Table 10.14). -/
def check (d : CollDesc) (op : CcollOp) (rank size flock : Nat) (det : Option (List WriteRange)) : Nat :=
  let ignored := decide (op = .bcast) && decide (rank ≠ d.root)
  let early := lowestCode [(1, d.badZero || decide (2 < d.op) || (localZeroBad d.src && !ignored)),
    (3, !([0, 1, 2, 10].contains d.fmt))]
  if early ≠ 0 then early
  else
    let side (a : W64) (n : Nat) : Bool × Bool × Bool :=
      let b := CopyDesc.sideBase a
      let l := a.getLsbD 63
      (decide (n ≠ 0 ∧ b % d.e ≠ 0), l && decide (n ≠ 0 ∧ size < b + n * d.e), !l && decide (n ≠ 0 ∧ 2 ^ 48 < b + n * d.e))
    let r := side d.src (d.reads op rank)
    let w := side d.dst (d.writes op)
    lowestCode
      [(3, r.1 || w.1 || decide (cwoBad size d.cwo = some 3)),
       (4, r.2.1 || w.2.1 || decide (cwoBad size d.cwo = some 4)),
       (5, r.2.2 || w.2.2),
       (8, match det with
        | some ranges => !d.dst.getLsbD 63 && !w.2.2 && decide (d.writes op ≠ 0) &&
            rangeBad ranges flock (CopyDesc.sideBase d.dst) (d.writes op * d.e)
        | none => false)]

end CollDesc

end Sys2Proof.Machine
end

