-- ==== Sys2Proof/Machine/Transform.lean ====
section
/-!
DEFINITION. The transform cores of a core (R226): their stream descriptors, the rings through which the copy engine feeds a
loaded routine and drains it, and what the routine's own instructions change, which RISC-V defines and an input gives
(assumption log 45).
-/
namespace Sys2Proof.Machine

/-- Bytes of a transform core's data memory and of its instruction memory (R226). -/
def xDataSize : Nat := 0x20000
def xCodeSize : Nat := 0x10000

/-! Where the streams lie in data memory at entry (assumption log 60). -/

def xIn : Nat := 0
def xOut : Nat := 0x20
def xRing : Nat := 0x4000

/-- A stream descriptor's bytes (Table 10.10) with nothing produced or consumed. -/
def streamDesc (base tags : Nat) : List Byte :=
  valueBytes 8 base ++ valueBytes 4 xRing ++ valueBytes 4 tags ++ valueBytes 16 0

/-- The registers at a routine's entry: a0 to a3, every other zero (R226, assumption log 60). -/
def XRegs.entry (arg : Nat) (policy : Bool) : XRegs :=
  { pc := 0, x := AL.set 0 (AL.set 0 (AL.set 0 (AL.set 0 [] 10 (BitVec.ofNat 64 xIn)) 11 (BitVec.ofNat 64 xOut)) 12
      (BitVec.ofNat 64 arg)) 13 (if policy then 1 else 0),
    f := [], v := [], csr := [] }

/-- A transform core at a routine's entry, its data memory holding the two descriptors. -/
def XCore.enter (code : List Byte) (arg : Nat) (policy : Bool) (cyc : Nat) : XCore :=
  let data := Mem.writeBytes (Mem.writeBytes [] xIn (streamDesc 0x10000 0x18000)) xOut (streamDesc 0x14000 0x1A000)
  let regs := XRegs.entry arg policy
  { code := code, data := data, regs := regs, point := (data, regs), moved := cyc }

namespace XCore

/-! A stream descriptor's fields (Table 10.10). -/

def field (x : XCore) (d off n : Nat) : Nat := Mem.readNat x.data (d + off) n
def setField (x : XCore) (d off v : Nat) : XCore := { x with data := Mem.writeNat x.data (d + off) 4 v }
def base (x : XCore) (d : Nat) : Nat := x.field d 0 8
def size (x : XCore) (d : Nat) : Nat := x.field d 8 4
def tagBase (x : XCore) (d : Nat) : Nat := x.field d 12 4
def head (x : XCore) (d : Nat) : Nat := x.field d 16 4
def tail (x : XCore) (d : Nat) : Nat := x.field d 20 4
/-- Bytes in a ring: head less tail, modulo 2^32. -/
def held (x : XCore) (d : Nat) : Nat := (x.head d + 2 ^ 32 - x.tail d) % 2 ^ 32

/-- Whether a ring has room for n bytes more. -/
def roomFor (x : XCore) (d n : Nat) : Bool := decide (x.held d + n ≤ x.size d)

/-- Where byte i of a stream, and the tag of its word, lie. -/
def at_ (x : XCore) (d i : Nat) : Nat := x.base d + i % max 1 (x.size d)
def tagAt (x : XCore) (d i : Nat) : Nat := x.tagBase d + 2 * (i / 4 % max 1 (x.size d / 4))

/-- Append bytes with their tags to a ring. -/
def push (x : XCore) (d : Nat) (l : List (Byte × Tag)) : XCore :=
  l.foldl (fun x b =>
    let h := x.head d
    ({ x with data := Mem.writeNat (Mem.write x.data (x.at_ d h) b.1) (x.tagAt d h) 2 b.2.toNat } : XCore).setField d 16 (h + 1)) x

/-- The first bytes of a ring with their tags. -/
def front (x : XCore) (d n : Nat) : List (Byte × Tag) :=
  (List.range (min n (x.held d))).map fun i =>
    (Mem.read x.data (x.at_ d (x.tail d + i)), BitVec.ofNat 16 (Mem.readNat x.data (x.tagAt d (x.tail d + i)) 2))

/-- Take n bytes from a ring. -/
def take (x : XCore) (d n : Nat) : XCore := x.setField d 20 (x.tail d + n)

/-- Set END of the input stream. -/
def setEnd (x : XCore) : XCore := x.setField xIn 24 1

/-- What the routine's instructions have changed: none where they left data memory, which is a fault (R226). -/
def run (x : XCore) (u : XUpdate) (cyc : Nat) : Option XCore :=
  if u.data.any fun w => decide (xDataSize ≤ w.1) then none
  else
    let y : XCore := { x with
      data := u.data.foldl (fun m w => Mem.write m w.1 w.2) x.data,
      regs := { pc := u.pc, x := u.x.foldl (fun a r => if r.1 = 0 then a else AL.set 0 a r.1 r.2) x.regs.x,
                f := u.f.foldl (fun a r => AL.set 0 a r.1 r.2) x.regs.f, v := u.v.foldl (fun a r => AL.set 0 a r.1 r.2) x.regs.v,
                csr := u.csr.foldl (fun a r => AL.set 0 a r.1 r.2) x.regs.csr } }
    some (if y.tail xIn ≠ x.tail xIn ∨ y.head xOut ≠ x.head xOut then { y with moved := cyc } else y)

/-- A restart point: what the routine's core holds now (R218). -/
def mark (x : XCore) : XCore := { x with point := (x.data, x.regs) }
/-- The routine goes back to its restart point. -/
def back (x : XCore) (cyc : Nat) : XCore := { x with data := x.point.1, regs := x.point.2, moved := cyc }

end XCore

end Sys2Proof.Machine
end

