-- ==== Sys2Proof/Machine/Copy.lean ====
section
/-!
DEFINITION. The copy engine (R207 to R235): issue and batches, the streams of elements, transform routines, multicast and
collectives, and what a command does when it finishes.
-/
namespace Sys2Proof.Machine

/-! Global accesses of engines. -/

/-- What an engine's access meets: a page, a fault for the service, or an error code of Table 10.3. -/
inductive EngAcc where
  | ok (pa tier : Nat) (tagged : Bool)
  | wait (t : Trans)
  | err (code : Nat)
deriving DecidableEq, Repr

namespace State

/-- Translate and check an engine's access of n bytes to a memory below a tier, from which on the access is not permitted
(R217, R334, R349, R354); peer memory needs a link that is up (R350). -/
def engineAccessBelow (s : State) (top loc fn va n : Nat) (kind : AccKind) : EngAcc × State :=
  match s.translate loc fn (BitVec.ofNat 64 va) kind with
  | (.ok pa tier _ tagged, s1) =>
    if top ≤ tier then (.err 7, s1)
    else if tier = 3 ∧ s1.anyLink = false then (.err 0x0D, s1)
    else
      match s1.physCheck fn pa tier n tagged (decide (kind = .write) && decide (pa % 64 = 0) && decide (n % 64 = 0)) with
      | (.ok, s2) => (.ok (s2.routed fn pa) tier tagged, s2.countSent tier)
      | (.filtered, s2) => (.err 7, s2)
      | (.poisoned, s2) => (.err 0x0E, s2)
  | (.access _, s1) => (.err 7, s1)
  | (t, s1) => (.wait t, s1)

/-- An engine's access: an atomic one reaches neither host nor peer memory (R169, R334). -/
def engineAccess (s : State) (loc fn va n : Nat) (kind : AccKind) : EngAcc × State :=
  s.engineAccessBelow (if kind = .atomic then 2 else 4) loc fn va n kind

/-- Whether the partition of a launch is stopping. -/
def stopping (s : State) (launch : Nat) : Bool :=
  match s.launch? launch with
  | some l => (AL.get Part.fresh s.parts l.part).stop.any (·.sent)
  | none => false

/-- Whether a launch's engines may work: it runs and its partition is not stopping. -/
def engineRuns (s : State) (launch : Nat) : Bool :=
  match s.launch? launch with
  | some l => l.running && !s.stopping launch
  | none => false

/-! Commands of a core. -/

def copyCmd? (s : State) (core id : Nat) : Option CopyCmd := (s.core core).copy.find? fun c => decide (c.id = id)
def modCmd (s : State) (core id : Nat) (f : CopyCmd → CopyCmd) : State :=
  s.modCore core fun k => { k with copy := updateWhere (fun c => decide (c.id = id)) f k.copy }

/-- The tag a rule gives in a command: its thread's TAGMODE at issue, the issuing word's site and group (R220). -/
def cmdTag (s : State) (core : Nat) (c : CopyCmd) (w : TagWant) : Tag × State :=
  match w with
  | .fixed t => (t, s)
  | .born => s.born core c.launch c.tid.g c.logical c.first c.site
  | .rule srcs doms raised =>
    match tagrule c.tagmode srcs doms raised with
    | some t => (t, s)
    | none => s.born core c.launch c.tid.g c.logical c.first c.site

/-- The flock's write ranges where its launch is deterministic (R320). -/
def detRanges (s : State) (launch : Nat) : Option (List WriteRange) :=
  match s.launch? launch with
  | some l => if l.rec_.det then some l.rec_.ranges else none
  | none => none

/-! Issue (R207, R209 to R211). -/

/-- ISSUE_RIGHTS: only the flock's bellwether group issues copy commands (R207). -/
def hasRights (s : State) (c : IssueCtx) (l : LaneRef) : Bool :=
  match s.group? l.g, s.launch? c.launch with
  | some g, some la => decide (g.gidx = la.rec_.bell)
  | _, _ => false

def noRights (s : State) (c : IssueCtx) (l : LaneRef) (tags : Tags3) : State :=
  s.trapLane c l 0x11 (BitVec.ofNat 32 (bits c.word 47 40)) 0 tags 0

/-- SEAL for a thread (R209): the batch is counted in COPY under its number, and is finished if all its members are. -/
def sealBatch (s : State) (core : Nat) (t : ThreadId) : State :=
  match s.thread? t with
  | none => s
  | some th =>
    let (id, s0) := if th.batch.count = 0 then (s.nextUid, { s with nextUid := s.nextUid + 1 }) else (th.batch.openId, s)
    let err := th.batch.err
    let s1 := (s0.startOp t .copy id).modThread t fun x =>
      { x with
        batch := { BatchSt.fresh with next := x.batch.next + 1 },
        outs := updateWhere (fun o => decide (o.id = id)) (fun o => { o with err := err }) x.outs }
    if (s1.core core).copy.any fun c => decide (c.batch = some id) then s1 else s1.finishOp t id err

/-- Join a thread's open batch, sealing it first at 255 commands (R209, R210): the batch's number. -/
def joinBatch (s : State) (core : Nat) (t : ThreadId) : Nat × State :=
  match s.thread? t with
  | none => (0, s)
  | some th =>
    let s1 := if 255 ≤ th.batch.count then s.sealBatch core t else s
    match s1.thread? t with
    | none => (0, s1)
    | some th =>
      if th.batch.count = 0 then
        let id := s1.nextUid
        (id, ({ s1 with nextUid := id + 1 }).modThread t fun x => { x with batch := { x.batch with openId := id, count := 1 } })
      else (th.batch.openId, s1.modThread t fun x => { x with batch := { x.batch with count := x.batch.count + 1 } })

/-- Put a command in the engine's queue (R208). A batch member joins its batch; any other raises COLL. -/
def queueCopy (s : State) (c : IssueCtx) (l : LaneRef) (kind : CopyKind) (scope : Scope) (member : Bool)
    (args : Option (List W32)) : Nat × State :=
  match s.launch? c.launch, s.flockOf? l.g, s.group? l.g with
  | some la, some f, some g =>
    let (b, s1) : Option Nat × State := if member then
      let (b, s1) := s.joinBatch c.core l.tid
      (some b, s1) else (none, s)
    let id := s1.nextUid
    let prior := ((s1.core c.core).copy.filter fun k => decide (k.tid = l.tid) && k.batch.isSome).map (·.id)
    let after := (s1.gaccs.filter fun a => decide (a.lane = l) && !a.unit && (match a.op with
      | .load _ => false
      | .readRecord _ => false
      | _ => true)).map (·.id)
    let cmd : CopyCmd :=
      { id := id, kind := kind, tid := l.tid, launch := c.launch, fn := la.fn, flock := f.uid, scope := scope, batch := b,
        tagmode := s1.tagModeOf l, site := s1.siteOf c, logical := g.logical, first := firstLane c l, pc := c.pc,
        args := args, after := after, prior := prior,
        earliest := max (c.cycle + Config.globalMin) (((s1.thread? l.tid).map fun t => t.lastScratch + 1).getD 0),
        started := none, next := 0, ahead := [], parts := [], xcore := 0, input := [], restart := (0, 0), output := none, status := 0, sent := 0, policy := true,
        asleep := false, own := none, code := none }
    let s2 := ({ s1 with nextUid := id + 1 }).modCore c.core fun k => { k with copy := k.copy ++ [cmd] }
    (id, if member then s2 else s2.startOp l.tid .coll id)
  | _, _, _ => (0, s)

/-- CPY, CPYX and CCOLL: the block is checked, then the right to issue (R194, R207), and its read queued (R211, R225). -/
def issueBlock (s : State) (c : IssueCtx) (l : LaneRef) (a : Reg) (kind : CopyKind) (scope : Scope) (member : Bool) : State :=
  let x := s.operand l a
  s.localAccess c l x.val 64 false (x.tag, 0, 0) fun s f =>
    if !s.hasRights c l then s.noRights c l (x.tag, 0, 0)
    else
      let (id, s1) := s.queueCopy c l kind scope member none
      s1.queueScratch c l f false x.val.toNat (.snap id) [] none (x.tag, 0, 0)

/-- The block read of a command at its point (R211). -/
def snapPoint (s : State) (a : ScratchAcc) (f : Flock) (id : Nat) : State :=
  s.modCmd a.core id fun c => { c with args := some ((List.range 16).map fun i => (f.word (a.addr + 4 * i)).val) }

end State

def execCpy (a : Reg) (scope : Scope) (s : State) : Host.Outcome State Fault Refusal :=
  eachThread s fun c s l => s.issueBlock c l a .cpy scope true
def execCpyx (a : Reg) (scope : Scope) (s : State) : Host.Outcome State Fault Refusal :=
  eachThread s fun c s l => s.issueBlock c l a .cpyx scope true
def execCpyi (d a b : Reg) (scope : Scope) (s : State) : Host.Outcome State Fault Refusal :=
  eachThread s fun c s l =>
    let n := s.operand l d
    let (x, xt) := s.pairOperand l a
    let (y, yt) := s.pairOperand l b
    if !s.hasRights c l then s.noRights c l (xt, yt, 0)
    else
      (s.queueCopy c l .cpyi scope true
        (some [n.val, x.setWidth 32, (x >>> 32).setWidth 32, y.setWidth 32, (y >>> 32).setWidth 32])).2
def execSeal (s : State) : Host.Outcome State Fault Refusal :=
  eachThread s fun c s l => if s.hasRights c l then s.sealBatch c.core l.tid else s.noRights c l (0, 0, 0)

/-- Whether a thread stands ready at EXIT or SUSPEND, but for the waits for counters and flags (R146, R164, R262), and whether
the word executes for it. -/
def State.leaveWord (s : State) (g : Group) (t : Thread) : Option Bool :=
  let cyc := s.cycle g.core
  if t.present && decide (t.sleep = .awake) && decide (t.nextIssue ≤ cyc) && t.stop.isNone then
    match s.launch? g.launch with
    | none => none
    | some l =>
      match (s.codeWord g.core g.launch t.pc).1 with
      | .access _ => none
      | .word w =>
        match decode l.rec_.regs w with
        | .ok (.full _ wait k kn i) =>
          let runs := (t.rf.landAll cyc).ksel ⟨k, kn⟩
          if (t.flags ||| t.cleared) &&& wait ≠ 0 then none
          else
            match i with
            | .exit => some runs
            | .suspend .. => if runs = true ∧ cyc + 3 ≤ t.lastScratch then none else some runs
            | _ => none
        | _ => none
  else none

/-- Whether the thread of a lane stands ready at EXIT or SUSPEND, which executes for it, but for those waits (R210): in a quad
region with every other member (R87). -/
def State.atLeave (s : State) (g : Group) (lane : Nat) (t : Thread) : Bool :=
  decide (s.leaveWord g t = some true) &&
  (match g.region lane with
   | some r => !r.members.contains lane || r.members.all fun m =>
     (g.lanes[m]?).any fun u => decide (u.pc = t.pc) && (s.leaveWord g u).isSome
   | none => true)

/-- AUTO_SEAL (R210): a thread at EXIT or SUSPEND with a non-empty open batch and COPY below 63 seals it. -/
def execAutoSeal (g lane : Nat) (s : State) : Host.Outcome State Fault Refusal :=
  match s.group? g, s.thread? ⟨g, lane⟩ with
  | some x, some t =>
    if s.atLeave x lane t && decide (t.batch.count ≠ 0 ∧ t.count .copy < 63) then .next (s.sealBatch x.core ⟨g, lane⟩) else .next s
  | _, _ => .next s

def execCbcast (d a b cc : Reg) (s : State) : Host.Outcome State Fault Refusal :=
  eachThread s fun c s l =>
    let v (r : Reg) := (s.operand l r).val
    let tags : State.Tags3 := ((s.operand l a).tag, (s.operand l b).tag, (s.operand l cc).tag)
    if !s.hasRights c l then s.noRights c l tags
    else (s.queueCopy c l .cbcast .flk false (some [v d, v a, v b, v cc])).2
def execCcoll (op : CcollOp) (a : Reg) (scope : Scope) (s : State) : Host.Outcome State Fault Refusal :=
  eachThread s fun c s l => s.issueBlock c l a (.ccoll op) scope false

/-! What a command may do now. -/

/-- Whether a command works: a multicast goes on through a stop, and a collective also while it is switched out (R219). -/
def CopyCmd.mayRun (s : State) (c : CopyCmd) : Bool :=
  match s.launch? c.launch with
  | some l => match c.kind with
    | .ccoll _ => true
    | .cbcast => l.running
    | _ => l.running && !s.stopping c.launch
  | none => false

/-- The description of a CPY, CPYX or CPYI. -/
def CopyCmd.desc (c : CopyCmd) : CopyDesc :=
  match c.kind with
  | .cpyi => parseCpyi (c.args.getD [])
  | _ => parseBlock (c.args.getD [])

/-- The completion word and value of a command. -/
def CopyCmd.cw (c : CopyCmd) : W32 × W32 :=
  match c.kind with
  | .cpyi | .cbcast => (0, 0)
  | .ccoll _ => let d := parseColl (c.args.getD []); (d.cwo, d.cwv)
  | _ => (c.desc.cwo, c.desc.cwv)

/-- Transform cores in use on a core: a routine keeps one from its start until its command finishes. -/
def transformBusy (l : List CopyCmd) : Nat := l.countP fun c => decide (c.kind = .cpyx) && c.started.isSome

namespace State

/-- The rectangle of a CBCAST: its targets' cores in row-major order, none where it leaves the field (R233). -/
def castTargets (s : State) (c : CopyCmd) : Option (List Nat) :=
  match s.launch? c.launch with
  | none => none
  | some l =>
    let r := wordAt (c.args.getD []) 3
    let x := wbits r 7 0
    let y := wbits r 15 8
    let w := wbits r 23 16
    let h := wbits r 31 24
    if w = 0 ∨ h = 0 ∨ l.rec_.w < x + w ∨ l.rec_.h < y + h then none
    else some ((List.range (w * h)).map fun i => coreAt (l.x0 + x + i % w) (l.y0 + y + i / w))

/-- The checks of a CBCAST (R233). -/
def castCheck (s : State) (c : CopyCmd) (size : Nat) : Nat :=
  let v (i : Nat) : Nat := (wordAt (c.args.getD []) i).toNat
  lowestCode
    [(2, (s.castTargets c).isNone), (3, decide (v 0 % 4 ≠ 0)),
     (4, decide (v 1 % 4 ≠ 0) || decide (v 2 % 4 ≠ 0) || decide (size < v 1 + v 2) ||
       (decide (v 0 ≠ 0) && (decide (size < v 0 + 4) || decide (v 1 ≤ v 0 ∧ v 0 < v 1 + v 2))))]

/-- A collective whose mask leaves its own module out ends in error with a code the manual does not give (assumption log
5). -/
def collCheck (s : State) (c : CopyCmd) (op : CcollOp) (size flock : Nat) : Nat × State :=
  let d := parseColl (c.args.getD [])
  let code := d.check op (maskRank d.mask s.domain) size flock (s.detRanges c.launch)
  if code = 0 ∧ d.mask.getLsbD s.domain = false then
    let (w, s1) := s.openWord c.launch (State.collSource flock)
    (1 + w.toNat % 14, s1)
  else (code, s)

/-- The checks of a command at its start (R214): its error code, 0 where all pass. -/
def startCheck (s : State) (c : CopyCmd) (f : Flock) : Nat × State :=
  match c.kind with
  | .cpy | .cpyi => (c.desc.check f.size f.idx (s.detRanges c.launch), s)
  | .cpyx =>
    let d := c.desc
    (d.checkX f.size (decide (1 ≤ d.rid ∧ d.rid ≤ 5) || s.routines.contains d.rid), s)
  | .cbcast => (s.castCheck c f.size, s)
  | .ccoll op => s.collCheck c op f.size f.idx

/-- Whether the head of what is not started may start (R208): it has been read, its thread's earlier scratchpad accesses
have passed their points (R182), fewer than four have started and not finished, and a CPYX has a transform core. Of streams
that a stop request keeps at their checkpoints, only a multicast takes no notice, which must drain before the core halts
(R219): it starts where fewer than four go on, and finishes before the others can. DESIGN CHOICE: the four are counted for each
queue by itself, the core's own and each saved context's (assumption log 83). -/
def startable (s : State) (core : Nat) : Option CopyCmd :=
  let q := (s.core core).copy
  let kept := q.countP fun k => k.started.isSome
  let going := q.countP fun k => k.started.isSome && k.mayRun s
  match q.find? fun c => c.started.isNone && c.mayRun s && (decide (c.kind = .cbcast) || decide (kept < 4 ∨ kept = going)) with
  | none => none
  | some c =>
    if c.args.isSome && decide (c.earliest ≤ s.cycle core) &&
        decide ((if c.kind = .cbcast then going else kept) < 4) &&
        (!decide (c.kind = .cpyx) || decide (transformBusy q < 2)) then some c
    else none

/-- The lower transform core that no command uses. -/
def freeTransform (q : List CopyCmd) : Nat :=
  if q.any fun c => decide (c.kind = .cpyx ∧ c.xcore = 0) && c.started.isSome then 1 else 0

/-- Start the next command of a core's queue, with its checks. A command with an extent of 0 has nothing to do (R214). -/
def startCopy (s : State) (core : Nat) : State :=
  match s.startable core with
  | none => s
  | some c =>
    match s.flock? c.flock with
    | none => s
    | some f =>
      let (code, s1) := s.startCheck c f
      let empty := match c.kind with
        | .cpy | .cpyi | .cpyx => decide (c.desc.total = 0)
        | .cbcast => false
        | .ccoll _ => decide ((parseColl (c.args.getD [])).count = 0)
      s1.modCmd core c.id fun k =>
        { k with
          started := some (s1.timestamp (dieOf core)),
          xcore := freeTransform (s.core core).copy,
          code := if code ≠ 0 then some code else if empty then some 0 else none }

/-! Commands of a switched-out partition (R219). -/

/-- Do something to a saved context's cores, flocks and threads, as if they were the machine's. A flock's scratchpad so holds
what a collective writes before its first restored word issues (R205, R219). -/
def inContext (s : State) (k : Nat) (f : State → State) : State :=
  match s.contexts[k]? with
  | none => s
  | some c =>
    let v := f { s with cores := c.cores, flocks := c.flocks, groups := c.groups }
    { v with
      cores := s.cores, flocks := s.flocks, groups := s.groups,
      contexts := updateAt v.contexts k fun x => { x with cores := v.cores, flocks := v.flocks, groups := v.groups } }

/-- The saved context in which a core's next command may start: a collective's (R219). -/
def startAway (s : State) (core : Nat) : Option Nat :=
  (List.range s.contexts.length).find? fun k => (s.contexts[k]?).any fun (c : Context) =>
    ({ s with cores := c.cores }.startable core).any fun (x : CopyCmd) => c.flocks.any fun f => decide (f.uid = x.flock)

end State

/-- COPY_COMMAND_START (R208, R214, R219): the next command of the queue starts, or that of a collective which is switched
out. -/
def execCopyCommandStart (core : Nat) (s : State) : Host.Outcome State Fault Refusal :=
  if (s.startable core).isSome then .next (s.startCopy core)
  else match s.startAway core with
    | some k => .next (s.inContext k fun s => s.startCopy core)
    | none => .next s

/-! Elements. -/

/-- What one element's step came to. -/
inductive ElemStep where
  | moved | paused
  | failed (code : Nat)
deriving DecidableEq, Repr

namespace State

/-- Ask the fault service for a stream (R217). -/
def streamFault (s : State) (core : Nat) (c : CopyCmd) (va : Nat) (kind : AccKind) (t : Trans) : ElemStep × State :=
  let (asked, s1) := s.raiseFault c.fn (.copy core c.id) (BitVec.ofNat 64 va) (accCode kind) (faultReason t) 1 (coreX core)
    (coreY core)
  (if asked then .paused else .failed 6, s1)

/-- Read n bytes for a command: their value, and the tags of the words they lie in. Without a tag plane every word has the
site-only tag (R76). -/
def readSide (s : State) (core : Nat) (c : CopyCmd) (isLocal : Bool) (a n : Nat) :
    Except ElemStep (Nat × List Tag × Bool) × State :=
  if isLocal then
    match s.flock? c.flock with
    | some f => (.ok (Mem.readNat f.mem a n, (List.range (max 1 (n / 4))).map fun i => f.tagAt (a + 4 * i), true), s)
    | none => (.error (.failed 4), s)
  else
    match s.engineAccess (coreLoc core) c.fn a n .read with
    | (.ok pa tier tagged, s1) =>
      (.ok (Mem.readNat s1.mem pa n,
        (List.range (max 1 (n / 4))).map fun i => if tagged then s1.readTag tier (pa / 4 * 4 + 4 * i) else c.site, tagged), s1)
    | (.wait t, s1) => let (e, s2) := s1.streamFault core c a .read t; (.error e, s2)
    | (.err code, s1) => (.error (.failed code), s1)

/-- Write whole words for a command, to scratchpad or to a page. -/
def writeSideWords (s : State) (core : Nat) (c : CopyCmd) (isLocal : Bool) (a : Nat) (ws : List TW) : ElemStep × State :=
  if isLocal then (.moved, s.writeWords c.flock a ws)
  else
    match s.engineAccess (coreLoc core) c.fn a (4 * ws.length) .write with
    | (.ok pa tier tagged, s1) => (.moved, s1.gPuts pa tier tagged ws)
    | (.wait t, s1) => s1.streamFault core c a .write t
    | (.err code, s1) => (.failed code, s1)

/-- The word at a destination before a command writes part of it. -/
def oldWord (s : State) (c : CopyCmd) (isLocal : Bool) (pa tier : Nat) (tagged : Bool) (a : Nat) : TW :=
  if isLocal then
    match s.flock? c.flock with
    | some f => f.word a
    | none => TW.zero
  else s.gWord (pa / 4 * 4) tier tagged 0

end State

/-- How a command makes a word of its elements (R74, R220): of raw bytes, of elements converted to a format, or of elements
widened to one. -/
inductive PartKind where
  | raw
  | conv (fmt : Nat)
  | widen (fmt : Nat)
deriving DecidableEq, Repr

/-- Whether an element's bits in a word are special where the word is made so. -/
def PartKind.special (k : PartKind) (bits : Nat) : Bool :=
  match k with
  | .raw => false
  | .conv fmt | .widen fmt => (rawNum fmt bits).special

/-- The tag of a word of elements of e bytes of which a command has written those given by their places (R74, R220): its
elements in order, those written with their own tags and the others with the word's tag and value as the write finds them.
Raw bytes take the first non-null tag, and a word widened whole that of its first element. -/
def partWant (old : TW) (e : Nat) (kind : PartKind) (written : List (Nat × CopyElem)) : TagWant :=
  let elem (i : Nat) : CopyElem := match written.find? fun w => decide (w.1 = i) with
    | some w => w.2
    | none =>
      let bits := old.val.toNat / 2 ^ (8 * e * i) % 2 ^ (8 * e)
      ⟨bits, old.tag, kind.special bits, false⟩
  let all := (List.range (4 / e)).map elem
  match kind, decide (written.length = 4 / e) with
  | .raw, _ => .fixed (((all.find? fun x => decide (x.tag ≠ 0)).map (·.tag)).getD 0)
  | .widen _, true => .fixed (elem 0).tag
  | _, _ => .rule (all.map fun x => ⟨x.tag, x.special⟩) none (all.any (·.raised))

/-- The elements of a word that a command has written before, where the word stands as it left it. -/
def CopyCmd.writtenIn (c : CopyCmd) (a : Nat) (old : TW) : List (Nat × CopyElem) :=
  match c.parts.find? fun p => decide (p.a = a) with
  | some p => if p.left = old then p.els else []
  | none => []

/-- A command with a word written in part, or no longer so once all n elements of it are written. -/
def CopyCmd.notePart (n : Nat) (p : PartWord) (c : CopyCmd) : CopyCmd :=
  let others := c.parts.filter fun x => !decide (x.a = p.a)
  { c with parts := if p.els.length = n then others else others ++ [p] }

/-- How the words of a CPY or CPYI are made of its elements (R213, R220). -/
def CopyDesc.partKind (d : CopyDesc) : PartKind :=
  if !d.converts then .raw else if d.srcSide.e < d.dstSide.e then .widen d.fout else .conv d.fout

namespace State

/-- Write consecutive elements of fewer than 4 bytes that lie in one word, as one merge that derives the word's tag again
(R74, R180, R220). Elements that the command itself wrote before into the word, which no other agent has changed since,
count with their own tags (assumption log 72). -/
def writeSidePart (s : State) (core : Nat) (c : CopyCmd) (isLocal : Bool) (a e : Nat) (kind : PartKind)
    (es : List CopyElem) : ElemStep × State :=
  let base := a / 4 * 4
  let j := (a - base) / e
  let n := e * es.length
  let v := es.foldr (fun x acc => x.bits + 2 ^ (8 * e) * acc) 0
  let fresh := ((List.range es.length).zip es).map fun x => (j + x.1, x.2)
  let written (s : State) (pa tier : Nat) (tagged : Bool) : List (Nat × CopyElem) :=
    let before := c.writtenIn base (s.oldWord c isLocal pa tier tagged base)
    before.filter (fun w => !decide (j ≤ w.1 ∧ w.1 < j + es.length)) ++ fresh
  let tag (s : State) (pa tier : Nat) (tagged : Bool) : Tag × State :=
    s.cmdTag core c (partWant (s.oldWord c isLocal pa tier tagged base) e kind (written s pa tier tagged))
  let note (s0 s : State) (pa tier : Nat) (tagged : Bool) : State :=
    s.modCmd core c.id (CopyCmd.notePart (4 / e) ⟨base, s.oldWord c isLocal pa tier tagged base, written s0 pa tier tagged⟩)
  if isLocal then
    let (t, s1) := tag s 0 0 true
    (.moved, note s ((s1.modFlock c.flock fun f =>
      { f with mem := Mem.writeNat f.mem a n v, tags := AL.set 0 f.tags (a / 4) t }).wroteWord c.flock base) 0 0 true)
  else
    match s.engineAccess (coreLoc core) c.fn a n .write with
    | (.ok pa tier tagged, s1) =>
      let (t, s2) := tag s1 pa tier tagged
      (.moved, note s1 (s2.gBytes pa tier tagged (valueBytes n v) [t]) pa tier tagged)
    | (.wait tr, s1) => s1.streamFault core c a .write tr
    | (.err code, s1) => (.failed code, s1)

/-- The format slot's sat field (R56). -/
def slotSat (s : State) (launch slot : Nat) : Bool :=
  match s.launch? launch with
  | some l => Slot.sat (l.slot (BitVec.ofNat 3 slot))
  | none => false

/-- How many elements from one on go to consecutive places of one word of the destination and are written with it: those of
fewer than 4 bytes that follow it in copy order and have not been written ahead. -/
def destRun (c : CopyCmd) (d : CopyDesc) (i : Nat) : Nat :=
  let e := d.dstSide.e
  let a := d.addr d.dstSide i
  if 4 ≤ e then 1
  else ((List.range (4 / e)).takeWhile fun k =>
    decide (k = 0) || (decide (i + k < d.total ∧ d.addr d.dstSide (i + k) = a + k * e ∧ (a + k * e) / 4 = a / 4) &&
      !c.ahead.contains (i + k))).length

/-- Read the source of an element and convert it (R212, R213): the element, its whole words where it has any, and whether it
sets CERR.SAT. -/
def readElem (s : State) (core : Nat) (c : CopyCmd) (d : CopyDesc) (i : Nat) :
    Except ElemStep (CopyElem × List TW × Bool) × State :=
  let ss := d.srcSide
  match s.readSide core c ss.isLocal (d.addr ss i) ss.e with
  | (.error e, s1) => (.error e, s1)
  | (.ok (v, tags, _), s1) =>
    let t0 := tags.headD 0
    if !d.converts then
      (.ok (⟨v, t0, false, false⟩,
        (List.range (ss.e / 4)).map fun k => ⟨BitVec.ofNat 32 (v / 2 ^ (32 * k)), tags.getD k t0⟩, false), s1)
    else
      let num := rawNum d.fin v
      let (bits, exc) := match Elem.ofCode d.fout with
        | some f => encodeElem f (s1.slotSat c.launch d.slot) num
        | none => (0, Exc.none)
      let sat := decide (exc &&& Exc.ns ≠ 0) || (decide (exc &&& Exc.iv ≠ 0) && !num.isNan)
      (.ok (⟨bits, t0, num.special, decide (exc ≠ 0)⟩, [], sat), s1)

/-- Read elements from one on: as many as can be, and what the next one met. -/
def readElems (s : State) (core : Nat) (c : CopyCmd) (d : CopyDesc) :
    Nat → Nat → (List (CopyElem × List TW × Bool) × Option ElemStep) × State
  | _, 0 => (([], none), s)
  | i, n + 1 =>
    match s.readElem core c d i with
    | (.error e, s1) => (([], some e), s1)
    | (.ok x, s1) =>
      let ((xs, e), s2) := s1.readElems core c d (i + 1) n
      ((x :: xs, e), s2)

/-- The word of a converted element of 4 bytes: a widened one has its source word's tag (R74, R220). One that was 32 bits wide
keeps its source's tag too unless it raised, for which no rule names the tag (assumption log 61). -/
def wholeElem (s : State) (core : Nat) (c : CopyCmd) (d : CopyDesc) (x : CopyElem) : TW × State :=
  let (t, s1) := if x.raised && decide (d.srcSide.e = 4) then s.cmdTag core c (.rule [⟨x.tag, x.special⟩] none true) else (x.tag, s)
  (⟨BitVec.ofNat 32 x.bits, t⟩, s1)

/-- Move the elements of a CPY or CPYI from one on that go to one word (R212, R213, R220): how many have been moved. -/
def moveElem (s : State) (core : Nat) (c : CopyCmd) (d : CopyDesc) (i : Nat) : (ElemStep × Nat) × State :=
  let ds := d.dstSide
  let da := d.addr ds i
  match s.readElems core c d i (destRun c d i) with
  | ((x :: xs, _), s1) =>
    let (r, s2) :=
      if ds.e < 4 then
        s1.writeSidePart core c ds.isLocal da ds.e d.partKind ((x :: xs).map (·.1))
      else if d.converts then
        let (w, s2) := s1.wholeElem core c d x.1
        s2.writeSideWords core c ds.isLocal da [w]
      else s1.writeSideWords core c ds.isLocal da x.2.1
    match r with
    | .moved =>
      ((.moved, xs.length + 1),
        if (x :: xs).any fun y => y.2.2 then s2.modSys c.tid fun y => { y with cerrSat := true } else s2)
    | _ => ((r, 0), s2)
  | (([], e), s1) => ((e.getD .paused, 0), s1)

/-- Whether a command that releases may make its accesses (R224): earlier stores performed at its scope, earlier copies
finished. -/
def released (s : State) (core : Nat) (c : CopyCmd) : Bool :=
  (s.gaccs.all fun g => !c.after.contains g.id || (g.performed && !decide (c.scope = .sys))) &&
  ((s.core core).copy.all fun k => !c.prior.contains k.id)

/-! CBCAST (R233). -/

/-- Elements of a CBCAST: for each target its words, then its arrival word where one is named. -/
def castPer (c : CopyCmd) : Nat :=
  (wordAt (c.args.getD []) 2).toNat / 4 + (if wordAt (c.args.getD []) 0 = 0 then 0 else 1)

def castElem (s : State) (c : CopyCmd) (i : Nat) : State :=
  let per := castPer c
  let words := (wordAt (c.args.getD []) 2).toNat / 4
  match s.castTargets c, s.flock? c.flock with
  | some ts, some f =>
    match ts[i / per]? with
    | none => s
    | some core =>
      match s.flockAt? c.launch core f.slot with
      | none => s
      | some g =>
        let k := i % per
        if k < words then
          let a := (wordAt (c.args.getD []) 1).toNat + 4 * k
          s.writeWords g.uid a [f.word a]
        else
          let a := (wordAt (c.args.getD []) 0).toNat
          s.writeWords g.uid a [⟨(g.word a).val + 1, c.site⟩]
  | _, _ => s

/-! CCOLL (R225, R234). -/

end State

/-- A record or site-only tag from another module becomes the collective's own site-only tag (R234). -/
def foreignTag (site t : Tag) : Tag := if 0 < t.toNat ∧ t.toNat < 0xA000 then site else t

/-- One combine of a collective in its format (R234): the bits, what is raised, and the tag sources. -/
def collCombine (op fmt : Nat) (x y : TW) : W32 × TagWant :=
  if fmt = 10 then
    let v := if op = 0 then x.val + y.val
      else if op = 1 then (if y.val.toInt < x.val.toInt then y.val else x.val)
      else (if x.val.toInt < y.val.toInt then y.val else x.val)
    (v, .rule [intSrc x, intSrc y] (if op = 0 then some [intMag x, intMag y] else none) false)
  else
    let f : FFmt := if fmt = 0 then .fp32 else if fmt = 1 then .fp16 else .bf16
    let a := decodeF f x.val.toNat
    let b := decodeF f y.val.toNat
    let (v, e) := if op = 0 then Num.add a b else if op = 1 then fminPair a b else fmaxPair a b
    let (w, e2) := encodeF f false v
    (BitVec.ofNat 32 w,
      .rule [⟨x.tag, a.special⟩, ⟨y.tag, b.special⟩] (if op = 0 then some [⟨x.tag, a.abs⟩, ⟨y.tag, b.abs⟩] else none)
        (decide (e ||| e2 ≠ 0)))

namespace State

/-- The contributions of every rank of a collective, its own among them, once all have joined. -/
def collParts (s : State) (c : CopyCmd) : Option (List Join) :=
  let d := parseColl (c.args.getD [])
  let me := maskRank d.mask s.domain
  let opc := match c.kind with
    | .ccoll .allreduce => 0
    | .ccoll .redscatter => 1
    | .ccoll .allgather => 2
    | _ => 3
  let all := (List.range (maskCount d.mask)).filterMap fun r =>
    if r = me then some (⟨d.cid, d.mask, r, opc + 4 * d.op, d.fmt, BitVec.ofNat 32 d.count, d.root, c.own.getD []⟩ : Join)
    else
      (s.joins.find? fun j => decide (j.cid = d.cid ∧ j.mask = d.mask ∧ j.rank = r)).map fun j =>
        { j with data := j.data.map fun w => ⟨w.val, foreignTag c.site w.tag⟩ }
  if all.length = maskCount d.mask ∧ c.own.isSome then some all else none

/-- Whether members disagree (R234). -/
def collMismatch (ps : List Join) : Bool :=
  match ps with
  | [] => false
  | p :: qs => qs.any fun q => decide (q.op ≠ p.op ∨ q.fmt ≠ p.fmt ∨ q.count ≠ p.count ∨ q.root ≠ p.root)

/-- Reduce element i over the ranks in order (R234). -/
def collReduce (s : State) (core : Nat) (c : CopyCmd) (op fmt i : Nat) : List Join → TW → TW × State
  | [], acc => (acc, s)
  | p :: ps, acc =>
    let (v, want) := collCombine op fmt acc (p.data.getD i TW.zero)
    let (t, s1) := s.cmdTag core c want
    s1.collReduce core c op fmt i ps ⟨v, t⟩

/-- The value of destination element i (Table 10.14). DESIGN CHOICE: a BCAST whose ROOT names no member delivers zeros
(assumption log 74). -/
def collValue (s : State) (core : Nat) (c : CopyCmd) (ps : List Join) (i : Nat) : TW × State :=
  let d := parseColl (c.args.getD [])
  let me := maskRank d.mask s.domain
  match c.kind with
  | .ccoll .allgather => (((ps[i / d.count]?).map fun p => p.data.getD (i % d.count) TW.zero).getD TW.zero, s)
  | .ccoll .bcast => (((ps[d.root]?).map fun p => p.data.getD i TW.zero).getD TW.zero, s)
  | .ccoll .redscatter =>
    let k := me * d.count + i
    match ps with
    | p :: qs => s.collReduce core c d.op d.fmt k qs (p.data.getD k TW.zero)
    | [] => (TW.zero, s)
  | _ =>
    match ps with
    | p :: qs => s.collReduce core c d.op d.fmt i qs (p.data.getD i TW.zero)
    | [] => (TW.zero, s)

/-- Read the own contribution from an index on: elements with their words' tags. -/
def collReadAll (s : State) (core : Nat) (c : CopyCmd) (d : CollDesc) : Nat → Nat → List TW → (ElemStep × List TW) × State
  | 0, _, acc => ((.moved, acc), s)
  | n + 1, i, acc =>
    match s.readSide core c (d.src.getLsbD 63) (CopyDesc.sideBase d.src + i * d.e) d.e with
    | (.error e, s1) => ((e, acc), s1)
    | (.ok (v, tags, _), s1) => s1.collReadAll core c d n (i + 1) (acc ++ [⟨BitVec.ofNat 32 v, tags.headD 0⟩])

/-- Values of consecutive destination elements of a collective. -/
def collValues (s : State) (core : Nat) (c : CopyCmd) (ps : List Join) : Nat → Nat → List TW × State
  | _, 0 => ([], s)
  | i, n + 1 =>
    let (w, s1) := s.collValue core c ps i
    let (ws, s2) := s1.collValues core c ps (i + 1) n
    (w :: ws, s2)

/-- Write the destination elements of a collective from element i on that lie in one word: how many. The elements of a
reduction are packed by the element rule; a plain move is a raw copy and makes no birth (R74, R234). -/
def collWrite (s : State) (core : Nat) (c : CopyCmd) (op : CcollOp) (ps : List Join) (i : Nat) : (ElemStep × Nat) × State :=
  let d := parseColl (c.args.getD [])
  let a := CopyDesc.sideBase d.dst + i * d.e
  let n := if d.e = 4 then 1 else min ((4 - a % 4) / d.e) (d.writes op - i)
  let (ws, s1) := s.collValues core c ps i n
  let kind : PartKind := match op with
    | .allreduce | .redscatter => .conv d.fmt
    | _ => .raw
  let (r, s2) :=
    if d.e = 4 then s1.writeSideWords core c (d.dst.getLsbD 63) a ws
    else s1.writeSidePart core c (d.dst.getLsbD 63) a d.e kind
      (ws.map fun w => ⟨w.val.toNat, w.tag, kind.special w.val.toNat, false⟩)
  ((r, n), s2)

end State

end Sys2Proof.Machine
end

