-- ==== Sys2Proof/Machine/CopyRun.lean ====
section
/-!
DEFINITION. The progress of copy streams, transform routines, what partners of a collective send, and the end of a command
(R215 to R219, R226 to R235).
-/
namespace Sys2Proof.Machine

namespace State

/-- End a command's payload with a code, 0 for success. -/
def endCmd (s : State) (core id code : Nat) : State := s.modCmd core id fun c => { c with code := some code }

/-! Commands of a switched-out partition (R219). -/

/-- The saved context that holds a command, by its place among the contexts. -/
def ctxOf (s : State) (core id : Nat) : Option Nat :=
  (List.range s.contexts.length).find? fun k => (s.contexts[k]?).any fun c =>
    (AL.get CoreSt.fresh c.cores core).copy.any fun x => decide (x.id = id)

/-- Do something where a command is: on its core, or in the saved context that holds it. -/
def atCmd (s : State) (core id : Nat) (f : State → State) : State :=
  if (s.copyCmd? core id).isSome then f s
  else match s.ctxOf core id with
    | some k => s.inContext k f
    | none => s

/-! Elements and transform routines (R215, R226, R227). -/

/-- The elements of a CPY, CPYI or CBCAST that a step moves, and how many: those written ahead are passed over. -/
def payloadElem (s : State) (core : Nat) (c : CopyCmd) : (ElemStep × Nat) × State :=
  if c.ahead.contains c.next then ((.moved, 1), s)
  else match c.kind with
    | .cbcast => ((.moved, 1), s.castElem c c.next)
    | _ => s.moveElem core c c.desc c.next

/-- Whether a command's routine is a loaded one, whose code runs on a transform core. -/
def loadedRoutine (c : CopyCmd) : Bool := decide (c.kind = .cpyx) && !decide (1 ≤ c.desc.rid ∧ c.desc.rid ≤ 5)

def xcoreOf (s : State) (core : Nat) (c : CopyCmd) : XCore := AL.get XCore.idle (s.core core).xcores c.xcore
def modXcore (s : State) (core : Nat) (c : CopyCmd) (f : XCore → XCore) : State :=
  s.modCore core fun k => { k with xcores := AL.modify XCore.idle k.xcores c.xcore f }

/-- The source side of a CPYX: elements of 2^ESZ bytes (R227). -/
def routineSide (d : CopyDesc) : Side := ⟨d.src.getLsbD 63, CopyDesc.sideBase d.src, 2 ^ d.esz, d.slay, d.ssy, d.ssz⟩

/-- One source element of a CPYX into the routine's input (R226, R227). The page of the first tells whether the source has a
tag plane, whatever the pages of the others are (assumption log 21), and a loaded routine is entered with it; its
elements go through the input ring, END after the last. -/
def routineRead (s : State) (core : Nat) (c : CopyCmd) : ElemStep × State :=
  let d := c.desc
  let side := routineSide d
  match s.readSide core c side.isLocal (d.addr side c.next) side.e with
  | (.error e, s1) => (e, s1)
  | (.ok (v, tags, tagged), s1) =>
    let bytes := (List.range side.e).map fun k =>
      ((BitVec.ofNat 8 (v / 256 ^ k) : Byte), tags.getD (k / 4) (tags.headD 0))
    let policy := if c.next = 0 then tagged else c.policy
    if loadedRoutine c then
      let s2 := if c.next = 0 then
          s1.modXcore core c fun _ => XCore.enter (AL.get [] s1.images d.rid) d.arg policy (s1.cycle core)
        else s1
      (.moved, (s2.modXcore core c fun x =>
        let y := x.push xIn bytes
        if c.next + 1 = d.total then y.setEnd else y).modCmd core c.id fun x => { x with asleep := false, policy := policy })
    else
      (.moved, s1.modCmd core c.id fun x =>
        { x with input := x.input ++ bytes, asleep := false, policy := policy })

/-- Whether the next source element of a CPYX may be read: a loaded routine's input ring has room for it. -/
def routineRoom (s : State) (core : Nat) (c : CopyCmd) : Bool :=
  decide (c.next < c.desc.total) &&
  (!loadedRoutine c || decide (c.next = 0) || (s.xcoreOf core c).roomFor xIn (2 ^ c.desc.esz))

/-- The first bytes that stand to be sent of a routine's output, up to a word: of a loaded routine those in its output ring,
with the tags of its tag ring under policy 1 and the site-only tag under policy 0 (R226). -/
def routineOut (s : State) (core : Nat) (c : CopyCmd) : List (Byte × Tag) :=
  if loadedRoutine c then ((s.xcoreOf core c).front xOut 4).map fun b => (b.1, if c.policy then b.2 else c.site)
  else ((c.output.getD []).drop c.sent).take 4

/-- The checks of a routine's output of n bytes against its destination (R214): 0 where it passes. -/
def outputCheck (s : State) (c : CopyCmd) (n : Nat) : Nat :=
  let d := c.desc
  let b := CopyDesc.sideBase d.dst
  match s.flock? c.flock with
  | none => 4
  | some f =>
    if d.dst.getLsbD 63 then (if f.size < b + n then 4 else 0)
    else if 2 ^ 48 < b + n then 5
    else match s.detRanges c.launch with
      | some rs => if n ≠ 0 ∧ rangeBad rs f.idx b n then 8 else 0
      | none => 0

/-- Send the next piece of a routine's output, contiguous from DST: what of a word is there (R226). -/
def routineWrite (s : State) (core : Nat) (c : CopyCmd) (out : List (Byte × Tag)) : (ElemStep × Nat) × State :=
  let d := c.desc
  let a := CopyDesc.sideBase d.dst + c.sent
  let l := d.dst.getLsbD 63
  let piece := out.take (4 - a % 4)
  let (e, s1) :=
    if s.outputCheck c (c.sent + piece.length) ≠ 0 then (.failed (s.outputCheck c (c.sent + piece.length)), s)
    else if piece.length = 4 then
      s.writeSideWords core c l a [⟨BitVec.ofNat 32 (leNat (piece.map (·.1))), (piece.head?.map (·.2)).getD 0⟩]
    else s.writeSidePart core c l a 1 .raw (piece.map fun b => ⟨b.1.toNat, b.2, false, false⟩)
  ((e, piece.length), if loadedRoutine c && decide (e = .moved) then s1.modXcore core c fun x => x.take xOut piece.length else s1)

/-- Whether a piece of a routine's output can be sent: to the end of a word of the destination, or what is left once the
routine has returned. -/
def routineSends (s : State) (core : Nat) (c : CopyCmd) : Bool :=
  let out := s.routineOut core c
  let a := CopyDesc.sideBase c.desc.dst + c.sent
  !out.isEmpty && (c.output.isSome || (loadedRoutine c && decide (4 - a % 4 ≤ out.length)))

/-- One step of a collective that has been checked: read the own contribution, or write a result once every partner has
joined (R234). -/
def collStep (s : State) (core : Nat) (c : CopyCmd) (op : CcollOp) : ElemStep × State :=
  let d := parseColl (c.args.getD [])
  if c.own.isNone then
    match s.collReadAll core c d (d.reads op (maskRank d.mask s.domain)) 0 [] with
    | ((.moved, ws), s1) => (.moved, s1.modCmd core c.id fun k => { k with own := some ws })
    | ((e, _), s1) => (e, s1)
  else
    match s.collParts c with
    | none => (.paused, s)
    | some ps =>
      if collMismatch ps then (.failed 0x0C, s)
      else if d.writes op ≤ c.sent then (.moved, s.endCmd core c.id 0)
      else
        match s.collWrite core c op ps c.sent with
        | ((.moved, n), s1) => (.moved, s1.modCmd core c.id fun k => { k with sent := k.sent + n })
        | ((e, _), s1) => (e, s1)

/-- One step of a running command: none where it can do nothing now. -/
def copyStep (s : State) (core id : Nat) : Option State :=
  match s.copyCmd? core id with
  | none => none
  | some c =>
    if c.started.isNone || c.code.isSome || !c.mayRun s || s.waits c.fn (.copy core id) then none
    else
      let fin (r : ElemStep × State) (ok : State → State) : Option State :=
        match r with
        | (.moved, s1) => some (ok s1)
        | (.paused, s1) => if s1.waits c.fn (.copy core id) then some s1 else none
        | (.failed code, s1) => some (s1.endCmd core id code)
      let passed (n : Nat) (s1 : State) : State := s1.modCmd core id fun k =>
        { k with next := k.next + n, ahead := k.ahead.filter fun i => !decide (k.next ≤ i ∧ i < k.next + n) }
      let payload : Option State :=
        let ((e, n), s1) := s.payloadElem core c
        fin (e, s1) (passed n)
      match c.kind with
      | .ccoll op => fin (s.collStep core c op) id'
      | .cbcast =>
        let total := ((s.castTargets c).getD []).length * castPer c
        if total ≤ c.next then some (s.endCmd core id 0) else payload
      | .cpyx =>
        if c.desc.rel && !s.released core c then none
        else if s.routineSends core c then
          let ((e, n), s1) := s.routineWrite core c (s.routineOut core c)
          fin (e, s1) fun s2 => s2.modCmd core id fun k => { k with sent := k.sent + n }
        else if c.output.isSome then
          some (s.endCmd core id (if c.status = 0 then 0 else if c.status = 1 then 0x0A else 0x0B))
        else if s.routineRoom core c then fin (s.routineRead core c) (passed 1)
        else none
      | _ =>
        if c.desc.rel && !s.released core c then none
        else if c.desc.total ≤ c.next then some (s.endCmd core id 0)
        else payload
where
  /-- No change beside the step's own. -/
  id' (s : State) : State := s

/-- Whether a command's next step waits for the origin unit's reserve (R68). -/
def copyHeld (s : State) (core id : Nat) (step : State → State) : Bool :=
  match s.copyCmd? core id with
  | some c => s.birthHeld core c.launch step
  | none => false

/-- Up to n steps of a command of the machine's cores. -/
def copySteps (s : State) (core id : Nat) : Nat → State
  | 0 => s
  | n + 1 =>
    if s.copyHeld core id fun s => (s.copyStep core id).getD s then s
    else match s.copyStep core id with
      | some s1 => s1.copySteps core id n
      | none => s

/-- Up to n steps of a command, wherever it is. -/
def copyAdvance (s : State) (core id n : Nat) : State := s.atCmd core id fun s => s.copySteps core id n

/-- Whether a page at a command's address is SO, so that its elements go in order there (R221). -/
def sidePageSo (s : State) (core fn : Nat) (side : Side) (a : Nat) : Bool :=
  if side.isLocal then false
  else match (s.translate (coreLoc core) fn (BitVec.ofNat 64 a) .read).1 with
    | .ok _ _ kind _ => decide (kind = 0)
    | _ => true

/-- Whether an element of a CPY or CPYI, or one of those that are moved with it, has a source or a destination on an SO page
(R187, R221). -/
def runOnSo (s : State) (core : Nat) (c : CopyCmd) (d : CopyDesc) (i : Nat) : Bool :=
  (List.range (destRun c d i)).any fun k =>
    s.sidePageSo core c.fn d.srcSide (d.addr d.srcSide (i + k)) || s.sidePageSo core c.fn d.dstSide (d.addr d.dstSide (i + k))

/-- Move element i of a CPY or CPYI, with those of its word after it, out of order. -/
def aheadStep (s : State) (core id i : Nat) : State :=
  match s.copyCmd? core id with
  | none => s
  | some c =>
    let d := c.desc
    if c.started.isNone || c.code.isSome || !c.mayRun s || s.waits c.fn (.copy core id) || decide (i ≤ c.next) ||
        decide (d.total ≤ i) || c.ahead.contains i || !(decide (c.kind = .cpy) || decide (c.kind = .cpyi)) ||
        (d.rel && !s.released core c) || s.runOnSo core c d i then s
    else
      match s.moveElem core c d i with
      | ((.moved, n), s1) => s1.modCmd core id fun k => { k with ahead := k.ahead ++ (List.range n).map (i + ·) }
      | ((.paused, _), s1) => s1
      | ((.failed code, _), s1) => s1.endCmd core id code

/-- Move element i of a CPY or CPYI out of order where neither side's page is SO (R221) and no birth must wait (R68). -/
def copyAhead (s : State) (core id i : Nat) : State :=
  if s.copyHeld core id fun s => s.aheadStep core id i then s else s.aheadStep core id i

/-- A command that restarts at its checkpoint, after a fault or a stop (R218): elements written ahead are written again, and
a routine runs again from its restart point. What it has written of a word still counts with its own tags (R220). DESIGN
CHOICE: what the checkpoint does not cover counts as delivered (R215) only when it is written again (assumption log 80). -/
def restartCmd (c : CopyCmd) : CopyCmd :=
  if c.code.isSome then c
  else match c.kind with
    | .cpyx =>
      { c with
        next := c.restart.1, sent := c.restart.2, input := c.input.take (c.restart.1 * 2 ^ c.desc.esz), output := none,
        asleep := false }
    | _ => { c with ahead := [] }

/-- The commands of a core, with their transform cores, go back to their checkpoints. -/
def restartCore (which : CopyCmd → Bool) (cyc : Nat) (k : CoreSt) : CoreSt :=
  let back := k.copy.filter fun c => which c && loadedRoutine c && c.started.isSome && c.code.isNone
  { k with
    copy := k.copy.map (fun c => if which c then restartCmd c else c),
    xcores := back.foldl (fun m c => AL.modify XCore.idle m c.xcore fun x => x.back cyc) k.xcores }

/-! Transform routines (R226, R227). -/

/-- Resolve the tags of a routine's output words (R220, R226). -/
def routineTags (s : State) (core : Nat) (c : CopyCmd) : List (List Byte × TagWant) → List (Byte × Tag) × State
  | [] => ([], s)
  | (bs, w) :: rest =>
    let (t, s1) := if c.policy then s.cmdTag core c w else (c.site, s)
    let (more, s2) := s1.routineTags core c rest
    (bs.map (fun b => (b, t)) ++ more, s2)

/-- Whether the tags of a shipped routine's output make a birth that must wait (R68). -/
def routineHeld (s : State) (core : Nat) (c : CopyCmd) : Bool :=
  let d := c.desc
  s.birthHeld core c.launch fun s => (s.routineTags core c (shipped d.rid d.arg d.fin d.fout d.esz c.input).words).2

/-- A routine returns: its output is checked and stands ready to be written. DESIGN CHOICE: a saturation inside the routine
sets no CERR.SAT, which R213 speaks of for the engine's own conversions (assumption log 81). -/
def routineDone (s : State) (core : Nat) (c : CopyCmd) (status : Nat) (out : List (Byte × Tag)) : State :=
  let code := s.outputCheck c out.length
  if code ≠ 0 then s.endCmd core c.id code
  else s.modCmd core c.id fun k => { k with output := some out, status := status }

/-- Whether a routine has all its input. -/
def routineAtEnd (s : State) (core id : Nat) : Bool :=
  match s.copyCmd? core id with
  | some c => decide (c.kind = .cpyx) && c.started.isSome && c.code.isNone && c.output.isNone &&
      decide (c.desc.total ≤ c.next) && c.mayRun s
  | none => false

/-- Whether a command runs a routine that has not returned. -/
def routineRuns (c : CopyCmd) : Bool :=
  decide (c.kind = .cpyx) && c.started.isSome && c.code.isNone && c.output.isNone

/-- Whether a loaded routine has moved neither ring for 2^20 cycles (R226). -/
def routineStalls (s : State) (core : Nat) (c : CopyCmd) : Bool :=
  routineRuns c && loadedRoutine c && decide (0 < c.next) && decide ((s.xcoreOf core c).moved + 2 ^ 20 ≤ s.cycle core)

/-- What a loaded routine's instructions do (R226): a routine that leaves its data memory faults. -/
def transformRun (s : State) (core id : Nat) (u : XUpdate) : State :=
  match s.copyCmd? core id with
  | some c =>
    if routineRuns c && loadedRoutine c && decide (0 < c.next) && c.mayRun s && !c.asleep then
      match (s.xcoreOf core c).run u (s.cycle core) with
      | some x => s.modXcore core c fun _ => x
      | none => s.endCmd core id 0x0B
    else s
  | none => s

end State

/-- ROUTINE_RESTART_POINT (R218, R226): what the routine has taken and sent, with what its core holds, is its checkpoint. -/
def execRoutineRestartPoint (core id : Nat) (s : State) : Host.Outcome State Fault Refusal :=
  match s.copyCmd? core id with
  | some c =>
    if State.routineRuns c then
      let s1 := if State.loadedRoutine c then s.modXcore core c XCore.mark else s
      .next (s1.modCmd core id fun c => { c with restart := (c.next, c.sent) })
    else .next s
  | none => .next s

/-- ROUTINE_SLEEP (R226): the routine sleeps until the input head moves or END is set. -/
def execRoutineSleep (core id : Nat) (s : State) : Host.Outcome State Fault Refusal :=
  .next (s.modCmd core id fun c =>
    if State.routineRuns c && decide (c.next < c.desc.total) then { c with asleep := true } else c)

/-- ROUTINE_RETURN (R226 to R228): a shipped routine gives what Table 10.11 says of its input; a loaded one returns with its
status in a0, after the last bytes it puts into its output ring. A routine that sleeps does not return. -/
def execRoutineReturn (core id : Nat) (status : W64) (out : List (Byte × Tag)) (s : State) :
    Host.Outcome State Fault Refusal :=
  match s.copyCmd? core id with
  | none => .next s
  | some c =>
    if !State.routineRuns c || !c.mayRun s || c.asleep then .next s
    else
      let d := c.desc
      if State.loadedRoutine c then
        let x := s.xcoreOf core c
        if c.next = 0 ∨ x.roomFor xOut out.length = false then .next s
        else
          let y := x.push xOut out
          .next ((s.modXcore core c fun _ => { y with regs := { y.regs with x := AL.set 0 y.regs.x 10 status } }).modCmd core id
            fun k => { k with output := some [], status := status.toNat })
      else if decide (c.next < d.total) || s.routineHeld core c then .next s
      else
        let r := shipped d.rid d.arg d.fin d.fout d.esz c.input
        let (bytes, s1) := s.routineTags core c r.words
        .next (s1.routineDone core c r.status bytes)

/-- ROUTINE_WATCHDOG (R226): a routine that faults, or moves neither ring for 2^20 cycles, ends its command. -/
def execRoutineWatchdog (core id : Nat) (s : State) : Host.Outcome State Fault Refusal :=
  match s.copyCmd? core id with
  | some c => if State.routineRuns c then .next (s.endCmd core id 0x0B) else .next s
  | none => .next s

/-- Whether a partner of a collective has not joined within 10 ms (R234). DESIGN CHOICE: these are measured from the command's
start in its queue (assumption log 74). -/
def State.collLate (s : State) (core : Nat) (c : CopyCmd) : Bool :=
  match c.kind, c.started with
  | .ccoll _, some t0 => c.code.isNone && (s.collParts c).isNone && decide (t0 + 10000000 ≤ s.timestamp (dieOf core))
  | _, _ => false

/-- COLLECTIVE_TIMEOUT (R219, R234): a partner has not joined within 10 ms of the command's start. -/
def execCollectiveTimeout (core id : Nat) (s : State) : Host.Outcome State Fault Refusal :=
  .next (s.atCmd core id fun s =>
    match s.copyCmd? core id with
    | some c => if s.collLate core c then s.endCmd core id 0x0C else s
    | none => s)

/-! The end of a command (R208, R209, R215). -/

namespace State

/-- Elements a command has delivered (R215, R227): in copy order, those written ahead that follow without a gap among them. -/
def cmdDelivered (c : CopyCmd) : Nat :=
  match c.kind with
  | .cpyx => c.desc.delivered c.sent
  | .ccoll _ => c.sent
  | _ => c.next + ((List.range c.ahead.length).takeWhile fun k => c.ahead.contains (c.next + k)).length

/-- The completion word a command writes, with its value (R215). -/
def completionWord (s : State) (c : CopyCmd) (code : Nat) : State :=
  match s.flock? c.flock with
  | none => s
  | some f =>
    let (cwo, cwv) := c.cw
    if cwo = 0 || (cwoBad f.size cwo).isSome then s
    else
      let v : W32 := if code = 0 then cwv
        else BitVec.ofNat 32 (0x80000000 + code * 65536 + min (cmdDelivered c) 0xFFFF)
      s.writeWords c.flock cwo.toNat [⟨v, c.site⟩]

/-- Count a finished batch member; its batch finishes with the last of a sealed batch (R209). -/
def memberDone (s : State) (core : Nat) (t : ThreadId) (b : Nat) (failed : Bool) : State :=
  let s1 := s.modThread t fun x =>
    { x with
      batch := if x.batch.openId = b ∧ x.batch.count ≠ 0 then { x.batch with err := x.batch.err || failed } else x.batch,
      outs := updateWhere (fun o => decide (o.id = b)) (fun o => { o with err := o.err || failed }) x.outs }
  if (s1.core core).copy.any fun c => decide (c.batch = some b) then s1
  else
    match s1.thread? t with
    | some th =>
      match th.outs.find? fun o => decide (o.id = b) with
      | some o => s1.finishOp t b o.err
      | none => s1
    | none => s1

/-- A command whose payload is performed, or that failed, writes its completion word, leaves the queue, sets CERR on an error,
and counts for its batch or for COLL (R208, R213, R215, R216). -/
def finishCopy (s : State) (core id : Nat) : State :=
  match s.copyCmd? core id with
  | none => s
  | some c =>
    match c.code with
    | none => s
    | some code =>
      if !c.mayRun s then s
      else
        let s1 := s.completionWord c code
        let s2 := s1.modCore core fun k => { k with copy := k.copy.filter fun x => !decide (x.id = id) }
        let s3 := if code = 0 then s2 else s2.modSys c.tid fun y =>
          if c.batch.isSome then { y with cerrCopy := BitVec.ofNat 8 code } else { y with cerrColl := BitVec.ofNat 8 code }
        let s4 := match c.kind with
          | .ccoll _ =>
            let d := parseColl (c.args.getD [])
            { s3 with joins := s3.joins.filter fun j => !decide (j.cid = d.cid ∧ j.mask = d.mask) }
          | _ => s3
        match c.batch with
        | some b => s4.memberDone core c.tid b (decide (code ≠ 0))
        | none => s4.finishOp c.tid id (decide (code ≠ 0))

end State

/-- COPY_COMMAND_FINISH (R208, R215, R219), of a command on its core or of a collective that is switched out. -/
def execCopyCommandFinish (core id : Nat) (s : State) : Host.Outcome State Fault Refusal :=
  .next (s.atCmd core id fun s => s.finishCopy core id)

/-- CPYQ (R235): the state of the thread's batches, or of the engine; lands within 40 cycles. -/
def execCpyq (d : Reg) (sel : BitVec 1) (f : Flag) (s : State) : Host.Outcome State Fault Refusal :=
  eachThread s fun c s l =>
    match s.thread? l.tid with
    | none => s
    | some t =>
      let q := (s.core c.core).copy
      let ws : List W32 :=
        if sel = 0 then
          [BitVec.ofNat 32 (t.count .copy + 64 * t.count .coll + 4096 * t.batch.count), t.batch.next,
           t.batch.next - BitVec.ofNat 32 (t.count .copy), (s.sysValue l 0x104).getD 0]
        else
          [BitVec.ofNat 32 (q.length + 64 * (q.countP fun k => k.started.isSome && k.mayRun s) + 512 * transformBusy q),
           BitVec.ofNat 32 (q.countP fun k => s.waits k.fn (.copy c.core k.id)), 0, 0]
      s.armFlag c l f 1 40 (regRange d 4) (some (ws.map fun w => ⟨w, 0⟩)) true none

end Sys2Proof.Machine
end

