-- ==== Sys2Proof/Machine/TileData.lean ====
section
/-!
DEFINITION. Operand tiles and the arithmetic of tile operations (R242 to R248).
-/
namespace Sys2Proof.Machine

/-- Bytes of an operand element (Table 12.2). -/
def tileElem (fmt : Nat) : Nat := if fmt = 1 ∨ fmt = 2 then 2 else 1

/-- Bytes of an operand tile of a slot, none where it has no layout (Table 12.2). -/
def tileBytes (d : W64) : Option Nat :=
  let fmt := Slot.fmt d
  let sc := Slot.scale d
  let row := if sc = 2 then 32 else 0
  let plain := decide (fmt = 1 ∨ fmt = 2 ∨ fmt = 7 ∨ fmt = 8) && decide (sc ≤ 1)
  let e8 := decide (fmt = 3 ∨ fmt = 4) && decide (sc ≤ 2)
  let e := tileElem fmt
  match Slot.sparse d with
  | 0 => if plain || e8 then some (1024 * e + row) else if fmt = 5 ∧ sc = 2 then some 768
    else if fmt = 6 ∧ sc = 3 then some 544 else none
  | 1 => if plain || e8 then some (512 * e + 128 + row) else none
  | 2 => if plain || e8 then some (256 * e + 64 + row) else none
  | _ => none

/-- Whether a pair of slots is accepted by TMMA, or by TMMAS where A is sparse (Table 12.3). -/
def tmmaPair (sparse : Bool) (a b : W64) : Bool :=
  let fa := Slot.fmt a
  let fb := Slot.fmt b
  (tileBytes a).isSome && (tileBytes b).isSome && decide (Slot.sparse b = 0) && (decide (Slot.sparse a ≠ 0) == sparse) &&
  ((decide (1 ≤ fa ∧ fa ≤ (if sparse then 4 else 6) ∧ 1 ≤ fb ∧ fb ≤ (if sparse then 4 else 6)) &&
      decide (Slot.acc a = 0 ∧ Slot.acc b = 0)) ||
   (decide ((fa = 7 ∨ fa = 8) ∧ (fb = 7 ∨ fb = 8)) && decide (Slot.acc a = 10 ∧ Slot.acc b = 10)))

/-- Occupancy of TMMA and TMMAS in cycles (Table 12.3). -/
def tmmaCycles (sparse : Bool) (a b : W64) : Nat :=
  let w (fmt : Nat) : Nat := if fmt = 1 ∨ fmt = 2 then 16 else if fmt = 5 ∨ fmt = 6 then 4 else 8
  (max (w (Slot.fmt a)) (w (Slot.fmt b))) / (if sparse then 2 else 1)

/-- A decoded operand element: the k it stands at, its number with its scale, and its word's tag. -/
structure TTerm where
  k : Nat
  num : Num
  tag : Tag

/-- The 32 elements of an E2M1X block (R52). -/
def e2m1Row (f : Flock) (esc : Bool) (a : Nat) : List TTerm × Exc :=
  let byte (i : Nat) : Nat := (Mem.read f.mem (a + i)).toNat
  let sc := e8m0 (byte 16)
  let code (k : Nat) : Nat := byte (k / 2) / (if k % 2 = 0 then 1 else 16) % 16
  let r := (List.range 32).foldl (fun (acc : List TTerm × Nat × Exc) k =>
    let t := f.tagAt (a + k / 2)
    if esc ∧ code k = 8 then
      let num := if acc.2.1 < 2 then decodeF .fp16 (Mem.readNat f.mem (a + 20 + 2 * acc.2.1) 2) else Num.defaultNan
      let num := if byte 16 = 255 then Num.defaultNan else num
      (acc.1 ++ [⟨k, num, t⟩], acc.2.1 + 1, if acc.2.1 < 2 then acc.2.2 else acc.2.2 ||| Exc.esc)
    else (acc.1 ++ [⟨k, (Num.mul (decodeF .e2m1 (code k)) sc).1, t⟩], acc.2.1, acc.2.2)) (([], 0, 0) : List TTerm × Nat × Exc)
  (r.1, r.2.2)

/-- Row i of an operand tile: its terms in stored order, and what decoding raises (R242, R243, Table 12.2). -/
def tileRow (f : Flock) (d : W64) (base i : Nat) : List TTerm × Exc :=
  let fmt := Slot.fmt d
  let e := tileElem fmt
  let num (bits : Nat) : Num := rawNum fmt bits
  let scaled (x : Num) (at_ : Nat) : Num :=
    if Slot.scale d = 2 then (Num.mul x (e8m0 (Mem.read f.mem (at_ + i)).toNat)).1 else x
  match Slot.sparse d with
  | 1 =>
    let idx := Mem.readNat f.mem (base + 512 * e + 4 * i) 4
    ((List.range 16).map fun v =>
      let a := base + 16 * e * i + e * v
      ⟨4 * (v / 2) + idx / 4 ^ v % 4, scaled (num (Mem.readNat f.mem a e)) (base + 512 * e + 128), f.tagAt a⟩, 0)
  | 2 =>
    let idx := Mem.readNat f.mem (base + 256 * e + 2 * i) 2
    ((List.range 8).map fun v =>
      let a := base + 8 * e * i + e * v
      ⟨4 * v + idx / 4 ^ v % 4, scaled (num (Mem.readNat f.mem a e)) (base + 256 * e + 64), f.tagAt a⟩, 0)
  | _ =>
    if fmt = 5 then e2m1Row f (Slot.esc d) (base + 24 * i)
    else if fmt = 6 then
      let s8 := Num.ofNat (Mem.read f.mem (base + 512 + i / 2)).toNat
      let s := f32 (Mem.read32 f.mem (base + 528))
      -- a zero product under an infinite S is a created NaN, which raises IV (R50, R249)
      let es := (List.range 32).map fun k =>
        let a := base + 16 * i + k / 2
        let code := (Mem.read f.mem a).toNat / (if k % 2 = 0 then 1 else 16) % 16
        (k, Num.mul (Num.mul (decodeElem .cb4 code) s8).1 s, f.tagAt a)
      (es.map fun e => ⟨e.1, e.2.1.1, e.2.2⟩, es.foldl (fun x e => x ||| e.2.1.2) 0)
    else
      ((List.range 32).map fun k =>
        let a := base + 32 * e * i + e * k
        ⟨k, scaled (num (Mem.readNat f.mem a e)) (base + 1024), f.tagAt a⟩, 0)

/-- The tag of a product under a mode: the rule over its factors without a birth (R73). -/
def factorTag (mode : BitVec 2) (a b : TTerm) : Tag :=
  (tagrule (if mode = 3 then 0 else mode) [⟨a.tag, a.num.special⟩, ⟨b.tag, b.num.special⟩] none false).getD 0

/-- One output of a matrix product: its word, what it raises and its tag rule (R60, R73, R244). -/
def productOut (mode : BitVec 2) (intAcc : Bool) (c : TW) (ps : List (TTerm × TTerm)) : W32 × Exc × TagWant :=
  let cnum := if intAcc then Num.ofInt c.val.toInt else f32 c.val
  let prods := ps.map fun p => product p.1.num p.2.num
  let (w, r) : W32 × Exc :=
    if intAcc then
      let s := prods.foldl (fun acc p => acc + p.1.scaled 0) c.val.toInt
      (BitVec.ofInt 32 s, 0)
    else windowF32 cnum prods
  let srcs : List TSrc := ⟨c.tag, cnum.special⟩ ::
    ps.map fun p => ⟨factorTag mode p.1 p.2, p.1.num.special || p.2.num.special⟩
  let doms : List TDom := ⟨c.tag, cnum.abs⟩ :: ps.map fun p => ⟨factorTag mode p.1 p.2, prodMag p.1.num p.2.num⟩
  (w, r, .rule srcs (some doms) (decide (r ≠ 0)))

namespace TileUnit

def accKey (t i j : Nat) : Nat := t * 1024 + i * 32 + j
def getAcc (u : TileUnit) (t i j : Nat) : TW := AL.get TW.zero u.acc (accKey t i j)
def setAcc (u : TileUnit) (t i j : Nat) (w : TW) : TileUnit := { u with acc := AL.set TW.zero u.acc (accKey t i j) w }
def getSc (u : TileUnit) (n m : Nat) : TW := AL.get TW.zero u.sc (n * 32 + m)
def setSc (u : TileUnit) (n m : Nat) (w : TW) : TileUnit := { u with sc := AL.set TW.zero u.sc (n * 32 + m) w }

end TileUnit

/-- Rows and columns of a tile in row-major order. -/
def tileCells : List (Nat × Nat) := (List.range 1024).map fun n => (n / 32, n % 32)

/-- The format a store or a move of accumulators accepts, with its byte width (R247, R248). -/
def storeWidth (fmt : Nat) : Nat := CopyDesc.width fmt

/-- The result of storing one accumulator element before it is packed (R248): its bits, what it raises, the tag a 32-bit
store would take, whether the converted value is special, and that value. -/
structure StoreElem where
  bits : Nat
  raised : Exc
  want : TagWant
  special : Bool
  val : Num

def storeElem (fmt : Nat) (sat intAcc : Bool) (w : TW) (sc : Option TW) : StoreElem :=
  let v := if intAcc then Num.ofInt w.val.toInt else f32 w.val
  let (x, e) := match sc with
    | some s => Num.mul v (f32 s.val)
    | none => (v, Exc.none)
  let (bits, e2) := match Elem.ofCode fmt with
    | some f => encodeElem f sat x
    | none => (0, Exc.none)
  let r := e ||| e2
  -- the 32-bit store of the element (R248, R254)
  let e3 := match Elem.ofCode (if [7, 8, 9, 10, 12].contains fmt then 10 else 0) with
    | some f => (encodeElem f sat x).2
    | none => 0
  let want : TagWant := match sc with
    | some s => .rule [⟨w.tag, v.special⟩, f32Src s] none (decide (e ||| e3 ≠ 0))
    | none => .fixed w.tag
  ⟨bits, r, want, x.special, x⟩

end Sys2Proof.Machine
end

