-- ==== Sys2Proof/Machine/Tile.lean ====
section
/-!
DEFINITION. The tile engine (R236 to R257): reservation, issue, the operations, folds and completion.
-/
namespace Sys2Proof.Machine

namespace State

def tileUnit (s : State) (core : Nat) : TileUnit := (s.core core).tile
def modTile (s : State) (core : Nat) (f : TileUnit → TileUnit) : State := s.modCore core fun k => { k with tile := f k.tile }

/-! The reservation (R237 to R239). -/

/-- The threads of a flock that wait for the reservation go on 4 cycles after the grant, kd set (R238). They sleep until
then (R239). -/
def wakeTrsv (s : State) (f : Flock) : State :=
  let cyc := s.cycle f.core
  { s with
    groups := s.groups.map fun g =>
      if g.launch = f.launch ∧ g.core = f.core ∧ g.slot = f.slot then
        { g with
          lanes := g.lanes.map fun t =>
            match t.sleep with
            | .trsv kd none =>
              { t with
                sleep := .trsv kd (some (cyc + 4)),
                rf := { t.rf with pend := t.rf.pend ++ (if kd = 0 then [] else [⟨cyc + 4, s.issueSeq, .pred kd, some ⟨1, 0⟩⟩]) } }
            | _ => t }
      else g }

/-- Grant the reservation to a flock: the tiles are cleared where the launch changes (R237). -/
def grantTile (s : State) (core : Nat) (f : Flock) : State :=
  (s.modTile core fun u =>
    let u := if u.lastLaunch = some f.launch then u else { u with acc := [], sc := [] }
    { u with
      holder := some f.uid, releasing := false, releaseAfter := [], lastLaunch := some f.launch,
      waiting := u.waiting.filter fun x => !decide (x = f.uid) }).wakeTrsv f

/-- The waiting flock that is granted next: lowest slot, then lowest launch id (R238). -/
def nextWaiting (s : State) (core : Nat) : Option Flock :=
  let fs := (s.tileUnit core).waiting.filterMap s.flock?
  let key (f : Flock) : List Nat := [f.slot, ((s.launch? f.launch).map fun l => l.id.toNat).getD 0]
  (sortBy (fun a b : Flock => lexLt (key a) (key b)) fs).head?

/-- Whether a flock has a thread that has not exited: one that is present, or asleep in a pen (R238). -/
def flockLeft (s : State) (f : Flock) : Bool :=
  (s.groups.any fun g => decide (g.launch = f.launch ∧ g.core = f.core ∧ g.slot = f.slot) && g.lanes.any (·.present)) ||
  f.rowsAsleep

/-- A release takes effect when the operations of the holder that were queued at the TREL have completed, or once all its
threads have exited its queued ones; the next waiting flock is then granted (R238). -/
def tileSettle (s : State) (core : Nat) : State :=
  let u := s.tileUnit core
  let next (s : State) : State := match s.nextWaiting core with
    | some f => s.grantTile core f
    | none => s
  match u.holder with
  | none => next s
  | some uid =>
    let gone := match s.flock? uid with
      | some f => !s.flockLeft f
      | none => true
    if (u.releasing && (u.queue.all fun o => !u.releaseAfter.contains o.id)) ||
        (gone && (u.queue.all fun o => !decide (o.flock = uid))) then
      next (s.modTile core fun u => { u with holder := none, releasing := false, releaseAfter := [] })
    else s

end State

/-- TRSV and TRSV.WAIT (R238, R239). -/
def execTrsv (kd : BitVec 3) (wait : Bool) (s : State) : Host.Outcome State Fault Refusal :=
  eachThread s fun c s l =>
    match s.flockOf? l.g with
    | none => s
    | some f =>
      let u := s.tileUnit c.core
      let answer (s : State) (b : Bool) : State :=
        (s.predInFlight c l 4 kd b).modThread l.tid fun t => { t with sleep := .trsv kd (some (c.cycle + 4)) }
      if u.holder = some f.uid then answer (s.modTile c.core fun u => { u with releasing := false, releaseAfter := [] }) true
      else if u.holder = none ∧ (u.waiting.all fun x => decide (x = f.uid)) then answer (s.grantTile c.core f) true
      else if wait || s.isDet c then
        (s.modTile c.core fun u => { u with waiting := if u.waiting.contains f.uid then u.waiting else u.waiting ++ [f.uid] }).modThread
          l.tid fun t => { t with sleep := .trsv kd none }
      else answer s false

/-- TREL (R238). -/
def execTrel (s : State) : Host.Outcome State Fault Refusal :=
  eachThread s fun c s l =>
    match s.flockOf? l.g with
    | none => s
    | some f =>
      if (s.tileUnit c.core).holder = some f.uid then
        (s.modTile c.core fun u =>
          if u.releasing then u
          else { u with releasing := true, releaseAfter := (u.queue.filter fun o => decide (o.flock = f.uid)).map (·.id) }).tileSettle
          c.core
      else s

/-! Issue (R240, R241). -/

namespace State

/-- Whether a flock holds the issue right: the reservation, with no release pending. -/
def hasTile (s : State) (core : Nat) (f : Flock) : Bool :=
  let u := s.tileUnit core
  decide (u.holder = some f.uid) && !u.releasing

/-- The first trap of a list of scratchpad regions (address, bytes, alignment, whether it is written): SP_RANGE before
ALIGN (R194); the last component answered is TFDET's WRITE (R195). -/
def regionTrap (size : Nat) (rs : List (W32 × Nat × Nat × Bool)) : Option (Byte × W32 × Bool) :=
  match rs.find? fun r => decide (size < r.1.toNat + r.2.1) with
  | some r => some (0x03, r.1, r.2.2.2)
  | none =>
    match rs.find? fun r => decide (r.1.toNat % r.2.2.1 ≠ 0) with
    | some r => some (0x04, r.1, r.2.2.2)
    | none => none

/-- Issue a tile operation for a lane: its traps (R194, R241), else it enters the queue and raises TILE (R240). -/
def issueTile (s : State) (c : IssueCtx) (l : LaneRef) (i : Instr) (slotsOk : Bool) (regions : List (W32 × Nat × Nat × Bool))
    (scale : Option W64) (needs : Bool) (a : W32) (b : W64) (tags : Tags3) : State :=
  match s.flockOf? l.g, s.launch? c.launch, s.group? l.g, s.thread? l.tid with
  | some f, some la, some g, some th =>
    if !slotsOk then s.illegalLane c l 0x0E tags
    else
      match regionTrap f.size regions with
      | some (cause, info, write) => s.trapLane c l cause info 0 tags (writeDetail write)
      | none =>
        match scale with
        | some x =>
          if x.toNat % 4 ≠ 0 then s.trapLane c l 0x04 (x.setWidth 32) ((x >>> 32).setWidth 32) tags (writeDetail true)
          else if 2 ^ 48 ≤ x.toNat then s.trapLane c l 0x0E (x.setWidth 32) ((x >>> 32).setWidth 32) tags (writeDetail true)
          else go s f la g th
        | none => go s f la g th
  | _, _, _, _ => s
where
  /-- The issue right, then the queue. -/
  go (s : State) (f : Flock) (la : Launch) (g : Group) (th : Thread) : State :=
    if needs && !s.hasTile c.core f then s.trapLane c l 0x12 (BitVec.ofNat 32 (bits c.word 47 40)) 0 tags 0
    else
      -- one operation is accepted a cycle (R256), and none makes an access before cycle 4 (R182)
      let accepted := max c.cycle ((s.tileUnit c.core).lastIn + 1)
      let o : TileOp :=
        { id := s.nextUid, instr := i, tid := l.tid, launch := c.launch, fn := la.fn, flock := f.uid, a := a, b := b,
          tagmode := s.tagModeOf l, site := s.siteOf c, logical := g.logical, first := firstLane c l, pc := c.pc,
          ready := max (max (c.cycle + 4) (accepted + 1)) (th.lastScratch + 1), until_ := none, done := false, raised := 0, fold := none,
          code := 0 }
      (({ s with nextUid := s.nextUid + 1 }).modTile c.core fun u => { u with queue := u.queue ++ [o], lastIn := accepted }).startOp l.tid .tile
        s.nextUid

end State

def execTmma (td : BitVec 6) (a b : Reg) (sa sb : BitVec 3) (z : Bool) (s : State) : Host.Outcome State Fault Refusal :=
  eachThread s fun c s l =>
    let x := s.operand l a
    let y := s.operand l b
    let da := s.slotOf c sa
    let db := s.slotOf c sb
    s.issueTile c l (.tmma td a b sa sb z) (tmmaPair false da db)
      [(x.val, (tileBytes da).getD 0, 32, false), (y.val, (tileBytes db).getD 0, 32, false)] none true x.val (y.val.setWidth 64)
      (x.tag, y.tag, 0)
def execTmmas (td : BitVec 6) (a b : Reg) (sa sb : BitVec 3) (z : Bool) (s : State) : Host.Outcome State Fault Refusal :=
  eachThread s fun c s l =>
    let x := s.operand l a
    let y := s.operand l b
    let da := s.slotOf c sa
    let db := s.slotOf c sb
    s.issueTile c l (.tmmas td a b sa sb z) (tmmaPair true da db)
      [(x.val, (tileBytes da).getD 0, 32, false), (y.val, (tileBytes db).getD 0, 32, false)] none true x.val (y.val.setWidth 64)
      (x.tag, y.tag, 0)

/-- Whether a slot names a format of 4-bit codes for TLUTB and TMMAL (R246). -/
def lutSlotOk (d : W64) : Bool := decide ((Slot.fmt d = 5 ∨ Slot.fmt d = 6 ∨ Slot.fmt d = 11) ∧ Slot.acc d = 0)

def execTmmal (td : BitVec 6) (a : Reg) (tt : BitVec 6) (slot : BitVec 3) (z : Bool) (s : State) :
    Host.Outcome State Fault Refusal :=
  eachThread s fun c s l =>
    let x := s.operand l a
    s.issueTile c l (.tmmal td a tt slot z) (lutSlotOk (s.slotOf c slot)) [(x.val, 512, 32, false)] none true x.val 0 (x.tag, 0, 0)
def execTlutb (tt : BitVec 6) (a : Reg) (h : BitVec 1) (slot : BitVec 3) (bf : Bool) (s : State) :
    Host.Outcome State Fault Refusal :=
  eachThread s fun c s l =>
    let x := s.operand l a
    s.issueTile c l (.tlutb tt a h slot bf) (lutSlotOk (s.slotOf c slot)) [(x.val, 64, 32, false)] none true x.val 0 (x.tag, 0, 0)
def execTzero (td : BitVec 6) (s : State) : Host.Outcome State Fault Refusal :=
  eachThread s fun c s l => s.issueTile c l (.tzero td) true [] none true 0 0 (0, 0, 0)
def execTaccld (td : BitVec 6) (a : Reg) (t : Bool) (s : State) : Host.Outcome State Fault Refusal :=
  eachThread s fun c s l =>
    let x := s.operand l a
    s.issueTile c l (.taccld td a t) true [(x.val, 4096, 32, false)] none true x.val 0 (x.tag, 0, 0)
def execTaccst (op : TaccstOp) (td : BitVec 6) (a : Reg) (slot : BitVec 3) (s : State) : Host.Outcome State Fault Refusal :=
  eachThread s fun c s l =>
    let x := s.operand l a
    let e := storeWidth (Slot.fmt (s.slotOf c slot))
    let (sw, bt) : Option W64 × Tag := match op with
      | .scalemax _ _ b => (some (s.pairOperand l b).1, (s.pairOperand l b).2)
      | _ => (none, 0)
    s.issueTile c l (.taccst op td a slot) (decide (e ≠ 0)) [(x.val, 1024 * e, 32, true)] sw true x.val (sw.getD 0) (x.tag, bt, 0)
def execTtrn (a b : Reg) (slot : BitVec 3) (s : State) : Host.Outcome State Fault Refusal :=
  eachThread s fun c s l =>
    let x := s.operand l a
    let y := s.operand l b
    let e := storeWidth (Slot.fmt (s.slotOf c slot))
    s.issueTile c l (.ttrn a b slot) (decide (e ≠ 0)) [(x.val, 1024 * e, 32, false), (y.val, 1024 * e, 32, true)] none true x.val
      (y.val.setWidth 64) (x.tag, y.tag, 0)
def execTaddw (td : BitVec 6) (a : Reg) (slot : BitVec 3) (s : State) : Host.Outcome State Fault Refusal :=
  eachThread s fun c s l =>
    let x := s.operand l a
    let fmt := Slot.fmt (s.slotOf c slot)
    s.issueTile c l (.taddw td a slot) (decide (fmt = 7 ∨ fmt = 8 ∨ fmt = 9 ∨ fmt = 12))
      [(x.val, 1024 * storeWidth fmt, 32, false)] none true x.val 0 (x.tag, 0, 0)
def execTscan (f : Bool) (td : BitVec 6) (s : State) : Host.Outcome State Fault Refusal :=
  eachThread s fun c s l => s.issueTile c l (.tscan f td) true [] none true 0 0 (0, 0, 0)
def execTscld (sc : BitVec 3) (a : Reg) (s : State) : Host.Outcome State Fault Refusal :=
  eachThread s fun c s l =>
    let x := s.operand l a
    s.issueTile c l (.tscld sc a) true [(x.val, 128, 32, false)] none true x.val 0 (x.tag, 0, 0)
def execTstat (a : Reg) (s : State) : Host.Outcome State Fault Refusal :=
  eachThread s fun c s l =>
    let x := s.operand l a
    s.issueTile c l (.tstat a) true [(x.val, 16, 16, true)] none false x.val 0 (x.tag, 0, 0)

/-! Performance (R244 to R252). -/

namespace State

/-- The tag a rule gives in a tile operation (R244). -/
def opTag (s : State) (core : Nat) (o : TileOp) (w : TagWant) : Tag × State :=
  match w with
  | .fixed t => (t, s)
  | .born => s.born core o.launch o.tid.g o.logical o.first o.site
  | .rule srcs doms raised =>
    match tagrule o.tagmode srcs doms raised with
    | some t => (t, s)
    | none => s.born core o.launch o.tid.g o.logical o.first o.site

/-- Add to what an operation has raised. -/
def opRaise (s : State) (core : Nat) (o : TileOp) (e : Exc) : State :=
  s.modTile core fun u =>
    { u with queue := updateWhere (fun x => decide (x.id = o.id)) (fun x => { x with raised := x.raised ||| e }) u.queue }

/-- Write an accumulator word by a rule. -/
def accPut (s : State) (core : Nat) (o : TileOp) (t i j : Nat) (v : W32) (want : TagWant) : State :=
  let (tag, s1) := s.opTag core o want
  s1.modTile core fun u => u.setAcc t i j ⟨v, tag⟩

/-- The slot a launch gives by number. -/
def launchSlot (s : State) (launch : Nat) (n : BitVec 3) : W64 :=
  match s.launch? launch with
  | some l => l.slot n
  | none => 0

/-- TMMA and TMMAS on their tile (R244). -/
def doProduct (s : State) (core : Nat) (o : TileOp) (f : Flock) (td : Nat) (sa sb : W64) (z : Bool) : State :=
  let rows (d : W64) (base : Nat) := (List.range 32).map fun i => tileRow f d base i
  let as := rows sa o.a.toNat
  let bs := rows sb o.b.toNat
  let exc := (as ++ bs).foldl (fun e r => e ||| r.2) (0 : Exc)
  let u := s.tileUnit core
  tileCells.foldl (fun s c =>
    let acc := if z then TW.zero else u.getAcc td c.1 c.2
    let arow := ((as[c.1]?).map (·.1)).getD []
    let brow := ((bs[c.2]?).map (·.1)).getD []
    let ps := arow.filterMap fun x => (brow[x.k]?).map fun y => (x, y)
    let (v, r, want) := productOut o.tagmode (decide (Slot.acc sa = 10)) acc ps
    (s.accPut core o td c.1 c.2 v want).opRaise core o r) (s.opRaise core o exc)

/-- TLUTB (R246). -/
def doTlutb (s : State) (core : Nat) (f : Flock) (tt h a : Nat) (slot : W64) (bf : Bool) (o : TileOp) : State :=
  ((List.range 32).flatMap fun k => (List.range 16).map fun c => (k, c)).foldl (fun s kc =>
    let (k, c) := kc
    let x := decodeF (hfmt bf) (Mem.readNat f.mem (a + 2 * k) 2)
    let (p, e) := Num.mul ((lutLevel (Slot.fmt slot) c).getD Num.zero) x
    let (w, e2) := toF32 p
    (s.modTile core fun u => u.setAcc tt (16 * h + k / 2) (16 * (k % 2) + c) ⟨w, f.tagAt (a + 2 * k)⟩).opRaise core o
      (e ||| e2)) s

/-- TMMAL (R246): the factors of a product are the code word and the table entry; the product is the entry itself. -/
def doTmmal (s : State) (core : Nat) (o : TileOp) (f : Flock) (td tt : Nat) (slot : W64) (z : Bool) : State :=
  let u := s.tileUnit core
  let one : Num := Num.ofNat 1
  ((List.range 32).flatMap fun i => [(i, 0), (i, 1)]).foldl (fun s c =>
    let (i, h) := c
    let acc := if z then TW.zero else u.getAcc td i h
    let ps := (List.range 32).map fun k =>
      let a := o.a.toNat + 16 * i + k / 2
      let code := (Mem.read f.mem a).toNat / (if k % 2 = 0 then 1 else 16) % 16
      let e := u.getAcc tt (16 * h + k / 2) (16 * (k % 2) + code)
      let _ := slot
      ((⟨k, one, f.tagAt a⟩ : TTerm), (⟨k, f32 e.val, e.tag⟩ : TTerm))
    let (v, r, want) := productOut o.tagmode false acc ps
    (s.accPut core o td i h v want).opRaise core o r) s

/-- TACCLD, plain or transposed (R247). -/
def doTaccld (s : State) (core : Nat) (f : Flock) (td a : Nat) (t : Bool) : State :=
  s.modTile core fun u => tileCells.foldl (fun u c =>
    u.setAcc td c.1 c.2 (f.word (a + (if t then 128 * c.2 + 4 * c.1 else 128 * c.1 + 4 * c.2)))) u

/-- The largest magnitude among the signed elements of e bytes of the word at an address (R71). -/
def packedMag (f : Flock) (e x : Nat) : Num :=
  (List.range (4 / e)).foldl (fun m k =>
    maxMag m (Num.ofInt (intOfBits (8 * e) true (Mem.readNat f.mem (x / 4 * 4 + e * k) e))).abs) Num.zero

/-- TADDW (R247). -/
def doTaddw (s : State) (core : Nat) (o : TileOp) (f : Flock) (td a : Nat) (slot : W64) : State :=
  let fmt := Slot.fmt slot
  let e := storeWidth fmt
  tileCells.foldl (fun s c =>
    let x := a + e * (32 * c.1 + c.2)
    let old := (s.tileUnit core).getAcc td c.1 c.2
    let n := intOfBits (8 * e) (decide (fmt = 7 ∨ fmt = 9)) (Mem.readNat f.mem x e)
    let t := f.tagAt x
    s.accPut core o td c.1 c.2 (old.val + BitVec.ofInt 32 n)
      (.rule [intSrc old, ⟨t, false⟩] (some [intMag old, ⟨t, packedMag f e x⟩]) false)) s

/-- TSCAN (R247): a left-to-right running sum of each row. -/
def doTscan (s : State) (core : Nat) (o : TileOp) (isF : Bool) (td : Nat) : State :=
  (tileCells.filter fun c => decide (c.2 ≠ 0)).foldl (fun s c =>
    let p := (s.tileUnit core).getAcc td c.1 (c.2 - 1)
    let q := (s.tileUnit core).getAcc td c.1 c.2
    let r := combine (if isF then .addF32 else .addI32) p q
    (s.accPut core o td c.1 c.2 r.val (.rule r.srcs r.doms (decide (r.raised ≠ 0)))).opRaise core o r.raised) s

/-- Write a row-major tile of elements of e bytes at an address: whole words each with its rule (R74, R247, R248). -/
def putTile (s : State) (core : Nat) (o : TileOp) (fl a e : Nat) (es : List (Nat × Tag × Bool × Bool)) : State :=
  let per := 4 / e
  (List.range (es.length / per)).foldl (fun s w =>
    let part := (es.drop (per * w)).take per
    let v := (List.range part.length).foldl (fun acc k => acc + ((part[k]?).map (·.1)).getD 0 * 2 ^ (8 * e * k)) 0
    let (t, s1) := match part with
      | [x] => (x.2.1, s)
      | _ => s.opTag core o
          (.rule (part.map fun (x : Nat × Tag × Bool × Bool) => ⟨x.2.1, x.2.2.1⟩) none
            (part.any fun (x : Nat × Tag × Bool × Bool) => x.2.2.2))
    s1.writeWords fl (a + 4 * w) [⟨BitVec.ofNat 32 v, t⟩]) s

/-- TTRN (R247): the whole source is read before anything is written. -/
def doTtrn (s : State) (core : Nat) (o : TileOp) (f : Flock) (a b : Nat) (slot : W64) : State :=
  let fmt := Slot.fmt slot
  let e := storeWidth fmt
  let es := tileCells.map fun c =>
    let x := a + e * (32 * c.2 + c.1)
    let v := Mem.readNat f.mem x e
    (v, f.tagAt x, (rawNum fmt v).special, false)
  s.putTile core o f.uid b e es

/-- TACCST (R248, R254): the tile is stored, and under SCALEMAX the greatest magnitude is left to be folded. An integer
accumulate format raises nothing (R249), while an element that clamps still counts as a raise for its word's tag (R248;
assumption log 19). -/
def doTaccst (s : State) (core : Nat) (o : TileOp) (f : Flock) (op : TaccstOp) (td a : Nat) (slot : W64) : State :=
  let fmt := Slot.fmt slot
  let e := storeWidth fmt
  let u := s.tileUnit core
  let intAcc := decide (Slot.acc slot = 10)
  let sc (c : Nat × Nat) : Option TW := match op with
    | .plain => none
    | .scale n row => some (u.getSc n.toNat (if row then c.1 else c.2))
    | .scalemax n row _ => some (u.getSc n.toNat (if row then c.1 else c.2))
  -- the elements, each with the tag a 32-bit store of it takes, and the running maximum
  let r := tileCells.foldl (fun (acc : List (Nat × Tag × Bool × Bool) × Option TW × Exc × State) c =>
    let x := storeElem fmt (Slot.sat slot) intAcc (u.getAcc td c.1 c.2) (sc c)
    let (t, s1) := acc.2.2.2.opTag core o x.want
    let m := (toF32 x.val).1
    let best := if (f32 m).isNan then acc.2.1
      else
        let abs := (toF32 (f32 m).abs).1
        match acc.2.1 with
        | none => some (⟨abs, t⟩ : TW)
        | some b => if Num.magLt (f32 b.val) (f32 abs) then some ⟨abs, t⟩ else some b
    (acc.1 ++ [(x.bits, t, x.special, decide (x.raised ≠ 0))], best, if intAcc then 0 else acc.2.2.1 ||| x.raised, s1))
    (([], none, 0, s) : List (Nat × Tag × Bool × Bool) × Option TW × Exc × State)
  let s1 := (r.2.2.2.putTile core o f.uid a e r.1).opRaise core o r.2.2.1
  match op with
  | .scalemax .. =>
    let (m, s2) : TW × State := match r.2.1 with
      | some m => (m, s1)
      | none =>
        let (w, s2) := s1.openWord o.launch (State.tileSource f.idx)
        (⟨0, w.setWidth 16⟩, s2)
    s2.modTile core fun u =>
      { u with queue := updateWhere (fun x => decide (x.id = o.id)) (fun x => { x with fold := some m }) u.queue }
  | _ => s1

/-- TSTAT's record (Table 12.6). -/
def doTstat (s : State) (core : Nat) (o : TileOp) (f : Flock) (a : Nat) : State :=
  let u := s.tileUnit core
  let slotOf (uid : Nat) : Nat := ((s.flock? uid).map (·.slot)).getD 255
  let holder := match u.holder with
    | some uid => slotOf uid
    | none => 255
  let w0 : Nat := 2 ^ 31 + (if u.holder.isSome then 2 ^ 30 else 0) + (if u.releasing then 2 ^ 29 else 0) + holder * 65536 +
    u.queue.length
  let w1 := u.waiting.foldl (fun m uid => m ||| (1#32 <<< slotOf uid)) 0
  s.writeWords f.uid a
    ([BitVec.ofNat 32 w0, w1, u.done + 1, BitVec.ofNat 32 (s.timestamp (dieOf core))].map fun v => ⟨v, o.site⟩)

/-- Perform an operation whole (R252). -/
def performTile (s : State) (core : Nat) (o : TileOp) : State :=
  match s.flock? o.flock with
  | none => s
  | some f =>
    let slot := s.launchSlot o.launch
    let a := o.a.toNat
    match o.instr with
    | .tmma td _ _ sa sb z => s.doProduct core o f td.toNat (slot sa) (slot sb) z
    | .tmmas td _ _ sa sb z => s.doProduct core o f td.toNat (slot sa) (slot sb) z
    | .tmmal td _ tt sl z => s.doTmmal core o f td.toNat tt.toNat (slot sl) z
    | .tlutb tt _ h sl bf => s.doTlutb core f tt.toNat h.toNat a (slot sl) bf o
    | .tzero td => s.modTile core fun u => tileCells.foldl (fun u c => u.setAcc td.toNat c.1 c.2 TW.zero) u
    | .taccld td _ t => s.doTaccld core f td.toNat a t
    | .taccst op td _ sl => s.doTaccst core o f op td.toNat a (slot sl)
    | .ttrn _ _ sl => s.doTtrn core o f a o.b.toNat (slot sl)
    | .taddw td _ sl => s.doTaddw core o f td.toNat a (slot sl)
    | .tscan fl td => s.doTscan core o fl td.toNat
    | .tscld sc _ => s.modTile core fun u => (List.range 32).foldl (fun u m => u.setSc sc.toNat m (f.word (a + 4 * m))) u
    | .tstat _ => s.doTstat core o f a
    | _ => s

/-- Cycles an operation occupies the engine (Tables 12.3 and 12.4). -/
def tileCycles (s : State) (o : TileOp) : Nat :=
  let slot := s.launchSlot o.launch
  match o.instr with
  | .tmma _ _ _ sa sb _ => tmmaCycles false (slot sa) (slot sb)
  | .tmmas _ _ _ sa sb _ => tmmaCycles true (slot sa) (slot sb)
  | .tmmal .. | .tlutb .. => 2
  | .tzero _ | .tscld .. | .tstat _ => 1
  | _ => 4

/-- Whether the operation at the head of the queue may start, or has run its cycles, or waits to fold. -/
def tileStartable (s : State) (core : Nat) : Option TileOp :=
  match (s.tileUnit core).queue with
  | o :: _ => if o.until_.isNone && decide (o.ready ≤ s.cycle core) && ((s.launch? o.launch).any (·.running)) then some o else none
  | [] => none
def tileDue (s : State) (core : Nat) : Option TileOp :=
  match (s.tileUnit core).queue with
  | o :: _ =>
    match o.until_ with
    | some t => if !o.done && decide (t ≤ s.cycle core) then some o else none
    | none => none
  | [] => none
def tileFolding (s : State) (core : Nat) : Option TileOp :=
  match (s.tileUnit core).queue with
  | o :: _ => if o.done && o.fold.isSome && !s.waits o.fn (.fold core) then some o else none
  | [] => none

/-- Complete the head operation (R249, R250, R252): exceptions go to FSR; an enabled one, or a failed fold, sets TERR and
ENGERR.TILE. -/
def completeTile (s : State) (core : Nat) (o : TileOp) : State :=
  let s1 := s.modTile core fun u => { u with queue := u.queue.filter (fun x => !decide (x.id = o.id)), done := u.done + 1 }
  let enabled := match s.thread? o.tid with
    | some t => decide (o.raised &&& t.sys.fcr ≠ 0)
    | none => false
  let code := if o.code ≠ 0 then o.code else if enabled then 1 else 0
  let s2 := s1.modSys o.tid fun y =>
    { y with fsr := y.fsr ||| o.raised, terr := if code = 0 then y.terr else BitVec.ofNat 8 code }
  (s2.finishOp o.tid o.id (decide (code ≠ 0))).tileSettle core

end State

/-- TILE_OP_START (R252, R256): the operation at the head of the queue occupies the engine. -/
def execTileOpStart (core : Nat) (s : State) : Host.Outcome State Fault Refusal :=
  match s.tileStartable core with
  | none => .next s
  | some o =>
    let t := s.cycle core + s.tileCycles o
    .next (s.modTile core fun u =>
      { u with queue := updateWhere (fun x => decide (x.id = o.id)) (fun x => { x with until_ := some t }) u.queue })

/-- Whether an operation that is due waits for the origin unit's reserve (R68). -/
def State.tileHeld (s : State) (core : Nat) (o : TileOp) : Bool := s.birthHeld core o.launch fun s => s.performTile core o

/-- TILE_OP_COMPLETE (R252): the operation is performed whole, and completes unless it has a fold to make. -/
def execTileOpComplete (core : Nat) (s : State) : Host.Outcome State Fault Refusal :=
  match s.tileDue core with
  | none => .next s
  | some o =>
    if s.tileHeld core o then .next s else
    let s1 := (s.performTile core o).modTile core fun u =>
      { u with queue := updateWhere (fun x => decide (x.id = o.id)) (fun x => { x with done := true }) u.queue }
    match (s1.tileUnit core).queue with
    | p :: _ => if p.fold.isSome then .next s1 else .next (s1.completeTile core p)
    | [] => .next s1

namespace State

/-- Whether a fold's word lies where its flock may not write in deterministic mode (R320). -/
def foldOutside (s : State) (o : TileOp) : Bool :=
  match s.detRanges o.launch, s.flock? o.flock with
  | some rs, some f => rangeBad rs f.idx o.b.toNat 4
  | _, _ => false

/-- The fold that a core's engine has to make, with the station it goes to: none where it ends before it gets there. -/
def foldStation (s : State) (core : Nat) : Option (TileOp × Nat) :=
  match s.tileFolding core with
  | none => none
  | some o =>
    if s.foldOutside o then none
    else
      match (s.translate (coreLoc core) o.fn o.b .atomic).1 with
      | .ok pa tier _ _ => if 2 ≤ tier then none else some (o, stationOf tier pa)
      | _ => none

/-- Whether a fold can go on: its access is not held at its station's gate (R328). -/
def foldDue (s : State) (core : Nat) : Bool :=
  (s.tileFolding core).isSome && (s.foldStation core).all fun x => s.gateOpen x.1.launch x.2 x.1.logical

end State

/-- TILE_FOLD (R254, R255): the maximum is folded into the scale word at its station, or the fold fails. -/
def execTileFold (core : Nat) (s : State) : Host.Outcome State Fault Refusal :=
  match s.tileFolding core with
  | none => .next s
  | some o =>
    let va := o.b.toNat
    if s.foldOutside o then .next (s.completeTile core { o with code := 7 })
    else
      match s.engineAccess (coreLoc core) o.fn va 4 .atomic with
      | (.err code, s1) => .next (s1.completeTile core { o with code := code })
      | (.wait t, s1) =>
        -- a page that is not present names no home slice (assumption log 5)
        let w := Config.freeWord s1.fresh
        let home : Nat × Nat := match (if t = .hostOwned then s1.frameOf (coreLoc core) o.fn o.b else none) with
          | some (pa, tier) => (stationOf tier pa / 16, stationOf tier pa % 16)
          | none => (wbits w 2 0, wbits w 11 8)
        let (asked, s2) := { s1 with fresh := s1.fresh + 1 }.raiseFault o.fn (.fold core) o.b 2 (State.faultReason t) 2
          home.1 home.2
        if asked then .next s2 else .next (s2.completeTile core { o with code := 6 })
      | (.ok pa tier tagged, s1) =>
        let st := stationOf tier pa
        if !s1.gateOpen o.launch st o.logical then .next s
        else
          let old := s1.gWord pa tier tagged 0
          let m := o.fold.getD TW.zero
          let (v, t) := atomNew .amax old m 0
          let tag := if t = .b then m.tag else old.tag
          .next (((s1.gPut pa tier tagged ⟨v, tag⟩).stationDone o.launch st o.logical).completeTile core o)

end Sys2Proof.Machine
end

