-- ==== Sys2Proof/Machine/Leave.lean ====
section
/-!
DEFINITION. Threads and groups that come and go (R79, R81, R83, R146), and safe points (R157, R202).
-/
namespace Sys2Proof.Machine

/-- Registers, flags and counters of a thread that has nothing (R79). -/
def Thread.blank (present : Bool) (pc : W64) (sys : SysRegs) (ready : Nat) : Thread :=
  { present := present, pc := pc, wpc := pc, rf := RegFile.fresh, flags := 0, flagged := [], outs := [], nextIssue := ready,
    readySince := none, passed := 0, sleep := .awake, sys := sys, mts := [], lastScratch := 0, hashq := [], parity := [], fatal := none,
    batch := BatchSt.fresh, stop := none, cleared := 0 }

/-- An absent lane (R81). -/
def Thread.absent : Thread := Thread.blank false 0 (SysRegs.fresh 0 false 0) 0

/-- A thread as the shepherd creates it (R79): at word 0 of its launch's code. -/
def Thread.created (r : LaunchRec) (logid : W32) (ready : Nat) : Thread :=
  Thread.blank true r.code (SysRegs.fresh r.tagmode r.schk logid) ready

namespace State

/-- The port a new group is bound to: the one with the fewest resident groups, the lowest on a tie (R83). -/
def freePort (s : State) (core : Nat) : Nat :=
  let count (p : Nat) : Nat := s.groups.countP fun g => decide (g.core = core ∧ g.port = p)
  (List.range 8).foldl (fun best p => if count p < count best then p else best) 0

/-- Create a group on a core (R83). -/
def createGroup (s : State) (launch core slot gidx logical : Nat) (lanes : List Thread) : State :=
  let g : Group :=
    { uid := s.nextUid, launch := launch, core := core, port := s.freePort core, slot := slot, gidx := gidx,
      logical := logical, lanes := lanes, q0 := none, q1 := none }
  let s1 := { s with groups := s.groups ++ [g], nextUid := s.nextUid + 1 }
  -- a deterministic port without a current group takes one (R94)
  if (AL.find? (s1.port core g.port).current launch).isSome then s1 else s1.switchPort core g.port launch []

/-- A thread leaves its lane (R81, R146): the region it is a member of closes, its registers go, it no longer counts at
barriers, the group frees its slot with the last lane that holds one, and the tile reservation may be released (R238). The
last lane that is present is a switch point (R94): lanes asleep in SUSPEND, whose rows are still to be placed, are not
(R171). -/
def leaveSlot (s : State) (t : ThreadId) : State :=
  match s.group? t.g with
  | none => s
  | some g =>
    let s1 := (s.closeRegion t).modThread t fun _ => Thread.absent
    let left : List Thread := ((s1.group? t.g).map (·.lanes)).getD []
    let s2 :=
      if left.any fun x => x.present && !decide (x.sleep = .suspend) then s1
      else
        let s3 := if left.any (·.present) then s1
          else { s1 with groups := s1.groups.filter fun x => !decide (x.uid = t.g) }
        if s1.isCurrent g then s3.switchPort g.core g.port g.launch [] else s3
    (s2.recheckBarriers g.launch g.core g.slot).tileSettle g.core

end State

/-- EXIT (R146). -/
def execExit (s : State) : Host.Outcome State Fault Refusal :=
  eachThread s fun _ s l => s.leaveSlot l.tid

/-! Safe points (R157). -/

/-- A liveness map from its eight code words (Table 6.3): live registers and ranges, or none where everything counts as
live. -/
def parseMap (window : Nat) (ws : List W64) : Option (List Nat × List (Nat × Nat)) :=
  let bit (n : Nat) : Bool := (ws.getD (n / 64) 0).getLsbD (n % 64)
  let rs := (List.range 4).map fun i => (bits (ws.getD (4 + i) 0) 31 0, bits (ws.getD (4 + i) 0) 63 32)
  let bad := decide (ws.length ≠ 8) || ((List.range 16).any fun i => bit (240 + i)) ||
    rs.any fun r => decide (r.1 % 64 ≠ 0) || decide (r.2 % 64 ≠ 0) || decide (window < r.1 + r.2)
  if bad then none
  else some ((List.range 240).filter bit, rs.filter fun r => decide (r.2 ≠ 0))

/-- SAFEPT (R157, R202): under a stop request of its partition the thread stops before its next word, with the live state of
the map. A quad region stops whole: its members that do not execute the word stop with everything live. -/
def execSafept (off : BitVec 16) (s : State) : Host.Outcome State Fault Refusal :=
  match s.cur with
  | none => .next s
  | some c =>
    if !s.stopping c.launch then .next s
    else
      match s.recOf c with
      | none => .next s
      | some r =>
        let a := r.addrOf (s.idxNow c + 1 + off.signExtend 32)
        let ((ws, _), s1) := s.codeWords c.core c.launch a 8
        eachThread s1 fun _ s l =>
          match s.flockOf? l.g with
          | none => s
          | some f =>
            let others := match (s.group? l.g).bind (·.region l.lane) with
              | some r => if r.members.contains l.lane then r.members else []
              | none => []
            (others.foldl (fun s m => s.modThread ⟨l.g, m⟩ fun t =>
              if t.present && t.stop.isNone then { t with stop := some ⟨false, none⟩ } else t) s).modThread l.tid fun t =>
                { t with stop := some ⟨false, parseMap f.size ws⟩, sleep := .stopped }

end Sys2Proof.Machine
end

