-- ==== Sys2Proof/Machine/Pens.lean ====
section
/-!
DEFINITION. Pens (R258 to R276): configuration, suspension into frame tiles, waking, flushing and holding, resumption,
spills and reloads, and the status records.
-/
namespace Sys2Proof.Machine

namespace State

def modPen (s : State) (fl p : Nat) (f : Pen → Pen) : State :=
  s.modFlock fl fun x =>
    match AL.find? x.pens p with
    | some pen => { x with pens := AL.insert x.pens p (f pen) }
    | none => x

def pen? (s : State) (fl p : Nat) : Option Pen :=
  match s.flock? fl with
  | some f => AL.find? f.pens p
  | none => none

/-- Whether a launch has a pen of a number (R258). -/
def penInRange (s : State) (c : IssueCtx) (p : Nat) : Bool :=
  match s.launch? c.launch with
  | some l => decide (p < l.rec_.pens)
  | none => false

/-- The configured pen of the executing thread's flock, or the trap of R258. -/
def withPen (s : State) (c : IssueCtx) (l : LaneRef) (p : BitVec 4) (tags : Tags3) (k : State → Flock → Pen → State) : State :=
  match s.flockOf? l.g with
  | none => s
  | some f =>
    match AL.find? f.pens p.toNat with
    | some pen => if s.penInRange c p.toNat then k s f pen else s.illegalLane c l 0x10 tags
    | none => s.illegalLane c l 0x10 tags

/-- Queue a pen action as an access of the issuing thread (R265 to R267, R271). -/
def penAction (s : State) (c : IssueCtx) (l : LaneRef) (f : Flock) (addr : Nat) (op : ScratchOp) (tags : Tags3) : State :=
  s.queueScratch c l f false addr op [] none tags

end State

/-! The instructions. -/

def execPencfg (p : BitVec 4) (a : Reg) (s : State) : Host.Outcome State Fault Refusal :=
  eachThread s fun c s l =>
    let x := s.operand l a
    if !s.penInRange c p.toNat then s.illegalLane c l 0x10 (x.tag, 0, 0)
    else s.localAccess c l x.val 32 false (x.tag, 0, 0) fun s f =>
      (s.decideAt c l).queueScratch c l f false x.val.toNat (.pencfg p) [] none (x.tag, 0, 0)

/-- The registers of a liveset bitmap of four code words, and whether a bit at 240 or above is set (R262). -/
def livesetRegs (ws : List W64) : List Nat × Bool :=
  let bit (n : Nat) : Bool := (ws.getD (n / 64) 0).getLsbD (n % 64)
  ((List.range 240).filter bit, (List.range 16).any fun i => bit (240 + i))

namespace State

/-- SUSPEND's checks for a thread, in order (R262); a thread that passes is asleep, its region closed (R89), until its row,
number q, is written at u + 3 + q with the registers as the word reads them (R103, R261). -/
def suspendLane (c : IssueCtx) (wait : Bool) (p : BitVec 4) (a : Reg) (ws : List W64) (bad : Option (W64 × Bool))
    (acc : State × Nat) (l : LaneRef) : State × Nat :=
  let (s, q) := acc
  let x := s.operand l a
  let tags : Tags3 := (x.tag, 0, 0)
  match s.thread? l.tid, s.flockOf? l.g with
  | some t, some f =>
    if t.sys.depth ≠ 0 then (s.illegalLane c l 0x0F tags, q)
    else
      match AL.find? f.pens p.toNat with
      | none => (s.illegalLane c l 0x10 tags, q)
      | some pen =>
        if !s.penInRange c p.toNat then (s.illegalLane c l 0x10 tags, q)
        else
          match bad with
          | some (va, perm) =>
            (s.trapLane c l 0x0E (va.setWidth 32) ((va >>> 32).setWidth 32) tags (if perm then 4 else 0), q)
          | none =>
            let (live, high) := livesetRegs ws
            let alloc := match s.recOf c with
              | some r => r.regs
              | none => 0
            let idx := s.idxNow c
            if high || live.any (fun n => decide (alloc ≤ n)) || decide (pen.w < live.length) ||
                (match pen.word with
                 | some w => decide (w ≠ idx)
                 | none => false) then (s.illegalLane c l 0x12 tags, q)
            else
              let key : BitVec 4 := x.val.setWidth 4
              let s1 := s.modPen f.uid p.toNat fun pen => { pen with word := some idx, live := live }
              let s2 := (s1.closeRegion l.tid).modThread l.tid fun t =>
                { t with sleep := .suspend, nextIssue := max t.nextIssue (c.cycle + 4 + q) }
              let s3 := s2.queueScratch { c with cycle := c.cycle + q } l f false 0
                (.suspendRow (!wait) p key (live.map t.rf.getV) t.rf.k) [] none tags
              (s3, q + 1)
  | _, _ => (s, q)

end State

/-- SUSPEND (R262, R263). -/
def execSuspend (wait : Bool) (p : BitVec 4) (a : Reg) (off : BitVec 16) (s : State) : Host.Outcome State Fault Refusal :=
  match s.cur with
  | none => .next s
  | some c =>
    match s.recOf c with
    | none => .next s
    | some r =>
      let at_ := r.addrOf (s.idxNow c + 1 + off.signExtend 32)
      let ((ws, bad), s1) := s.codeWords c.core c.launch at_ 4
      .next ((c.lanes.filter fun l => !l.helper).foldl (State.suspendLane c wait p a ws bad) (s1, 0)).1

namespace State

/-- The pen and frame whose tile starts at a local address in state 1 or 2 (R265). -/
def tileAt (f : Flock) (pens addr : Nat) : Option (Nat × Nat) :=
  (f.pens.filter fun e => decide (e.1 < pens)).findSome? fun e =>
    ((f.usedFrames e.2).find? fun n =>
      decide (Flock.frameAddr e.2 n = addr) && decide (Flock.hState (f.header0 e.2 n) ≠ 3)).map fun n => (e.1, n)

end State

/-- PENWAKE.MASK (R265): an address that is no multiple of 64 traps ALIGN, and a multiple of 64 that is not the start of a
tile traps ILLEGAL (assumption log 23). -/
def execPenwakeMask (a b : Reg) (s : State) : Host.Outcome State Fault Refusal :=
  eachThread s fun c s l =>
    let x := s.operand l a
    let y := s.operand l b
    let tags : State.Tags3 := (x.tag, y.tag, 0)
    match s.flockOf? l.g, s.recOf c with
    | some f, some r =>
      if x.val.toNat % 64 ≠ 0 then s.trapLane c l 0x04 x.val 0 tags (State.writeDetail true)
      else
        match State.tileAt f r.pens x.val.toNat with
        | none => s.illegalLane c l 0x10 tags
        | some _ => s.localAccess c l x.val 64 true tags fun s f =>
            s.penAction c l f x.val.toNat (.penwakeMask (y.val.setWidth 8)) tags
    | _, _ => s
def execPenwakeWord (p : BitVec 4) (a : Reg) (s : State) : Host.Outcome State Fault Refusal :=
  eachThread s fun c s l =>
    let x := s.operand l a
    s.withPen c l p (x.tag, 0, 0) fun s f _ => s.penAction c l f 0 (.penwakeWord p x.val) (x.tag, 0, 0)
def execPenflush (p : BitVec 4) (bin : Option Reg) (s : State) : Host.Outcome State Fault Refusal :=
  eachThread s fun c s l =>
    let x : TW := match bin with
      | some r => s.operand l r
      | none => TW.zero
    s.withPen c l p (x.tag, 0, 0) fun s f _ =>
      s.penAction c l f 0 (.penflush p (bin.map fun _ => x.val.setWidth 4)) (x.tag, 0, 0)
def execPenhold (rel : Bool) (p : BitVec 4) (a : Reg) (s : State) : Host.Outcome State Fault Refusal :=
  eachThread s fun c s l =>
    let x := s.operand l a
    s.withPen c l p (x.tag, 0, 0) fun s f _ =>
      s.penAction c l f 0 (.penhold rel p (if x.val.getLsbD 4 then none else some (x.val.setWidth 4))) (x.tag, 0, 0)
def execPenstat (p : BitVec 4) (a : Reg) (s : State) : Host.Outcome State Fault Refusal :=
  eachThread s fun c s l =>
    let x := s.operand l a
    s.withPen c l p (x.tag, 0, 0) fun s _ _ => s.localAccess c l x.val 64 true (x.tag, 0, 0) fun s f =>
      s.penAction c l f x.val.toNat (.penstat p) (x.tag, 0, 0)
def execPentile (p : BitVec 4) (a b : Reg) (s : State) : Host.Outcome State Fault Refusal :=
  eachThread s fun c s l =>
    let x := s.operand l a
    let y := s.operand l b
    s.withPen c l p (x.tag, y.tag, 0) fun s _ _ => s.localAccess c l x.val 64 true (x.tag, y.tag, 0) fun s f =>
      s.penAction c l f x.val.toNat (.pentile p (y.val.setWidth 4)) (x.tag, y.tag, 0)

/-! At their points. -/

namespace State

/-- Write words with the null tag. -/
def putZeroTag (s : State) (fl a : Nat) (ws : List W32) : State := s.writeWords fl a (ws.map fun w => ⟨w, 0⟩)

/-- PENCFG at its point (R259): its checks, or the pen configured with every frame free. -/
def pencfgPoint (s : State) (a : ScratchAcc) (f : Flock) (p : BitVec 4) : State :=
  let w (i : Nat) : W32 := (f.word (a.addr + 4 * i)).val
  let fbase := (w 0).toNat
  let wid := wbits (w 1) 15 8
  let nt := wbits (w 1) 7 0
  let obase : W64 := w 3 ++ w 2
  let ocap := wbits (w 4) 15 0
  let illegal (reason : W32) : State := s.trapAt a 0x01 reason a.hi
  let busy := match AL.find? f.pens p.toNat with
    | some pen => !pen.spilled.isEmpty || (f.usedFrames pen).any fun n => decide (Flock.hFill (f.header0 pen n) ≠ 0)
    | none => false
  if busy then illegal 0x10
  else if decide (fbase % 64 ≠ 0) || decide (wbits (w 1) 31 16 ≠ 0) || decide (wid % 8 ≠ 0) || decide (wid < 8) ||
      decide (64 < wid) || decide (nt = 0) || decide (f.size < fbase + nt * (64 + 32 * wid)) || decide (obase.toNat % 64 ≠ 0) ||
      decide (2 ^ 48 ≤ obase.toNat) || decide (wbits (w 4) 31 16 ≠ 0) || decide (256 < ocap) ||
      (decide (obase = 0) && decide (ocap ≠ 0)) || ([5, 6, 7].any fun i => decide (w i ≠ 0)) then illegal 0x11
  else
    let pen : Pen :=
      { fbase := fbase, w := wid, nt := nt, obase := obase, ocap := ocap, word := none, live := [], hold := 0, ages := [],
        spilled := [], nextAge := 0, spill := none, reload := none }
    let s1 := s.modFlock f.uid fun x => { x with pens := AL.insert x.pens p.toNat pen }
    ((List.range nt).foldl (fun s n => s.putZeroTag f.uid (Flock.frameAddr pen n) [0]) s1).decided a.lane

/-- The open tile of a bin, by frame. -/
def openTile (f : Flock) (pen : Pen) (key : Nat) : Option Nat :=
  (f.usedFrames pen).find? fun n => decide (Flock.hState (f.header0 pen n) = 1) && decide (Flock.hKey (f.header0 pen n) = key)

/-- Write words of a virtual range as the pen unit's copy (R264): how many it has written and what stopped it, if anything. -/
def spillWords (s : State) (core fn va : Nat) (done : Nat) : List TW → (Nat × Option (Sum Trans Nat)) × State
  | [] => ((done, none), s)
  | w :: ws =>
    match s.engineAccess (coreLoc core) fn va 4 .write with
    | (.ok pa tier tagged, s1) => (s1.gPut pa tier tagged w).spillWords core fn (va + 4) (done + 1) ws
    | (.wait t, s1) => ((done, some (.inl t)), s1)
    | (.err code, s1) => ((done, some (.inr code)), s1)

/-- Read words of a virtual range as the pen unit's copy (R268). -/
def reloadWords (s : State) (core fn va : Nat) (site : Tag) : Nat → List TW → (List TW × Option (Sum Trans Nat)) × State
  | 0, acc => ((acc, none), s)
  | n + 1, acc =>
    match s.engineAccess (coreLoc core) fn va 4 .read with
    | (.ok pa tier tagged, s1) => s1.reloadWords core fn (va + 4) site n (acc ++ [s1.gWord pa tier tagged site])
    | (.wait t, s1) => ((acc, some (.inl t)), s1)
    | (.err code, s1) => ((acc, some (.inr code)), s1)

/-- What the placing of a row comes to. -/
inductive Placed where
  | ok | blocked
  | full (code : Nat)

/-- The spill under way in a pen, or the one to begin: the oldest closed tile that is not held, and the lowest free overflow
slot (R264). -/
def spillOf (f : Flock) (pen : Pen) : Option SpillRun :=
  match pen.spill with
  | some r => some r
  | none =>
    let closed := pen.ages.filter fun e =>
      decide (Flock.hState (f.header0 pen e.1) = 2) && !pen.hold.getLsbD (Flock.hKey (f.header0 pen e.1))
    match (sortBy (fun a b : Nat × Nat => decide (a.2 < b.2)) closed).head?,
        (List.range pen.ocap).find? fun i => pen.spilled.all fun x => !decide (x.slot = i) with
    | some v, some n => some ⟨v.1, n, 0, false⟩
    | _, _ => none

/-- Spill a tile of a pen, freeing its frame (R264): a copy that goes on from its checkpoint where it waited for the fault
service (R217, R274). -/
def spillTile (s : State) (core p : Nat) (f : Flock) (pen : Pen) : Placed × State :=
  let set (s : State) (r : Option SpillRun) : State := s.modPen f.uid p fun q => { q with spill := r }
  match spillOf f pen, s.launch? f.launch with
  | some r, some l =>
    let size := 64 + 32 * pen.w
    let va := pen.obase.toNat + r.slot * size
    let a := Flock.frameAddr pen r.frame
    let words := (List.range (size / 4)).map fun i => f.word (a + 4 * i)
    let outside := match s.detRanges f.launch with
      | some rs => rangeBad rs f.idx va size
      | none => false
    if r.refused then (.full 6, set s none)
    else if outside then (.full 8, set s none)
    else
      match s.spillWords core l.fn (va + 4 * r.next) r.next (words.drop r.next) with
      | ((_, none), s1) =>
        let t : SpillTile := ⟨r.slot, AL.get 0 pen.ages r.frame, (words.take 16).map (·.val), false⟩
        (.ok, (s1.modPen f.uid p fun q =>
          { q with spilled := q.spilled ++ [t], ages := AL.erase q.ages r.frame, spill := none }).putZeroTag f.uid a [0])
      | ((n, some (.inl t)), s1) =>
        let (asked, s2) := s1.raiseFault l.fn (.pen f.uid p false) (BitVec.ofNat 64 (va + 4 * n)) 1 (faultReason t) 4
          (coreX core) (coreY core)
        if asked then (.blocked, set s2 (some { r with next := n })) else (.full 6, set s2 none)
      | ((_, some (.inr code)), s1) => (.full code, set s1 none)
  | _, _ => (.full 0, s)

/-- Place a suspending thread's row (R263, R264). -/
def placeRow (s : State) (core : Nat) (q : SuspendReq) : Placed × State :=
  match s.flock? q.flock, s.thread? q.lane.tid with
  | some f, some t =>
    match AL.find? f.pens q.pen with
    | none => (.full 0, s)
    | some pen =>
      let ready : Placed × State := if pen.spill.isSome then s.spillTile core q.pen f pen
        else if (openTile f pen q.key).isSome then (.ok, s)
        else if ((List.range pen.nt).any fun n => decide (Flock.hState (f.header0 pen n) = 0)) then (.ok, s)
        else s.spillTile core q.pen f pen
      match ready with
      | (.ok, s1) =>
        match s1.flock? q.flock, s1.pen? q.flock q.pen with
        | some f, some pen =>
          let held : Nat := if pen.hold.getLsbD q.key then 2 ^ 26 else 0
          -- the tile, opened first where the bin has none
          let (n, s2) : Nat × State := match openTile f pen q.key with
            | some n => (n, s1)
            | none =>
              let n := ((List.range pen.nt).find? fun n => decide (Flock.hState (f.header0 pen n) = 0)).getD 0
              let hdr : List W32 := [BitVec.ofNat 32 (held + 2 ^ 24 + q.key * 65536), (pen.word.getD 0) + 1] ++ List.replicate 14 0
              (n, (s1.putZeroTag f.uid (Flock.frameAddr pen n) hdr).modPen f.uid q.pen fun p =>
                { p with ages := AL.insert p.ages n p.nextAge, nextAge := p.nextAge + 1 })
          match s2.flock? q.flock with
          | none => (.full 0, s2)
          | some f =>
            let a := Flock.frameAddr pen n
            let h := f.header0 pen n
            let row := ((List.range 8).find? fun i => !h.getLsbD i).getD 7
            let words := (List.range pen.w).map fun i => q.row.getD i TW.zero
            let fill := Flock.hFill h ||| 2 ^ row
            let wake := (Flock.hWake h &&& (0xFF - 2 ^ row)) ||| (if q.ready then 2 ^ row else 0)
            let st := if fill = 0xFF then 2 else 1
            let h' : W32 := BitVec.ofNat 32 (held + st * 2 ^ 24 + q.key * 65536 + wake * 256 + fill)
            let kb := f.word (a + 40 + row / 4 * 4)
            let kv : W32 := (kb.val &&& ~~~((0xFF : W32) <<< (8 * (row % 4)))) ||| ((q.preds.setWidth 32 >>> 1) <<< (8 * (row % 4)))
            let s3 := (s2.writeWords f.uid (a + 64 + 4 * row * pen.w) words).putZeroTag f.uid (a + 8 + 4 * row) [t.sys.logid]
            (.ok, ((s3.putZeroTag f.uid (a + 40 + row / 4 * 4) [kv]).putZeroTag f.uid a [h']).leaveSlot q.lane.tid)
        | _, _ => (.full 0, s1)
      | r => r
  | _, _ => (.ok, s)

/-- A thread that cannot be placed traps PENFULL (R264). -/
def penFull (s : State) (core : Nat) (q : SuspendReq) (code : Nat) : State :=
  let s1 := if code = 0 then s else s.modSys q.lane.tid fun y => { y with cerrCopy := BitVec.ofNat 8 code }
  s1.takeTrap q.lane.tid ⟨0x13, BitVec.ofNat 32 q.pen, 0, q.tag, 0, 0, 0⟩ q.pc (s.cycle core + 1)

/-- Whether the pen of a waiting thread has a spill under way (R264). -/
def spilling (s : State) (q : SuspendReq) : Bool := (s.pen? q.flock q.pen).any (·.spill.isSome)

/-- Whether two threads wait for the same pen: such threads are placed in order, and those of other pens do not wait for
them (R263, assumption log 77). -/
def samePen (q r : SuspendReq) : Bool := decide (q.flock = r.flock ∧ q.pen = r.pen)

/-- Try to place a thread: whether it still waits for a spill, one that cannot be placed having trapped (R264). -/
def tryRow (s : State) (core : Nat) (q : SuspendReq) : Bool × State :=
  match s.placeRow core q with
  | (.ok, s1) => (false, s1)
  | (.blocked, s1) => (true, s1)
  | (.full code, s1) => (false, s1.penFull core q code)

/-- Try the threads that wait on a core, each pen's in order, but for those held (R264). -/
def drainSuspends (s : State) (core : Nat) (held : SuspendReq → Bool) : State :=
  let r := (s.core core).suspends.foldl (fun (r : State × List SuspendReq) q =>
    if held q || r.2.any (samePen q) then (r.1, r.2 ++ [q])
    else
      let (waits, s1) := r.1.tryRow core q
      (s1, if waits then r.2 ++ [q] else r.2)) (s, [])
  r.1.modCore core fun k => { k with suspends := r.2 }

/-- The row of SUSPEND at its cycle: behind the threads of its pen that still wait for a spill. -/
def suspendPoint (s : State) (a : ScratchAcc) (ready : Bool) (p key : BitVec 4) (row : List TW) (preds : BitVec 8) : State :=
  let q : SuspendReq := ⟨a.lane, a.flock, p.toNat, key.toNat, ready, a.pc, a.tags.1, row, preds⟩
  let (waits, s1) := if (s.core a.core).suspends.any (samePen q) then (true, s) else s.tryRow a.core q
  if waits then s1.modCore a.core fun k => { k with suspends := k.suspends ++ [q] } else s1

/-- PENWAKE.MASK at its point, on the tile that stands at the address then (R265). -/
def penwakeMaskPoint (s : State) (a : ScratchAcc) (f : Flock) (mask : Byte) : State :=
  let h := Mem.read32 f.mem a.addr
  let st := Flock.hState h
  if st = 1 ∨ st = 2 then
    let m := mask.toNat &&& Flock.hFill h
    s.putZeroTag f.uid a.addr [h ||| BitVec.ofNat 32 (m * 256)]
  else s

/-- PENWAKE.WORD at its point (R265). -/
def penwakeWordPoint (s : State) (f : Flock) (p : BitVec 4) (id : W32) : State :=
  match AL.find? f.pens p.toNat with
  | none => s
  | some pen =>
    let rowOf (h0 : W32) (ids : Nat → W32) : Option Nat :=
      (List.range 8).find? fun n => h0.getLsbD n && decide (ids n = id)
    let resident := (f.usedFrames pen).findSome? fun n =>
      let a := Flock.frameAddr pen n
      let h := f.header0 pen n
      if Flock.hState h = 3 then none else (rowOf h fun r => Mem.read32 f.mem (a + 8 + 4 * r)).map fun r => (a, h, r)
    match resident with
    | some (a, h, r) => s.putZeroTag f.uid a [h ||| (1#32 <<< (8 + r))]
    | none =>
      s.modPen f.uid p.toNat fun pen =>
        match pen.spilled.find? fun t => (rowOf (wordAt t.header 0) fun r => wordAt t.header (2 + r)).isSome with
        | none => pen
        | some t =>
          let r := (rowOf (wordAt t.header 0) fun r => wordAt t.header (2 + r)).getD 0
          { pen with
            spilled := updateWhere (fun x => decide (x.slot = t.slot))
              (fun x => { x with header := (wordAt x.header 0 ||| (1#32 <<< (8 + r))) :: x.header.drop 1 }) pen.spilled }

/-- PENFLUSH at its point (R266). -/
def penflushPoint (s : State) (f : Flock) (p : BitVec 4) (bin : Option (BitVec 4)) : State :=
  match AL.find? f.pens p.toNat with
  | none => s
  | some pen =>
    (f.usedFrames pen).foldl (fun s n =>
      let h := f.header0 pen n
      let mine := match bin with
        | some b => decide (Flock.hKey h = b.toNat)
        | none => true
      if decide (Flock.hState h = 1) && mine then
        s.putZeroTag f.uid (Flock.frameAddr pen n) [(h &&& 0xFCFFFFFF) ||| 0x02000000]
      else s) s

/-- PENHOLD at its point (R267): a tile that resumes is unaffected. -/
def penholdPoint (s : State) (f : Flock) (rel : Bool) (p : BitVec 4) (bin : Option (BitVec 4)) : State :=
  match AL.find? f.pens p.toNat with
  | none => s
  | some pen =>
    let mask : BitVec 16 := match bin with
      | some b => 1#16 <<< b.toNat
      | none => 0xFFFF
    let s1 := s.modPen f.uid p.toNat fun q => { q with hold := if rel then q.hold &&& ~~~mask else q.hold ||| mask }
    (f.usedFrames pen).foldl (fun s n =>
      let h := f.header0 pen n
      if mask.getLsbD (Flock.hKey h) && !decide (Flock.hState h = 3) then
        s.putZeroTag f.uid (Flock.frameAddr pen n) [if rel then h &&& 0xFBFFFFFF else h ||| 0x04000000]
      else s) s1

/-- Bits set in a number's low byte. -/
def popByte (n : Nat) : Nat := ((List.range 8).filter fun i => n / 2 ^ i % 2 = 1).length

/-- Rows asleep in a pen, as (bin, rows) of each tile, resident or spilled. -/
def sleepingRows (f : Flock) (pen : Pen) : List (Nat × Nat) :=
  ((f.usedFrames pen).filterMap fun n =>
    let h := f.header0 pen n
    if Flock.hState h = 3 then none else some (Flock.hKey h, popByte (Flock.hFill h))) ++
  pen.spilled.map fun t => (Flock.hKey (wordAt t.header 0), popByte (Flock.hFill (wordAt t.header 0)))

/-- The PENSTAT record (Table 14.3). -/
def penstatPoint (s : State) (a : ScratchAcc) (f : Flock) (p : BitVec 4) : State :=
  match AL.find? f.pens p.toNat with
  | none => s
  | some pen =>
    let rows := sleepingRows f pen
    let bin (k : Nat) : Nat := (rows.filter fun r => decide (r.1 = k)).foldl (fun n r => n + r.2) 0
    let words : List Nat :=
      [2 ^ 31 + (pen.nt - (f.usedFrames pen).length) % 256 * 256 + pen.nt % 256, pen.hold.toNat, pen.ocap * 65536 + pen.spilled.length,
       rows.foldl (fun n r => n + r.2) 0] ++
      ((List.range 8).map fun i => bin (2 * i) + 65536 * bin (2 * i + 1)) ++
      [f.resumed, (pen.word.getD 0xFFFFFFFF).toNat, 0, 0]
    s.writeWords f.uid a.addr (words.map fun w => ⟨BitVec.ofNat 32 w, a.site⟩)

/-- The PENTILE record (Table 14.4), its counts of 8 bits. -/
def pentilePoint (s : State) (a : ScratchAcc) (f : Flock) (p b : BitVec 4) : State :=
  match AL.find? f.pens p.toNat with
  | none => s
  | some pen =>
    let mine := (f.usedFrames pen).filter fun n =>
      decide (Flock.hState (f.header0 pen n) ≠ 3) && decide (Flock.hKey (f.header0 pen n) = b.toNat)
    let old := sortBy (fun x y : Nat => decide (AL.get 0 pen.ages x < AL.get 0 pen.ages y)) mine
    let sp := (pen.spilled.filter fun t => decide (Flock.hKey (wordAt t.header 0) = b.toNat)).length
    let words : List Nat := [2 ^ 31 + sp % 256 * 256 + mine.length % 256] ++
      (List.range 15).map fun i => match old[i]? with
        | some n => Flock.frameAddr pen n
        | none => 0
    s.writeWords f.uid a.addr (words.map fun w => ⟨BitVec.ofNat 32 w, a.site⟩)

/-! Resumption (R268 to R270). -/

/-- A tile that may resume: its flock, pen, and frame or overflow slot. -/
structure Resumable where
  flock : Nat
  pen : Nat
  frame : Option Nat
  slot : Nat

/-- Whether a header's tile is resumable, its hold aside (R268). -/
def headerReady (h : W32) : Bool := decide (Flock.hState h = 2) && decide (Flock.hFill h &&& Flock.hWake h = Flock.hFill h)

/-- Resident groups of a flock. -/
def flockGroups (s : State) (f : Flock) : List Group :=
  s.groups.filter fun g => decide (g.launch = f.launch ∧ g.core = f.core ∧ g.slot = f.slot)

/-- The tile that resumes next on a core (R268), none while a resumption runs there. A tile that is being spilled and one
whose reload waits for the fault service leave the turn to the others. -/
def nextResume (s : State) (core : Nat) : Option Resumable :=
  if s.scratch.any fun a => decide (a.core = core) && (match a.op with
    | .resumeRow .. => true
    | _ => false) then none
  else
    let fs := (s.flocks.filter fun f => decide (f.core = core)).filter fun f =>
      s.engineRuns f.launch && (match s.launch? f.launch with
        | some l => l.ending.isNone && decide ((s.flockGroups f).length < l.rec_.groups)
        | none => false)
    let all : List (List Nat × Resumable) := fs.flatMap fun f =>
      let lid := ((s.launch? f.launch).map fun l => l.id.toNat).getD 0
      f.pens.flatMap fun e =>
        let pen := e.2
        let res := ((f.usedFrames pen).filter fun n =>
            headerReady (f.header0 pen n) && !pen.hold.getLsbD (Flock.hKey (f.header0 pen n)) &&
            !(pen.spill.any fun r => decide (r.frame = n))).map fun n =>
          ([f.slot, lid, e.1, Flock.hKey (f.header0 pen n), 0, AL.get 0 pen.ages n], (⟨f.uid, e.1, some n, 0⟩ : Resumable))
        let free := (List.range pen.nt).any fun n => decide (Flock.hState (f.header0 pen n) = 0)
        let waiting := (s.launch? f.launch).any fun l => s.waits l.fn (.pen f.uid e.1 true)
        let sp := (pen.spilled.filter fun t =>
            free && !waiting && !t.failed && headerReady (wordAt t.header 0) && !pen.hold.getLsbD (Flock.hKey (wordAt t.header 0))).map fun t =>
          ([f.slot, lid, e.1, Flock.hKey (wordAt t.header 0), 1, t.age], (⟨f.uid, e.1, none, t.slot⟩ : Resumable))
        res ++ sp
    ((sortBy (fun a b : List Nat × Resumable => lexLt a.1 b.1) all).head?).map (·.2)

/-- Begin a resumption: STATE 3, the group created with lanes ready at r + 12, and the row reads queued (R269). Of R58, by
which a resumed thread keeps its FCR and FSR, and R269, by which they are as at creation, the model follows R269
(assumption log 56). -/
def beginResume (s : State) (core : Nat) (f : Flock) (p frame : Nat) (pen : Pen) : State :=
  match s.launch? f.launch with
  | none => s
  | some l =>
    let r := s.cycle core
    let a := Flock.frameAddr pen frame
    let h := f.header0 pen frame
    let used := (s.flockGroups f).map (·.gidx)
    let gidx := ((List.range l.rec_.groups).find? fun i => !used.contains i).getD 0
    let flocks := l.rec_.w * l.rec_.h * l.rec_.flocks
    let logical := flocks * l.rec_.groups + f.resumed * flocks + f.idx
    let resume := Mem.read32 f.mem (a + 4)
    let lane (n : Nat) : Thread :=
      if h.getLsbD n then
        let t := Thread.created l.rec_ (Mem.read32 f.mem (a + 8 + 4 * n)) (r + 12)
        { t with
          pc := l.rec_.addrOf resume,
          rf := { t.rf with
            o := AL.set TW.zero t.rf.o 5 ⟨BitVec.ofNat 32 (Flock.hKey h), 0⟩,
            k := BitVec.ofNat 8 ((Mem.read f.mem (a + 40 + n)).toNat % 128 * 2 + 1) } }
      else Thread.absent
    let gid := s.nextUid
    let s1 := s.createGroup f.launch core f.slot gidx logical ((List.range 8).map lane)
    let s2 := ((s1.recheckBarriers f.launch core f.slot).modFlock f.uid fun x =>
      { x with resumed := (x.resumed + 1) % 2 ^ 32 }).putZeroTag f.uid a [(h &&& 0xFCFFFFFF) ||| 0x03000000]
    let acc (n : Nat) : ScratchAcc :=
      { due := r + 1 + n, core := core, cls := 3, src := 1, port := 0, logical := 0, lane := ⟨gid, n, false⟩, flock := f.uid,
        addr := a + 64 + 4 * n * pen.w, op := .resumeRow p frame n, dests := [], seq := s.issueSeq, flagId := none, pc := 0,
        hi := 0, site := 0, first := 0, mode := 0, fcr := 0, tags := (0, 0, 0) }
    { s2 with scratch := s2.scratch ++ (List.range 8).map acc }

/-- A row read of a resumption (R269); the last frees the frame. -/
def resumeRowPoint (s : State) (a : ScratchAcc) (f : Flock) (p frame n : Nat) : State :=
  match AL.find? f.pens p with
  | none => s
  | some pen =>
    let vals := (List.range pen.live.length).map fun i => f.word (a.addr + 4 * i)
    let s1 := s.modThread a.lane.tid fun t =>
      if !t.present then t
      else { t with rf := (pen.live.zip vals).foldl (fun r e => { r with v := AL.set TW.zero r.v e.1 e.2 }) t.rf }
    if n = 7 then
      (s1.putZeroTag f.uid (Flock.frameAddr pen frame) [0]).modPen f.uid p fun q => { q with ages := AL.erase q.ages frame }
    else s1

/-- Reload a spilled tile into the lowest free frame (R268), its header from the spill directory: a copy that goes on from its
checkpoint where it waited for the fault service (R217, R274). A reload that the service refuses, or that fails, leaves the
tile spilled for good (assumption log 13). -/
def reloadTile (s : State) (core p : Nat) (f : Flock) (pen : Pen) (t : SpillTile) : State :=
  match s.launch? f.launch, (List.range pen.nt).find? fun n => decide (Flock.hState (f.header0 pen n) = 0) with
  | some l, some n =>
    let size := 64 + 32 * pen.w
    let va := pen.obase.toNat + t.slot * size + 64
    let site := siteTag ((pen.word).getD 0) false
    let got := match pen.reload with
      | some r => if r.slot = t.slot then r.words else []
      | none => []
    let fail (s : State) : State := s.modPen f.uid p fun q =>
      { q with
        reload := none,
        spilled := updateWhere (fun x => decide (x.slot = t.slot)) (fun x => { x with failed := true }) q.spilled }
    match s.reloadWords core l.fn (va + 4 * got.length) site (8 * pen.w - got.length) got with
    | ((ws, none), s1) =>
      let a := Flock.frameAddr pen n
      ((s1.writeWords f.uid (a + 64) ws).putZeroTag f.uid a t.header).modPen f.uid p fun q =>
        { q with
          reload := none, spilled := q.spilled.filter (fun x => !decide (x.slot = t.slot)), ages := AL.insert q.ages n t.age }
    | ((ws, some (.inl tr)), s1) =>
      let (asked, s2) := s1.raiseFault l.fn (.pen f.uid p true) (BitVec.ofNat 64 (va + 4 * ws.length)) 0 (faultReason tr) 4
        (coreX core) (coreY core)
      if asked then s2.modPen f.uid p fun q => { q with reload := some ⟨t.slot, ws⟩ } else fail s2
    | ((_, some (.inr _)), s1) => fail s1
  | _, _ => s

end State

/-- PEN_RESUME (R268, R269): the pen unit of a core resumes the next resumable tile, reloading it first where it is
spilled. -/
def execPenResume (core : Nat) (s : State) : Host.Outcome State Fault Refusal :=
  match s.nextResume core with
  | none => .next s
  | some r =>
    match s.flock? r.flock with
    | none => .next s
    | some f =>
      match AL.find? f.pens r.pen with
      | none => .next s
      | some pen =>
        match r.frame with
        | some n => .next (s.beginResume core f r.pen n pen)
        | none =>
          match pen.spilled.find? fun t => decide (t.slot = r.slot) with
          | some t => .next (s.reloadTile core r.pen f pen t)
          | none => .next s

end Sys2Proof.Machine
end

