-- ==== Sys2Proof/Machine/Automaton.lean ====
section
/-!
DEFINITION. The automaton array (R277 to R295): configuration, literals, clauses and votes, the random streams, training,
inference, the image transfers, and the service of its queues.
-/
namespace Sys2Proof.Machine

/-! Random streams (R282). -/

/-- The mixing function. -/
def aaMix (x : W32) : W32 :=
  let x := (x ^^^ (x >>> 16)) * 0x7FEB352D
  let x := (x ^^^ (x >>> 15)) * 0x846CA68B
  x ^^^ (x >>> 16)

def aaStream (g : ArrayCfg) (c j : Nat) (step : W64) : W32 :=
  let s : W32 := g.seed.setWidth 32 ^^^ (g.seed >>> 32).setWidth 32
  aaMix (s ^^^ BitVec.ofNat 32 (c * 1024 + j) ^^^ (step.setWidth 32 * 0x9E3779B9))

/-- The draw of a cell, and the selection draw of a clause. -/
def aaDraw (g : ArrayCfg) (c j : Nat) (step : W64) : Nat := (aaStream g c j step).toNat % 256
def aaSel (g : ArrayCfg) (c : Nat) (step : W64) : Nat := (aaStream g c 0xFFFF step).toNat % 256

/-! Literals, clauses and votes (R280, R281). -/

/-- The value of a literal slot in a sample's bytes (R280). -/
def aaLit (sample : List Byte) (j : Nat) : Bool :=
  let f := j / 2
  (sample.getD (f / 8) 0).getLsbD (f % 8) != decide (j % 2 = 1)

namespace ArrayUnit

def cell (u : ArrayUnit) (c j : Nat) : Byte := AL.get 127 u.cells (c * 1024 + j)

/-- The output of a clause; `empty` for a clause that includes no literal (R281). -/
def output (u : ArrayUnit) (g : ArrayCfg) (lits : List Bool) (empty : Bool) (c : Nat) : Bool :=
  let inc := ((List.range g.nl).zip lits).filter fun p => decide (128 ≤ (u.cell c p.1).toNat)
  if inc.isEmpty then empty else inc.all (·.2)

/-- The vote of a class from the clause outputs (R281). -/
def vote (g : ArrayCfg) (outs : List Bool) (k : Nat) : Int :=
  let p := g.nc / g.k
  (List.range p).foldl (fun (v : Int) i => if outs.getD (k * p + i) false then (if i % 2 = 0 then v + 1 else v - 1) else v) 0

/-- The class sum: the vote within T of 0. -/
def clampSum (g : ArrayCfg) (v : Int) : Int := max (-(g.t : Int)) (min (g.t : Int) v)

/-- The literals of a sample. -/
def literals (g : ArrayCfg) (sample : List Byte) : List Bool := (List.range g.nl).map (aaLit sample)

/-- The words AAINF writes (Table 16.4). -/
def inference (u : ArrayUnit) (g : ArrayCfg) (op : AainfOp) (sample : List Byte) : List W32 :=
  let lits := literals g sample
  let outs := (List.range g.nc).map (u.output g lits false)
  let votes := (List.range g.k).map (vote g outs)
  match op with
  | .clauses =>
    (List.range ((g.nc + 31) / 32)).map fun w =>
      (List.range 32).foldl (fun (x : W32) i => if outs.getD (32 * w + i) false then x ||| (1#32 <<< i) else x) 0
  | .sums => votes.map fun v => (BitVec.ofInt 16 v ++ BitVec.ofInt 16 (clampSum g v) : BitVec 32)
  | .argmax =>
    let best := votes.foldl max (votes.headD 0)
    [(BitVec.ofInt 16 best ++ BitVec.ofNat 16 (votes.idxOf best) : BitVec 32)]

/-- The nudge of a counter (R284). -/
def nudge (v dir : Byte) : Byte :=
  if dir = 1 then (if v = 255 then v else v + 1) else if dir = 0xFF then (if v = 0 then v else v - 1) else v

/-- The changed cells of one clause under feedback of a type (R283). -/
def trainClause (u : ArrayUnit) (g : ArrayCfg) (lits : List Bool) (st : W64) (type c : Nat) : List (Nat × Byte) :=
  let out := if u.output g lits true c then 4 else 0
  ((List.range g.nl).zip lits).filterMap fun p =>
    let v := u.cell c p.1
    let (thr, dir) := g.nudge.getD (type * 8 + out + (if p.2 then 2 else 0) + (if 128 ≤ v.toNat then 1 else 0)) (0, 0)
    if aaDraw g c p.1 st < thr.toNat then some (c * 1024 + p.1, nudge v dir) else none

/-- The changed cells of one fed class (R283). -/
def trainClass (u : ArrayUnit) (g : ArrayCfg) (sample : List Byte) (st : W64) (k : Nat) (firm : Bool) :
    List (Nat × Byte) :=
  let lits := literals g sample
  let p := g.nc / g.k
  let outs := (List.range g.nc).map fun c => decide (c / p = k) && u.output g lits true c
  let sum := clampSum g (vote g outs k)
  let p256 := (128 * (if firm then (g.t : Int) - sum else (g.t : Int) + sum)).toNat / g.t
  (List.range p).flatMap fun i =>
    let c := k * p + i
    if aaSel g c st < p256 then
      u.trainClause g lits st (if firm = decide (i % 2 = 0) then 0 else 1) c
    else []

/-- The cells an AATRN writes (R283, R285). -/
def training (u : ArrayUnit) (g : ArrayCfg) (op : AatrnOp) (sample : List Byte) (b : Nat) : List (Nat × Byte) :=
  let st := g.step
  match op with
  | .firm => u.trainClass g sample st b true
  | .suppress => u.trainClass g sample st b false
  | .auto =>
    u.trainClass g sample st b true ++
      (if 2 ≤ g.k then
        let m := (aaStream g 0xFFFF 0xFFFF st).toNat
        u.trainClass g sample st ((b + 1 + m % (g.k - 1)) % g.k) false
      else [])

def putCells (u : ArrayUnit) (cs : List (Nat × Byte)) : ArrayUnit :=
  { u with cells := cs.foldl (fun m p => AL.set 127 m p.1 p.2) u.cells }

/-- The bytes of a clause's row, and a row put in place. -/
def row (u : ArrayUnit) (nl c : Nat) : List Byte := (List.range nl).map (u.cell c)
def putRow (u : ArrayUnit) (c : Nat) (bs : List Byte) : ArrayUnit :=
  u.putCells (((List.range bs.length).zip bs).map fun p => (c * 1024 + p.1, p.2))

end ArrayUnit

/-! The configuration block (R279, Table 16.2). -/

/-- The block's configuration and the lowest failing detail code, 0 where it passes. -/
def parseArrayBlock (ws : List W32) : ArrayCfg × Nat :=
  let w (i : Nat) : W32 := ws.getD i 0
  let dw (i : Nat) : W64 := w (i + 1) ++ w i
  let byte (i : Nat) : Byte := BitVec.ofNat 8 ((w (i / 4)).toNat / 2 ^ (8 * (i % 4)))
  let nl := wbits (w 0) 31 16
  let nc := wbits (w 0) 15 0
  let t := wbits (w 1) 31 16
  let k := wbits (w 1) 15 0
  let nudge := (List.range 16).map fun i => (byte (32 + 2 * i), byte (33 + 2 * i))
  let g : ArrayCfg := ⟨nc, nl, k, t, dw 2, dw 4, dw 6, nudge⟩
  (g, lowestCode
    [(2, decide (nc < 16 ∨ 2048 < nc ∨ nc % 16 ≠ 0)), (3, decide (nl < 64 ∨ 1024 < nl ∨ nl % 64 ≠ 0)),
     (4, decide (k < 1 ∨ 64 < k ∨ nc % (2 * k) ≠ 0)), (5, decide (t < 1 ∨ 1024 < t)),
     (6, nudge.any fun p => decide (p.2 ≠ 0 ∧ p.2 ≠ 1 ∧ p.2 ≠ 0xFF)),
     (7, decide (g.image ≠ 0 ∧ (g.image.toNat % 64 ≠ 0 ∨ 2 ^ 48 ≤ g.image.toNat)))])

namespace State

def array (s : State) (p : Nat) : ArrayUnit := AL.get ArrayUnit.fresh s.arrays p
def modArray (s : State) (p : Nat) (f : ArrayUnit → ArrayUnit) : State :=
  { s with arrays := AL.modify ArrayUnit.fresh s.arrays p f }

/-! Cells that give way to another function's (R204). -/

/-- Write the rows of a configuration to its image, or read them from it, through the function's tables. -/
def imageOut (s : State) (u : ArrayUnit) (g : ArrayCfg) : State :=
  (List.range g.nc).foldl (fun s c =>
    (s.svcWrite u.fn (g.image + BitVec.ofNat 64 (c * g.nl)) 0
      ((List.range (g.nl / 4)).map fun i =>
        BitVec.ofNat 32 (leNat ((List.range 4).map fun j => u.cell c (4 * i + j))))).2) s
def imageIn (s : State) (u : ArrayUnit) (g : ArrayCfg) : ArrayUnit × State :=
  (List.range g.nc).foldl (fun (r : ArrayUnit × State) c =>
    match r.2.svcRead r.1.fn (g.image + BitVec.ofNat 64 (c * g.nl)) (g.nl / 4) with
    | (some ws, s1) => (r.1.putRow c (ws.flatMap fun w => valueBytes 4 w.val.toNat), s1)
    | (none, s1) => (r.1, s1)) (u, s)

/-- Write bytes at a physical address as a function's access, each line with the checks of its slice (R349): a filtered line
and a partial write to a poisoned one are not performed, and a whole line clears its poison (R354). -/
def putLines (s : State) (fn pa : Nat) (bs : List Byte) : State :=
  (List.range ((pa % 64 + bs.length + 63) / 64)).foldl (fun s i =>
    let lo := max pa (64 * (pa / 64 + i))
    let hi := min (pa + bs.length) (64 * (pa / 64 + i + 1))
    match s.physCheck fn lo 0 (hi - lo) false (decide (hi - lo = 64)) with
    | (.ok, s1) => s1.physPut lo ((bs.drop (lo - pa)).take (hi - lo))
    | (_, s1) => s1) s

/-- The save engine writes to the save area at SAVEBASE (R204), under the function's number (R349): for a
context of a function, or the cells of an array. Where in the area and in which form is not the manual's to say, so the place
and the bytes are free (assumption log 29). -/
def saveArea (s : State) (slot fn : Nat) : State :=
  ({ s with fresh := s.fresh + 1 }).putLines fn (s.shep.savebase.toNat + Config.saveOffset slot fn) (Config.saveImage s.fresh)

/-- Save the array of a paddock: its cells go to its image, or with IMAGE 0 to its function's saved context (R204). -/
def saveArray (s : State) (p : Nat) : State :=
  let u := s.array p
  match u.cfg with
  | none => s
  | some g =>
    let s1 := if g.image = 0 then s.saveArea (4 + p) u.fn else s.imageOut u g
    { s1 with arraySaved := s1.arraySaved ++ [(p, u)], arrays := AL.set ArrayUnit.fresh s1.arrays p { ArrayUnit.fresh with last := u.last } }

/-- Load a saved array into a paddock. -/
def loadArray (s : State) (p : Nat) (u : ArrayUnit) : State :=
  let (u1, s1) := match u.cfg with
    | some g => if g.image = 0 then (u, s) else s.imageIn u g
    | none => (u, s)
  s1.modArray p fun v => { u1 with last := v.last, queue := v.queue, run := v.run }

/-- Admit a function's command to an array: another function's cells are written out, and the function's own loaded back
(R204). -/
def admitArray (s : State) (p fn : Nat) : State :=
  let u := s.array p
  if u.fn = fn ∧ u.owner.isSome then s
  else
    let s1 := if u.owner.isSome then s.saveArray p else s
    match s1.arraySaved.find? fun e => decide (e.1 = p ∧ e.2.fn = fn) with
    | some e => ({ s1 with arraySaved := s1.arraySaved.filter fun x => !decide (x.1 = p ∧ x.2.fn = fn) }).loadArray p e.2
    | none => s1

/-! Issue (R278, R290, R293). -/

/-- Commands of a core in an array's queues. -/
def arrayQueued (u : ArrayUnit) (core : Nat) : Nat := u.queue.countP fun c => decide (c.core = core)

/-- AACFGs of a launch that have issued and are not served. -/
def cfgPending (u : ArrayUnit) (launch : Nat) : List Nat :=
  (u.queue.filter fun c => decide (c.launch = launch) && (match c.instr with
    | .aacfg _ => true
    | _ => false)).map (·.id)

/-- Put a command in the queue of the issuing core. -/
def queueArray (s : State) (c : IssueCtx) (l : LaneRef) (i : Instr) (a : W64) (b : W32) : State :=
  match s.launch? c.launch, s.flockOf? l.g, s.group? l.g, s.thread? l.tid with
  | some la, some f, some g, some th =>
    let p := padOf c.core
    let cmd : ArrayCmd :=
      { id := s.nextUid, instr := i, tid := l.tid, core := c.core, launch := c.launch, fn := la.fn, flock := f.uid, a := a,
        b := b, tagmode := th.sys.tagmode, site := s.siteOf c, logical := g.logical, first := firstLane c l,
        ready := max (c.cycle + 4) (th.lastScratch + 1), cfg := none, after := cfgPending (s.array p) c.launch }
    (({ s with nextUid := s.nextUid + 1 }).modArray p fun u => { u with queue := u.queue ++ [cmd] }).startOp l.tid .aa
      s.nextUid
  | _, _, _, _ => s

/-- The checks of Table 16.5 of a command other than AACFG at issue: the lowest failing code, 0 where all pass. -/
def arrayCheck (s : State) (c : IssueCtx) (l : LaneRef) (badClass badRange : ArrayCfg → Bool) : Nat :=
  let u := s.array (padOf c.core)
  let owned := decide (u.owner = some c.launch) || !(cfgPending u c.launch).isEmpty
  let geo (f : ArrayCfg → Bool) : Bool := match u.latest with
    | some x => f x.1
    | none => false
  let flock := match s.flockOf? l.g with
    | some f => f.uid
    | none => 0
  let other := match u.latest with
    | some x => s.isDet c && decide (x.2.2 ≠ flock)
    | none => false
  lowestCode [(1, !owned), (8, geo badClass), (9, geo badRange), (10, other)]

/-- Whether a command writes its image out (AAST): what TFDET's WRITE says of its traps (R195, R294). -/
def writesImage : Instr → Bool
  | .aast .. => true
  | _ => false

/-- Issue a command other than AACFG (R293): PAD, then its regions, then its global address, then Table 16.5. -/
def issueArray (s0 : State) (c : IssueCtx) (l : LaneRef) (i : Instr) (regions : ArrayCfg → List (W32 × Nat × Nat × Bool))
    (global : Option W64) (badClass badRange : ArrayCfg → Bool) (a : W64) (b : W32) (tags : Tags3) : State :=
  if !s0.padSet c then s0.illegalLane c l 0x14 tags
  else
    match s0.launch? c.launch with
    | none => s0
    | some la =>
      let s := s0.admitArray (padOf c.core) la.fn
      let g : ArrayCfg := match (s.array (padOf c.core)).latest with
        | some x => x.1
        | none => ⟨0, 0, 0, 0, 0, 0, 0, []⟩
      let size := match s.flockOf? l.g with
        | some f => f.size
        | none => 0
      match regionTrap size (regions g) with
      | some (cause, info, write) => s.trapLane c l cause info 0 tags (writeDetail write)
      | none =>
        match global with
        | some x =>
          if x.toNat % 64 ≠ 0 then s.trapLane c l 0x04 (x.setWidth 32) ((x >>> 32).setWidth 32) tags (writeDetail (writesImage i))
          else if 2 ^ 48 ≤ x.toNat then s.trapLane c l 0x0E (x.setWidth 32) ((x >>> 32).setWidth 32) tags (writeDetail (writesImage i))
          else last s
        | none => last s
where
  /-- The checks of Table 16.5, then the queue. -/
  last (s : State) : State :=
    let code := s.arrayCheck c l badClass badRange
    if code ≠ 0 then s.trapLane c l 0x17 (BitVec.ofNat 32 code) 0 tags 0
    else s.queueArray c l i a b

end State

def never (_ : ArrayCfg) : Bool := false

/-- AACFG (R278, R279): its block is read and checked at its scratchpad point. -/
def execAacfg (a : Reg) (s : State) : Host.Outcome State Fault Refusal :=
  eachThread s fun c s l =>
    let x := s.operand l a
    if !s.padSet c then s.illegalLane c l 0x14 (x.tag, 0, 0)
    else
      match s.launch? c.launch with
      | none => s
      | some la =>
        (s.admitArray (padOf c.core) la.fn).localAccess c l x.val 64 false (x.tag, 0, 0) fun s f =>
          ((s.queueArray c l (.aacfg a) (x.val.setWidth 64) 0).decideAt c l).queueScratch c l f false x.val.toNat .aacfg []
            none (x.tag, 0, 0)

def execAainf (op : AainfOp) (a b : Reg) (s : State) : Host.Outcome State Fault Refusal :=
  eachThread s fun c s l =>
    let x := s.operand l a
    let y := s.operand l b
    let size (g : ArrayCfg) : Nat := match op with
      | .clauses => 4 * ((g.nc + 31) / 32)
      | .sums => 4 * g.k
      | .argmax => 4
    s.issueArray c l (.aainf op a b) (fun g => [(x.val, g.nl / 16, 4, false), (y.val, size g, 4, true)]) none never never
      (x.val.setWidth 64) y.val (x.tag, y.tag, 0)

def execAatrn (op : AatrnOp) (a b : Reg) (s : State) : Host.Outcome State Fault Refusal :=
  eachThread s fun c s l =>
    let x := s.operand l a
    let y := s.operand l b
    s.issueArray c l (.aatrn op a b) (fun g => [(x.val, g.nl / 16, 4, false)]) none (fun g => decide (g.k ≤ y.val.toNat % 64)) never
      (x.val.setWidth 64) y.val (x.tag, y.tag, 0)

/-- AALD and AAST: the image's region where it is local, its address where it is global (R294). -/
def State.issueImage (s : State) (c : IssueCtx) (l : LaneRef) (i : Instr) (a b : Reg) : State :=
  let (x, xt) := s.pairOperand l a
  let y := s.operand l b
  let first := wbits y.val 15 0
  let count := wbits y.val 31 16
  let bad (g : ArrayCfg) : Bool := decide (first % 16 ≠ 0 ∨ count % 16 ≠ 0 ∨ count = 0 ∨ g.nc < first + count)
  if x.getLsbD 63 then
    s.issueArray c l i (fun g => [(x.setWidth 32, count * g.nl, 64, writesImage i)]) none never bad x y.val (xt, y.tag, 0)
  else s.issueArray c l i (fun _ => []) (some x) never bad x y.val (xt, y.tag, 0)

def execAald (a b : Reg) (s : State) : Host.Outcome State Fault Refusal :=
  eachThread s fun c s l => s.issueImage c l (.aald a b) a b
def execAast (a b : Reg) (s : State) : Host.Outcome State Fault Refusal :=
  eachThread s fun c s l => s.issueImage c l (.aast a b) a b

/-- AAQ (R295). -/
def execAaq (d : Reg) (f : Flag) (s : State) : Host.Outcome State Fault Refusal :=
  eachThread s fun c s l =>
    let ds := regRange d 4
    if !s.padSet c then s.illegalLane c l 0x14 (0, 0, 0)
    else
      match s.launch? c.launch with
      | none => s
      | some la =>
        let s := s.admitArray (padOf c.core) la.fn
        let u := s.array (padOf c.core)
        let geo : Nat := match u.latest with
          | some x => x.1.nc + 65536 * x.1.nl
          | none => 0
        let w0 := State.arrayQueued u c.core + (if u.owner = some c.launch then 16 else 0)
        s.armFlag c l f 1 40 ds
          (some ([BitVec.ofNat 32 w0, BitVec.ofNat 32 geo, u.qstep.setWidth 32, (u.qstep >>> 32).setWidth 32].map fun v => ⟨v, 0⟩))
          false none

namespace State

/-- AACFG at its point (R279, R375): a failed check traps before the word has any effect. -/
def aacfgPoint (s : State) (a : ScratchAcc) (f : Flock) : State :=
  match s.group? a.lane.g with
  | none => s
  | some g =>
    let p := padOf g.core
    match (s.array p).queue.find? fun c => decide (c.tid = a.lane.tid) && c.cfg.isNone && (match c.instr with
        | .aacfg _ => true
        | _ => false) with
    | none => s
    | some cmd =>
      let (cfg, code) := parseArrayBlock ((List.range 16).map fun i => (f.word (a.addr + 4 * i)).val)
      if code = 0 then
        (s.modArray p fun u =>
          { u with
            queue := updateWhere (fun c => decide (c.id = cmd.id)) (fun c => { c with cfg := some cfg }) u.queue,
            latest := some (cfg, cmd.launch, f.uid) }).decided a.lane
      else
        (((s.modArray p fun u => { u with queue := u.queue.filter fun c => !decide (c.id = cmd.id) }).modThread a.lane.tid
          fun t => { t with outs := t.outs.filter fun o => !decide (o.id = cmd.id) }).trapAt a 0x17 (BitVec.ofNat 32 code) 0)

/-! Service (R287 to R292). -/

/-- A command completes, with a code of Table 16.10 where it failed (R292). -/
def arrayDone (s : State) (c : ArrayCmd) (code : Nat) : State :=
  ((if code = 0 then s else s.modSys c.tid fun y => { y with aerr := BitVec.ofNat 8 code }).finishOp c.tid c.id
    (decide (code ≠ 0)))

/-- Whether a head is held behind an AACFG of its launch, or is an AACFG not yet checked (R278). -/
def arrayHeld (u : ArrayUnit) (c : ArrayCmd) : Bool :=
  (u.queue.any fun x => c.after.contains x.id) || (match c.instr with
    | .aacfg _ => c.cfg.isNone
    | _ => false)

/-- The head the array serves next, round robin after the core served last (R287). -/
def arrayNext (s : State) (p : Nat) : Option ArrayCmd :=
  let u := s.array p
  if u.run.isSome then none
  else
    ((List.range 4).filterMap fun i =>
      let core := padCore p ((u.last + 1 + i) % 4)
      match u.queue.find? fun c => decide (c.core = core) with
      | some c =>
        if !arrayHeld u c && decide (c.ready ≤ s.cycle core) && ((s.launch? c.launch).any (·.running)) then some c else none
      | none => none).head?

/-- The sample of a command: n bytes, and the tags of its words. What lies outside the window is free (assumption log 5). -/
def arraySample (s : State) (f : Flock) (a n : Nat) : List Byte × List Tag × State :=
  let words := (List.range (n / 4)).foldl (fun (r : List Byte × List Tag × State) i =>
    let x := a + 4 * i
    if x + 4 ≤ f.size then
      let w := f.word x
      (r.1 ++ valueBytes 4 w.val.toNat, r.2.1 ++ [w.tag], r.2.2)
    else
      let (v, s1) := r.2.2.openWord f.launch (State.sampleSource f.idx)
      (r.1 ++ valueBytes 4 v.toNat, r.2.1 ++ [0], s1)) ([], [], s)
  words

/-- Take a command from the array's queues: a sample is read, and what the command will write is computed from the cells as
they stand. -/
def serveArray (s : State) (pad : Nat) (cmd : ArrayCmd) : State :=
  let now := s.cycle cmd.core
  let s1 := s.modArray pad fun u =>
    { u with queue := u.queue.filter fun c => !decide (c.id = cmd.id), last := padIdx cmd.core }
  let u := s1.array pad
  let run (s : State) (due : Nat) (words : List TW) (cells : List (Nat × Byte)) : State :=
    s.modArray pad fun u => { u with run := some ⟨cmd, due, words, cells, 0⟩ }
  match cmd.instr, cmd.cfg with
  | .aacfg _, some g =>
    -- commands of other launches that wait for no AACFG of their own complete in error (R278)
    let lost := u.queue.filter fun c => decide (c.launch ≠ cmd.launch) && !State.arrayHeld u c && (match c.instr with
      | .aacfg _ => false
      | _ => true)
    let s2 := lost.foldl (fun s c => s.arrayDone c 1) s1
    let s3 := s2.modArray pad fun u =>
      { u with
        queue := u.queue.filter fun c => !lost.any fun x => decide (x.id = c.id),
        cells := u.cells.filter fun e => !(decide (e.1 / 1024 < g.nc) && decide (e.1 % 1024 < g.nl)),
        cfg := some g, owner := some cmd.launch, fn := cmd.fn, qstep := g.step }
    run s3 (now + 8 + g.nc / 16) [] []
  | i, _ =>
    match u.cfg, s1.flock? cmd.flock with
    | some g, some f =>
      if u.owner ≠ some cmd.launch then s1.arrayDone cmd 1
      else
        match i with
        | .aainf op _ _ =>
          let (bs, ts, s2) := s1.arraySample f cmd.a.toNat (g.nl / 16)
          let ws := u.inference g op bs
          let (t, s3) := match tagrule cmd.tagmode (ts.map fun t => ⟨t, false⟩) none false with
            | some t => (t, s2)
            | none => s2.born cmd.core cmd.launch cmd.tid.g cmd.logical cmd.first cmd.site
          run s3 (now + 2) (ws.map fun w => ⟨w, t⟩) []
        | .aatrn op _ _ =>
          let (bs, _, s2) := s1.arraySample f cmd.a.toNat (g.nl / 16)
          run s2 (now + 8 + g.nc / 16) [] (u.training g op bs (cmd.b.toNat % 64))
        | _ => run s1 (now + (wbits cmd.b 31 16 + 15) / 16) [] []
    | _, _ => s1.arrayDone cmd 1

/-- Whether serving a command waits for the origin unit's reserve (R68). -/
def serveHeld (s : State) (pad : Nat) (cmd : ArrayCmd) : Bool := s.birthHeld cmd.core cmd.launch fun s => s.serveArray pad cmd

end State

/-- AA_SERVE (R278, R279, R283, R286 to R290): the array takes its next command from a queue. -/
def execAaServe (pad : Nat) (s : State) : Host.Outcome State Fault Refusal :=
  match s.arrayNext pad with
  | none => .next s
  | some cmd => if s.serveHeld pad cmd then .next s else .next (s.serveArray pad cmd)

namespace State

/-- End the command being served. -/
def arrayEnd (s : State) (pad : Nat) (cmd : ArrayCmd) (code : Nat) : State :=
  (s.modArray pad fun u => { u with run := none }).arrayDone cmd code

/-- Translate every line of a row: its pages in order, or what an access meets and at which line (R342). An AAST into peer
memory is a permission failure (R334). -/
def rowPages (s : State) (cmd : ArrayCmd) (va : Nat) (kind : AccKind) :
    Nat → Except (EngAcc × Nat) (List (Nat × Nat × Bool)) × State
  | 0 => (.ok [], s)
  | n + 1 =>
    match s.engineAccessBelow (if kind = .write then 3 else 4) (dieOf cmd.core) cmd.fn va 64 kind with
    | (.ok pa tier tagged, s1) =>
      match s1.rowPages cmd (va + 64) kind n with
      | (.ok ps, s2) => (.ok ((pa, tier, tagged) :: ps), s2)
      | r => r
    | (e, s1) => (.error (e, va), s1)

/-- Move one row of an AALD or AAST (R294): the rows are whole at one instant. -/
def moveRow (s : State) (pad : Nat) (r : ArrayRun) (g : ArrayCfg) (load : Bool) :
    Except (EngAcc × Nat) Unit × State :=
  let cmd := r.cmd
  let c := wbits cmd.b 15 0 + r.row
  let va := (cmd.a.toNat % 2 ^ 63) % (if cmd.a.getLsbD 63 then 2 ^ 32 else 2 ^ 63) + r.row * g.nl
  let words : List TW := (List.range (g.nl / 4)).map fun i =>
    ⟨BitVec.ofNat 32 (leNat ((List.range 4).map fun j => (s.array pad).cell c (4 * i + j))), cmd.site⟩
  if cmd.a.getLsbD 63 then
    match s.flock? cmd.flock with
    | none => (.ok (), s)
    | some f =>
      if load then
        let (bs, _, s1) := s.arraySample f va g.nl
        (.ok (), s1.modArray pad fun u => u.putRow c bs)
      else if va + g.nl ≤ f.size then (.ok (), s.writeWords f.uid va words)
      else (.ok (), s)
  else
    match s.rowPages cmd va (if load then .read else .write) (g.nl / 64) with
    | (.error e, s1) => (.error e, s1)
    | (.ok ps, s1) =>
      if load then (.ok (), s1.modArray pad fun u => u.putRow c (ps.flatMap fun p => Mem.readBytes s1.mem p.1 64))
      else
        (.ok (), ((List.range ps.length).zip ps).foldl (fun s p =>
          s.gPuts p.2.1 p.2.2.1 p.2.2.2 ((words.drop (16 * p.1)).take 16)) s1)

/-- Move the rows that are left, until one waits or fails. -/
def moveRows (s : State) (pad : Nat) (g : ArrayCfg) (load : Bool) : Nat → State
  | 0 => s
  | n + 1 =>
    match (s.array pad).run with
    | none => s
    | some r =>
      let count := wbits r.cmd.b 31 16
      if count ≤ r.row then s.arrayEnd pad r.cmd 0
      else
        match s.moveRow pad r g load with
        | (.ok _, s1) =>
          (s1.modArray pad fun u => { u with run := some { r with row := r.row + 1 } }).moveRows pad g load n
        | (.error (.wait t, va), s1) =>
          let kind : AccKind := if load then .read else .write
          let (asked, s2) := s1.raiseFault r.cmd.fn (.array pad r.cmd.id) (BitVec.ofNat 64 va) (accCode kind) (faultReason t) 3
            (coreX r.cmd.core) (coreY r.cmd.core)
          if asked then s2 else s2.arrayEnd pad r.cmd 6
        | (.error (.err code, _), s1) => s1.arrayEnd pad r.cmd code
        | (.error _, s1) => s1

/-- Whether the command being served has its last write due: its cycle has come and no fault holds it. -/
def arrayDue (s : State) (pad : Nat) : Option ArrayRun :=
  match (s.array pad).run with
  | some r => if decide (r.due ≤ s.cycle r.cmd.core) && !s.waits r.cmd.fn (.array pad r.cmd.id) then some r else none
  | none => none

end State

/-- AA_COMMAND_COMPLETE (R287, R289, R292): the served command makes its writes and completes. -/
def execAaCommandComplete (pad id : Nat) (s : State) : Host.Outcome State Fault Refusal :=
  match s.arrayDue pad with
  | none => .next s
  | some r =>
    if r.cmd.id ≠ id then .next s
    else
      let u := s.array pad
      match r.cmd.instr, u.cfg with
      | .aacfg _, _ => .next (s.arrayEnd pad r.cmd 0)
      | .aainf .., _ =>
        match s.flock? r.cmd.flock with
        | some f =>
          let room := (f.size - r.cmd.b.toNat) / 4
          .next ((s.writeWords f.uid r.cmd.b.toNat (r.words.take room)).arrayEnd pad r.cmd 0)
        | none => .next (s.arrayEnd pad r.cmd 0)
      | .aatrn .., some g =>
        .next ((s.modArray pad fun u =>
          { u.putCells r.cells with cfg := some { g with step := g.step + 1 }, qstep := g.step + 1 }).arrayEnd pad r.cmd 0)
      | .aald .., some g => .next (s.moveRows pad g true (wbits r.cmd.b 31 16 + 1))
      | .aast .., some g =>
        let outside := match s.detRanges r.cmd.launch, s.flock? r.cmd.flock with
          | some rs, some f =>
            !r.cmd.a.getLsbD 63 && decide (r.row = 0) && rangeBad rs f.idx r.cmd.a.toNat (wbits r.cmd.b 31 16 * g.nl)
          | _, _ => false
        if outside then .next (s.arrayEnd pad r.cmd 8)
        else .next (s.moveRows pad g false (wbits r.cmd.b 31 16 + 1))
      | _, _ => .next (s.arrayEnd pad r.cmd 1)

end Sys2Proof.Machine
end

