-- ==== Sys2Proof/Machine/Trace.lean ====
section
/-!
DEFINITION. Trace (R161, R357 to R364): the records of a capture window, its streams in memory, ticks and samples, and the
skew measurement.
-/
namespace Sys2Proof.Machine

/-- The code of a record kind (Table 22.4). -/
def TraceKind.code : TraceKind → Nat
  | .windowOpen => 1
  | .windowClose => 2
  | .mark => 3
  | .sampleCore => 4
  | .sampleDie => 5
  | .launchStart => 6
  | .launchEnd => 7
  | .gap => 8

/-- A record's bytes with the timestamp form for a delta, or form 3 at the start of a frame (R361). -/
def traceRecord (first : Bool) (last ts : Nat) (kind : TraceKind) (payload : List Byte) : List Byte :=
  let d := ts - last
  let head (form : Nat) : Byte := BitVec.ofNat 8 (64 * form + kind.code)
  (if first || decide (2 ^ 32 ≤ d) then head 3 :: valueBytes 8 ts
   else if d < 256 then head 0 :: valueBytes 1 d
   else if d < 65536 then head 1 :: valueBytes 2 d
   else head 2 :: valueBytes 4 d) ++ payload

namespace State

def modWindow (s : State) (f : TraceWindow → TraceWindow) : State :=
  { s with trace := { s.trace with window := s.trace.window.map f } }
def modStream (s : State) (i : Nat) (f : TraceStream → TraceStream) : State :=
  s.modWindow fun w => { w with streams := updateAt w.streams i f }

/-- Write bytes of one frame of a stream through the PF's tables (R360, R363): whether they are written. A write that is
performed delays other traffic by memory cycles that the manual does not fix, which TRDELAYd counts (assumption log 5).
None is performed once a trip has halted the memory (R372). -/
def traceWrite (s : State) (i va : Nat) (bs : List Byte) : Bool × State :=
  match (if s.mgmt.dead then (Trans.access false, s) else s.accessPage i 0 (BitVec.ofNat 64 va) bs.length .write) with
  | (.ok pa tier _ tagged, s1) =>
    let (d, s2) := (s1.gFill pa tier tagged bs 0).freeWord
    (true, { s2 with trace := { s2.trace with delay := AL.modify 0 s2.trace.delay i (· + d) } })
  | (_, s1) => (false, s1)

/-- The address of a position in a stream's record frames (R360). -/
def streamAddr (w : TraceWindow) (i pos : Nat) : Nat := w.tbase.toNat + i * w.ssize + 4096 + pos % (w.ssize - 4096)

/-- What became of a record: written, or not for want of room in the ring or of a page. -/
inductive PutSt where
  | written | noRoom | failed
deriving DecidableEq, Repr

/-- Bytes are written at a stream's place. -/
def streamWrite (s : State) (w : TraceWindow) (i pos : Nat) (bs : List Byte) : Bool × State :=
  match s.traceWrite i (streamAddr w i pos) bs with
  | (true, s1) => (true, s1.modStream i fun t => { t with pos := pos + bs.length, written := t.written + bs.length })
  | (false, s1) => (false, s1)

/-- Append a record to a stream that is not stopped (R361, R364): the rest of a frame it does not fit is filled with PAD, and
without WRAP a full ring takes no record. -/
def traceAppend (s : State) (w : TraceWindow) (t : TraceStream) (i : Nat) (kind : TraceKind) (payload : List Byte)
    (ts : Nat) : PutSt × State :=
  let ts := max ts t.last
  let off := t.pos % 4096
  let rec0 := traceRecord (decide (off = 0)) t.last ts kind payload
  let fits := decide (off + rec0.length ≤ 4096)
  let (padded, s1) := if fits then (true, s) else s.streamWrite w i t.pos (List.replicate (4096 - off) 0)
  let pos := if fits then t.pos else t.pos + (4096 - off)
  if !padded then (.failed, s1)
  else if !w.wrap && decide (w.ssize - 4096 ≤ pos) then (.noRoom, s1)
  else
    match s1.streamWrite w i pos (if fits then rec0 else traceRecord true t.last ts kind payload) with
    | (true, s2) => (.written, s2.modStream i fun t => { t with last := ts })
    | (false, s2) => (.failed, s2)

/-- A record is lost (R364). -/
def traceLose (s : State) (i : Nat) (f : TraceStream → TraceStream) : State :=
  s.modStream i fun t => f { t with lost := t.lost + 1, since := t.since + 1 }

/-- A record goes to memory (R361, R364): a failed write stops the stream before it, and a record that a stopped or ended
stream cannot take is lost. -/
def traceStore (s : State) (i : Nat) (kind : TraceKind) (payload : List Byte) (ts : Nat) : State :=
  match s.trace.window with
  | none => s
  | some w =>
    match w.streams[i]? with
    | none => s
    | some t =>
      if t.stopped = some 1 ∨ t.full = true then s.traceLose i id
      else
        match s.traceAppend w t i kind payload ts with
        | (.written, s1) => s1
        | (.noRoom, s1) => s1.traceLose i fun t => { t with full := true }
        | (.failed, s1) => s1.traceLose i fun t => { t with stopped := some 1 }

/-- Bytes that a collector buffers (R363). -/
def collectorBytes : Nat := 65536

/-- A record as a collector buffers it, after those it holds. -/
def heldRecord (t : TraceStream) (kind : TraceKind) (payload : List Byte) (ts : Nat) (launch : Option Nat) : HeldRecord :=
  let last := ((t.held.getLast?).map (·.ts)).getD t.last
  ⟨kind, payload, max ts last, (traceRecord false last (max ts last) kind payload).length, launch⟩

/-- A record of the window comes to a stream's collector (R363, R364): it goes to memory, or stays in the buffer while the
memory path takes none; one that finds the buffer full is lost, and with it those that follow until the buffer drains. -/
def tracePut (s : State) (i : Nat) (kind : TraceKind) (payload : List Byte) (ts : Nat) (launch : Option Nat) : State :=
  match s.trace.window with
  | none => s
  | some w =>
    match w.streams[i]? with
    | none => s
    | some t =>
      if t.stopped.isSome || t.full then s.traceLose i id
      else if !t.blocked then s.traceStore i kind payload ts
      else
        let r := heldRecord t kind payload ts launch
        if (t.held.foldl (fun n x => n + x.size) 0) + r.size ≤ collectorBytes then
          s.modStream i fun t => { t with held := t.held ++ [r] }
        else s.traceLose i fun t => { t with stopped := some 3 }

/-- A collector's buffer drains to memory. -/
def traceDrain (s : State) (i : Nat) : State :=
  match s.trace.window.bind fun w => w.streams[i]? with
  | none => s
  | some t =>
    t.held.foldl (fun s r => s.traceStore i r.kind r.payload r.ts) (s.modStream i fun t => { t with held := [], blocked := false })

/-- A stopped stream tries again and goes on in a new frame with a GAP record (R364). -/
def traceResume (s : State) (i : Nat) : State :=
  match s.trace.window with
  | none => s
  | some w =>
    match w.streams[i]? with
    | none => s
    | some t =>
      match t.stopped with
      | none => s
      | some cause =>
        if t.full || t.blocked then s
        else
          let pos := (t.pos + 4095) / 4096 * 4096
          match s.traceAppend w { t with pos := pos } i .gap (valueBytes 4 t.since ++ [BitVec.ofNat 8 cause, 0, 0, 0])
              (s.timestamp i) with
          | (.written, s1) => s1.modStream i fun t => { t with stopped := none, since := 0 }
          | (.noRoom, s1) => s1.modStream i fun t => { t with full := true }
          | (.failed, s1) => s1.modStream i fun t => { t with stopped := some 1 }

/-- A stream that a failed translation stopped tries its mapping again (R364). -/
def traceRetry (s : State) (i : Nat) : State :=
  match s.trace.window with
  | some w => if (w.streams[i]?).any fun t => decide (t.stopped = some 1) then s.traceResume i else s
  | none => s

/-- The memory path takes no record of a die's collector for a time, or takes them again (R363): then the buffer drains, and
a stream that lost records to a full one goes on with a GAP of cause 3 (R364). When it does is not the manual's to say; the
inbox says it (assumption log 63). -/
def collector (s : State) (i : Nat) (blocked : Bool) : State :=
  match s.trace.window with
  | none => s
  | some w =>
    if w.opening || w.closing.isSome then s
    else if blocked then s.modStream i fun t => { t with blocked := true }
    else
      let s1 := s.traceDrain i
      if (s1.trace.window.bind fun w => w.streams[i]?).any fun t => decide (t.stopped = some 3) then s1.traceResume i else s1

/-! Counters (Table 22.5). -/

def coreCount (s : State) (c i : Nat) : W32 := AL.get 0 (s.core c).counters i
def countCore (s : State) (c i n : Nat) : State :=
  s.modCore c fun k => { k with counters := AL.modify 0 k.counters i (· + BitVec.ofNat 32 n) }
def countDie (s : State) (d i n : Nat) : State :=
  { s with trace := { s.trace with dies := AL.modify 0 s.trace.dies (8 * d + i) (· + BitVec.ofNat 32 n) } }

/-- The five die counters, cumulative (Table 22.5). By how much the busy cycles of slices and walkers have grown since they
were last read is not fixed by the manual (assumption log 5). -/
def dieCounters (s : State) (d : Nat) : List W32 × State :=
  let (a, s1) := s.freeWord
  let (b, s2) := s1.freeWord
  let dies := AL.modify 0 (AL.modify 0 s2.trace.dies (8 * d) (· + a)) (8 * d + 1) (· + b)
  ((List.range 4).map (fun i => AL.get 0 dies (8 * d + i)) ++ [AL.get 0 s2.trace.delay d],
    { s2 with trace := { s2.trace with dies := dies } })

/-- The cores of a die, in ascending number. -/
def dieCores (d : Nat) : List Nat := (List.range 320).filter fun c => decide (dieOf c = d)

/-- The samples of one die at a tick (R362), with its raw timestamp: its core counters, and its die counters as they were
latched. -/
def traceSample (s : State) (w : TraceWindow) (d n : Nat) (cs : List W32) : State :=
  let s1 := if w.core && decide (d < 8) then
      (dieCores d).foldl (fun s c =>
        s.tracePut d .sampleCore
          ([BitVec.ofNat 8 (coreX c), BitVec.ofNat 8 (coreY c), 0, 0] ++ valueBytes 4 n ++
            (List.range 8).flatMap fun i => valueBytes 4 (s.coreCount c i).toNat) (s.timestamp d) none) s
    else s
  if w.die then
    s1.tracePut d .sampleDie
      ([BitVec.ofNat 8 d, 0, 0, 0] ++ valueBytes 4 n ++ cs.flatMap fun v => valueBytes 4 v.toNat) (s.timestamp d) none
  else s1

/-- The aligned timestamp of a die (R358): raw − SKEWd / 16, truncated toward zero. -/
def aligned (s : State) (d : Nat) : Int := (16 * (s.timestamp d : Int) - (AL.get 0 s.trace.skew d).toInt).tdiv 16

/-- The first tick after now of a die (R362). -/
def nextTick (s : State) (d k : Nat) : Nat := (s.aligned d / (2 ^ k : Nat) + 1).toNat

/-- The tick of the open window that has come on a die and is not sampled yet (R362). -/
def dieTick (s : State) (d : Nat) : Option (TraceWindow × Nat) :=
  match s.trace.window with
  | some w =>
    if w.k ≠ 0 ∧ w.closing = none ∧ w.opening = false then
      (w.streams[d]?).bind fun t => if ((t.tick * 2 ^ w.k : Nat) : Int) ≤ s.aligned d then some (w, t.tick) else none
    else none
  | none => none

/-- A tick falls on dies (R362, R364): the counters of all latch before anything is written; then each one's stopped stream
tries again, and its samples are written. -/
def sampleDies (s : State) (ds : List Nat) : State :=
  let due := ds.filterMap fun d => (s.dieTick d).map fun x => (d, x)
  let latched := due.foldl (fun (r : State × List (Nat × TraceWindow × Nat × List W32)) x =>
    let (cs, s1) := if x.2.1.die then r.1.dieCounters x.1 else ([], r.1)
    (s1, r.2 ++ [(x.1, x.2.1, x.2.2, cs)])) (s, [])
  latched.2.foldl (fun s x =>
    let (d, w, n, cs) := x
    ((s.modStream d fun t => { t with tick := n + 1 }).traceRetry d).traceSample w d (n % 2 ^ 32) cs) latched.1

def sampleAll (s : State) : State := s.sampleDies (List.range 9)

/-- The lowest tick that has come on a die and is not sampled yet. -/
def tickDue (s : State) : Option Nat := ((List.range 9).filterMap fun d => (s.dieTick d).map (·.2)).min?

/-- A mark or launch record of a launch while a window is open and not closing; a sample of the same timestamp stands before it (R361). -/
def traceEmit (s : State) (i : Nat) (kind : TraceKind) (payload : List Byte) (ts launch : Nat) : State :=
  match s.trace.window with
  | some w => if w.closing.isSome || w.opening then s else (s.sampleDies [i]).tracePut i kind payload ts (some launch)
  | none => s

end State

/-- TRACE_TICK (R362, R364): tick n on every die that has reached it. -/
def execTraceTick (n : Nat) (s : State) : Host.Outcome State Fault Refusal :=
  .next (s.sampleDies ((List.range 9).filter fun d => (s.dieTick d).any fun x => decide (x.2 = n)))

/-- TRACE_RETRY (R364): with K = 0 a stopped stream tries its translation again. -/
def execTraceRetry (stream : Nat) (s : State) : Host.Outcome State Fault Refusal :=
  match s.trace.window with
  | some w => if w.k = 0 ∧ w.closing = none then .next (s.traceRetry stream) else .next s
  | none => .next s

/-- A measured offset is written to SKEWd as one update (R358); SKEW8 is 0 (Table 22.1). -/
def State.setSkew (s : State) (die : Nat) (offset : W32) : State :=
  if die = 8 ∨ 9 < die then s else { s with trace := { s.trace with skew := AL.set 0 s.trace.skew die offset } }

/-- Hardware measures the offset of every die's timestamp against I/O die 0's (R358). -/
def State.measureSkews (s : State) : State :=
  (List.range 10).foldl (fun s d => s.setSkew d (BitVec.ofInt 32 (s.die d).offset)) s

/-- SKEW_MEASURE (R358): hardware finds an offset. -/
def execSkewMeasure (die : Nat) (offset : W32) (s : State) : Host.Outcome State Fault Refusal := .next (s.setSkew die offset)

/-- TMARK (R161, Table 22.4): a mark record, where the window has MARKS and the launch its TMARK bit. -/
def execTmark (a : Reg) (imm : BitVec 16) (s : State) : Host.Outcome State Fault Refusal :=
  eachThread s fun c s l =>
    match s.trace.window, s.recOf c, s.thread? l.tid with
    | some w, some r, some t =>
      if w.marks && r.tmark then
        s.traceEmit (dieOf c.core) .mark
          (valueBytes 2 imm.toNat ++ [0, 0] ++ valueBytes 4 (s.operand l a).val.toNat ++ valueBytes 4 t.sys.logid.toNat)
          (s.timestamp (dieOf c.core)) c.launch
      else s
    | _, _, _ => s

namespace State

/-! Opening and closing a window (R359, R360). -/

/-- The payload of WINDOW.OPEN and WINDOW.CLOSE. -/
def windowPayload (q seq : Nat) : List Byte := valueBytes 2 q ++ [0, 0] ++ valueBytes 8 seq

/-- The checks of a configuration block (Table 22.2): the window it opens, or none. -/
def parseTrace (ws : List W32) (q seq : Nat) : Option TraceWindow :=
  let w (i : Nat) : W32 := ws.getD i 0
  let tbase : W64 := w 1 ++ w 0
  let ssize := (w 2).toNat
  let k := wbits (w 3) 7 0
  let pow := (List.range 15).any fun i => decide (ssize = 2 ^ (16 + i))
  let bad := decide (tbase.toNat % 65536 ≠ 0) || decide (2 ^ 48 ≤ tbase.toNat) || !pow || decide (wbits (w 3) 31 8 ≠ 0) ||
    !(decide (k = 0) || decide (10 ≤ k ∧ k ≤ 24)) || decide (wbits (w 4) 31 4 ≠ 0) ||
    (List.range 11).any fun i => decide (w (5 + i) ≠ 0)
  if bad then none
  else some
    { q := q, seq := seq, tbase := tbase, ssize := ssize, k := k, wrap := (w 4).getLsbD 3, die := (w 4).getLsbD 2,
      core := (w 4).getLsbD 1, marks := (w 4).getLsbD 0, streams := List.replicate 9 TraceStream.fresh, closing := none }

/-- A stream that has not written WINDOW.OPEN tries to (R360). -/
def openStream (s : State) (i : Nat) : State :=
  match s.trace.window with
  | none => s
  | some w =>
    match w.streams[i]? with
    | none => s
    | some t =>
      if t.opened.isSome then s
      else
        match s.traceAppend w t i .windowOpen (windowPayload w.q w.seq) (s.timestamp i) with
        | (.written, s1) => s1.modStream i fun t => { t with opened := some (s.timestamp i) }
        | (_, s1) => s1

/-- The streams of a window that opens write WINDOW.OPEN; with the last of them the window is open, and its samples begin
with each die's next tick (R360, R362). One that cannot yet is no loss: it tries again (assumption log 63). -/
def openStreams (s : State) : State :=
  let s1 := (List.range 9).foldl (fun s i => s.openStream i) s
  match s.trace.window, s1.trace.window with
  | some w, some w1 =>
    if w.opening && !w1.opening then (List.range 9).foldl (fun s i => s.modStream i fun t => { t with tick := s.nextTick i w.k }) s1
    else s1
  | _, _ => s1

/-- Open a window (R360). -/
def openWindow (s : State) (w : TraceWindow) : State := { s with trace := { s.trace with window := some w } }.openStreams

/-- Whether a window still opens or closes. -/
def windowMoves (s : State) : Bool := s.trace.window.any fun w => w.opening || w.closing.isSome

/-- Write a stream's header (Table 22.3); done again later where it fails (R364). -/
def traceHeader (s : State) (i : Nat) : State :=
  match s.trace.window with
  | none => s
  | some w =>
    match w.streams[i]? with
    | none => s
    | some t =>
      if t.headed then s
      else
        let bytes := valueBytes 8 t.written ++ valueBytes 4 t.lost ++ valueBytes 4 (AL.get 0 s.trace.delay i).toNat ++
          valueBytes 8 (t.opened.getD 0) ++ valueBytes 8 (t.closed.getD 0) ++ List.replicate 4064 0
        match s.traceWrite i (w.tbase.toNat + i * w.ssize) bytes with
        | (true, s1) => s1.modStream i fun t => { t with headed := true }
        | (false, s1) => s1

/-- Write the headers that are left; the window closes when all are written. -/
def traceFinish (s : State) : State :=
  let s1 := (List.range 9).foldl (fun s i => s.traceHeader i) s
  match s1.trace.window with
  | some w =>
    if w.streams.all (·.headed) then { s1 with trace := { s1.trace with window := none } } else s1
  | none => s1

/-- Close the open window for a TRACE.STOP: the last samples, what the collectors hold, WINDOW.CLOSE in every stream, then
the headers (R360). -/
def closeWindow (s : State) (q seq : Nat) : State :=
  let s1 := (List.range 9).foldl (fun s i =>
    ((s.traceDrain i).tracePut i .windowClose (windowPayload q seq) (s.timestamp i) none).modStream i fun t =>
      { t with closed := some (s.timestamp i) }) s.sampleAll
  (s1.modWindow fun w => { w with closing := some (q, seq) }).traceFinish

/-- LAUNCH.START and LAUNCH.END (Table 22.4), for a launch whose TLAUNCH bit is set. -/
def traceLaunch (s : State) (l : Launch) (status : Option Nat) : State :=
  if l.rec_.tlaunch then
    s.traceEmit 8 (if status.isSome then .launchEnd else .launchStart)
      (valueBytes 4 l.id.toNat ++
        [BitVec.ofNat 8 l.fn, BitVec.ofNat 8 (status.getD 0), BitVec.ofNat 8 l.rec_.w, BitVec.ofNat 8 l.rec_.h,
         BitVec.ofNat 8 l.x0, BitVec.ofNat 8 l.y0, 0, 0]) (s.timestamp 8) l.uid
  else s

/-- Whether a trace record of a launch is not performed (R307): a collector holds it, or would hold its LAUNCH.END. -/
def tracePending (s : State) (l : Launch) : Bool :=
  match s.trace.window with
  | some w =>
    w.streams.any (fun t => t.held.any fun r => decide (r.launch = some l.uid)) ||
      (l.rec_.tlaunch && !w.opening && w.closing.isNone &&
        (w.streams[8]?).any fun t => t.blocked && t.stopped.isNone && !t.full)
  | none => false

end State

end Sys2Proof.Machine
end

