-- ==== Sys2Proof/Machine/Shepherd.lean ====
section
/-!
DEFINITION. The shepherd's queues, packets and launches (R296 to R309): control blocks, doorbells, packets, the checks of a
launch record, placement and the end of a launch.
-/
namespace Sys2Proof.Machine

/-- A queue control block as read (Table 18.1). -/
structure Qcb where
  base : W64
  size : Nat
  part : Nat
  vf : Nat
  prio : Nat
  head : Nat
  tail : Nat
  lastdone : Nat
  halted : Bool
  word : W32
  bad : Bool
deriving DecidableEq, Repr

def parseQcb (ws : List W32) : Qcb :=
  let w (i : Nat) : W32 := ws.getD i 0
  let dw (i : Nat) : W64 := w (i + 1) ++ w i
  let size := (w 2).toNat
  let pow := (List.range 13).any fun i => decide (size = 2 ^ (4 + i))
  { base := dw 0, size := size, part := wbits (w 3) 19 18, vf := wbits (w 3) 15 8, prio := wbits (w 3) 7 0,
    head := (dw 4).toNat, tail := (dw 6).toNat, lastdone := (dw 8).toNat, halted := (w 10).getLsbD 8, word := w 10,
    bad := decide ((dw 0).toNat % 64 ≠ 0) || !pow || decide (wbits (w 3) 31 20 ≠ 0) || decide (wbits (w 3) 17 16 ≠ 0) ||
      decide (7 < wbits (w 3) 7 0) }

/-- Status codes (Table 18.4). -/
def stOk : Nat := 0
def stFault : Nat := 1
def stRoute : Nat := 2
def stRefused : Nat := 3
def stAborted : Nat := 4
def stMemory : Nat := 5
def stQueue : Nat := 6
def stThermal : Nat := 7
def stStranded : Nat := 8

namespace State

/-- Whether the device has started: hosts reach more than the registers of Table 23.3 (R365). -/
def ready (s : State) : Bool := decide (s.mgmt.state = 3) && !s.mgmt.dead

def modShep (s : State) (f : Shep → Shep) : State := { s with shep := f s.shep }
def queueKey (fn q : Nat) : Nat := 32 * fn + q
def queue (s : State) (fn q : Nat) : QueueSt := AL.get QueueSt.fresh s.shep.queues (queueKey fn q)
def modQueue (s : State) (fn q : Nat) (f : QueueSt → QueueSt) : State :=
  s.modShep fun h => { h with queues := AL.modify QueueSt.fresh h.queues (queueKey fn q) f }
def part (s : State) (p : Nat) : Part := AL.get Part.fresh s.parts p
def modPart (s : State) (p : Nat) (f : Part → Part) : State := { s with parts := AL.modify Part.fresh s.parts p f }

/-- The tag of words the shepherd writes (R75). -/
def shepTag : Tag := 0xFFFE

/-- Read a queue's control block through its function's tables (R297). -/
def readQcb (s : State) (fn q : Nat) : Option Qcb × State :=
  match s.svcRead fn (s.queue fn q).qcb 32 with
  | (some ws, s1) => (some (parseQcb (ws.map (·.val))), s1)
  | (none, s1) => (none, s1)

/-- Write words of a queue's control block: whether they are written. -/
def tryQcb (s : State) (fn q off : Nat) (ws : List W32) : Bool × State :=
  s.svcWrite fn ((s.queue fn q).qcb + BitVec.ofNat 64 off) shepTag ws

/-- A queue starts no packet; a launch of it that waits for its place is read anew when the queue is resumed. -/
def QueueSt.halt (x : QueueSt) : QueueSt := { x with halted := true, wait := none }

/-- Halt a queue with a status and detail (R299), and announce it once that is written (R373). -/
def haltQueue (s : State) (fn q status detail : Nat) (seq : Option Nat) : State :=
  let (ok, s1) := (s.modQueue fn q QueueSt.halt).tryQcb fn q 0x28 [BitVec.ofNat 32 (65536 * detail + 256 + status)]
  let s2 := match seq with
    | some n => (s1.tryQcb fn q 0x30 (words64 n)).2
    | none => s1
  s2.announce ok fn .queueHalted

/-- Write words of a control block; a failed access halts the queue with status MEMORY (R297). -/
def writeQcb (s : State) (fn q off : Nat) (ws : List W32) : State :=
  match s.tryQcb fn q off ws with
  | (true, s1) => s1
  | (false, s1) => s1.haltQueue fn q stMemory 0 none

/-- LASTDONE after packets completed beyond it. -/
def passDone (done : List Nat) : Nat → Nat → Nat
  | 0, n => n
  | fuel + 1, n => if done.contains n then passDone done fuel (n + 1) else n

/-- A packet completes; LASTDONE advances past every packet completed in order (R299). -/
def completePacket (s : State) (fn q seq : Nat) : State :=
  let s1 := s.modQueue fn q fun x =>
    let d := x.done ++ [seq]
    let n := passDone d d.length x.lastdone
    { x with done := d.filter fun m => decide (n ≤ m), lastdone := n, work := x.work.filter fun w => !decide (w.1 = seq) }
  s1.writeQcb fn q 0x20 (words64 (s1.queue fn q).lastdone)

/-- A packet fails: it is recorded and halts its queue, and it completes (R299). -/
def failPacket (s : State) (fn q seq status detail : Nat) : State :=
  (s.haltQueue fn q status detail (some seq)).completePacket fn q seq

/-- A packet starts (R299). -/
def startPacket (s : State) (fn q : Nat) : State :=
  let s1 := s.modQueue fn q fun x => { x with head := x.head + 1, polled := none }
  (s1.writeQcb fn q 0x10 (words64 (s1.queue fn q).head)).modShep fun h => { h with served := AL.insert h.served fn q }

/-! Doorbells (R298). -/

/-- Every waiting WAITSIG rereads its word at a doorbell write of any queue (R300). -/
def wakePolls (s : State) : State :=
  s.modShep fun h =>
    { h with queues := h.queues.map fun e => (e.1, { e.2 with polled := e.2.polled.map fun _ => s.timestamp 8 }) }

/-- The table entry of a function in a partition: the first enabled one (R310). -/
def entryOf (p : Part) (fn : Nat) : Option Nat :=
  (List.range 16).find? fun e => let w := AL.get 0 p.table e; w.getLsbD 23 && decide (wbits w 19 16 = fn)
def entryFn (p : Part) (e : Nat) : Nat := wbits (AL.get 0 p.table e) 19 16
def entryPrio (p : Part) (e : Nat) : Nat := wbits (AL.get 0 p.table e) 22 20
def entryQuantum (p : Part) (e : Nat) : Nat := wbits (AL.get 0 p.table e) 15 0

/-- A doorbell of a function whose entry has a priority above the running one's asks for a cut (R310). -/
def askCut (s : State) (fn p : Nat) : State :=
  s.modPart p fun x =>
    match x.cur, entryOf x fn with
    | some c, some e => if entryPrio x c < entryPrio x e then { x with cut := some e } else x
    | _, _ => x

/-- Read TAIL and check the control block (R298). -/
def kick (s : State) (fn q : Nat) : State :=
  match s.readQcb fn q with
  | (none, s1) => s1.haltQueue fn q stMemory 0 none
  | (some b, s1) =>
    let x := s1.queue fn q
    if b.bad || decide (b.vf ≠ fn) || decide (b.tail < x.head) || decide (b.size < b.tail - x.head) then
      s1.haltQueue fn q stQueue 0 none
    else (s1.modQueue fn q fun x => { x with tail := b.tail, pending := s1.shep.custom }).askCut fn b.part

/-- Whether a doorbell reaches a registered queue. -/
def bellOk (s : State) (fn q : Nat) : Bool := s.ready && decide ((s.queue fn q).qcb ≠ 0)

end State

def execDoorbellKick (fn : BitVec 4) (q : BitVec 5) (s : State) : Host.Outcome State Fault Refusal :=
  if !s.bellOk fn.toNat q.toNat then .next s
  else if (s.queue fn.toNat q.toNat).halted then .next s.wakePolls
  else .next (s.wakePolls.kick fn.toNat q.toNat)

def execDoorbellResume (fn : BitVec 4) (q : BitVec 5) (s : State) : Host.Outcome State Fault Refusal :=
  if !s.bellOk fn.toNat q.toNat then .next s
  else
    let s1 := s.wakePolls
    match s1.readQcb fn.toNat q.toNat with
    | (none, s2) => .next (s2.haltQueue fn.toNat q.toNat stMemory 0 none)
    | (some b, s2) =>
      .next (((s2.modQueue fn.toNat q.toNat fun x => { x with halted := false }).writeQcb fn.toNat q.toNat 0x28
        [b.word &&& ~~~0x100#32]).kick fn.toNat q.toNat)

/-- DOORBELL_ABORT (R298): the started launches of the queue end ABORTED, and the queue halts. -/
def execDoorbellAbort (fn : BitVec 4) (q : BitVec 5) (s : State) : Host.Outcome State Fault Refusal :=
  if !s.bellOk fn.toNat q.toNat then .next s
  else
    let s1 := s.wakePolls
    let s2 := { s1 with
      launches := s1.launches.map fun (l : Launch) =>
        if l.fn = fn.toNat ∧ l.q = q.toNat ∧ l.ending = none then { l with ending := some stAborted } else l }
    match s2.readQcb fn.toNat q.toNat with
    | (none, s3) => .next (s3.haltQueue fn.toNat q.toNat stMemory 0 none)
    | (some b, s3) =>
      let (ok, s4) := (s3.modQueue fn.toNat q.toNat State.QueueSt.halt).tryQcb fn.toNat q.toNat 0x28 [b.word ||| 0x100#32]
      .next (s4.announce ok fn.toNat .queueHalted)

/-! Packets (R299, R300). -/

/-- A packet as read from its slot: its sequence number and its sixteen words. -/
structure Packet where
  seq : Nat
  words : List W32
deriving DecidableEq, Repr

namespace Packet
def w (p : Packet) (i : Nat) : W32 := p.words.getD i 0
def dw (p : Packet) (off : Nat) : W64 := p.w (off / 4 + 1) ++ p.w (off / 4)
def type (p : Packet) : Nat := wbits (p.w 0) 7 0
/-- Whether a packet waits for every earlier one: WAITPREV, or a type that implies it. -/
def waits (p : Packet) : Bool := (p.w 0).getLsbD 8 || [3, 4, 6, 7].contains p.type
/-- Words a type uses from +0x08 on; the others are zero fields. -/
def used (p : Packet) : List Nat :=
  match p.type with
  | 1 => [2, 3]
  | 2 => [2, 3, 4, 5, 6, 7]
  | 4 => [2, 3, 4, 5, 6]
  | 5 => [2, 3, 4, 5, 6]
  | 6 => [2, 3]
  | 8 => [2, 3, 4, 5]
  | _ => []
/-- A reserved type or a non-zero zero field, within a field too (Tables 18.2 and 18.3). -/
def bad (p : Packet) : Bool :=
  decide (8 < p.type) || decide (wbits (p.w 0) 31 9 ≠ 0) || decide (p.w 1 ≠ 0) ||
  ((List.range 14).any fun i => !p.used.contains (i + 2) && decide (p.w (i + 2) ≠ 0)) ||
  (match p.type with
   | 1 => decide ((p.dw 8).toNat % 64 ≠ 0)
   | 2 => decide ((p.dw 0x18).toNat % 4 ≠ 0)
   | 4 => decide ((p.dw 8).toNat % 8 ≠ 0) || decide (wbits (p.w 6) 31 1 ≠ 0)
   | 5 => decide ((p.dw 8).toNat % 8 ≠ 0) || decide (wbits (p.w 6) 31 2 ≠ 0) || decide (wbits (p.w 6) 1 0 = 3)
   | _ => false)
end Packet

/-- What the head of a queue is. -/
inductive HeadSt where
  | none_
  | memory (seq : Nat)
  | packet (p : Packet) (part prio : Nat)
deriving DecidableEq, Repr

namespace State

/-- The next packet of a queue that is enabled, not halted and not waiting to place a launch. -/
def headOf (s : State) (fn q : Nat) : HeadSt × State :=
  let x := s.queue fn q
  if x.qcb = 0 ∨ x.halted = true ∨ x.wait.isSome = true ∨ x.tail ≤ x.head ∨ s.ready = false then (.none_, s)
  else
    match s.readQcb fn q with
    | (none, s1) => (.memory x.head, s1)
    | (some b, s1) =>
      match s1.svcRead fn (b.base + BitVec.ofNat 64 (64 * (x.head % max 1 b.size))) 16 with
      | (none, s2) => (.memory x.head, s2)
      | (some ws, s2) => (.packet ⟨x.head, ws.map (·.val)⟩ b.part b.prio, s2)

/-- Whether every earlier packet of a queue has completed. -/
def prevDone (s : State) (fn q : Nat) : Bool := let x := s.queue fn q; decide (x.lastdone = x.head)

/-- Start the head packet of a queue where it is of a type and may start: `run` gives its effect. A packet that cannot be
read halts the queue with MEMORY, and a malformed one with QUEUE (R297, R300); the event NOP stands for a reserved type
too. -/
def startHead (s : State) (fn : BitVec 4) (q : BitVec 5) (type : Nat) (run : State → Packet → Nat → State) :
    Host.Outcome State Fault Refusal :=
  let f := fn.toNat
  let n := q.toNat
  match s.headOf f n with
  | (.none_, _) => .next s
  | (.memory seq, s1) => .next ((s1.startPacket f n).failPacket f n seq stMemory 0)
  | (.packet p part _, s1) =>
    let t := if 8 < p.type then 0 else p.type
    if t ≠ type ∨ (p.waits = true ∧ s1.prevDone f n = false) then .next s
    else if p.bad then .next ((s1.startPacket f n).failPacket f n p.seq stQueue p.type)
    else .next (run s1 p part)

/-- Read and write a 64-bit value for the shepherd. -/
def svcRead64 (s : State) (fn : Nat) (va : W64) : Option W64 × State :=
  match s.svcRead fn va 2 with
  | (some (a :: b :: _), s1) => (some (b.val ++ a.val), s1)
  | (_, s1) => (none, s1)

/-- Copy words with their tags, one by one, at .SYS (R300): none where an access fails. -/
def svcCopy (s : State) (fn : Nat) (src dst : W64) : Nat → Bool × State
  | 0 => (true, s)
  | n + 1 =>
    match s.accessPage 8 fn src 4 .read with
    | (.ok pa tier _ tagged, s1) =>
      let w := s1.gWord pa tier tagged shepTag
      match s1.accessPage 8 fn dst 4 .write with
      | (.ok pd td _ tg, s2) => (s2.gPut pd td tg w).svcCopy fn (src + 4) (dst + 4) n
      | (_, s2) => (false, s2)
    | (_, s1) => (false, s1)

/-- Complete a packet that completes at once. -/
def atOnce (s : State) (fn q : Nat) (p : Packet) : State := (s.startPacket fn q).completePacket fn q p.seq

end State

def execPacketNop (fn : BitVec 4) (q : BitVec 5) (s : State) : Host.Outcome State Fault Refusal :=
  s.startHead fn q 0 fun s p _ => s.atOnce fn.toNat q.toNat p
def execPacketBarrier (fn : BitVec 4) (q : BitVec 5) (s : State) : Host.Outcome State Fault Refusal :=
  s.startHead fn q 3 fun s p _ => s.atOnce fn.toNat q.toNat p

/-- PACKET_COPY (R300): every word is copied at .SYS; the packet completes at PACKET_COMPLETE. -/
def execPacketCopy (fn : BitVec 4) (q : BitVec 5) (s : State) : Host.Outcome State Fault Refusal :=
  s.startHead fn q 2 fun s p _ =>
    let s1 := s.startPacket fn.toNat q.toNat
    match s1.svcCopy fn.toNat (p.dw 8) (p.dw 0x10) ((p.dw 0x18).toNat / 4) with
    | (true, s2) => s2.modQueue fn.toNat q.toNat fun x => { x with work := x.work ++ [(p.seq, .copy)] }
    | (false, s2) => s2.failPacket fn.toNat q.toNat p.seq stMemory 2

/-- PACKET_SIGNAL (R300): a 64-bit write or add at .SYS. -/
def execPacketSignal (fn : BitVec 4) (q : BitVec 5) (s : State) : Host.Outcome State Fault Refusal :=
  s.startHead fn q 4 fun s p _ =>
    let f := fn.toNat
    let n := q.toNat
    let s1 := s.startPacket f n
    let put (s : State) (v : W64) : State :=
      match s.svcWrite f (p.dw 8) State.shepTag (State.words64 v.toNat) with
      | (true, s2) => s2.completePacket f n p.seq
      | (false, s2) => s2.failPacket f n p.seq stMemory 4
    if (p.w 6).getLsbD 0 then
      match s1.svcRead64 f (p.dw 8) with
      | (some v, s2) => put s2 (v + p.dw 0x10)
      | (none, s2) => s2.failPacket f n p.seq stMemory 4
    else put s1 (p.dw 0x10)

/-- The condition of a WAITSIG (Table 18.3). -/
def sigHolds (p : Packet) (v : W64) : Bool :=
  match wbits (p.w 6) 1 0 with
  | 0 => decide (v = p.dw 0x10)
  | 1 => decide (v ≠ p.dw 0x10)
  | _ => decide ((p.dw 0x10).toNat ≤ v.toNat)

/-- A WAITSIG reads its word: it starts and completes where the condition holds, else it waits for its next read (R299,
R300). -/
def State.readSig (s : State) (f n : Nat) (p : Packet) : State :=
  match s.svcRead64 f (p.dw 8) with
  | (none, s1) => (s1.startPacket f n).failPacket f n p.seq stMemory 5
  | (some v, s1) =>
    if sigHolds p v then s1.atOnce f n p
    else s1.modQueue f n fun x => { x with polled := some (s1.timestamp 8 + 1000) }

def execPacketWaitsig (fn : BitVec 4) (q : BitVec 5) (s : State) : Host.Outcome State Fault Refusal :=
  if (s.queue fn.toNat q.toNat).polled.isSome then .next s
  else s.startHead fn q 5 fun s p _ => s.readSig fn.toNat q.toNat p

/-- WAITSIG_POLL (R300): the word is read again, 1,000 timestamp units after the last read or at a doorbell. -/
def execWaitsigPoll (fn : BitVec 4) (q : BitVec 5) (s : State) : Host.Outcome State Fault Refusal :=
  match (s.queue fn.toNat q.toNat).polled with
  | some t => if t ≤ s.timestamp 8 then s.startHead fn q 5 fun s p _ => s.readSig fn.toNat q.toNat p else .next s
  | none => .next s

/-- PACKET_TRACE_START (R359, R360): from the PF only, and not while a window is open; it completes once every stream has
written WINDOW.OPEN. -/
def execPacketTraceStart (fn : BitVec 4) (q : BitVec 5) (s : State) : Host.Outcome State Fault Refusal :=
  if fn = 0 ∧ s.trace.window.isSome = true then .next s
  else
    s.startHead fn q 6 fun s p _ =>
      let f := fn.toNat
      let n := q.toNat
      let s1 := s.startPacket f n
      if fn ≠ 0 then s1.failPacket f n p.seq stQueue 6
      else
        match s1.svcRead f (p.dw 8) 16 with
        | (none, s2) => s2.failPacket f n p.seq stMemory 6
        | (some ws, s2) =>
          match State.parseTrace (ws.map (·.val)) n p.seq with
          | none => s2.failPacket f n p.seq stQueue 6
          | some w =>
            let s3 := s2.openWindow w
            if s3.windowMoves then s3.modQueue f n fun x => { x with work := x.work ++ [(p.seq, .traceStart)] }
            else s3.completePacket f n p.seq

/-- PACKET_TRACE_STOP (R359, R360): it completes once the headers are written. A window that another queue's packet still
opens or closes is waited for (assumption log 63). -/
def execPacketTraceStop (fn : BitVec 4) (q : BitVec 5) (s : State) : Host.Outcome State Fault Refusal :=
  if fn = 0 ∧ s.windowMoves = true then .next s
  else s.startHead fn q 7 fun s p _ =>
    let f := fn.toNat
    let n := q.toNat
    let s1 := s.startPacket f n
    if fn ≠ 0 then s1.failPacket f n p.seq stQueue 7
    else if s1.trace.window.isNone then s1.completePacket f n p.seq
    else
      let s2 := s1.closeWindow n p.seq
      if s2.trace.window.isNone then s2.completePacket f n p.seq
      else s2.modQueue f n fun x => { x with work := x.work ++ [(p.seq, .traceStop)] }

/-- Whether a core lies in a partition's rectangle (Table 18.13). -/
def inPart (p : Part) (c : Nat) : Bool :=
  p.reg.getLsbD 32 && decide (bits p.reg 7 0 ≤ coreX c ∧ coreX c < bits p.reg 7 0 + bits p.reg 23 16 ∧
    bits p.reg 15 8 ≤ coreY c ∧ coreY c < bits p.reg 15 8 + bits p.reg 31 24)

/-- PACKET_CODESYNC (R300): no core keeps an instruction or literal line of the range for a launch of the function. -/
def execPacketCodesync (fn : BitVec 4) (q : BitVec 5) (s : State) : Host.Outcome State Fault Refusal :=
  s.startHead fn q 8 fun s p _ =>
    let mine (l : Nat) : Bool := (s.launch? l).any fun x => decide (x.fn = fn.toNat)
    let lo := (p.dw 8).toNat
    let hi := lo + 8 * (p.dw 0x10).toNat
    let clean (e : Nat × CoreSt) : Nat × CoreSt :=
      (e.1, { e.2 with icache := e.2.icache.filter fun x => !(mine x.1 && decide (lo ≤ x.2.1.toNat ∧ x.2.1.toNat < hi)) })
    let s1 := { s with
      cores := s.cores.map clean, contexts := s.contexts.map fun (c : Context) => { c with cores := c.cores.map clean } }
    s1.atOnce fn.toNat q.toNat p

/-- PACKET_COMPLETE (R299): a packet whose operation took time completes. -/
def execPacketComplete (fn : BitVec 4) (q : BitVec 5) (seq : Nat) (s : State) : Host.Outcome State Fault Refusal :=
  match (if s.ready then (s.queue fn.toNat q.toNat).work.find? fun w => decide (w.1 = seq) else none) with
  | none => .next s
  | some (_, .copy) => .next (s.completePacket fn.toNat q.toNat seq)
  | some (_, .traceStart) =>
    let s1 := s.openStreams
    if s1.windowMoves then .next s1 else .next (s1.completePacket fn.toNat q.toNat seq)
  | some (_, .traceStop) =>
    let s1 := s.traceFinish
    if s1.trace.window.isNone then .next (s1.completePacket fn.toNat q.toNat seq) else .next s1

/-! The launch record (R301, R302, Table 18.5). -/

/-- A record from its 64 words and the words of its write-range table. -/
def parseLaunch (ws : List W32) (wr : List W32) : LaunchRec :=
  let w (i : Nat) : W32 := ws.getD i 0
  let dw (off : Nat) : W64 := w (off / 4 + 1) ++ w (off / 4)
  { code := dw 0, size := (w 2).toNat, handler := w 3, w := wbits (w 4) 23 16, h := wbits (w 4) 31 24,
    x0 := wbits (w 4) 7 0, y0 := wbits (w 4) 15 8, regs := wbits (w 5) 31 24, groups := wbits (w 5) 23 16,
    pens := wbits (w 5) 15 8, flocks := wbits (w 5) 7 0, scratch := (w 6).toNat, tlaunch := (w 7).getLsbD 25,
    tmark := (w 7).getLsbD 24, mode := BitVec.ofNat 5 (wbits (w 7) 20 16), anyplace := (w 7).getLsbD 11,
    pad := (w 7).getLsbD 10, tagmode := BitVec.ofNat 2 (wbits (w 7) 9 8), bell := wbits (w 7) 7 0,
    slots := (List.range 8).map fun i => dw (0x20 + 8 * i), wrbase := dw 0x60, wrcount := w 26,
    ranges := (List.range (wr.length / 4)).map fun i =>
      ⟨wr.getD (4 * i + 1) 0 ++ wr.getD (4 * i) 0, wr.getD (4 * i + 2) 0, wr.getD (4 * i + 3) 0⟩,
    orign := (w 27).toNat, origbase := dw 0x70, argbase := dw 0x78, arglen := w 32, sigaddr := dw 0x88, sigval := dw 0x90,
    logbase := dw 0x98, loglen := w 40, faultrec := dw 0xA8 }

/-- Whether a format slot is valid (R59). -/
def slotValid (d : W64) : Bool :=
  let fmt := Slot.fmt d
  let scale := Slot.scale d
  let blk := Slot.blk d
  let int := [7, 8, 9, 10, 11, 12].contains fmt
  decide (fmt < 13) && decide (Slot.acc d = if int then 10 else 0) &&
  (decide (scale ≠ 2) || (decide (fmt = 3 ∨ fmt = 4 ∨ fmt = 5) && decide (blk = 5))) &&
  (decide (scale = 3) == decide (fmt = 6)) && (decide (scale ≠ 3) || decide (blk = 6)) &&
  decide (scale ≤ 3) && (decide (2 ≤ scale) || decide (blk = 0)) && decide (Slot.sparse d ≠ 3) &&
  (!Slot.esc d || decide (fmt = 5)) && decide (bits d 63 20 = 0)

/-- Whether a zero field of the record is non-zero (reason 0x05). -/
def recordNonzero (ws : List W32) : Bool :=
  let w (i : Nat) : W32 := ws.getD i 0
  decide (wbits (w 7) 31 26 ≠ 0) || decide (wbits (w 7) 23 21 ≠ 0) || decide (wbits (w 7) 15 12 ≠ 0) ||
  decide (w 33 ≠ 0) || decide (w 41 ≠ 0) || (List.range 20).any fun i => decide (w (44 + i) ≠ 0)

/-- Whether a write-range table breaks Table 19.2 or R319 (reason 0x08), beside WRBASE and WRCOUNT. -/
def rangesBad (r : LaunchRec) : Bool :=
  let nf := r.w * r.h * r.flocks
  let one (e : WriteRange) : Bool :=
    decide (e.base.toNat % 4 ≠ 0) || decide (2 ^ 48 ≤ e.base.toNat) || decide (e.len.toNat % 4 ≠ 0) ||
    !(decide (e.owner = 0xFFFFFFFF) || decide (e.owner.toNat < nf)) || decide (2 ^ 48 < e.base.toNat + e.len.toNat)
  let live := r.ranges.filter fun e => decide (e.len ≠ 0)
  let clash := (List.range live.length).any fun i => (List.range i).any fun j =>
    match live[i]?, live[j]? with
    | some a, some b =>
      decide (a.base.toNat < b.base.toNat + b.len.toNat ∧ b.base.toNat < a.base.toNat + a.len.toNat)
    | _, _ => false
  r.ranges.any one || clash || decide (r.wrbase.toNat % 8 ≠ 0) || decide (1024 < r.wrcount.toNat)

/-- The refusal reason of a record in a partition, 0 where it passes, and its detail (R302, Table 18.6). -/
def checkLaunch (p : Part) (fn : Nat) (ws : List W32) (r : LaunchRec) : Nat × Nat :=
  let pw := bits p.reg 23 16
  let ph := bits p.reg 31 24
  let outside := decide (r.w = 0) || decide (r.h = 0) || !p.reg.getLsbD 32 ||
    (if r.anyplace then decide (pw < r.w) || decide (ph < r.h) else decide (pw < r.x0 + r.w) || decide (ph < r.y0 + r.h))
  let odd (n : Nat) : Bool := decide (n % 2 = 1)
  let slot := ((List.range 8).find? fun i => !slotValid (r.slots.getD i 0)).getD 8
  let code := lowestCode
    [(0x01, outside),
     (0x02, r.pad && (odd r.w || odd r.h || (!r.anyplace && (odd r.x0 || odd r.y0)))),
     (0x03, decide (r.regs < 8 ∨ 240 < r.regs ∨ r.regs % 8 ≠ 0 ∨ r.groups < 1 ∨ 128 < r.groups ∨ r.flocks < 1 ∨
       16 < r.flocks ∨ r.scratch = 0 ∨ r.scratch % 64 ≠ 0 ∨ 1536 * 1024 < r.flocks * r.scratch ∨
       512 < r.flocks * r.groups ∨ 32768 < r.flocks * r.groups * r.regs)),
     (0x04, decide (slot < 8)),
     (0x05, recordNonzero ws),
     (0x06, decide (r.code.toNat % 8 ≠ 0 ∨ 2 ^ 48 ≤ r.code.toNat ∨ r.size = 0) ||
       !(decide (r.handler = 0xFFFFFFFF) || decide (r.handler.toNat < r.size))),
     (0x07, decide (r.orign = 1 ∨ 32768 < r.orign ∨ r.origbase.toNat % 16 ≠ 0) || (r.tags && decide (r.orign < 2))),
     (0x08, rangesBad r),
     (0x09, r.record && r.replay),
     (0x0A, decide (16 < r.pens ∨ r.groups ≤ r.bell)),
     (0x0B, decide (r.arglen.toNat % 4 ≠ 0 ∨ r.scratch < r.arglen.toNat)),
     (0x0D, (State.entryOf p fn).isNone),
     (0x0E, (r.record || r.replay) && decide (r.loglen.toNat < 8192 ∨ 2 ^ 48 ≤ r.logbase.toNat))]
  (code, if code = 4 then slot else 0)

namespace State

/-- Read a launch record and its write-range table as one snapshot (R301). -/
def readLaunch (s : State) (fn : Nat) (va : W64) : Option (List W32 × LaunchRec) × State :=
  match s.svcRead fn va 64 with
  | (none, s1) => (none, s1)
  | (some tw, s1) =>
    let ws := tw.map (·.val)
    let r := parseLaunch ws []
    if r.wrcount = 0 ∨ 1024 < r.wrcount.toNat ∨ r.wrbase.toNat % 8 ≠ 0 then (some (ws, r), s1)
    else
      match s1.svcRead fn r.wrbase (4 * r.wrcount.toNat) with
      | (none, s2) => (none, s2)
      | (some wr, s2) => (some (ws, parseLaunch ws (wr.map (·.val))), s2)

/-- A REFUSE record for a queue, with the origin of a rectangle in the core grid (R302, R306). -/
def refuseDrec (s : State) (fn q part : Nat) (at_ : Nat × Nat) (r : LaunchRec) (reason rule detail : Nat) : State :=
  s.drec ⟨fn, part, reason, 4, rule, q, 0xFFFFFFFF, rectWord (at_.1 % 256) (at_.2 % 256) r.w r.h, BitVec.ofNat 32 detail⟩

/-- Read and check the record of a LAUNCH packet (R301, R302): none where the packet fails. -/
def takeRecord (s : State) (fn q part seq : Nat) (addr : W64) : Option LaunchRec × State :=
  match s.readLaunch fn addr with
  | (none, s1) => (none, (s1.startPacket fn q).failPacket fn q seq stMemory 1)
  | (some (ws, r), s1) =>
    let p := s1.part part
    let (reason, detail) := checkLaunch p fn ws r
    if reason = 0 then (some r, s1)
    else
      (none, ((s1.startPacket fn q).refuseDrec fn q part (bits p.reg 7 0 + r.x0, bits p.reg 15 8 + r.y0) r reason 0x0020
        detail).failPacket fn q seq stRefused reason)

end State

/-- PACKET_LAUNCH (R299): the packet stands at the head of its queue until it starts, which is LAUNCH_PLACE's: the launch is
placed there or refused, and its record is read only then (R10, R301, assumption log 65). -/
def execPacketLaunch (fn : BitVec 4) (q : BitVec 5) (s : State) : Host.Outcome State Fault Refusal :=
  s.startHead fn q 1 fun s p part =>
    let wid := s.shep.nextWait
    (s.modShep fun h => { h with nextWait := wid + 1 }).modQueue fn.toNat q.toNat fun x =>
      { x with wait := some ⟨wid, p.seq, p.dw 8, part, none, false⟩ }

/-! Placing (R303 to R306). -/

namespace State

/-- The queue a waiting launch is of, as (function, queue), with the launch. -/
def waiting? (s : State) (wid : Nat) : Option (Nat × Nat × WaitLaunch) :=
  s.shep.queues.findSome? fun e =>
    match e.2.wait with
    | some w => if w.wid = wid then some (e.1 / 32, e.1 % 32, w) else none
    | none => none

/-- What the launches resident on a core hold: flock places, group slots, register blocks and scratchpad (R82), with the
claims of launches that have not started counted. -/
def coreHeld (s : State) (core : Nat) : Nat × Nat × Nat × Nat :=
  let add (a : Nat × Nat × Nat × Nat) (r : LaunchRec) : Nat × Nat × Nat × Nat :=
    (a.1 + r.flocks, a.2.1 + r.flocks * r.groups, a.2.2.1 + r.flocks * r.groups * r.regs, a.2.2.2 + r.flocks * r.scratch)
  let on (x y : Nat) (r : LaunchRec) : Bool :=
    decide (x ≤ coreX core ∧ coreX core < x + r.w ∧ y ≤ coreY core ∧ coreY core < y + r.h)
  let held := s.launches.foldl (fun a l =>
    if on l.x0 l.y0 l.rec_ && (s.flocks.any fun f => decide (f.launch = l.uid)) then add a l.rec_ else a) (0, 0, 0, 0)
  s.shep.queues.foldl (fun a e =>
    match e.2.wait with
    | some ⟨_, _, _, _, some (r, x, y), _⟩ => if on x y r then add a r else a
    | _ => a) held

/-- Whether a rectangle can be claimed whole (R304). -/
def claimable (s : State) (x y : Nat) (r : LaunchRec) : Bool :=
  (List.range (r.w * r.h)).all fun i =>
    let (a, b, c, d) := s.coreHeld (coreAt (x + i % r.w) (y + i / r.w))
    decide (a + r.flocks ≤ 16 ∧ b + r.flocks * r.groups ≤ 512 ∧ c + r.flocks * r.groups * r.regs ≤ 32768 ∧
      d + r.flocks * r.scratch ≤ 1536 * 1024)

/-- The origin a launch is placed at (R305): its own, or under ANYPLACE the first at which the claim succeeds, in row-major
order over the partition, even with PAD. -/
def placeAt (s : State) (part : Nat) (r : LaunchRec) : Option (Nat × Nat) :=
  let p := s.part part
  let px := bits p.reg 7 0
  let py := bits p.reg 15 8
  let tries := if r.anyplace then
      ((List.range (bits p.reg 23 16 * bits p.reg 31 24)).map fun i =>
        (i % max 1 (bits p.reg 23 16), i / max 1 (bits p.reg 23 16))).filter fun c =>
          decide (c.1 + r.w ≤ bits p.reg 23 16 ∧ c.2 + r.h ≤ bits p.reg 31 24) &&
          (!r.pad || decide (c.1 % 2 = 0 ∧ c.2 % 2 = 0))
    else [(r.x0, r.y0)]
  (tries.map fun c => (px + c.1, py + c.2)).find? fun c => s.claimable c.1 c.2 r

/-- The function whose context runs in a partition: that of the flocks its cores hold (R303), else the running entry's. -/
def partFn (s : State) (p : Nat) : Nat :=
  match s.launches.find? fun l => decide (l.part = p) && s.flocks.any fun f => decide (f.launch = l.uid) with
  | some l => l.fn
  | none =>
    match (s.part p).cur with
    | some e => entryFn (s.part p) e
    | none => 0

/-- Whether a partition runs a function's context, with nothing to restore (R303). -/
def partHolds (s : State) (part fn : Nat) : Bool :=
  (s.part part).cur.isSome && decide (s.partFn part = fn) && !(s.contexts.any fun c => decide (c.part = part ∧ c.fn = fn))

/-- Whether a partition runs a function's context with no slice end under way (R311). -/
def partRuns (s : State) (part fn : Nat) : Bool := s.partHolds part fn && (s.part part).stop.isNone

/-- Whether launches of a function in a partition are past step 1 of R304 and not started (R311). -/
def claimsIn (s : State) (part fn : Nat) : Bool :=
  s.shep.queues.any fun e => decide (e.1 / 32 = fn) && (e.2.wait.any fun w => w.claim.isSome && decide (w.part = part))

/-- Whether a launch may be placed beside those placed or claimed for: at most four have an order log (R327). -/
def logRoom (s : State) (r : LaunchRec) : Bool :=
  let logs (r : LaunchRec) : Bool := r.record || r.replay
  !logs r || decide (s.launches.countP (fun l => logs l.rec_) +
    s.shep.queues.countP (fun e => e.2.wait.any fun w => w.claim.any fun c => logs c.1) < 4)

/-- Whether a waiting launch can start now: one with a claim goes on, in a slice that ends too (R311). Any other starts once
its record, as memory holds it, can be placed, or is to be refused (R299, R302, R327). -/
def startsNow (s : State) (fn : Nat) (w : WaitLaunch) : Bool :=
  match w.claim with
  | some _ => s.partHolds w.part fn
  | none =>
    match (s.readLaunch fn w.addr).1 with
    | none => true
    | some (ws, r) =>
      decide ((checkLaunch (s.part w.part) fn ws r).1 ≠ 0) ||
        (s.partRuns w.part fn && s.logRoom r && (s.placeAt w.part r).isSome)

/-- The waiting launch of a number that can start now, with its queue. -/
def placeable (s : State) (wid : Nat) : Option (Nat × Nat × WaitLaunch) :=
  match s.waiting? wid with
  | some (fn, q, w) =>
    if (s.queue fn q).halted || !s.ready || s.waits fn (.place wid) || !s.startsNow fn w then none else some (fn, q, w)
  | none => none

/-- The shepherd's add to the origin table header (R68): 8 numbers for each core. Whether it was made; none where it waits
for the fault service. -/
def originSeed (s : State) (fn wid : Nat) (r : LaunchRec) : Option Bool × State :=
  match s.accessPage 8 fn r.origbase 4 .atomic with
  | (.ok pa tier _ tagged, s1) =>
    if 2 ≤ tier then (some false, s1)
    else (some true, s1.gPut pa tier tagged ⟨(s1.gWord pa tier tagged 0).val + BitVec.ofNat 32 (8 * r.w * r.h), 0⟩)
  | (.access _, s1) => (some false, s1)
  | (t, s1) =>
    let (asked, s2) := s1.raiseFault fn (.place wid) r.origbase 2 (faultReason t) 0 0 0
    (if asked then none else some false, s2)

/-- The numbers the core of an order starts with (R68). -/
def firstReserve (n c : Nat) : List Nat := ((List.range 8).map fun i => 8 * c + 1 + i).filter fun k => decide (k ≤ n - 1)

/-- Steps 3 and 4 of R304 on one core: windows, arguments, barriers and threads. -/
def startFlock (s : State) (l : Launch) (args : List W32) (core order slot : Nat) : State :=
  let r := l.rec_
  let idx := order * r.flocks + slot
  let f : Flock :=
    { uid := s.nextUid, launch := l.uid, core := core, slot := slot, idx := idx, size := r.scratch, mem := [], tags := [],
      barriers := [], pens := [], resumed := 0 }
  let f := f.setWords 0 (args.map fun w => ⟨w, shepTag⟩)
  let s1 := { s with flocks := s.flocks ++ [f], nextUid := s.nextUid + 1 }
  let ready := s1.cycle core
  (List.range r.groups).foldl (fun s g =>
    let logical := idx * r.groups + g
    s.createGroup l.uid core slot g logical
      ((List.range 8).map fun i => Thread.created r (BitVec.ofNat 32 (logical * 8 + i)) ready)) s1

/-- Start a launch whose arguments are read and whose origin add is made or refused (R304). -/
def startLaunch (s : State) (fn q : Nat) (w : WaitLaunch) (r : LaunchRec) (x y : Nat) (args : List W32) (seeded : Bool) : State :=
  let l : Launch :=
    { uid := s.nextUid, id := s.shep.nextLaunch, fn := fn, q := q, seq := w.seq, part := w.part, rec_ := r, x0 := x, y0 := y,
      running := true, ending := none, fatal := none, started := s.tick, strandedAt := none, padBars := [], logs := [], replayTime := 0, drawn := [] }
  let s1 := ({ s with launches := s.launches ++ [l], nextUid := s.nextUid + 1 }.modShep fun h =>
    { h with nextLaunch := h.nextLaunch + 1 }).modQueue fn q fun x => { x with wait := none }
  let s2 := s1.startPacket fn q
  let order (i : Nat) : Nat := coreAt (x + i % r.w) (y + i / r.w)
  let cores := List.range (r.w * r.h)
  -- a tile engine with no launch on its core counts its completed operations from 0 again (assumption log 12)
  let s3 := cores.foldl (fun s i =>
    if s.flocks.any fun f => decide (f.core = order i) then s else s.modTile (order i) fun u => { u with done := 0 }) s2
  let s4 := cores.foldl (fun s i => (List.range r.flocks).foldl (fun s k => s.startFlock l args (order i) i k) s) s3
  let s5 := if !r.tags then s4
    else if seeded then
      cores.foldl (fun s i => s.modOrigin (order i) l.uid fun u =>
        OriginUnit.settle { u with reserve := firstReserve r.orign i }) s4
    else
      (cores.foldl (fun s i => s.modOrigin (order i) l.uid fun u => { u with stopped := true }) s4).faultDrec l.uid 0x14
        0x0061 0xFFFFFFFF
  let s6 := s5.drec ⟨fn, w.part, 0, 1, if r.anyplace then 0x0002 else 0x0001, q, l.id, launchRect l, 0⟩
  let s7 := if r.replay then (List.range 128).foldl (fun s st => s.stationLoad l st) s6 else s6
  s7.traceLaunch l none

/-- Take a placed launch through steps 3 to 6 of R304: a failed read of the arguments fails the packet with MEMORY. -/
def launchNow (s : State) (fn q : Nat) (w : WaitLaunch) (r : LaunchRec) (x y : Nat) : State :=
  match (if r.arglen = 0 then (some [], s) else s.svcRead fn r.argbase (r.arglen.toNat / 4) : Option (List TW) × State) with
  | (none, s1) =>
    ((s1.modQueue fn q fun x => { x with wait := none }).startPacket fn q).failPacket fn q w.seq stMemory 1
  | (some args, s1) =>
    match (if !r.tags then (some true, s1) else if w.refused then (some false, s1) else s1.originSeed fn w.wid r :
        Option Bool × State) with
    | (none, s2) => s2
    | (some ok, s2) => s2.startLaunch fn q w r x y (args.map (·.val)) ok

/-- Step 1 of R304: the packet starts, so its record is read and checked (R10, R301), and a rectangle is claimed for it,
unless that has been done. None where the launch cannot start or is refused. -/
def takeClaim (s : State) (wid : Nat) : Option (Nat × Nat × WaitLaunch × LaunchRec × Nat × Nat) × State :=
  match s.placeable wid with
  | none => (none, s)
  | some (fn, q, w) =>
    match w.claim with
    | some (r, x, y) => (some (fn, q, w, r, x, y), s)
    | none =>
      match s.takeRecord fn q w.part w.seq w.addr with
      | (none, s1) => (none, s1)
      | (some r, s1) =>
        match s1.placeAt w.part r with
        | some (x, y) =>
          let w1 := { w with claim := some (r, x, y) }
          (some (fn, q, w1, r, x, y), s1.modQueue fn q fun z => { z with wait := some w1 })
        | none => (none, s1)

end State

/-- LAUNCH_PLACE (R302, R304, R305): the launch is refused; or its rectangle is claimed, its routing is checked, and every
step up to the first words is made, and the claim holds while the origin table's add waits for the fault service. -/
def execLaunchPlace (wid : Nat) (s : State) : Host.Outcome State Fault Refusal :=
  match s.takeClaim wid with
  | (none, s1) => .next s1
  | (some (fn, q, w, r, x, y), s1) => .next (s1.launchNow fn q w r x y)

/-- ROUTING_CHECK_TIMEOUT (R306): the check packet of a launch that claims its rectangle does not come back. -/
def execRoutingCheckTimeout (wid : Nat) (s : State) : Host.Outcome State Fault Refusal :=
  match s.takeClaim wid with
  | (none, s1) => .next s1
  | (some (fn, q, w, r, x, y), s1) =>
    .next ((((s1.modQueue fn q fun x => { x with wait := none }).startPacket fn q).refuseDrec fn q w.part (x, y) r 0x0C
      0x0021 0).failPacket fn q w.seq stRoute 0x0C)

/-! The end of a launch (R307, R308). -/

namespace State

/-- Every group of a launch, those of saved contexts included. -/
def launchGroups (s : State) (u : Nat) : List Group :=
  (s.groups ++ s.contexts.flatMap (·.groups)).filter fun g => decide (g.launch = u)
def launchFlocks (s : State) (u : Nat) : List Flock :=
  (s.flocks ++ s.contexts.flatMap (·.flocks)).filter fun f => decide (f.launch = u)
def launchCores (s : State) : List CoreSt := s.cores.map (·.2) ++ s.contexts.flatMap fun c => c.cores.map (·.2)

/-- Whether an engine operation or an access of a launch is left (R307): origin unit traffic counts only for the end. -/
def launchBusy (s : State) (u : Nat) (unit : Bool) : Bool :=
  (s.launchCores.any fun k =>
    (k.copy.any fun c => decide (c.launch = u)) || k.tile.queue.any fun o => decide (o.launch = u)) ||
  (s.gaccs.any fun g => decide (g.launch = u) && (unit || !g.unit)) ||
  (s.arrays.any fun e =>
    (e.2.queue.any fun c => decide (c.launch = u)) ||
    (match e.2.run with
     | some r => decide (r.cmd.launch = u)
     | none => false)) ||
  (s.scratch.any fun a => (s.launchFlocks u).any fun f => decide (f.uid = a.flock))

/-- Whether a launch has ended but for its logs: it has been ended, or every thread has exited and no row sleeps. -/
def launchOver (s : State) (l : Launch) : Bool :=
  l.running && (l.ending.isSome ||
    (!((s.launchGroups l.uid).any fun g => g.lanes.any (·.present)) && !(s.launchFlocks l.uid).any (·.rowsAsleep))) &&
  !s.launchBusy l.uid true &&
  !(s.launchCores.any fun k => k.suspends.any fun r => (s.launchFlocks l.uid).any fun f => decide (f.uid = r.flock)) &&
  -- an abort of a switched-out launch waits for its context's restore (R311)
  !(l.ending = some stAborted && s.contexts.any fun c => c.flocks.any fun f => decide (f.launch = l.uid))

/-- Release a launch's places: its groups, flocks and what its cores hold of it. A saved context with no flock left is none;
one that the save engine may still write stays until that is done. -/
def releaseLaunch (s : State) (u : Nat) : State :=
  let gone (f : Flock) : Bool := decide (f.launch = u)
  let uids := (s.launchFlocks u).map (·.uid)
  let port (p : Nat × Port) : Nat × Port :=
    (p.1, { p.2 with
      current := AL.erase p.2.current u,
      yielded := p.2.yielded.filter (fun g => !((s.launchGroups u).any fun x => decide (x.uid = g))) })
  let clean (k : CoreSt) : CoreSt :=
    { k with
      icache := k.icache.filter (fun e => !decide (e.1 = u)), origin := AL.erase k.origin u,
      ports := k.ports.map port,
      copy := k.copy.filter (fun c => !decide (c.launch = u)),
      tile := { k.tile with
        queue := k.tile.queue.filter (fun o => !decide (o.launch = u)),
        waiting := k.tile.waiting.filter fun f => !uids.contains f },
      suspends := k.suspends.filter fun r => !uids.contains r.flock }
  let cores := s.cores.map (·.1)
  let s1 := { s with
    groups := s.groups.filter (fun g => !decide (g.launch = u)), flocks := s.flocks.filter (fun f => !gone f),
    launches := s.launches.filter (fun l => !decide (l.uid = u)), cores := s.cores.map (fun e => (e.1, clean e.2)),
    gaccs := s.gaccs.filter (fun g => !decide (g.launch = u)), scratch := s.scratch.filter (fun a => !uids.contains a.flock),
    contexts := (s.contexts.map fun c =>
      { c with
        groups := c.groups.filter (fun g => !decide (g.launch = u)), flocks := c.flocks.filter (fun f => !gone f),
        cores := c.cores.map fun e => (e.1, clean e.2) }).filter fun c => !c.flocks.isEmpty || (s.part c.part).saving,
    arrays := s.arrays.map fun e =>
      (e.1, { e.2 with
        queue := e.2.queue.filter (fun c => !decide (c.launch = u)),
        run := e.2.run.filter fun r => !decide (r.cmd.launch = u) }) }
  cores.foldl (fun s c => s.tileSettle c) s1

/-- The launch fault record (Table 18.7). -/
def faultRecord (s : State) (l : Launch) (status : Nat) (asleep : Option (Nat × Nat)) : List W32 :=
  if status = stThermal then [0, 0xFFFFFFFF] ++ List.replicate 8 0 ++ words64 (s.timestamp 8) ++ List.replicate 4 0
  else match asleep with
    | some (logid, pen) =>
      [0, BitVec.ofNat 32 logid, 0, 0, BitVec.ofNat 32 pen] ++ List.replicate 11 0
    | none =>
      match l.fatal with
      | none => List.replicate 16 0
      | some x =>
        let ti := x.trap
        let second := if x.code = 0x16 then ti.cause.toNat else 0
        [BitVec.ofNat 32 (x.code.toNat + 256 * second), x.logid, x.pc.setWidth 32, (x.pc >>> 32).setWidth 32, ti.info,
         ti.infoh, ti.t1 ++ ti.t0, ti.t2.setWidth 32, ti.detail, BitVec.ofNat 32 (coreX x.core + 256 * coreY x.core)] ++
          words64 (x.tick * 10 / 33) ++ List.replicate 4 0

/-- End a launch (R307): its fault record where it has one, its claim released, END, trace, the completion signal, and its
packet completed. A failed access of the record or signal gives the queue status MEMORY (R297). -/
def finishLaunch (s : State) (l : Launch) (status : Nat) (asleep : Option (Nat × Nat)) : State :=
  let record := decide (status = stFault ∨ status = stThermal ∨ status = stStranded)
  let (noted, s1) := if record && decide (l.rec_.faultrec ≠ 0) then
      s.svcWrite l.fn l.rec_.faultrec shepTag (s.faultRecord l status asleep) else (true, s)
  let s2 := s1.releaseLaunch l.uid
  let s3 := s2.drec ⟨l.fn, l.part, 0, 7, 0x0050, l.q, l.id, launchRect l, 0⟩
  let s4 := s3.traceLaunch l (some status)
  let (ok, s5) := if l.rec_.sigaddr = 0 then (true, s4)
    else s4.svcWrite l.fn l.rec_.sigaddr shepTag (words64 l.rec_.sigval.toNat)
  let status := if noted && ok then status else stMemory
  if status = stOk then s5.completePacket l.fn l.q l.seq else s5.failPacket l.fn l.q l.seq status 1

/-- Close the station logs of a launch (R323, R329). -/
def closeLogs (s : State) (l : Launch) : State :=
  if l.rec_.record || l.rec_.replay then (List.range 128).foldl (fun s st => s.stationClose l st) s else s

def logsClosed (s : State) (l : Launch) : Bool :=
  !(l.rec_.record || l.rec_.replay) || (List.range 128).all fun st => (s.stationLog l.uid st).closed

/-- Whether a launch may end now (R307): it is over, its trace records are performed, and no station of it waits for the fault
service. -/
def endable (s : State) (l : Launch) : Bool :=
  s.launchOver l && !s.tracePending l && !((List.range 128).any fun st => s.waits l.fn (.station l.uid st))

end State

namespace State

/-- The rows of a launch that sleep in pens, as (logical thread id, pen), resident and spilled. -/
def rowsOf (s : State) (u : Nat) : List (Nat × Nat) :=
  (s.launchFlocks u).flatMap fun f =>
    f.pens.flatMap fun e =>
      let rows (word : Nat → W32) : List (Nat × Nat) :=
        (List.range 8).filterMap fun r => if (word 0).getLsbD r then some ((word (2 + r)).toNat, e.1) else none
      ((f.usedFrames e.2).flatMap fun n => rows fun i => (f.word (Flock.frameAddr e.2 n + 4 * i)).val) ++
      (e.2.spilled.flatMap fun t => rows fun i => t.header.getD i 0)

/-- Whether a flock has a tile that is resumable or resuming (R268). -/
def resumableIn (f : Flock) : Bool :=
  f.pens.any fun e =>
    ((f.usedFrames e.2).any fun n =>
      let h := f.header0 e.2 n
      decide (Flock.hState h = 3) || (headerReady h && !e.2.hold.getLsbD (Flock.hKey h))) ||
    e.2.spilled.any fun t =>
      !t.failed && headerReady (wordAt t.header 0) && !e.2.hold.getLsbD (Flock.hKey (wordAt t.header 0))

/-- Whether a launch stands as R308 says, but for the time it has stood so: its threads have left or sleep in pens, and
nothing of it is resumable or outstanding. -/
def strandable (s : State) (l : Launch) : Bool :=
  l.running && l.ending.isNone && s.partRuns l.part l.fn &&
  !((s.launchGroups l.uid).any fun g => g.lanes.any (·.present)) && !(s.rowsOf l.uid).isEmpty &&
  !s.launchBusy l.uid false &&
  !(s.cores.any fun e => e.2.suspends.any fun r => (s.launchFlocks l.uid).any fun f => decide (f.uid = r.flock)) &&
  !((s.launchFlocks l.uid).any fun f => resumableIn f)

end State

/-- LAUNCH_END (R307): a launch that is over closes its logs and ends. A stranded launch's fault record names the lowest
sleeping thread and its pen (R308). -/
def execLaunchEnd (lid : Nat) (s : State) : Host.Outcome State Fault Refusal :=
  match s.launch? lid with
  | none => .next s
  | some l =>
    if !s.endable l then .next s
    else
      let s1 := s.closeLogs l
      let best := if l.ending = some stStranded then
          (sortBy (fun a b : Nat × Nat => lexLt [a.1, a.2] [b.1, b.2]) (s.rowsOf l.uid)).head? else none
      if s1.logsClosed l then .next (s1.finishLaunch l (l.ending.getD stOk) best) else .next s1

/-- LAUNCH_STRANDED (R308): a launch that has stood so for 10,000 timestamp units is being ended. -/
def execLaunchStranded (lid : Nat) (s : State) : Host.Outcome State Fault Refusal :=
  match s.launch? lid with
  | none => .next s
  | some l =>
    match l.strandedAt with
    | some t =>
      if s.strandable l && decide (t + 10000 ≤ s.timestamp 8) then
        .next ((s.faultDrec lid 0x15 0x0062 0).modLaunch lid fun l => { l with ending := some stStranded })
      else .next s
    | none => .next s

end Sys2Proof.Machine
end

