-- ==== Sys2Proof/Machine/Slices.lean ====
section
/-!
DEFINITION. Partitions and time slices (R202 to R206, R310, R311): the rotation, stop requests, halted cores, the swap of
contexts, their restoration, and the hardware units of the microcode's harts (Table 18.14).
-/
namespace Sys2Proof.Machine

namespace State

/-! The rotation (R310). -/

/-- Launches of a partition. -/
def partLaunches (s : State) (p : Nat) : List Launch := s.launches.filter fun l => decide (l.part = p)

/-- Whether a queue's waiting launch is a startable packet of a partition (R310): one that R327 keeps from being placed and
one that is to be refused are not. -/
def launchReady (s : State) (p fn q : Nat) : Bool :=
  !(s.queue fn q).halted && ((s.queue fn q).wait.any fun w =>
    decide (w.part = p) && (w.claim.isSome || (match (s.readLaunch fn w.addr).1 with
      | some (ws, r) => decide ((checkLaunch (s.part p) fn ws r).1 = 0) && s.logRoom r
      | none => false)))

/-- Whether an entry is enabled and its function has something to run in the partition: a context, live or saved, or a
startable packet (R310). -/
def eligible (s : State) (p e : Nat) : Bool :=
  let x := s.part p
  let fn := entryFn x e
  (AL.get 0 x.table e).getLsbD 23 &&
  ((s.contexts.any fun c => decide (c.part = p ∧ c.fn = fn) && !c.flocks.isEmpty) ||
   ((s.partLaunches p).any fun l => decide (l.fn = fn)) ||
   (List.range 32).any (s.launchReady p fn))

/-- The next entry of the rotation, wrapping: the first with something to run after the entry it last took. -/
def nextEntry (s : State) (p : Nat) : Option Nat :=
  ((List.range 16).map fun i => ((s.part p).rot + 1 + i) % 16).find? fun e => s.eligible p e

/-- The rectangle of a partition as a record names it. -/
def partRect (s : State) (p : Nat) : W32 :=
  let r := (s.part p).reg
  rectWord (bits r 7 0) (bits r 15 8) (bits r 23 16) (bits r 31 24)

/-- A record of a slice end (R311). -/
def sliceDrec (s : State) (p fn reason kind rule : Nat) (detail : W32) : State :=
  s.drec ⟨fn, p, reason, kind, rule, 0xFFFF, 0xFFFFFFFF, s.partRect p, detail⟩

/-- Step 2 of a slice end (R311): PREEMPT and the stop request, once no placement of the function is past step 1 of R304. -/
def sendStop (s : State) (p : Nat) : State :=
  match (s.part p).stop with
  | some st =>
    if st.sent || s.claimsIn p (s.partFn p) then s
    else
      (s.sliceDrec p (s.partFn p) st.reason 2 (if st.reason = 0x11 then 0x0011 else 0x0010) 0).modPart p fun x =>
        { x with stop := x.stop.map fun st => { st with sent := true } }
  | none => s

/-- Step 1 of a slice end (R311): no launch of the function is placed any more. -/
def beginStop (s : State) (p reason next : Nat) : State :=
  (s.modPart p fun x =>
    { x with stop := some ⟨s.timestamp 8, reason, next, [], false⟩, haltedAt := none, waited := false }).sendStop p

/-- Whether the running slice has lasted its quantum. -/
def sliceOver (s : State) (p : Nat) : Bool :=
  let x := s.part p
  match x.cur with
  | some c => s.ready && x.stop.isNone && decide (x.sliceAt + 1000 * entryQuantum x c ≤ s.timestamp 8)
  | none => s.ready && x.stop.isNone

end State

/-- SLICE_END (R310, R311): at the end of its quantum a slice gives way to the next entry. A partition that runs none takes
the next entry at once, and one whose next entry is of the same function goes on with it. -/
def execSliceEnd (p : BitVec 2) (s : State) : Host.Outcome State Fault Refusal :=
  let n := p.toNat
  if !s.sliceOver n then .next s
  else
    match s.nextEntry n with
    | none => .next s
    | some e =>
      if (s.part n).cur.isNone ∨ State.entryFn (s.part n) e = s.partFn n then
        .next (s.modPart n fun x => { x with cur := some e, rot := e, sliceAt := s.timestamp 8 })
      else .next (s.beginStop n 0x10 e)

/-- PRIORITY_CUT (R310): the slice has run MINQ microseconds, and an entry of higher priority has rung. -/
def State.cutDue (s : State) (p : Nat) : Option Nat :=
  let x := s.part p
  match x.cur, x.cut with
  | some c, some e =>
    if s.ready && x.stop.isNone && decide (entryPrio x c < entryPrio x e) &&
        decide (x.sliceAt + 1000 * s.shep.minq.toNat ≤ s.timestamp 8) then some e else none
  | _, _ => none

def execPriorityCut (p : BitVec 2) (s : State) : Host.Outcome State Fault Refusal :=
  let n := p.toNat
  match s.cutDue n with
  | none => .next s
  | some e =>
    if State.entryFn (s.part n) e = s.partFn n then .next (s.modPart n fun x => { x with cur := some e, cut := none })
    else .next (s.beginStop n 0x11 e)

namespace State

/-! Stopping (R202, R203). -/

/-- The groups of a partition that are on its cores. -/
def partGroups (s : State) (p : Nat) : List Group :=
  s.groups.filter fun g => (s.launch? g.launch).any fun l => decide (l.part = p)
def partFlocks (s : State) (p : Nat) : List Flock :=
  s.flocks.filter fun f => (s.launch? f.launch).any fun l => decide (l.part = p)

/-- Whether a thread still runs under a stop request. -/
def stillRuns (t : Thread) : Bool := t.present && t.stop.isNone && !decide (t.sleep = .ended)

/-- Whether a group is of a launch that is being ended, whose threads R197 or R308 has stopped. -/
def endingGroup (s : State) (g : Group) : Bool := (s.launch? g.launch).any fun l => l.ending.isSome

/-- Stop threads of a partition that meet a condition where they stand, all of their state live (R202). -/
def stopWhere (s : State) (p : Nat) (forced : Bool) (c : Group → Nat → Thread → Bool) : State :=
  let mine := (s.partGroups p).map (·.uid)
  { s with
    groups := s.groups.map fun g =>
      if mine.contains g.uid && !s.endingGroup g then
        { g with
          lanes := ((List.range g.lanes.length).zip g.lanes).map fun p =>
            if stillRuns p.2 && c g p.1 p.2 then { p.2 with stop := some ⟨forced, none⟩ } else p.2 }
      else g }

/-- The compute dies on whose own timestamps the deadline of a stop request has come (R202, R357), and has not been served. -/
def lateDies (s : State) (p : Nat) : List Nat :=
  match (s.part p).stop with
  | some st =>
    if s.ready && st.sent then
      (List.range 8).filter fun d => !st.expired.contains d && decide (st.t0 + 20000 ≤ s.timestamp d)
    else []
  | none => []

/-- Whether a deadline of a stop request has come. -/
def deadlineDue (s : State) (p : Nat) : Bool := !(s.lateDies p).isEmpty

end State

/-- STOP_DEADLINE (R202, R311): on the dies whose timestamp has come to it, threads that still run stop at their next word,
everything live; each core that had one gives a DEADLINE record. -/
def execStopDeadline (p : BitVec 2) (s : State) : Host.Outcome State Fault Refusal :=
  let n := p.toNat
  if !s.deadlineDue n then .next s
  else
    let ds := s.lateDies n
    let cores := (List.range 320).filter fun c =>
      ds.contains (dieOf c) &&
        (s.partGroups n).any fun g => decide (g.core = c) && !s.endingGroup g && g.lanes.any State.stillRuns
    let s1 := s.stopWhere n true fun g _ _ => ds.contains (dieOf g.core)
    let s2 := s1.modPart n fun x => { x with stop := x.stop.map fun st => { st with expired := st.expired ++ ds } }
    .next (cores.foldl (fun s c =>
      s.sliceDrec n (s.partFn n) 0x12 3 0x0030 (BitVec.ofNat 32 (coreX c + 256 * coreY c))) s2)

namespace State

/-- Whether a thread, which the end of its launch may have stopped, has stopped with nothing of its own in flight (R203). -/
def threadHalted (ending : Bool) (t : Thread) : Bool :=
  !t.present ||
    ((ending || t.stop.isSome || decide (t.sleep = .ended)) && t.flagged.isEmpty && t.rf.pend.isEmpty && t.mts.isEmpty)

/-- Whether every core of a partition is halted (R203, R219). -/
def partHalted (s : State) (p : Nat) : Bool :=
  let ls := s.partLaunches p
  let mine (u : Nat) : Bool := ls.any fun l => decide (l.uid = u)
  let fls := s.partFlocks p
  let region (r : Option Region) : Bool := match r with
    | some r => r.helpers.all fun h => h.2.pend.isEmpty
    | none => true
  (s.partGroups p).all (fun g => g.lanes.all (threadHalted (s.endingGroup g)) && region g.q0 && region g.q1) &&
  s.gaccs.all (fun g => !mine g.launch || g.unit || g.performed) &&
  s.cores.all (fun e =>
    (e.2.tile.queue.all fun o => !mine o.launch) &&
    (e.2.copy.all fun c => !(mine c.launch && decide (c.kind = .cbcast))) &&
    (e.2.suspends.all fun r => !(fls.any fun f => decide (f.uid = r.flock)) || s.spilling r)) &&
  s.arrays.all (fun e => (e.2.queue.all fun c => !mine c.launch) && (match e.2.run with
    | some r => !mine r.cmd.launch
    | none => true)) &&
  s.scratch.all (fun a => !fls.any fun f => decide (f.uid = a.flock))

/-! The swap (R204, R205). -/

/-- Registers that a stop leaves live; the others read 0 with the null tag, whatever parity their words had (R205). -/
def keepLive (t : Thread) : Thread :=
  match t.stop with
  | some ⟨_, some (regs, _)⟩ =>
    { t with
      rf := { t.rf with v := t.rf.v.filter fun e => regs.contains e.1 },
      parity := t.parity.filter fun e => match e.1 with
        | .v n => regs.contains n.val
        | _ => true }
  | _ => t

/-- The byte ranges of a flock's window that stay: none means the whole window (R203). -/
def liveRanges (gs : List Group) (f : Flock) : Option (List (Nat × Nat)) :=
  let ts := (gs.filter fun g => decide (g.launch = f.launch ∧ g.core = f.core ∧ g.slot = f.slot)).flatMap fun g =>
    g.lanes.filter (·.present)
  let maps := ts.map fun t => match t.stop with
    | some ⟨_, some (_, rs)⟩ => some rs
    | _ => none
  if maps.any (·.isNone) then none
  else some ((maps.flatMap fun m => m.getD []) ++ f.pens.map fun e => (e.2.fbase, e.2.nt * (64 + 32 * e.2.w)))

def keepWindow (gs : List Group) (f : Flock) : Flock :=
  match liveRanges gs f with
  | none => f
  | some rs =>
    let inside (a : Nat) : Bool := rs.any fun r => decide (r.1 ≤ a ∧ a < r.1 + r.2)
    { f with mem := f.mem.filter (fun c => inside c.1), tags := f.tags.filter fun e => inside (4 * e.1) }

/-- What of a core stays with it at a swap: its trace counters. -/
def bareCore (k : CoreSt) : CoreSt := { CoreSt.fresh with counters := k.counters }

/-- Take the outgoing context of a partition off its cores. -/
def saveContext (s : State) (p fn : Nat) : State :=
  let gs := s.partGroups p
  let fls := s.partFlocks p
  let x := s.part p
  if fls.isEmpty then s
  else
    let ctx : Context :=
      { part := p, fn := fn, groups := gs.map (fun g => { g with lanes := g.lanes.map keepLive }),
        flocks := fls.map (keepWindow gs), refused := [], origins := [],
        cores := (s.cores.filter fun e => inPart x e.1).map fun e =>
          (e.1, { restartCore (fun _ => true) (s.cycle e.1) e.2 with counters := [] }) }
    { s with
      groups := s.groups.filter (fun g => !gs.any fun x => decide (x.uid = g.uid)),
      flocks := s.flocks.filter (fun f => !fls.any fun x => decide (x.uid = f.uid)),
      cores := s.cores.map (fun e => if inPart x e.1 then (e.1, bareCore e.2) else e),
      contexts := s.contexts ++ [ctx] }

/-- Core cycles of the swap path (Table 1.2). -/
def swapCycles : Nat := 998

/-- Whether the swap of a partition is due: every core has halted and the swap path has had its time. -/
def swapDue (s : State) (p : Nat) : Bool :=
  match (s.part p).stop, (s.part p).haltedAt with
  | some _, some h => s.ready && s.partHalted p && decide (h + swapCycles ≤ s.tick)
  | _, _ => false

/-- Swap a halted partition: its context goes out, and its next entry begins (R204, R311). -/
def swapNow (s : State) (p : Nat) : State :=
  match (s.part p).stop, (s.part p).haltedAt with
  | some st, some h =>
    let x := s.part p
    let fn := s.partFn p
    let s1 := s.saveContext p fn
    let s2 := s1.sliceDrec p fn (if x.waited then 0x13 else st.reason) 5 0x0040 (BitVec.ofNat 32 ((s.tick - h) * 10 / 33))
    s2.modPart p fun y =>
      { y with
        cur := some st.next, rot := if st.reason = 0x11 then x.cur.getD 0 else st.next, cut := none,
        sliceAt := s.timestamp 8, stop := none, haltedAt := none, saving := true, waited := false }
  | _, _ => s

end State

/-- PARTITION_SWAP (R204, R311): a swap that is due while the save engine still works waits for it. -/
def execPartitionSwap (p : BitVec 2) (s : State) : Host.Outcome State Fault Refusal :=
  let n := p.toNat
  if !s.swapDue n then .next s
  else if (s.part n).saving then .next (s.modPart n fun x => { x with waited := true })
  else .next (s.swapNow n)

/-- SAVE_ENGINE_DONE (R204): the context that went out last lies in the save area. -/
def execSaveEngineDone (p : BitVec 2) (s : State) : Host.Outcome State Fault Refusal :=
  let n := p.toNat
  let s1 := if (s.part n).saving && s.ready then
      match (s.contexts.filter fun c => decide (c.part = n)).getLast? with
      | some c => s.saveArea n c.fn
      | none => s
    else s
  .next ({ s1 with contexts := s1.contexts.filter fun c => !decide (c.part = n) || !c.flocks.isEmpty }.modPart n fun x =>
    { x with saving := false })

namespace State

/-! Restoration (R205, R206). -/

/-- Where a core moves under an offset. -/
def moveCore (dx dy c : Nat) : Nat := coreAt ((coreX c + dx) % 8) ((coreY c + dy) % 40)

/-- A restored thread: it goes on where it stood, TFDET.FORCED set where the deadline stopped it, a fault sleep replays, and
a sleep that had ended is over (R202, R205). On other cores the spare-block copies start empty (R206). -/
def wakeThread (moved : Bool) (cyc : Nat) (t : Thread) : Thread :=
  let forced := match t.stop with
    | some ⟨true, _⟩ => true
    | _ => false
  let sleep := match t.sleep with
    | .stopped => .awake
    | .fault .. => .awake
    | .barrier _ _ _ (some _) => .awake
    | .bwait _ _ _ (some _) => .awake
    | .waita _ _ _ _ _ _ (some _) => .awake
    | .trsv _ (some _) => .awake
    | x => x
  if !t.present then t
  else { t with
    stop := none, sleep := sleep, nextIssue := cyc, readySince := none, passed := 0, lastScratch := 0,
    parity := if moved then t.parity.map fun p => (p.1, p.2.1, false) else t.parity,
    sys := { t.sys with tfdet := if forced then t.sys.tfdet ||| 0x40 else t.sys.tfdet } }

/-- A restored thread in WAITA reads its word again, and one in WAITC checks its counter (R205). -/
def recheckThread (s : State) (t : ThreadId) : State :=
  match s.thread? t, s.flockOf? t.g with
  | some th, some f =>
    match th.sleep with
    | .waita addr ne cmp _ _ _ none =>
      if waitaHolds ne (f.word addr).val cmp then s.waitaWake t (f.word addr) (s.cycle f.core + 2) else s
    | .waitc .. => s.wakeWaitc t
    | .trapWait ti m =>
      -- the record that the trap waits for may have been performed meanwhile (R70)
      if s.recordPending f.launch (BitVec.ofNat 16 m) then s else s.takeTrap t ti th.wpc (s.cycle f.core)
    | _ => s
  | _, _ => s

/-- Whether a launch's context is saved. -/
def launchAway (s : State) (launch : Nat) : Bool := s.contexts.any fun c => c.flocks.any fun f => decide (f.launch = launch)

/-- Keep an answer to an origin unit for the restore of its context (R343). -/
def keepAnswer (s : State) (a : OriginAnswer) : State :=
  { s with contexts := s.contexts.map fun (c : Context) =>
      if c.flocks.any fun f => decide (f.launch = a.launch) then { c with origins := c.origins ++ [a] } else c }

/-- A refusal of an origin unit's access (R68): the accesses to the page are dropped, and threads that wait for their records
go on to their traps (R70). -/
def refuseOrigin (s : State) (core launch page : Nat) : State :=
  let mine (g : GAcc) : Bool :=
    g.unit && decide (g.core = core ∧ g.launch = launch) && decide (g.va.toNat / 65536 = page)
  let recs := (s.gaccs.filter mine).filterMap fun g => match g.op with
    | .record n _ => some n
    | _ => none
  let s1 := ({ s with gaccs := s.gaccs.filter fun g => !mine g }).modOrigin core launch fun o =>
    { o with stopped := true, refill := false }
  let s2 := s1.faultDrec launch 0x14 0x0061 (BitVec.ofNat 32 (coreX core + 256 * coreY core))
  recs.foldl (fun s n => s.recordDone launch n) s2

/-- A thread whose fault was refused takes PAGE at the word it stands at (R199, R343). -/
def refusedTrap (s : State) (t : ThreadId) (ti : TrapInfo) (ready : Nat) : State :=
  match s.thread? t with
  | some th => s.takeTrap t ti th.pc ready
  | none => s

/-- The arrays of a moved launch follow it to the paddocks at the same relative place (R206): what another launch left there
is written out first, and cells that were written out are loaded. -/
def moveArrays (s : State) (launches : List Nat) (dx dy : Nat) : State :=
  let mine (u : ArrayUnit) : Bool := u.owner.any fun o => launches.contains o
  let target (p : Nat) : Nat := padOf (moveCore dx dy (padCore p 0))
  let pads := (List.range 80).filter fun p => mine (s.array p)
  let live := pads.map fun p => (target p, s.array p)
  let out := (s.arraySaved.filter fun e => mine e.2).map fun e => (target e.1, e.2)
  let s1 := pads.foldl (fun s p =>
    { s with arrays := AL.set ArrayUnit.fresh s.arrays p { ArrayUnit.fresh with last := (s.array p).last } })
    { s with arraySaved := s.arraySaved.filter fun e => !mine e.2 }
  let s2 := live.foldl (fun s e => (s.saveArray e.1).modArray e.1 fun v => { e.2 with last := v.last }) s1
  out.foldl (fun s e => (s.saveArray e.1).loadArray e.1 e.2) s2

/-- Background accesses and faults of a moved context follow it to its new cores (R206). -/
def moveTraffic (s : State) (fn : Nat) (launches copies : List Nat) (mv : Nat → Nat) : State :=
  let waiter : Waiter → Waiter
    | .origin c l => if launches.contains l then .origin (mv c) l else .origin c l
    | .copy c id => if copies.contains id then .copy (mv c) id else .copy c id
    | w => w
  ({ s with gaccs := s.gaccs.map fun (g : GAcc) =>
      if g.unit && launches.contains g.launch then { g with core := mv g.core } else g }).modFnMem fn fun m =>
    { m with faults := m.faults.map fun (f : FaultSt) => { f with waiters := f.waiters.map waiter } }

/-- Whether a context may be restored at an offset: inside its partition, and even where a launch uses paddock features. -/
def restorable (s : State) (p : Nat) (c : Context) (dx dy : Nat) : Bool :=
  let ls := s.launches.filter fun l => c.flocks.any fun f => decide (f.launch = l.uid)
  let r := (s.part p).reg
  ls.all fun l =>
    let x := (l.x0 + dx) % 8
    let y := (l.y0 + dy) % 40
    decide (bits r 7 0 ≤ x ∧ x + l.rec_.w ≤ bits r 7 0 + bits r 23 16 ∧ bits r 15 8 ≤ y ∧
      y + l.rec_.h ≤ bits r 15 8 + bits r 31 24) && (!l.rec_.pad || decide (dx % 2 = 0 ∧ dy % 2 = 0))

/-- The context a partition has to restore now. -/
def toRestore (s : State) (p : Nat) : Option Context :=
  let x := s.part p
  match x.cur with
  | some _ => if x.stop.isSome || !s.ready then none else s.contexts.find? fun c => decide (c.part = p ∧ c.fn = s.partFn p)
  | none => none

/-- Bind the groups of a moved context to ports again, in logical group index order (R206). A group that was current or had
yielded on its old port stays so. -/
def rebindGroups (s : State) (gs : List Group) (current : List (Nat × Nat)) (yielded : List Nat) : State :=
  (sortBy (fun a b : Group => decide (a.logical < b.logical)) gs).foldl (fun s g =>
    let port := s.freePort g.core
    let s1 := { s with groups := s.groups ++ [{ g with port := port }] }
    s1.modPort g.core port fun q =>
      { q with
        current := if current.contains (g.launch, g.uid) && (AL.find? q.current g.launch).isNone then
          AL.insert q.current g.launch g.uid else q.current,
        yielded := if yielded.contains g.uid then q.yielded ++ [g.uid] else q.yielded }) s

/-- Put a context back on cores (R205, R206, R311). -/
def restoreContext (s : State) (p : Nat) (c : Context) (dx dy : Nat) : State :=
  let moved := decide (dx % 8 ≠ 0 ∨ dy % 40 ≠ 0)
  let mv := moveCore dx dy
  let lus := (s.launches.filter fun l => c.flocks.any fun f => decide (f.launch = l.uid)).map (·.uid)
  let gs := c.groups.map fun g =>
    let core := mv g.core
    { g with core := core, lanes := g.lanes.map (wakeThread moved (s.cycle core)) }
  let current := c.cores.flatMap fun e => e.2.ports.flatMap fun q => q.2.current
  let yielded := c.cores.flatMap fun e => e.2.ports.flatMap fun q => q.2.yielded
  -- on other cores only those that hold its flocks are its own
  let own := c.cores.filter fun e => !moved || c.flocks.any fun f => decide (f.core = e.1)
  let cores := own.map fun (e : Nat × CoreSt) =>
    let k := { e.2 with xcores := e.2.xcores.map fun x => (x.1, { x.2 with moved := s.cycle (mv e.1) }) }
    (mv e.1, if moved then ({ k with ports := [], originCache := [] } : CoreSt) else k)
  let s1 := { s with
    contexts := s.contexts.filter (fun x => !decide (x.part = c.part ∧ x.fn = c.fn)),
    flocks := s.flocks ++ c.flocks.map (fun (f : Flock) => { f with core := mv f.core }),
    groups := if moved then s.groups else s.groups ++ gs,
    launches := s.launches.map fun (l : Launch) =>
      if lus.contains l.uid then
        { l with
          x0 := (l.x0 + dx) % 8, y0 := (l.y0 + dy) % 40,
          padBars := sortBy (fun a b : Nat × Barrier => decide (a.1 < b.1)) (l.padBars.map fun (b : Nat × Barrier) =>
            (padOf (mv (padCore (b.1 / 256) 0)) * 256 + b.1 % 256, b.2)) }
      else l }
  let s2 := cores.foldl (fun s e => s.modCore e.1 fun k => { e.2 with counters := k.counters }) s1
  let copies := c.cores.flatMap fun e => e.2.copy.map (·.id)
  let s3 := if moved then
    ((s2.rebindGroups gs current yielded).moveArrays lus dx dy).moveTraffic c.fn lus copies mv else s2
  let s4 := s3.sliceDrec p c.fn 0 6 0x0041 0
  let s5 := c.refused.foldl (fun s r =>
    match c.groups.find? fun g => decide (g.uid = r.g) with
    | some g =>
      match g.lanes[r.lane]? with
      | some t =>
        match t.sleep with
        | .fault _ ti => s.refusedTrap r ti (s.cycle (mv g.core))
        | _ => s
      | none => s
    | none => s) s4
  let s6 := c.origins.foldl (fun s o =>
    if o.granted || !lus.contains o.launch then s else s.refuseOrigin (mv o.core) o.launch o.page) s5
  let s7 := c.groups.foldl (fun s g => (List.range 8).foldl (fun s i => s.recheckThread ⟨g.uid, i⟩) s) s6
  c.flocks.foldl (fun s f => (s.recheckBarriers f.launch (mv f.core) f.slot).tileSettle (mv f.core)) s7

end State

/-- CONTEXT_RESTORE (R205, R206): the context of the entry that runs returns, on its old cores or at an offset. -/
def execContextRestore (p : BitVec 2) (dx dy : Nat) (s : State) : Host.Outcome State Fault Refusal :=
  match s.toRestore p.toNat with
  | some c => if s.restorable p.toNat c dx dy then .next (s.restoreContext p.toNat c dx dy) else .next s
  | none => .next s

/-! The microcode's hardware units (R296, Table 18.14), used by replacement microcode: the shipped microcode's own use of
them is part of the events above. -/

namespace State

def units (s : State) (fn : Nat) : HartUnits := AL.get HartUnits.fresh s.shep.units fn
def modUnits (s : State) (fn : Nat) (f : HartUnits → HartUnits) : State :=
  s.modShep fun h => { h with units := AL.modify HartUnits.fresh h.units fn f }

end State

/-- QPEND_READ: the queues with an unserved doorbell, whose bits the read clears. -/
def execQpendRead (s : State) : Host.Outcome State Fault Refusal :=
  if !s.ready then .next s
  else
    .next (s.modShep fun h =>
      { h with
        qpend := (h.queues.filter fun e => e.2.pending).map (·.1),
        queues := (h.queues.map fun e => (e.1, { e.2 with pending := false })).filter fun e =>
          !decide (e.2 = QueueSt.fresh) })

/-- HART_FETCH: words of a function's memory are read into microcode SRAM; the status tells a failure. -/
def execHartFetch (fn : BitVec 4) (addr : W64) (len : Nat) (s : State) : Host.Outcome State Fault Refusal :=
  if !s.ready then .next s
  else
    match s.svcRead fn.toNat addr (len / 4) with
    | (some ws, s1) => .next (s1.modUnits fn.toNat fun u => { u with fetched := ws.map (·.val), fetchFail := false })
    | (none, s1) => .next (s1.modUnits fn.toNat fun u => { u with fetchFail := true })

/-- HART_CHECK: the checks of Table 18.5 and R59 on the fetched record, within the function's partitions. -/
def execHartCheck (fn : BitVec 4) (s : State) : Host.Outcome State Fault Refusal :=
  if !s.ready then .next s
  else
    let f := fn.toNat
    let ws := (s.units f).fetched
    let p := ((List.range 4).find? fun p => (State.entryOf (s.part p) f).isSome).getD 0
    let (reason, detail) := checkLaunch (s.part p) f ws (parseLaunch ws [])
    .next (s.modUnits f fun u => { u with check := (reason, BitVec.ofNat 32 detail) })

/-- HART_CLAIM: claims a rectangle for a waiting launch of the function, which starts its packet, so that its record is read
then (R10, R301, assumption log 65); or releases the claim (R304). -/
def execHartClaim (fn : BitVec 4) (wid x y : Nat) (release : Bool) (s : State) : Host.Outcome State Fault Refusal :=
  match s.waiting? wid with
  | none => .next s
  | some (f, q, w) =>
    if f ≠ fn.toNat ∨ s.shep.custom = false ∨ s.ready = false then .next s
    else
      let put (s : State) (w : WaitLaunch) (ok : Bool) : State :=
        (s.modQueue f q fun x => { x with wait := some w }).modUnits f fun u => { u with claimed := ok }
      if release then .next (put s { w with claim := none } false)
      else if w.claim.isSome || !s.partRuns w.part f then .next (s.modUnits f fun u => { u with claimed := false })
      else
        match s.takeRecord f q w.part w.seq w.addr with
        | (none, s1) => .next (s1.modUnits f fun u => { u with claimed := false })
        | (some r, s1) =>
          let reg := (s1.part w.part).reg
          let inside := decide (bits reg 7 0 ≤ x ∧ x + r.w ≤ bits reg 7 0 + bits reg 23 16 ∧ bits reg 15 8 ≤ y ∧
            y + r.h ≤ bits reg 15 8 + bits reg 31 24)
          let mine := r.anyplace || decide (x = bits reg 7 0 + r.x0 ∧ y = bits reg 15 8 + r.y0)
          let ok := inside && mine && (!r.pad || decide (x % 2 = 0 ∧ y % 2 = 0)) && s1.logRoom r &&
            s1.claimable x y r
          .next (put s1 { w with claim := if ok then some (r, x, y) else none } ok)

/-- HART_START: steps 2 to 6 of R304 for a launch with a claim. -/
def execHartStart (fn : BitVec 4) (wid : Nat) (s : State) : Host.Outcome State Fault Refusal :=
  match s.placeable wid with
  | some (f, q, w) =>
    match w.claim with
    | some (r, x, y) => if f = fn.toNat then .next (s.launchNow f q w r x y) else .next s
    | none => .next s
  | none => .next s

/-- Cores of a partition that hold groups and are halted (Table 18.14). -/
def State.haltedCores (s : State) (p : Nat) : Nat :=
  (((s.partGroups p).map (·.core)).eraseDups).countP fun c =>
    (s.partGroups p).all fun g => !decide (g.core = c) || g.lanes.all (State.threadHalted (s.endingGroup g))

/-- HART_STOP (R296, R310): ends the slice of a partition that runs the function, at a time, for a reason and in favour of an
enabled entry that the microcode chooses; an entry of the same function, or the first entry of all, begins at once. The
status reports the halted cores. -/
def execHartStop (fn : BitVec 4) (p : StopChoice) (s : State) : Host.Outcome State Fault Refusal :=
  let n := p.part.toNat
  let f := fn.toNat
  let e := p.next.toNat
  let s1 := s.modUnits f fun u => { u with halted := s.haltedCores n }
  if !s.ready || !s.shep.custom then .next s
  else if !(AL.get 0 (s.part n).table e).getLsbD 23 then .next s1
  else if (s.part n).cur.isNone then
    if State.entryFn (s.part n) e = f then
      .next (s1.modPart n fun x => { x with cur := some e, rot := e, sliceAt := s.timestamp 8 })
    else .next s1
  else if !s.partRuns n f then .next s1
  else if State.entryFn (s.part n) e = f then
    .next (s1.modPart n fun x => { x with cur := some e, rot := e, sliceAt := s.timestamp 8 })
  else .next (s1.beginStop n (if p.cut then 0x11 else 0x10) e)

/-- HART_SWAP: swaps a halted partition of the function; the status reports the wait. -/
def execHartSwap (fn : BitVec 4) (p : BitVec 2) (s : State) : Host.Outcome State Fault Refusal :=
  let n := p.toNat
  if s.shep.custom && decide (s.partFn n = fn.toNat) && s.swapDue n then
    if (s.part n).saving then .next (s.modPart n fun x => { x with waited := true })
    else
      let wait := match (s.part n).haltedAt with
        | some h => (s.tick - h) * 10 / 33
        | none => 0
      .next ((s.swapNow n).modUnits fn.toNat fun u => { u with swapWait := wait })
  else .next s

/-- HART_DREC (R296, R313): a decision record of the function, of no queue, launch or rectangle. It is refused for the rule
ids and the kinds of records that hardware writes (assumption log 66). -/
def execHartDrec (fn : BitVec 4) (kind reason : Byte) (rule : BitVec 16) (detail : W32) (s : State) :
    Host.Outcome State Fault Refusal :=
  let mine := (decide (rule.toNat < 0x21) || decide (0x8000 ≤ rule.toNat)) && [1, 2, 4].contains kind.toNat
  if s.ready && mine then
    .next (s.drec ⟨fn.toNat, 0, reason.toNat, kind.toNat, rule.toNat, 0xFFFF, 0xFFFFFFFF, 0, detail⟩)
  else .next s

end Sys2Proof.Machine
end

