-- ==== Sys2Proof/Machine/Manage.lean ====
section
/-!
DEFINITION. The management core: start-up, measurement over SPDM, loads of microcode and routines, host ports, semaphores,
links, supply and heat (spec 23, R315, R350).
-/
namespace Sys2Proof.Machine

namespace State

/-- Timestamp units as clock ticks (R8). -/
def unitTicks (n : Nat) : Nat := n * 33 / 10

/-! Measurement registers (R365). -/

/-- The 64 bytes of a digest or register. -/
def bytes64 (m : BitVec 512) : List Byte := valueBytes 64 m.toNat

def mr (s : State) (n : Nat) : BitVec 512 := AL.get 0 s.mgmt.mr n

/-- Extend a measurement register (R365): M := SHAKE256(M ‖ digest). -/
def extendMr (s : State) (n : Nat) (digest : BitVec 512) : State :=
  s.modMgmt fun m => { m with mr := AL.set 0 m.mr n (Config.shake256 (bytes64 (s.mr n) ++ bytes64 digest)) }

/-! Start-up (R365, R367). -/

/-- The key store's public keys (Table 23.1): 0 the vendor's, 1 the owner's. -/
def stageKey (owner : Bool) (stage : Nat) : Nat := if owner && decide (4 ≤ stage) then 1 else 0

def stageImage (i : StartInput) (stage : Nat) : StartImage := i.images.getD (stage - 1) ⟨[], []⟩

/-- A stage of Table 23.1 that checks a signature and measures its image, or only measures: the reason it fails with, and the
state after it. -/
def runStage (s : State) (i : StartInput) (stage reg reason : Nat) (signed : Bool) : Option Nat × State :=
  let m := stageImage i stage
  let d := Config.shake256 m.image
  if signed && !Config.signatureOk (stageKey i.ownerKey stage) d m.signature then (some reason, s)
  else (none, s.extendMr reg d)

/-- A device reset (R365, R367): everything as at reset, but for what the management core retains and what lies outside. -/
def resetDevice (s : State) (fails reason state : Nat) : State :=
  { State.reset with
    inbox := s.inbox, outbox := s.outbox, fresh := s.fresh,
    mgmt := { Mgmt.fresh with fails := fails, reason := reason, state := state } }

/-- A start goes on to a stage, with MGSTAT.STATE at a value. -/
def toStage (s : State) (i : StartInput) (stage state : Nat) : State :=
  s.modMgmt fun m => { m with starting := some (i, stage), stageAt := s.tick, state := state }

/-- A start fails (R367): the failure is counted and the device is reset. The reset enters stage 1 again, or minimal mode after
the third failure. DESIGN CHOICE: the new start meets what the last COLD_RESET gave (assumption log 11). -/
def failStart (s : State) (i : StartInput) (reason : Nat) : State :=
  let n := min 3 (s.mgmt.fails + 1)
  if 3 ≤ n then s.resetDevice n reason 4 else (s.resetDevice n reason 0).toStage i 1 0

/-- The usable CXL bytes (R351). -/
def cxlUsable (c : Nat) : Nat := 3 * c / 4 / 2 ^ 30 * 2 ^ 30

/-- The dies' timestamps start at 0 as each leaves reset (R357): how far they then lie off I/O die 0's is not fixed by the
manual, and free (assumption log 1). -/
def offsetDies (s : State) : State :=
  [0, 1, 2, 3, 4, 5, 6, 7, 9].foldl (fun s d =>
    let (w, s1) := s.freeWord
    { s1 with dies := AL.modify Die.fresh s1.dies d fun x => { x with offset := w.toInt } }) s

/-- Stage 6 and the end of a start (R349, R351, R365): ranges, tiers and domain set, die skews measured (R358), the device
READY. -/
def startReady (s : State) (i : StartInput) : State :=
  let filters := (i.pfRanges.take 16).zip (List.range 16) |>.map fun (e : (W64 × W64) × Nat) => (e.2, (e.1.1 ||| 1, e.1.2))
  { s.offsetDies.measureSkews with
    pfMem := { s.pfMem with
      cxlc := BitVec.ofNat 64 i.cxlBytes, cxlu := BitVec.ofNat 64 (cxlUsable i.cxlBytes), filters := filters },
    domain := i.domain.toNat,
    mgmt := { s.mgmt with state := 3, fails := 0, starting := none, ownerKey := i.ownerKey, cxlBytes := i.cxlBytes } }

/-- A signed stage passes on or fails the start. -/
def signedStage (s : State) (i : StartInput) (stage reg reason state : Nat) : State :=
  match s.runStage i stage reg reason true with
  | (some r, s1) => s1.failStart i r
  | (none, s1) => s1.toStage i (stage + 1) state

/-- One stage of Table 23.1. STATE is 1 once the management firmware runs, and 2 from the training of memory and links on
(assumption log 64). -/
def runStageOf (s : State) (i : StartInput) : Nat → State
  | 1 => s.signedStage i 1 0 0x01 1
  | 2 => if !i.keyStoreOk then s.failStart i 0x06 else ((s.runStage i 2 1 0x06 false).2).toStage i 3 2
  | 3 => if !i.dramOk then s.failStart i 0x04 else if !i.linksOk then s.failStart i 0x05 else s.toStage i 4 2
  | 4 => s.signedStage i 4 2 0x02 2
  | 5 => s.signedStage i 5 3 0x02 2
  | _ => if !i.configOk then s.failStart i 0x07 else ((s.runStage i 6 4 0x07 false).2).startReady i

/-- Whether a start under way has not ended within 2 s (R367). -/
def startLate (s : State) : Bool :=
  s.mgmt.starting.isSome && decide (s.mgmt.state < 3) && decide (s.mgmt.since + unitTicks 2000000000 ≤ s.tick)

/-- A stage that has had its time ends (assumption log 64), unless the start's own time is over (R367). -/
def startCycle (s : State) : State :=
  match s.mgmt.starting with
  | some (i, n) =>
    if s.startLate then s.failStart i 0x03
    else if s.mgmt.stageAt + Config.stageTicks n ≤ s.tick then s.runStageOf i n
    else s
  | none => s

end State

/-- COLD_RESET (R365, R367): a full start from its first stage, or minimal mode after the third failure in a row. -/
def execColdReset (i : StartInput) (s : State) : Host.Outcome State Fault Refusal :=
  let m := s.mgmt
  if 3 ≤ m.fails then .next (s.resetDevice m.fails m.reason 4)
  else .next ((s.resetDevice m.fails m.reason 0).toStage i 1 0)

/-- START_TIMEOUT (R367): 2 s have passed before READY. -/
def execStartTimeout (s : State) : Host.Outcome State Fault Refusal :=
  match s.mgmt.starting with
  | some (i, _) => if s.startLate then .next (s.failStart i 0x03) else .next s
  | none => .next s

/-- MGCTL.CLRFAIL (R367): only in minimal mode. -/
def execMgctlClrfail (v : W32) (s : State) : Host.Outcome State Fault Refusal :=
  if s.mgmt.state = 4 ∧ v.getLsbD 0 = true then .next (s.modMgmt fun m => { m with fails := 0 }) else .next s

/-! SPDM (R366). -/

namespace State

/-- Whether a host port's mailbox answers: both ports once started, port A in minimal mode (R366, R367). -/
def mailbox (s : State) (port : Bool) : Bool := decide (s.mgmt.state = 3) || (decide (s.mgmt.state = 4) && !port)

def portKey (port : Bool) : Nat := if port then 1 else 0
def session (s : State) (port : Bool) : SessionSt := AL.get .none_ s.mgmt.sessions (portKey port)
def setSession (s : State) (port : Bool) (x : SessionSt) : State :=
  s.modMgmt fun m => { m with sessions := AL.set .none_ m.sessions (portKey port) x }

/-- The management core answers a request: with the bytes the manual gives, then bytes it leaves to SPDM. -/
def answer (s : State) (port : Bool) (request : Nat) (known body : List Byte) : State :=
  ({ s with fresh := s.fresh + 1 }).send
    (.spdm port request (known ++ Config.spdmAnswer s.fresh (BitVec.ofNat 8 request :: body)))

/-- Answer a request at a mailbox that is there. -/
def spdm (s : State) (port : Bool) (request : Nat) (known body : List Byte) (then_ : State → State) :
    Host.Outcome State Fault Refusal :=
  if s.mailbox port then .next (then_ (s.answer port request known body)) else .next s

end State

def execGetVersion (port : Bool) (s : State) : Host.Outcome State Fault Refusal := s.spdm port 0 [] [] fun s => s
def execGetCapabilities (port : Bool) (body : SpdmBody) (s : State) : Host.Outcome State Fault Refusal :=
  s.spdm port 1 [] body fun s => s
/-- NEGOTIATE_ALGORITHMS: signatures and hash are agreed (R366). -/
def execNegotiateAlgorithms (port : Bool) (body : SpdmBody) (s : State) : Host.Outcome State Fault Refusal :=
  s.spdm port 2 [] body fun s =>
    s.modMgmt fun m => { m with negotiated := AL.set false m.negotiated (State.portKey port) true }
def execGetDigests (port : Bool) (s : State) : Host.Outcome State Fault Refusal := s.spdm port 3 [] [] fun s => s
def execGetCertificate (port : Bool) (body : SpdmBody) (s : State) : Host.Outcome State Fault Refusal :=
  s.spdm port 4 [] body fun s => s
def execChallenge (port : Bool) (body : SpdmBody) (s : State) : Host.Outcome State Fault Refusal :=
  s.spdm port 5 [] body fun s => s

/-- A measurement block (R366): its number, whether it is mutable firmware, and the raw value of MR(n − 1). -/
def State.measurement (s : State) (n : Nat) : List Byte :=
  if 1 ≤ n ∧ n ≤ 8 then [BitVec.ofNat 8 n, if n = 1 then 0 else 1] ++ State.bytes64 (s.mr (n - 1)) else []

/-- GET_MEASUREMENTS (R366). -/
def execGetMeasurements (port : Bool) (block : Byte) (body : SpdmBody) (s : State) : Host.Outcome State Fault Refusal :=
  s.spdm port 6 (s.measurement block.toNat) (block :: body) fun s => s

/-- KEY_EXCHANGE opens a session once the algorithms are agreed. -/
def execKeyExchange (port : Bool) (body : SpdmBody) (s : State) : Host.Outcome State Fault Refusal :=
  s.spdm port 7 [] body fun s =>
    if AL.get false s.mgmt.negotiated (State.portKey port) then s.setSession port .opened else s
/-- FINISH establishes the session that KEY_EXCHANGE opened. -/
def execFinish (port : Bool) (body : SpdmBody) (s : State) : Host.Outcome State Fault Refusal :=
  s.spdm port 8 [] body fun s => if s.session port = .opened then s.setSession port .established else s
def execEndSession (port : Bool) (s : State) : Host.Outcome State Fault Refusal :=
  s.spdm port 9 [] [] fun s => s.setSession port .none_

/-! Port ciphers (R350). -/

def State.ideIdx (port : Bool) (stream : BitVec 4) : Nat := 16 * State.portKey port + stream.toNat

/-- IDE_KM (R350, R366): a key for the link stream (0) or a selective stream (1 to 8), over an established session. -/
def execIdeKm (port : Bool) (stream : BitVec 4) (key : SpdmBody) (s : State) : Host.Outcome State Fault Refusal :=
  s.spdm port 10 [] key fun s =>
    if s.session port = .established ∧ stream.toNat ≤ 8 then
      s.modMgmt fun m => { m with ide := AL.set IdeSt.fresh m.ide (State.ideIdx port stream) ⟨true, false⟩ }
    else s

/-- IDE_INTEGRITY_FAIL (R350): the traffic is dropped, and the stream is insecure. -/
def execIdeIntegrityFail (port : Bool) (stream : BitVec 4) (s : State) : Host.Outcome State Fault Refusal :=
  .next (s.modMgmt fun m =>
    { m with ide := AL.modify IdeSt.fresh m.ide (State.ideIdx port stream) fun x =>
      if x.keyed then { x with insecure := true } else x })

/-! Soistlink (R350). -/

namespace State

/-- Whether a command's current element, or a collective's next, goes to a peer module. -/
def onFabric (s : State) (core : Nat) (c : CopyCmd) : Bool :=
  let peer (side : Side) (a : Nat) : Bool :=
    !side.isLocal && (match (s.translate (coreLoc core) c.fn (BitVec.ofNat 64 a) .read).1 with
      | .ok _ tier _ _ => decide (tier = 3)
      | _ => false)
  c.started.isSome && c.code.isNone && (match c.kind with
    | .ccoll _ => decide (2 ≤ maskCount (parseColl (c.args.getD [])).mask)
    | .cbcast => false
    | .cpyx =>
      let d := c.desc
      peer (routineSide d) (d.addr (routineSide d) c.next) ||
        peer ⟨d.dst.getLsbD 63, 0, 1, 0, 0, 0⟩ (CopyDesc.sideBase d.dst + c.sent)
    | _ =>
      let d := c.desc
      peer d.srcSide (d.addr d.srcSide c.next) || peer d.dstSide (d.addr d.dstSide c.next))

/-- Whether the array command being served reads rows of a peer's memory; an AAST writes none (R334). -/
def rowOnFabric (s : State) (pad : Nat) (r : ArrayRun) : Bool :=
  match r.cmd.instr, (s.array pad).cfg with
  | .aald .., some g =>
    !r.cmd.a.getLsbD 63 && (match (s.translate (dieOf r.cmd.core) r.cmd.fn (r.cmd.a + BitVec.ofNat 64 (r.row * g.nl)) .read).1 with
      | .ok _ tier _ _ => decide (tier = 3)
      | _ => false)
  | _, _ => false

/-- Commands that use a link end with error 0x0D (R350), those of a switched-out collective among them. Which of several
links a command uses is not given: a free value says so while another link is up (assumption log 5). -/
def endOnLink (s : State) : State :=
  let of (s : State) (cores : AL CoreSt) : List (Nat × Nat) :=
    cores.flatMap fun e => (e.2.copy.filter (s.onFabric e.1)).map fun c => (e.1, c.id)
  let cmds := of s s.cores ++ s.contexts.flatMap fun c => (of s c.cores).filter fun p =>
    ((AL.get CoreSt.fresh c.cores p.1).copy.any fun x => decide (x.id = p.2) && x.mayRun s)
  let uses (s : State) : Bool := !s.anyLink || (Config.freeWord s.fresh).getLsbD 0
  let s1 := cmds.foldl (fun s (p : Nat × Nat) =>
    let s1 := { s with fresh := s.fresh + 1 }
    if uses s then s1.atCmd p.1 p.2 fun s => s.endCmd p.1 p.2 0x0D else s1) s
  s1.arrays.foldl (fun s e =>
    match e.2.run with
    | some r =>
      if s.rowOnFabric e.1 r then
        let s1 := { s with fresh := s.fresh + 1 }
        if uses s then s1.arrayEnd e.1 r.cmd 0x0D else s1
      else s
    | none => s) s1

/-- A link goes down. -/
def linkDown (s : State) (n : Nat) : State :=
  if (s.link n).up then (s.modLink n fun l => { l with up := false }).endOnLink else s

end State

/-- SOISTLINK_AUTH_FAIL (R350). -/
def execSoistlinkAuthFail (link : BitVec 4) (s : State) : Host.Outcome State Fault Refusal := .next (s.linkDown link.toNat)
/-- SOISTLINK_LINK_FAILURE (Table 10.4). -/
def execSoistlinkLinkFailure (link : BitVec 4) (s : State) : Host.Outcome State Fault Refusal := .next (s.linkDown link.toNat)

namespace State

/-- The management core installs a link's key, measured in MR7, and the link is up with its flit counters at 0 (R350, R365). -/
def rekey (s : State) (n : Nat) (key : List Byte) : State :=
  (s.extendMr 7 (Config.shake256 key)).modLink n fun l => { up := true, keyId := l.keyId + 1, flits := 0, sent := 0 }

/-- A link whose counter would reach 2^32 flits has its next key before it does (R350). -/
def rekeyCycle (s : State) : State :=
  if s.mgmt.links.any fun e => e.2.up && decide (2 ^ 32 - 1 ≤ max e.2.flits e.2.sent) then
    (List.range linkCount).foldl (fun s n =>
      if (s.link n).up && decide (2 ^ 32 - 1 ≤ max (s.link n).flits (s.link n).sent) then
        s.rekey n (Config.linkKey n (s.link n).keyId) else s) s
  else s

end State

/-- SOISTLINK_REKEY (R350, R365). -/
def execSoistlinkRekey (link : BitVec 4) (key : SpdmBody) (s : State) : Host.Outcome State Fault Refusal :=
  if s.mgmt.state = 3 ∧ link.toNat < State.linkCount then .next (s.rekey link.toNat key) else .next s

/-! Semaphores and ports (R369, R370). -/

namespace State

/-- Whether a host port reaches the registers of Table 23.3 (R367, R368). -/
def portUp (s : State) (port : Bool) : Bool := !(decide (s.mgmt.state = 4) && port)

def semOwner (s : State) (n : Nat) : Nat := AL.get 0 s.mgmt.sems n
def setSem (s : State) (n owner : Nat) : State := s.modMgmt fun m => { m with sems := AL.set 0 m.sems n owner }
/-- SEMn as read (Table 23.3). -/
def semWord (owner : Nat) : W32 := if owner = 0 then 0 else 0x80000000 ||| BitVec.ofNat 32 owner

/-- Whether a function has a placed launch or a saved context. -/
def fnBusy (s : State) (fn : Nat) : Bool :=
  (s.launches.any fun l => decide (l.fn = fn)) || s.contexts.any fun c => decide (c.fn = fn)

def setPerr (s : State) : State := s.modShep fun h => { h with perr := true }

end State

/-- SEM_READ (R370): a free semaphore is acquired by the reading port; the answer names the owner. -/
def execSemRead (port : Bool) (n : BitVec 5) (s : State) : Host.Outcome State Fault Refusal :=
  if !s.portUp port then .next s
  else
    let s1 := if s.semOwner n.toNat = 0 then s.setSem n.toNat (State.portKey port + 1) else s
    .next (s1.send (.semRead port (State.semWord (s1.semOwner n.toNat))))

/-- SEM_WRITE (R370): a write of 0 by the owner releases. -/
def execSemWrite (port : Bool) (n : BitVec 5) (v : W32) (s : State) : Host.Outcome State Fault Refusal :=
  if s.portUp port && decide (v = 0) && decide (s.semOwner n.toNat = State.portKey port + 1) then .next (s.setSem n.toNat 0)
  else .next s

/-- PORT_LINK_RESET (R370): the port's semaphores are free. -/
def execPortLinkReset (port : Bool) (s : State) : Host.Outcome State Fault Refusal :=
  .next ((List.range 32).foldl (fun s n => if s.semOwner n = State.portKey port + 1 then s.setSem n 0 else s) s)

/-- PORTMAP_WRITE (R369): the bit of a VF with a placed launch or a saved context stays, and PERR is set. -/
def execPortmapWrite (v : W32) (s : State) : Host.Outcome State Fault Refusal :=
  let old := s.mgmt.portmap
  let moves (f : Nat) : Bool := old.getLsbD f != v.getLsbD f
  let new : BitVec 16 := (List.range 16).foldl (fun a f =>
    let b := if f = 0 then false else if s.fnBusy f then old.getLsbD f else v.getLsbD f
    if b then a ||| ((1 : BitVec 16) <<< f) else a) 0
  let s1 := s.modMgmt fun m => { m with portmap := new }
  .next (if (List.range 16).any fun f => decide (f ≠ 0) && moves f && s.fnBusy f then s1.setPerr else s1)

/-- FUNCTION_LEVEL_RESET (R342, R369): the VF stands on the port that PORTMAP names, its fault records count from 0, and
without a launch or context its page holds its reset values (assumption log 14). -/
def execFunctionLevelReset (fn : BitVec 4) (s : State) : Host.Outcome State Fault Refusal :=
  let f := fn.toNat
  if f = 0 then .next s
  else
    let one : BitVec 16 := (1 : BitVec 16) <<< f
    let s1 := (s.modMgmt fun m => { m with ports := (m.ports &&& ~~~one) ||| (m.portmap &&& one) }).modFnMem f fun m =>
      { m with nextFault := 0 }
    if s1.fnBusy f then .next s1
    else
      .next ({ s1 with
        fnMem := AL.erase s1.fnMem f, fnLog := AL.erase s1.fnLog f }.modShep fun h =>
          { h with
            queues := h.queues.filter (fun e => !decide (e.1 / 32 = f)), served := AL.erase h.served f,
            lows := h.lows.filter (fun e => !decide (e.1 / 2 ^ 24 = f)), units := AL.erase h.units f })

/-! Supply and heat (R371, R372). -/

namespace State

def modDie (s : State) (d : Nat) (f : Die → Die) : State := { s with dies := AL.modify Die.fresh s.dies d f }
/-- Count a clock stretch of a die (R371). -/
def countDroop (s : State) (d : Nat) : State := s.modMgmt fun m => { m with droop := AL.modify 0 m.droop d (· + 1) }

/-- A throttling die stretches its clock by a k the manual leaves open, from 1 to 7. -/
def heatDie (s : State) (d : Nat) : State :=
  let k := (Config.freeWord s.fresh).toNat % 7 + 1
  (({ s with fresh := s.fresh + 1 }).modDie d fun x => { x with heat := BitVec.ofNat 3 k }).countDroop d

/-- A trip ends a placed launch (R372): FAULT record, then what R307 writes with status THERMAL. Its global writes that have
issued are performed before its signal (R307), and so are the last writes of its stations (R323, R329): one that meets an
absent page gives them up, since the trip does not wait for the fault service (assumption log 78). -/
def tripLaunch (s : State) (u : Nat) : State :=
  match s.launch? u with
  | none => s
  | some l =>
    let s1 := s.performAll u
    ((s1.drec ⟨l.fn, l.part, 0x17, 8, 0x0064, l.q, l.id, launchRect l, 0⟩).closeLogs l).finishLaunch l stThermal none

/-- The dies throttle at 105 °C (R372, R373). -/
def throttle (s : State) (tj : Byte) : State :=
  let s1 := s.modMgmt fun m => { m with tj := tj, thr := true }
  if s.mgmt.thr then s1 else ((List.range 8).foldl (fun s d => s.heatDie d) s1).send (.msix 0 .thermalChange)

/-- The device trips at 115 °C (R367, R372): a start under way fails, else every launch ends and the device halts. -/
def trip (s : State) : State :=
  match s.mgmt.starting with
  | some (i, _) => s.failStart i 0x08
  | none =>
    let s1 := (s.launches.map (·.uid)).foldl (fun s u => s.tripLaunch u) s
    (s1.modMgmt fun m => { m with trip := true, dead := true }).send (.msix 0 .thermalTrip)

/-- The hottest junction is below 105 °C (R372, R373). -/
def cool (s : State) (tj : Byte) : State :=
  let s1 := s.modMgmt fun m => { m with tj := tj, thr := false }
  if s.mgmt.thr then ((List.range 8).foldl (fun s d => s.modDie d fun x => { x with heat := 0 }) s1).send (.msix 0 .thermalChange)
  else s1

/-- The hottest junction has a temperature (R368, R372). -/
def junction (s : State) (tj : Byte) : State :=
  if tj.toNat < 105 then s.cool tj
  else if tj.toNat < 115 ∨ s.mgmt.trip = true then s.throttle tj
  else (s.throttle tj).trip

end State

/-- SUPPLY_DROOP (R371). -/
def execSupplyDroop (die : Nat) (k : BitVec 3) (s : State) : Host.Outcome State Fault Refusal :=
  if die < 10 ∧ k ≠ 0 then .next ((s.modDie die fun d => { d with stretch := k }).countDroop die) else .next s
/-- SUPPLY_RECOVERY (R371). -/
def execSupplyRecovery (die : Nat) (s : State) : Host.Outcome State Fault Refusal :=
  .next (s.modDie die fun d => { d with stretch := 0 })

/-- THERMAL_THROTTLE (R372, R373): at 105 °C and above the dies stretch their clocks, and at 115 °C the device trips. -/
def execThermalThrottle (tj : Byte) (s : State) : Host.Outcome State Fault Refusal :=
  if tj.toNat < 105 then .next s else .next (s.junction tj)

/-- THERMAL_THROTTLE_END. -/
def execThermalThrottleEnd (tj : Byte) (s : State) : Host.Outcome State Fault Refusal :=
  if 105 ≤ tj.toNat ∨ s.mgmt.thr = false then .next s else .next (s.junction tj)

/-- THERMAL_TRIP (R367, R372): the dies throttle too. -/
def execThermalTrip (tj : Byte) (s : State) : Host.Outcome State Fault Refusal :=
  if tj.toNat < 115 ∨ s.mgmt.trip = true then .next s else .next (s.junction tj)

/-! Loads of microcode and routines (R315). -/

namespace State

/-- Whether a load must wait: a launch is placed or a context saved, or for a routine some CPYX names its id. -/
def mcBusy (s : State) : Bool := !s.launches.isEmpty || !s.contexts.isEmpty
def rtBusy (s : State) (id : Nat) : Bool :=
  s.launchCores.any fun k => k.copy.any fun c => decide (c.kind = .cpyx) && decide (c.desc.rid = id)

/-- Longest images: the microcode SRAM (Table 18.14), and a transform core's instruction memory (R226). -/
def mcMax : Nat := 262144
def rtMax : Nat := 65536

/-- The outcome of a load: its reason for rejection, or the digest to measure and the image. A failed read of the image is a bad
signature (assumption log 15). -/
def loadImage (s : State) (addr : W64) (len limit : Nat) (busy : Bool) :
    Except Nat (BitVec 512 × List Byte) × State :=
  if busy then (.error 3, s)
  else if limit < len then (.error 2, s)
  else
    match s.svcRead 0 addr ((len + 3) / 4) with
    | (none, s1) => (.error 1, s1)
    | (some ws, s1) =>
      let image := (ws.flatMap fun w => valueBytes 4 w.val.toNat).take len
      let d := Config.shake256 image
      if Config.signatureOk (stageKey s.mgmt.ownerKey 4) d image then (.ok (d, image), s1) else (.error 1, s1)

end State

/-- MCCTL (R315): 1 starts a load, refused as busy while a launch or context is there. -/
def execMcctlLoad (v : W32) (s : State) : Host.Outcome State Fault Refusal :=
  if !s.ready || decide (v ≠ 1) || decide (s.shep.mcstat = .busy) then .next s
  else .next (s.modShep fun h => { h with mcstat := if s.mcBusy then .rejected 3 else .busy })

/-- RTCTL (R315): bit 8 starts a load under a routine id from 0x06 to 0xFE. -/
def execRtctlLoad (v : W32) (s : State) : Host.Outcome State Fault Refusal :=
  let id := wbits v 7 0
  if !s.ready || !v.getLsbD 8 || decide (id < 6) || decide (id = 0xFF) || decide (s.shep.rtstat = .busy) then .next s
  else .next (s.modShep fun h => { h with rtstat := if s.rtBusy id then .rejected 3 else .busy, rtid := id })

/-- IMAGE_LOAD_DONE (R315, R365): the image is checked; an accepted one is measured in MR5 or MR6 and put in force. -/
def execImageLoadDone (rt : Bool) (s : State) : Host.Outcome State Fault Refusal :=
  let h := s.shep
  if !s.ready then .next s
  else if rt then
    if h.rtstat ≠ .busy then .next s
    else
      match s.loadImage h.rtaddr h.rtlen.toNat State.rtMax (s.rtBusy h.rtid) with
      | (.error r, s1) => .next (s1.modShep fun h => { h with rtstat := .rejected r })
      | (.ok (d, image), s1) =>
        .next ({ s1.extendMr 6 d with
          images := AL.set [] s1.images h.rtid image,
          routines := if s1.routines.contains h.rtid then s1.routines else s1.routines ++ [h.rtid] }.modShep fun h =>
            { h with rtstat := .loaded })
  else if h.mcstat ≠ .busy then .next s
  else
    match s.loadImage h.mcaddr h.mclen.toNat State.mcMax s.mcBusy with
    | (.error r, s1) => .next (s1.modShep fun h => { h with mcstat := .rejected r })
    | (.ok (d, _), s1) => .next ((s1.extendMr 5 d).modShep fun h => { h with mcstat := .loaded, custom := true })

/-- A Soistlink partner's contribution to a collective arrives (R225, R234): it is kept until its command takes it. -/
def State.partnerJoin (s : State) (cid : W32) (mask : W64) (rank op fmt : Nat) (count : W32) (root : Nat)
    (data : List (W32 × Tag)) : State :=
  if s.anyLink then
    { s with joins := s.joins ++ [⟨cid, mask, rank, op, fmt, count, root, data.map fun d => ⟨d.1, d.2⟩⟩] }
  else s

end Sys2Proof.Machine
end

