-- ==== Sys2Proof/Machine/Fabric.lean ====
section
/-!
DEFINITION. Registers the hosts reach, the answers to faults, invalidations, accesses of hosts and peers, scrubbing and the
replay gate's timeout (R312, R314, R329, R338, R343 to R349, R355, R356, R368).
-/
namespace Sys2Proof.Machine

namespace State

/-! 64-bit registers (R314): the low word waits for the high word. -/

def lowKey (fn off : Nat) : Nat := fn * 2 ^ 24 + off
/-- Write the low word of a register, or its high word, with which it takes effect. -/
def write64 (s : State) (fn off : Nat) (hi : Bool) (v : W32) (f : W64 → State → State) : State :=
  if hi then f (v ++ AL.get 0 s.shep.lows (lowKey fn off)) s
  else s.modShep fun h => { h with lows := AL.set 0 h.lows (lowKey fn off) v }

/-- The offset of the PF global page in the PF's BAR0 (R314). -/
def pfPage : Nat := 0x10000

/-! Registered queues and partitions (R297, R312). -/

/-- Register a queue, or disable it with address 0 (Table 18.12): its accounting is the QCB's as found. -/
def registerQueue (s : State) (fn q : Nat) (a : W64) : State :=
  let s1 := s.modQueue fn q fun _ => { QueueSt.fresh with qcb := a }
  if a = 0 then s1
  else
    match s1.readQcb fn q with
    | (none, s2) => s2.haltQueue fn q stMemory 0 none
    | (some b, s2) => s2.modQueue fn q fun x =>
      { x with head := b.head, tail := b.head, lastdone := b.lastdone, halted := b.halted }

/-- Fields of a partition register (Table 18.13). -/
def partOn (r : W64) : Bool := r.getLsbD 32
def partOverlap (a b : W64) : Bool :=
  decide (bits a 7 0 < bits b 7 0 + bits b 23 16) && decide (bits b 7 0 < bits a 7 0 + bits a 23 16) &&
  decide (bits a 15 8 < bits b 15 8 + bits b 31 24) && decide (bits b 15 8 < bits a 15 8 + bits a 31 24)
/-- Whether a partition has an even origin and extent and lies in the core grid. -/
def partShape (r : W64) : Bool :=
  decide (bits r 7 0 % 2 = 0) && decide (bits r 15 8 % 2 = 0) && decide (bits r 23 16 % 2 = 0) &&
  decide (bits r 31 24 % 2 = 0) && decide (bits r 7 0 + bits r 23 16 ≤ 8) && decide (bits r 15 8 + bits r 31 24 ≤ 40)

/-- Whether any function has a context in a partition: placed, claimed for or saved. -/
def partBusy (s : State) (p : Nat) : Bool :=
  (s.shep.queues.any fun e => e.2.wait.any fun w => w.claim.isSome && decide (w.part = p)) ||
  (s.launches.any fun l => decide (l.part = p)) || s.contexts.any fun c => decide (c.part = p)

/-- Write a partition register (R312). -/
def setPart (s : State) (p : Nat) (r : W64) : State :=
  let clash := partOn r && (List.range 4).any fun q => decide (q ≠ p) && partOn (s.part q).reg && partOverlap r (s.part q).reg
  if s.partBusy p || !partShape r || clash then s.setPerr
  else s.modPart p fun x => { x with reg := r, cur := none, rot := 15, cut := none }

/-- Write a quantum table entry: an enabled entry has a quantum of at least 10 (Table 18.13, assumption log 16). -/
def setTable (s : State) (p e : Nat) (v : W32) : State :=
  if v.getLsbD 23 && decide (wbits v 15 0 < 10) then s.setPerr
  else s.modPart p fun x => { x with table := AL.set 0 x.table e v }

end State

/-- QCB_WRITE (R314, Table 18.12). -/
def execQcbWrite (fn : BitVec 4) (q : BitVec 5) (hi : Bool) (v : W32) (s : State) : Host.Outcome State Fault Refusal :=
  if !s.ready then .next s
  else .next (s.write64 fn.toNat (0x100 + 8 * q.toNat) hi v fun a s => s.registerQueue fn.toNat q.toNat a)

/-- PART_WRITE (R312). -/
def execPartWrite (p : BitVec 2) (hi : Bool) (v : W32) (s : State) : Host.Outcome State Fault Refusal :=
  if !s.ready then .next s
  else .next (s.write64 0 (State.pfPage + 8 * p.toNat) hi v fun r s => s.setPart p.toNat r)

/-! Invalidations (R338). -/

namespace State

/-- Whether a 64 KiB unit lies in an invalidation's range; a length of 0 is the whole space. -/
def inInval (r : W64 × W64) (page : Nat) : Bool :=
  decide (r.2 = 0) || (decide (r.1.toNat ≤ page * 65536) && decide (page * 65536 < r.1.toNat + r.2.toNat))

/-- Whether the oldest invalidation of a function may complete: no access that used a translation of its range is
unperformed at .SYS. -/
def invalReady (s : State) (fn : Nat) : Bool :=
  match (s.fnMemOf fn).inval with
  | [] => false
  | r :: _ => s.gaccs.all fun g => !decide (g.fn = fn) || g.unit || !inInval r (g.va.toNat / 65536)

end State

/-- INVCTL (R338): 1 starts an invalidation of the range in INVVA and INVLEN. -/
def execInvctl (fn : BitVec 4) (v : W32) (s : State) : Host.Outcome State Fault Refusal :=
  if !s.ready || decide (v ≠ 1) then .next s
  else .next (s.modFnMem fn.toNat fun m => { m with inval := m.inval ++ [(m.invva, m.invlen)] })

/-- INVALIDATION_DONE (R338, R344): the translations of the range go, and COUNT increments. -/
def execInvalidationDone (fn : BitVec 4) (s : State) : Host.Outcome State Fault Refusal :=
  let f := fn.toNat
  if !s.invalReady f then .next s
  else
    match (s.fnMemOf f).inval with
    | [] => .next s
    | r :: rest =>
      .next ({ s with tlb := s.tlb.filter fun e => !(decide (e.fn = f) && State.inInval r e.page) }.modFnMem f fun m =>
        { m with inval := rest, invCount := m.invCount + 1 })

/-! Answers to faults (R343). -/

namespace State

/-- The outstanding fault with a record's sequence number. -/
def faultNamed (s : State) (fn seq : Nat) : Option FaultSt := (s.fnMemOf fn).faults.find? fun f => decide (f.seq = some seq)

def dropFault (s : State) (fn seq : Nat) : State :=
  s.modFnMem fn fun m => { m with faults := m.faults.filter fun f => !decide (f.seq = some seq) }

/-- A waiter retries (R199, R217, R255, R343). A copy stream restarts at its checkpoint (R218), and the other engines go on by
themselves once the record is gone; a thread or an origin unit of a saved context replays at its restore. -/
def grantWaiter (s : State) (fault : FaultSt) : Waiter → State
  | .thread t =>
    match s.thread? t with
    | some th =>
      match th.sleep with
      | .fault page _ => if page = fault.page then s.modThread t fun x => { x with sleep := .awake } else s
      | _ => s
    | none => s
  | .copy core id =>
    s.atCmd core id fun s => s.modCore core (restartCore (fun c => decide (c.id = id)) (s.cycle core))
  | .station u st =>
    match s.launch? u with
    | some l => if l.rec_.record then s.stationFlush l st false 1 else if l.rec_.replay then s.stationLoad l st else s
    | none => s
  | .origin core launch => if s.launchAway launch then s.keepAnswer ⟨core, launch, fault.page, true⟩ else s
  | _ => s

/-- A copy command ends with an error wherever it is: on its core or in a saved context. -/
def endCopyAnywhere (s : State) (core id code : Nat) : State := s.atCmd core id fun s => s.endCmd core id code

/-- A pen's spill or reload that the fault service has refused. -/
def Pen.refuse (reload : Bool) (p : Pen) : Pen :=
  if reload then
    { p with
      reload := none,
      spilled := updateWhere (fun x => p.reload.any fun r => decide (r.slot = x.slot)) (fun x => { x with failed := true }) p.spilled }
  else { p with spill := p.spill.map fun r => { r with refused := true } }

/-- A flock's pen unit's spill or reload is refused (R264, R268): the suspending thread traps PENFULL, or the tile stays
spilled. While the flock's context is saved the refusal is kept for its restore (R343). -/
def refusePen (s : State) (flock pen : Nat) (reload : Bool) : State :=
  let refuse (f : Flock) : Flock :=
    if f.uid = flock then
      match AL.find? f.pens pen with
      | some p => { f with pens := AL.insert f.pens pen (Pen.refuse reload p) }
      | none => f
    else f
  let s1 := { s with
    flocks := s.flocks.map refuse,
    contexts := s.contexts.map fun (c : Context) => { c with flocks := c.flocks.map refuse } }
  match s.flock? flock with
  | some f =>
    match (s1.core f.core).suspends.find? fun q => decide (q.flock = flock ∧ q.pen = pen) with
    | some q =>
      let (waits, s2) := if reload then (true, s1) else s1.tryRow f.core q
      if waits then s2 else s2.modCore f.core fun k => { k with suspends := k.suspends.erase q }
    | none => s1
  | none => s1

/-- Whether a thread of a saved context sleeps for a fault of a page (R343). -/
def sleepsSaved (c : Context) (t : ThreadId) (page : Nat) : Bool :=
  c.groups.any fun g => decide (g.uid = t.g) && (g.lanes[t.lane]?).any fun th => match th.sleep with
    | .fault p _ => decide (p = page)
    | _ => false

/-- A waiter ends with its refusal outcome (R199, R217, R255, R343). -/
def refuseWaiter (s : State) (fn : Nat) (fault : FaultSt) : Waiter → State
  | .thread t =>
    match s.thread? t with
    | some th =>
      match th.sleep, s.group? t.g with
      | .fault page ti, some g => if page = fault.page then s.refusedTrap t ti (s.cycle g.core + 4) else s
      | _, _ => s
    | none =>
      { s with contexts := s.contexts.map fun (c : Context) =>
          if sleepsSaved c t fault.page && !c.refused.contains t then { c with refused := c.refused ++ [t] } else c }
  | .copy core id => s.endCopyAnywhere core id 6
  | .origin core launch =>
    if s.launchAway launch then s.keepAnswer ⟨core, launch, fault.page, false⟩ else s.refuseOrigin core launch fault.page
  | .fold core =>
    match s.tileFolding core with
    | some o => s.completeTile core { o with code := 6 }
    | none => s
  | .array pad id =>
    match (s.array pad).run with
    | some r => if r.cmd.id = id then s.arrayEnd pad r.cmd 6 else s
    | none => s
  | .pen flock pen reload => s.refusePen flock pen reload
  | .station u st =>
    match s.launch? u with
    | some l => s.stationRefused l st
    | none => s
  | .place wid =>
    match s.waiting? wid with
    | some (f, q, _) =>
      if f = fn then s.modQueue f q fun x => { x with wait := x.wait.map fun w => { w with refused := true } } else s
    | none => s

end State

/-- FQRESP with G = 1 (R343): every waiter of the record retries. -/
def execFqrespGrant (fn : BitVec 4) (seq : BitVec 63) (s : State) : Host.Outcome State Fault Refusal :=
  let f := fn.toNat
  match s.faultNamed f seq.toNat with
  | none => .next s
  | some x => .next (x.waiters.foldl (fun s w => s.grantWaiter x w) (s.dropFault f seq.toNat))

/-- FQRESP with G = 0 (R343): every waiter of the record ends with its refusal outcome. -/
def execFqrespRefuse (fn : BitVec 4) (seq : BitVec 63) (s : State) : Host.Outcome State Fault Refusal :=
  let f := fn.toNat
  match s.faultNamed f seq.toNat with
  | none => .next s
  | some x => .next (x.waiters.foldl (fun s w => s.refuseWaiter f x w) (s.dropFault f seq.toNat))

/-- FQTAIL (R342): slots are free again, and records that waited are written. -/
def execFqtailWrite (fn : BitVec 4) (v : W32) (s : State) : Host.Outcome State Fault Refusal :=
  let f := fn.toNat
  if !s.ready then .next s
  else
    let s1 := s.modFnMem f fun m => { m with fqtail := v }
    .next (s1.writeFaults f (s1.fnMemOf f).faults.length)

/-- RETIRE (R356): the 64 KiB page of the address is out of service at once. -/
def execRetire (v : W64) (s : State) : Host.Outcome State Fault Refusal :=
  if !s.ready then .next s
  else
    let p := bits v 51 16
    .next (if s.retired.contains p then s else { s with retired := s.retired ++ [p] })

/-- RANGE_FILTER_WRITE (R349): filter n of function f, its base or its limit. -/
def execRangeFilterWrite (f : BitVec 5) (n : BitVec 4) (limit hi : Bool) (v : W32) (s : State) :
    Host.Outcome State Fault Refusal :=
  let fn := f.toNat
  if !s.ready || decide (16 < fn) then .next s
  else if (if fn = 16 then s.anyLink else s.fnBusy fn) then .next s.setPerr
  else
    let k := 16 * fn + n.toNat
    .next (s.write64 0 (State.pfPage + 0x1000 + 256 * fn + 16 * n.toNat + if limit then 8 else 0) hi v fun x s =>
      s.modPfMem fun m =>
        let old := AL.get (0, 0) m.filters k
        { m with filters := AL.set (0, 0) m.filters k (if limit then (old.1, x) else (x, old.2)) })

/-! Accesses of hosts through BAR2 (R341, R345, R346). -/

namespace State

/-- A host's translation (R345): the walk and checks of R336, for a page that belongs to the host. A read, or a write of a
part of a line, meets the errors that the line holds. -/
def hostPage (s : State) (fn va n : Nat) (write : Bool) : Option (Nat × Nat × Bool) × State :=
  let root := (s.fnMemOf fn).root
  if 2 ^ 48 ≤ va ∨ root.getLsbD 0 = false then (none, s)
  else
    let table := bits root 51 12 * 4096
    let s0 := s.walkErrors fn (BitVec.ofNat 64 va) 3 table
    match s0.walkFrom fn (BitVec.ofNat 64 va) 3 table with
    | .leaf p addr frame =>
      if (write && !p.getLsbD 2) || !p.getLsbD 7 then (none, s0)
      else
        let tier := bits p 9 8
        let tagged := p.getLsbD 6
        let pa := frame + va % 65536
        match s0.physCheck fn pa tier n tagged (write && decide (n = 64)) with
        | (.filtered, s1) => (none, s1)
        | (_, s1) =>
          match s1.recordUse ⟨8, fn, va / 65536, p, addr, frame⟩ write with
          | (true, s2, _) => (some (s2.routed fn pa, tier, tagged), s2)
          | (false, s2, _) => (none, s2)
    | _ => (none, s0)

/-- Translate every piece of a host's access: none where one is refused. -/
def hostPages (s : State) (fn : Nat) (write : Bool) : List (Nat × Nat) → Option (List (Nat × Nat × Bool)) × State
  | [] => (some [], s)
  | (va, n) :: rest =>
    match s.hostPage fn va n write with
    | (none, s1) => (none, s1)
    | (some p, s1) =>
      match s1.hostPages fn write rest with
      | (some ps, s2) => (some (p :: ps), s2)
      | (none, s2) => (none, s2)

/-- The pieces of an access through a function's BAR2 window, none where it leaves the window. -/
def barPieces (s : State) (fn off n : Nat) : Option (List (Nat × Nat)) :=
  if 2 ^ 36 < off + n then none else some (linePieces n ((s.fnMemOf fn).winbase.toNat + off) n)

def barRefused (s : State) (fn : Nat) : State := s.modFnMem fn fun m => { m with barerr := m.barerr + 1 }

/-- Write one piece of a host's write: a partial write to a poisoned line is dropped (R354); tags on a tagged page become
0xFFFF (R75). -/
def hostPut (s : State) (p : Nat × Nat × Bool) (bs : List Byte) : State :=
  let (pa, tier, tagged) := p
  let bad := (s.lineBad pa bs.length && !(decide (pa % 64 = 0) && decide (bs.length = 64))) ||
    (tagged && s.lineBad (s.tagAddr tier pa) ((bs.length + 3) / 4 * 2))
  if bad then s else s.gFill pa tier tagged bs 0xFFFF

end State

/-- HOST_BAR2_READ (R341, R345, R354): the data, or bytes 0xFF where the access is refused or a line is bad. -/
def execHostBar2Read (fn : BitVec 4) (off : BitVec 36) (len : Nat) (s : State) : Host.Outcome State Fault Refusal :=
  let f := fn.toNat
  let ones := List.replicate len (0xFF : Byte)
  if !s.ready then .next s
  else
    let refuse (s : State) : State := (s.barRefused f).send (.hostRead f ones)
    match s.barPieces f off.toNat len with
    | none => .next (refuse s)
    | some ps =>
      match s.hostPages f false ps with
      | (none, s1) => .next (refuse s1)
      | (some qs, s1) =>
        let xs := qs.zip (ps.map (·.2))
        if xs.any fun x => s1.lineBad x.1.1 x.2 then .next (s1.send (.hostRead f ones))
        else .next (s1.send (.hostRead f (xs.flatMap fun x => Mem.readBytes s1.mem x.1.1 x.2)))

/-- HOST_BAR2_WRITE (R341, R345, R346): a posted write is performed, or dropped where it is refused. -/
def execHostBar2Write (fn : BitVec 4) (off : BitVec 36) (data : List Byte) (s : State) :
    Host.Outcome State Fault Refusal :=
  let f := fn.toNat
  if !s.ready then .next s
  else
    match s.barPieces f off.toNat data.length with
    | none => .next (s.barRefused f)
    | some ps =>
      match s.hostPages f true ps with
      | (none, s1) => .next (s1.barRefused f)
      | (some qs, s1) =>
        let base := (ps.headD (0, 0)).1
        .next ((qs.zip ps).foldl (fun s x => s.hostPut x.1 ((data.drop (x.2.1 - base)).take x.2.2)) s1)

/-- SOISTLINK_INBOUND_ACCESS (R346, R347, R349): a peer's access to bonded DRAM through the fabric's filters, in arrival
order; one that fails them completes as a refused host access does. -/
def execSoistlinkInboundAccess (pa : W64) (write : Option (List Byte)) (len : Nat) (s : State) :
    Host.Outcome State Fault Refusal :=
  if !s.ready || !s.anyLink then .next s
  else
    let a := pa.toNat
    let n := match write with
      | some bs => bs.length
      | none => len
    let ok := decide (a + n ≤ 2 ^ 38) && s.filterOk 16 a n
    let first := ((List.range State.linkCount).find? fun i => (s.link i).up).getD 0
    let s1 := s.modLink first fun l => { l with flits := State.flitInc l.flits }
    let ps := State.linePieces n a n
    match write with
    | none =>
      let s2 := if ok then s1.meetErrors a n else s1
      let bad := !ok || s2.lineBad a n
      .next (s2.send (.peerRead (if bad then List.replicate n (0xFF : Byte) else Mem.readBytes s.mem a n)))
    | some bs =>
      if !ok then .next s1
      else
        .next (ps.foldl (fun s x =>
          (if x.2 = 64 then s else s.meetErrors x.1 x.2).hostPut (x.1, 0, false) ((bs.drop (x.1 - a)).take x.2)) s1)

/-! Scrubbing (R353 to R355). -/

/-- Whether a line lies in the part of a region that a sweep covers: a die of bonded DRAM, or a CXL port (Table 21.1). -/
def inSweep (region unit pa : Nat) : Bool :=
  if region = 0 then decide (pa < 2 ^ 38 ∧ pa / 2 ^ 35 = unit)
  else decide (cxlBase ≤ pa) && decide (pa < peerBase) && decide (pa / 8192 % 8 = unit)

namespace State

/-- Whether a line lies in the part of a region that a sweep reads: usable, and in no retired page (R355, R356). -/
def swept (s : State) (region unit pa : Nat) : Bool :=
  inSweep region unit pa && !s.retired.contains (pa / 65536) &&
    (decide (region = 0) || decide (pa < cxlBase + s.pfMem.cxlu.toNat))

/-- Exceptions of a sweep as (address, kind), by address: uncorrectable locations, integrity failures, and retired pages
that it skips (Table 21.11). -/
def sweepExceptions (s : State) (region unit : Nat) : List (Nat × Nat) :=
  let lines := (s.poison.map (· * 64)).filter (s.swept region unit)
  let pages := (s.retired.map (· * 65536)).filter fun pa =>
    if region = 0 then inSweep 0 unit pa else decide (cxlBase ≤ pa ∧ pa < cxlBase + s.pfMem.cxlu.toNat)
  sortBy (fun a b : Nat × Nat => decide (a.1 < b.1))
    ((lines.map fun pa => (pa, if s.integrity.contains (pa / 64) then 3 else 1)) ++ pages.map fun pa => (pa, 2))

/-- Lines that a sweep reads. -/
def sweepLines (s : State) (region unit : Nat) : Nat :=
  if region = 0 then 2 ^ 29 - 1024 * (s.retired.countP fun p => inSweep 0 unit (p * 65536))
  else s.pfMem.cxlu.toNat / 512 -
    128 * (s.retired.countP fun p => decide (cxlBase ≤ p * 65536 ∧ p * 65536 < cxlBase + s.pfMem.cxlu.toNat))

/-- A receipt's words (Table 21.11). -/
def receipt (s : State) (region unit start : Nat) (corrected : W32) (xs : List (Nat × Nat)) : List W32 :=
  words64 s.mgmt.sweeps ++
  [BitVec.ofNat 32 (region + 256 * unit), (if xs.isEmpty then 1 else 0) ||| (if 252 < xs.length then 2 else 0)] ++
    words64 start ++ words64 (s.timestamp 8) ++ words64 (s.sweepLines region unit) ++
    [corrected, BitVec.ofNat 32 xs.length, 0, 0, 0, 0] ++ (xs.take 252).flatMap fun x => words64 x.1 ++ [BitVec.ofNat 32 x.2, 0]

def scrubKey (region unit : Nat) : Nat := 8 * region + unit
def scrub (s : State) (region unit : Nat) : Scrub := AL.get Scrub.fresh s.pfMem.scrubs (scrubKey region unit)
def setScrub (s : State) (region unit : Nat) (x : Scrub) : State :=
  s.modPfMem fun m => { m with scrubs := AL.set Scrub.fresh m.scrubs (scrubKey region unit) x }

/-- Whether the device holds a region's part. -/
def hasRegion (s : State) (region unit : Nat) : Bool :=
  decide (unit < 8) && (decide (region = 0) || (decide (region = 1) && decide (s.pfMem.cxlu ≠ 0)))

/-- Whether the receipt ring has a slot that no sweep under way will take. -/
def receiptRoom (s : State) : Bool :=
  let m := s.pfMem
  decide ((m.scrhead - m.scrtail).toNat + (m.scrubs.countP fun e => e.2.start.isSome) < m.scrsize.toNat)

/-- Whether the receipt ring has a slot for a sweep that ends (R355). -/
def receiptSlot (s : State) : Bool := decide ((s.pfMem.scrhead - s.pfMem.scrtail).toNat < s.pfMem.scrsize.toNat)

/-- Whether a sweep of a region's part starts now: it is due, none is under way, and the ring has room (R355). -/
def sweepStarts (s : State) (region unit : Nat) : Bool :=
  let x := s.scrub region unit
  s.hasRegion region unit && x.start.isNone && decide (x.due ≤ s.timestamp 8) && s.receiptRoom

/-- SCRPER in timestamp units. -/
def scrubPeriod (s : State) : Nat := s.pfMem.scrper.toNat * 1000000000

/-- A sweep reads its lines (R353, R355): it meets the errors that lie in them and those the event brings, corrects what it
can and poisons the others. -/
def sweepRead (s : State) (region unit : Nat) (corrected : W32) (bad : List (W64 × Bool)) : State :=
  let s1 := (s.latent.filter fun e => s.swept region unit (e.1 * 64)).foldl meetError s
  let s2 := bad.foldl (fun s b =>
    if s.swept region unit b.1.toNat && !s.poison.contains (b.1.toNat / 64) then s.poisonLine (b.1.toNat / 64) b.2 else s) s1
  s2.countCorrected (if region = 0 then unit * 2 ^ 29 else 2 ^ 32) corrected.toNat

/-- The end of a sweep that started at a timestamp (R355, R373): its receipt is written and announced, and the next is due
SCRPER after the start. -/
def sweepEnd (s : State) (region unit start : Nat) (corrected : W32) (bad : List (W64 × Bool)) : State :=
  let found := s.latent.countP fun e => decide (e.2 = .corrected) && s.swept region unit (e.1 * 64)
  let s1 := s.sweepRead region unit corrected bad
  let m := s1.pfMem
  let (ok, s2) := s1.svcWrite 0 (m.scrbase + BitVec.ofNat 64 (4096 * (m.scrhead.toNat % m.scrsize.toNat))) 0
    (s1.receipt region unit start (corrected + BitVec.ofNat 32 found) (s1.sweepExceptions region unit))
  (((s2.modPfMem fun m => { m with scrhead := m.scrhead + 1 }).setScrub region unit ⟨start + s.scrubPeriod, none⟩).modMgmt
    fun g => { g with sweeps := g.sweeps + 1 }).announce ok 0 .scrubReceipt

/-- Sweeps that are due start, and one that has lasted its period ends (R355; assumption log 62). -/
def scrubCycle (s : State) : State :=
  if !s.ready || decide (s.pfMem.scrsize = 0) then s
  else (List.range 16).foldl (fun s i =>
    let r := i / 8
    let u := i % 8
    match (s.scrub r u).start with
    | some t => if s.receiptSlot && decide (t + s.scrubPeriod ≤ s.timestamp 8) then s.sweepEnd r u t 0 [] else s
    | none => if s.sweepStarts r u then s.setScrub r u { s.scrub r u with start := some (s.timestamp 8) } else s) s

end State

/-- SCRUB_SWEEP (R353 to R355): the sweep of a die's bonded DRAM (region 0) or of a CXL port (region 1) ends, with errors
that it corrected and lines that it could not, once the receipt ring has a slot. One that is not under way runs as a whole where it
may start (assumption log 62). -/
def execScrubSweep (region unit : Nat) (corrected : W32) (bad : List (W64 × Bool)) (s : State) :
    Host.Outcome State Fault Refusal :=
  if !s.ready then .next s
  else
    match (s.scrub region unit).start with
    | some t => .next (if s.receiptSlot then s.sweepEnd region unit t corrected bad else s)
    | none => .next (if s.sweepStarts region unit then s.sweepEnd region unit (s.timestamp 8) corrected bad else s)

/-! The replay gate's timeout (R329). -/

namespace State

/-- Whether the gate of a station has held an access for 1,000,000 timestamp units of its launch's running time. -/
def gateExpired (s : State) (u st : Nat) : Bool :=
  match s.launch? u with
  | some l =>
    let x := AL.get StationLog.fresh l.logs st
    l.rec_.replay && !x.diverged && (match x.heldSince with
      | some t => decide (t + unitTicks 1000000 ≤ l.replayTime)
      | none => false)
  | none => false

end State

/-- REPLAY_GATE_TIMEOUT (R329): the station gives up the logged order at the current chunk. -/
def execReplayGateTimeout (lid station : Nat) (s : State) : Host.Outcome State Fault Refusal :=
  if s.gateExpired lid station then
    .next (s.modStation lid station fun x =>
      { x with diverged := true, divat := BitVec.ofNat 32 x.pos, heldSince := none })
  else .next s

/-! Registers as written and read (R314, R348, R368). -/

namespace State

/-- A write to a register of a function's page that has no event of its own (Tables 18.12 and 21.5). -/
def writeFnReg (s : State) (fn off : Nat) (v : W32) : State :=
  match off with
  | 0x300 => s.write64 fn 0x300 false v fun _ s => s
  | 0x304 => s.write64 fn 0x300 true v fun x s => s.modFnLog fn fun g => { g with base := x }
  | 0x308 => s.modFnLog fn fun g => { g with size := v }
  | 0x30C => s.modFnLog fn fun g => { g with tail := v }
  | 0x400 => s.write64 fn 0x400 false v fun _ s => s
  | 0x404 => s.write64 fn 0x400 true v fun x s => s.modFnMem fn fun m => { m with root := x }
  | 0x408 => s.write64 fn 0x408 false v fun _ s => s
  | 0x40C => s.write64 fn 0x408 true v fun x s => s.modFnMem fn fun m => { m with invva := x }
  | 0x410 => s.write64 fn 0x410 false v fun _ s => s
  | 0x414 => s.write64 fn 0x410 true v fun x s => s.modFnMem fn fun m => { m with invlen := x }
  | 0x420 => s.write64 fn 0x420 false v fun _ s => s
  | 0x424 => s.write64 fn 0x420 true v fun x s => s.modFnMem fn fun m => { m with fqbase := x }
  | 0x428 => s.modFnMem fn fun m => { m with fqsize := v }
  | 0x440 => s.write64 fn 0x440 false v fun _ s => s
  | 0x444 => s.write64 fn 0x440 true v fun x s => s.modFnMem fn fun m => { m with winbase := x }
  | _ => s

/-- A write to a register of the PF global page that has no event of its own (Tables 18.13 and 21.6). -/
def writePfReg (s : State) (off : Nat) (v : W32) : State :=
  let reg64 (o : Nat) (f : W64 → State → State) : State := s.write64 0 (pfPage + o) (decide (off = o + 4)) v f
  match off with
  | 0x040 => s.modShep fun h => { h with minq := v }
  | 0x200 | 0x204 => reg64 0x200 fun x s => s.modShep fun h => { h with savebase := x }
  | 0x210 | 0x214 => reg64 0x210 fun x s => s.modShep fun h => { h with mcaddr := x }
  | 0x218 => s.modShep fun h => { h with mclen := v }
  | 0x230 | 0x234 => reg64 0x230 fun x s => s.modShep fun h => { h with rtaddr := x }
  | 0x238 => s.modShep fun h => { h with rtlen := v }
  | 0x300 | 0x304 => reg64 0x300 fun x s => s.modPfMem fun m => { m with tsbase0 := x }
  | 0x308 | 0x30C => reg64 0x308 fun x s => s.modPfMem fun m => { m with tsbase1 := x }
  | 0x320 | 0x324 => reg64 0x320 fun x s => s.modPfMem fun m => { m with scrbase := x }
  | 0x328 => s.modPfMem fun m => { m with scrsize := v }
  | 0x32C => s.modPfMem fun m => { m with scrtail := v }
  | 0x334 => s.modPfMem fun m => { m with scrper := v }
  | _ =>
    if 0x100 ≤ off ∧ off < 0x200 ∧ off % 4 = 0 then s.setTable ((off - 0x100) / 64) ((off - 0x100) % 64 / 4) v else s

/-- MCSTAT and RTSTAT (Table 18.13). -/
def loadWord : LoadStat → W32
  | .idle => 0
  | .busy => 1
  | .loaded => 2
  | .rejected r => BitVec.ofNat 32 (3 + 256 * r)

/-- One half of a 64-bit register. -/
def half64 (x : W64) (hi : Bool) : W32 := if hi then (x >>> 32).setWidth 32 else x.setWidth 32

/-- A function's page as read (Tables 18.12 and 21.5); an unassigned offset and a write-only register read 0. -/
def readFnReg (s : State) (fn off : Nat) : W32 :=
  let m := s.fnMemOf fn
  let g := s.fnLogOf fn
  let hi := decide (off % 8 = 4)
  match off with
  | 0x000 => BitVec.ofNat 32 fn
  | 0x300 | 0x304 => half64 g.base hi
  | 0x308 => g.size
  | 0x30C => g.tail
  | 0x310 => g.head
  | 0x314 => g.lost
  | 0x320 => g.placed
  | 0x324 => g.preempted
  | 0x328 => g.deadlines
  | 0x32C => g.refused
  | 0x330 => g.swaps
  | 0x334 => g.faults
  | 0x338 => g.swapwait
  | 0x400 | 0x404 => half64 m.root hi
  | 0x408 | 0x40C => half64 m.invva hi
  | 0x410 | 0x414 => half64 m.invlen hi
  | 0x41C => BitVec.ofNat 32 (2 * m.invCount) ||| (if m.inval.isEmpty then 0 else 1)
  | 0x420 | 0x424 => half64 m.fqbase hi
  | 0x428 => m.fqsize
  | 0x42C => m.fqtail
  | 0x430 => m.fqhead
  | 0x440 | 0x444 => half64 m.winbase hi
  | 0x448 => m.barerr
  | _ => if 0x100 ≤ off ∧ off < 0x200 ∧ off % 4 = 0 then half64 (s.queue fn ((off - 0x100) / 8)).qcb hi else 0

/-- TRSTAT (Table 22.1): a window is open, and how many of its streams R364 has stopped. -/
def trstat (s : State) : W32 :=
  match s.trace.window with
  | some w => BitVec.ofNat 32 ((if w.opening then 0 else 1) + 2 * w.streams.countP fun t => t.stopped.isSome || t.full)
  | none => 0

/-- MGSTAT and THERM (Table 23.3). -/
def mgstat (s : State) : W32 := BitVec.ofNat 32 (s.mgmt.state + 256 * s.mgmt.reason + 65536 * s.mgmt.fails)
def therm (s : State) : W32 :=
  s.mgmt.tj.setWidth 32 ||| (if s.mgmt.thr then 0x100 else 0) ||| (if s.mgmt.trip then 0x200 else 0)

/-- The PF global page as read (Tables 18.13, 21.6, 22.1 and 23.3). A read of SEMn is SEM_READ's; it changes the state. -/
def readPfReg (s : State) (off : Nat) : W32 :=
  let h := s.shep
  let m := s.pfMem
  let hi := decide (off % 8 = 4)
  let inRange (lo n : Nat) : Bool := decide (lo ≤ off ∧ off < lo + n ∧ off % 4 = 0)
  match off with
  | 0x040 => h.minq
  | 0x200 | 0x204 => half64 h.savebase hi
  | 0x208 | 0x20C =>
    half64 (Config.saveSize ((List.range 4).map fun p => (s.part p).reg)
      ((List.range 64).map fun e => AL.get 0 (s.part (e / 16)).table (e % 16))) hi
  | 0x210 | 0x214 => half64 h.mcaddr hi
  | 0x218 => h.mclen
  | 0x220 => loadWord h.mcstat
  | 0x230 | 0x234 => half64 h.rtaddr hi
  | 0x238 => h.rtlen
  | 0x240 => loadWord h.rtstat
  | 0x250 => (if h.perr then 1 else 0) ||| (if s.mgmt.state = 3 then 2 else 0)
  | 0x300 | 0x304 => half64 m.tsbase0 hi
  | 0x308 | 0x30C => half64 m.tsbase1 hi
  | 0x318 => m.cecnt
  | 0x31C => m.uecnt
  | 0x320 | 0x324 => half64 m.scrbase hi
  | 0x328 => m.scrsize
  | 0x32C => m.scrtail
  | 0x330 => m.scrhead
  | 0x334 => m.scrper
  | 0x338 | 0x33C => half64 m.cxlc hi
  | 0x340 | 0x344 => half64 m.cxlu hi
  | 0x580 => s.trstat
  | 0x600 => s.mgstat
  | 0x608 => s.mgmt.portmap.setWidth 32
  | 0x670 => s.therm
  | _ =>
    if inRange 0x000 32 then half64 (s.part (off / 8)).reg hi
    else if inRange 0x100 256 then AL.get 0 (s.part ((off - 0x100) / 64)).table ((off - 0x100) % 64 / 4)
    else if inRange 0x500 40 then AL.get 0 s.trace.skew ((off - 0x500) / 4)
    else if inRange 0x540 36 then AL.get 0 s.trace.delay ((off - 0x540) / 4)
    else if inRange 0x640 40 then AL.get 0 s.mgmt.droop ((off - 0x640) / 4)
    else if inRange 0x700 512 then
      BitVec.ofNat 32 ((s.mr ((off - 0x700) / 64)).toNat / 2 ^ (32 * ((off - 0x700) % 64 / 4)))
    else if inRange 0x1000 4352 then
      let f := AL.get (0, 0) m.filters ((off - 0x1000) / 16)
      half64 (if (off - 0x1000) % 16 < 8 then f.1 else f.2) hi
    else 0

/-- Whether an offset of the PF global page is one of Table 23.3, which hosts reach before READY (R365, R368). -/
def mgmtReg (off : Nat) : Bool := decide (0x600 ≤ off ∧ off < 0x900)

/-- A register read by a function's host (R314): 0 beyond its page, and before READY beyond Table 23.3. -/
def regRead (s : State) (fn off : Nat) : W32 :=
  if off < pfPage then (if s.mgmt.state = 3 then s.readFnReg fn off else 0)
  else if fn = 0 ∧ (s.mgmt.state = 3 ∨ mgmtReg (off - pfPage) = true) then s.readPfReg (off - pfPage)
  else 0

end State

/-- REGISTER_WRITE (R314, R348, R368): a register whose write is an event takes that event's effect; the others hold what is
written; read-only and unassigned ones ignore it. -/
def execRegisterWrite (fn : BitVec 4) (off : BitVec 24) (v : W32) (s : State) : Host.Outcome State Fault Refusal :=
  let f := fn.toNat
  let o := off.toNat
  if o < State.pfPage then
    if s.mgmt.state ≠ 3 ∨ o % 4 ≠ 0 then .next s
    else if 0x100 ≤ o ∧ o < 0x200 then execQcbWrite fn (BitVec.ofNat 5 ((o - 0x100) / 8)) (decide (o % 8 = 4)) v s
    else if 0x200 ≤ o ∧ o < 0x280 then
      let q := BitVec.ofNat 5 ((o - 0x200) / 4)
      if v = 0 then execDoorbellKick fn q s
      else if v = 1 then execDoorbellResume fn q s
      else if v = 2 then execDoorbellAbort fn q s
      else .next s
    else if o = 0x418 then execInvctl fn v s
    else if o = 0x42C then execFqtailWrite fn v s
    else if o = 0x438 then .next (s.write64 f 0x438 false v fun _ s => s)
    else if o = 0x43C then
      let w : W64 := v ++ AL.get 0 s.shep.lows (State.lowKey f 0x438)
      if w.getLsbD 63 then execFqrespGrant fn (w.setWidth 63) s else execFqrespRefuse fn (w.setWidth 63) s
    else .next (s.writeFnReg f o v)
  else
    let p := o - State.pfPage
    if f ≠ 0 ∨ p % 4 ≠ 0 then .next s
    else if p = 0x604 then execMgctlClrfail v s
    else if p = 0x608 then execPortmapWrite v s
    else if s.mgmt.state ≠ 3 then .next s
    else if p < 0x20 then execPartWrite (BitVec.ofNat 2 (p / 8)) (decide (p % 8 = 4)) v s
    else if p = 0x21C then execMcctlLoad v s
    else if p = 0x23C then execRtctlLoad v s
    else if p = 0x310 then .next (s.write64 0 (State.pfPage + 0x310) false v fun _ s => s)
    else if p = 0x314 then execRetire (v ++ AL.get 0 s.shep.lows (State.lowKey 0 (State.pfPage + 0x310))) s
    else if 0x1000 ≤ p ∧ p < 0x2100 then
      let i := p - 0x1000
      execRangeFilterWrite (BitVec.ofNat 5 (i / 256)) (BitVec.ofNat 4 (i % 256 / 16)) (decide (8 ≤ i % 16))
        (decide (i % 8 = 4)) v s
    else .next (s.writePfReg p v)

end Sys2Proof.Machine
end

