-- ==== Sys2Proof/Machine/Clock.lean ====
section
/-!
DEFINITION. The passing of time (R8, R101 to R103, R164, R357, R371, R372): one tick of the nominal core clock, the die
cycles it brings, writes that land, scratchpad accesses at their points, sleepers that wake, streams that move, and the
conditions that hold over time.
-/
namespace Sys2Proof.Machine

/-- A die after one tick of the nominal clock, with k/8 of a period added by a stretch (R371, R372): its cycle count goes
on when a whole period has passed. -/
def Die.advance (d : Die) : Die :=
  let need := 8 + max d.stretch.toNat d.heat.toNat
  if need ≤ d.credit + 8 then { d with cycle := d.cycle + 1, credit := d.credit + 8 - need }
  else { d with credit := d.credit + 8 }

/-- Landings and system register writes of a thread that are due at a cycle (R103, R176). -/
def Thread.landDue (cyc : Nat) (t : Thread) : Thread :=
  let due := t.mts.filter fun m => decide (m.cyc ≤ cyc)
  { t with
    rf := t.rf.landAll cyc,
    sys := State.sysWrites t.sys due,
    mts := t.mts.filter (fun m => !decide (m.cyc ≤ cyc)),
    parity := t.parity.filter (fun p => !t.rf.pend.any fun w => decide (w.cyc ≤ cyc) && t.rf.writtenBy w p.1),
    cleared := 0 }

def Region.landDue (cyc : Nat) (r : Region) : Region :=
  { r with helpers := r.helpers.map fun (h : Nat × RegFile) => (h.1, h.2.landAll cyc) }

def Group.landDue (cyc : Nat) (g : Group) : Group :=
  { g with lanes := g.lanes.map (Thread.landDue cyc), q0 := g.q0.map (Region.landDue cyc), q1 := g.q1.map (Region.landDue cyc) }

namespace State

/-! Scratchpad accesses at their points (R164). -/

/-- The order in which accesses of one cycle are performed. -/
def ScratchAcc.key (a : ScratchAcc) : List Nat := [a.due, a.core, a.cls, a.src, a.port, a.logical, a.lane.lane]

/-- A store at its point (R165). -/
def storePoint (s : State) (a : ScratchAcc) (f : Flock) (w : Width) (vals : List TW) : State :=
  let sub (n : Nat) : State :=
    (s.modFlock f.uid fun f => f.mergeSub a.addr n (vals.headD TW.zero)).wroteWord f.uid a.addr
  match w with
  | .b | .bs => sub 1
  | .h | .hs => sub 2
  | _ => s.writeWords f.uid a.addr vals

/-- Every word of a cell slot has been written (R153, R167). -/
def wroteCell (s : State) (fl a : Nat) : State := (List.range 8).foldl (fun s i => s.wroteWord fl (a + 4 * i)) s

/-- Perform an access. -/
def scratchPoint (s : State) (a : ScratchAcc) : State :=
  match s.flock? a.flock with
  | none => s
  | some f =>
    match a.op with
    | .load w => s.fillResult a.lane a.seq a.flagId a.dests (loadWords f w a.addr)
    | .store w vals => s.storePoint a f w vals
    | .loadTag => s.fillResult a.lane a.seq a.flagId a.dests [⟨(f.tagAt a.addr).setWidth 32, 0⟩]
    | .atom op b c => s.atomPoint a f op b c
    | .cellAdd x l => (s.modFlock f.uid fun f => f.addCell a.addr x l).wroteCell f.uid a.addr
    | .cellRdF32 l => s.cellRdPoint a f l
    | .cellRdRaw =>
      s.fillResult a.lane a.seq a.flagId a.dests
        (cellRawWords (f.cellVal a.addr) (Mem.read f.mem (a.addr + 18)).toNat (f.cellTag a.addr))
    | .cellClr => (s.modFlock f.uid fun f => f.putCell a.addr 0 0 0).wroteCell f.uid a.addr
    | .push vals => s.writeWords f.uid a.addr vals
    | .ret => s.retPoint a f
    | .tretPop tpc =>
      (s.trapReturn a.lane.tid tpc (some ((List.range 8).map fun i => (f.word (a.addr + 4 * i)).val))).decided a.lane
    | .waita => s.waitaPoint a f
    | .pencfg p => s.pencfgPoint a f p
    | .penwakeMask m => s.penwakeMaskPoint a f m
    | .penwakeWord p id => s.penwakeWordPoint f p id
    | .penflush p bin => s.penflushPoint f p bin
    | .penhold rel p bin => s.penholdPoint f rel p bin
    | .penstat p => s.penstatPoint a f p
    | .pentile p bin => s.pentilePoint a f p bin
    | .suspendRow ready p key row preds => s.suspendPoint a ready p key row preds
    | .resumeRow p frame n => s.resumeRowPoint a f p frame n
    | .aacfg => s.aacfgPoint a f
    | .snap id => s.snapPoint a f id

/-- Perform every access that is due, in order; those of a region whose members parted at one of them close it (R89). -/
def scratchDue (s : State) : State :=
  let due (a : ScratchAcc) : Bool := decide (a.due ≤ s.cycle a.core)
  let now := sortBy (fun a b : ScratchAcc => lexLt (ScratchAcc.key a) (ScratchAcc.key b)) (s.scratch.filter due)
  if now.isEmpty then s
  else (now.foldl scratchPoint { s with scratch := s.scratch.filter fun a => !due a }).closeParted

/-! Sleepers that wake with time (R153, R154). -/

/-- A WAITA or TRSV whose wake cycle has come, or a fence that is done, ends its sleep. -/
def wakeDue (s : State) (cyc : Nat) (t : Thread) : Thread :=
  match t.sleep with
  | .waita _ _ _ _ _ _ (some w) => if w ≤ cyc then { t with sleep := .awake } else t
  | .trsv _ (some w) => if w ≤ cyc then { t with sleep := .awake } else t
  | .fence .. => if s.fenceDone t then { t with sleep := .awake } else t
  | _ => t

def wakeAll (s : State) : State :=
  { s with groups := s.groups.map fun (g : Group) => { g with lanes := g.lanes.map (s.wakeDue (s.cycle g.core)) } }

/-! Copy streams and the pen unit. -/

/-- The started commands of cores on given dies, those of saved contexts among them (R219). -/
def runningCopies (s : State) (ds : List Nat) : List (Nat × Nat) :=
  (s.cores ++ s.contexts.flatMap (·.cores)).flatMap fun (e : Nat × CoreSt) =>
    if ds.contains (dieOf e.1) then (e.2.copy.filter fun c => c.started.isSome && c.mayRun s).map fun c => (e.1, c.id) else []

/-- Move every running stream by what a cycle gives it (assumption log 6). -/
def copyCycle (s : State) (ds : List Nat) : State :=
  (s.runningCopies ds).foldl (fun s c => s.copyAdvance c.1 c.2 Config.copyElementsPerCycle) s

/-- Place threads whose rows waited for a spill, where the spill no longer waits (R264) and no stop request keeps it at its
checkpoint (R274). -/
def suspendCycle (s : State) : State :=
  s.cores.foldl (fun s (e : Nat × CoreSt) =>
    if e.2.suspends.isEmpty then s
    else s.drainSuspends e.1 fun q =>
      match s.flock? q.flock with
      | some f =>
        match s.launch? f.launch with
        | some l => s.waits l.fn (.pen q.flock q.pen false) || (s.stopping f.launch && s.spilling q)
        | none => true
      | none => true) s

/-! Conditions that hold over time. -/

/-- The time since which a launch stands as R308 says. -/
def strandCycle (s : State) : State :=
  { s with
    launches := s.launches.map fun (l : Launch) =>
      let t := if s.strandable l then some (l.strandedAt.getD (s.timestamp 8)) else none
      if t = l.strandedAt then l else { l with strandedAt := t } }

/-- A replay's running time, which goes on to the swap at a slice end, and since when its gates hold an access (R328, R329). -/
def replayCycle (s : State) : State :=
  { s with
    launches := s.launches.map fun (l : Launch) =>
      if !l.rec_.replay || !s.partHolds l.part l.fn then l
      else
        let shut (st logical : Nat) : Bool := !gateAdmits (AL.get StationLog.fresh l.logs st) logical
        let held (st : Nat) : Bool :=
          (s.gaccs.any fun g =>
            decide (g.launch = l.uid) && !g.performed && decide (g.earliest ≤ s.cycle g.core) && (match g.op with
              | .atom .. => decide (stationOf g.tier g.pa = st) && shut st g.logical
              | _ => false)) ||
          s.cores.any fun e => (s.foldStation e.1).any fun x => decide (x.1.launch = l.uid ∧ x.2 = st) && shut st x.1.logical
        { l with
          replayTime := l.replayTime + 1,
          logs := l.logs.map fun (e : Nat × StationLog) =>
            if held e.1 then (e.1, { e.2 with heldSince := some (e.2.heldSince.getD l.replayTime) }) else e } }

/-- Whether a thread sleeps in the sense of R202. -/
def asleepForStop (t : Thread) : Bool :=
  match t.sleep with
  | .barrier _ _ _ none => true
  | .bwait _ _ _ none => true
  | .waita _ _ _ _ false _ none => true
  | .waitc .. => true
  | .fence .. => true
  | .trsv _ none => true
  | .suspend => true
  | .fault .. => true
  | .trapWait .. => true
  | _ => false

/-- Stop the sleepers of partitions under a stop request, and note when all their cores have halted (R202, R203). -/
def stopCycle (s : State) : State :=
  (List.range 4).foldl (fun s p =>
    if (s.part p).stop.isNone then s
    else
     let s := s.sendStop p
     if !(s.part p).stop.any (·.sent) then s
     else
      let s1 := s.stopWhere p false fun g i t => asleepForStop t || g.sharesRegion i asleepForStop
      if (s1.part p).haltedAt.isNone && s1.partHalted p then s1.modPart p fun x => { x with haltedAt := some s1.tick }
      else s1) s

/-- Whether a multiple of a period has passed since a timestamp. -/
def periodPassed (s : State) (before period : Nat) : Bool := decide (before / period < s.timestamp 8 / period)

/-- Stopped streams of a window without ticks try again every 2^20 timestamp units (R364). -/
def retryCycle (s : State) (before : Nat) : State :=
  match s.trace.window with
  | some w =>
    if decide (w.k = 0) && w.closing.isNone && s.periodPassed before (2 ^ 20) then
      (List.range 9).foldl (fun s i => s.traceRetry i) s
    else s
  | none => s

/-- Hardware measures the dies' offsets again every 2^30 timestamp units, counted on I/O die 0 (R358). -/
def skewCycle (s : State) (before : Nat) : State :=
  if s.ready && s.periodPassed before (2 ^ 30) then s.measureSkews else s

/-- The cores whose copy engine holds work: commands of its own, and those of saved contexts that run on there (R219). -/
def copyBusy (s : State) (ds : List Nat) : List Nat :=
  let live := (s.cores.filter fun e => !e.2.copy.isEmpty && ds.contains (dieOf e.1)).map (·.1)
  (live ++ (s.runningCopies ds).map (·.1)).eraseDups

/-- Busy cycles (Table 22.5). -/
def countCycle (s : State) (ds : List Nat) : State :=
  let s0 := s.cores.foldl (fun s (e : Nat × CoreSt) =>
    if ds.contains (dieOf e.1) && !e.2.tile.queue.isEmpty then s.countCore e.1 4 1 else s) s
  let s1 := (s.copyBusy ds).foldl (fun s c => s.countCore c 5 1) s0
  let gs := ((s.gaccs.map (·.core)).eraseDups).filter fun c => ds.contains (dieOf c) && decide (s.gatherEntries c ≠ 0)
  let s3 := gs.foldl (fun s c => s.countCore c 6 1) s1
  s.arrays.foldl (fun s (e : Nat × ArrayUnit) =>
    let d := dieOf (padCore e.1 0)
    if e.2.run.isSome && ds.contains d then s.countDie d 2 1 else s) s3

/-- Every port of cores on given dies may be served in the new cycle. -/
def openPorts (s : State) (ds : List Nat) : State :=
  let fresh (ps : AL Port) : AL Port :=
    (ps.map fun (p : Nat × Port) => (p.1, { p.2 with served := false })).filter fun p => !decide (p.2 = Port.fresh)
  { s with
    cores := s.cores.map fun (e : Nat × CoreSt) =>
      if ds.contains (dieOf e.1) then (e.1, { e.2 with ports := fresh e.2.ports }) else e }

/-- The dies whose clocks go on at this tick: every compute die, unless a trip has halted them (R372). -/
def advancing (s : State) : List Nat :=
  if s.mgmt.dead then []
  else (List.range 8).filter fun d => decide ((s.die d).cycle < (s.die d).advance.cycle)

/-- One tick of the nominal core clock, 0.303 ns (R8), of a device that a trip has not halted. Counters that a tick of trace
latches are latched before it (R362). -/
def tickRun (s0 : State) : State :=
  let s := s0.sampleAll
  let ds := s.advancing
  let before := s.timestamp 8
  let s1 := { s with
    tick := s.tick + 1,
    dies := (List.range 8).foldl (fun m d => AL.modify Die.fresh m d Die.advance) s.dies }
  let s2 := { s1 with
    groups := s1.groups.map fun (g : Group) => if ds.contains (dieOf g.core) then g.landDue (s1.cycle g.core) else g }
  let s3 := ((((s2.scratchDue.wakeAll).copyCycle ds).suspendCycle).countCycle ds).openPorts ds
  (((((s3.strandCycle.replayCycle).stopCycle).retryCycle before).skewCycle before).scrubCycle).rekeyCycle.startCycle

/-- One tick: time alone goes on once a trip has halted the device (R372). -/
def tickNow (s : State) : State := if s.mgmt.dead then { s with tick := s.tick + 1 } else s.tickRun

end State

end Sys2Proof.Machine
end

