-- ==== Sys2Proof/Machine/Ready.lean ====
section
/-!
DEFINITION. What a word needs before it issues (R9, R11, R15, R20 to R24, R84, R89, R101, R104, R146, R149, R164, R171, R262,
R330), and the checks made on it as it issues (R36, R100, R104).
-/
namespace Sys2Proof.Machine

/-! What an instruction asks for, by its kind. -/

/-- The fixed latency of an instruction's results (Table 4.4), none for one without such a result. -/
def latency : Instr → Option Nat
  | .iadd .. | .isub .. | .iadds .. | .imin .. | .imax .. | .iabs .. | .ineg .. | .and .. | .or .. | .xor .. | .andn .. | .shl .. | .shr ..
  | .sar .. | .rotl .. | .funnel .. | .bfx .. | .bfi .. | .popc .. | .clz .. | .brev .. | .isetp .. | .prmt .. | .add64 ..
  | .sub64 .. | .lea .. | .iadd2 .. | .iadd2s .. | .imax2 .. | .movi .. | .movhi .. | .kop .. | .kmovGet .. | .kmovSet ..
  | .mfs .. | .tagget .. | .tagset .. | .tagbirth .. | .mov .. | .sel .. | .arrive .. => some 2
  | .imul .. | .imulh .. | .imad .. | .iadd3 .. | .idot4 .. | .widen .. | .wadd .. | .mad64w .. => some 4
  | .fadd .. | .fsub .. | .fmul .. | .ffma .. | .fmin .. | .fmax .. | .fsetp .. | .fclass .. | .frnd .. | .hadd2 .. | .hsub2 ..
  | .hmul2 .. | .hfma2 .. | .hmin2 .. | .hmax2 .. | .hsetp2 .. | .cvtf .. | .cvti .. | .cvtfi .. | .pack .. | .unpack ..
  | .quant .. | .dequant .. | .cbdec .. => some 4
  | .hdot2 .. | .fdot4q .. | .lutdot .. => some 6
  | .shfl .. | .qswap .. | .qbcast .. | .gred .. | .gscan .. | .vote .. | .voteBallot .. | .elect .. | .matchLanes .. => some 6
  | .ld .. | .ldt .. | .atom .. | .cellrdF32 .. | .cellrdRaw .. | .ldk .. => some 6
  | .iaddHalf .. | .isubHalf .. | .iminHalf .. | .imaxHalf .. | .andHalf .. | .orHalf .. | .xorHalf .. | .shlHalf .. | .shrHalf ..
  | .sarHalf .. | .movHalf .. => some 2
  | .imulHalf .. | .faddHalf .. | .fsubHalf .. | .fmulHalf .. | .fminHalf .. | .fmaxHalf .. | .hadd2Half .. | .hmul2Half .. => some 4
  | _ => none

/-- The flag an instruction of the flagged class names (R15, R102). -/
def flagOf : Instr → Flag
  | .idiv _ _ _ _ f | .fdiv _ _ _ f | .ldp _ _ _ _ f | .atomp _ _ _ _ f | .gatom _ _ _ _ f => f
  | .frcp _ _ f | .frsq _ _ f | .fsqrt _ _ f | .fexp2 _ _ f | .flog2 _ _ f | .fsin _ _ f | .fcos _ _ f | .ftanh _ _ f => f
  | .origin _ _ f | .gld _ _ _ f | .cpyq _ _ f => f
  | .aaq _ f => f
  | _ => none

/-- Cycles from issue to the performance point of an instruction's scratchpad accesses (R164). -/
def pointOf : Instr → Option Nat
  | .ldp .. | .stp .. | .atomp .. => some 12
  | .ld .. | .st .. | .ldt .. | .atom .. | .celladd .. | .cellrdF32 .. | .cellrdRaw .. | .cellclr .. => some 3
  | .call .. | .calli .. | .ret | .tren | .tret | .waita .. => some 3
  | .suspend .. | .pencfg .. | .penwakeMask .. | .penwakeWord .. | .penflush .. | .penhold .. | .penstat .. | .pentile .. => some 3
  | .cpy .. | .cpyx .. | .ccoll .. | .aacfg .. => some 3
  | _ => none

/-- The counter a word raises for a thread (Table 1.4, R210). -/
def counterOf (t : Thread) : Instr → Option EngClass
  | .gld .. | .gst .. | .gatom .. | .gcelladd .. => some .gather
  | .seal => some .copy
  | .cpy .. | .cpyx .. | .cpyi .. => if 255 ≤ t.batch.count then some .copy else none
  | .cbcast .. | .ccoll .. => some .coll
  | .tmma .. | .tmmas .. | .tmmal .. | .tlutb .. | .tzero .. | .taccld .. | .taccst .. | .ttrn .. | .taddw .. | .tscan .. | .tscld ..
  | .tstat .. => some .tile
  | .aacfg .. | .aainf .. | .aatrn .. | .aald .. | .aast .. => some .aa
  | _ => none

/-- Whether an instruction is a cross-lane word, and whether its scope is the group (R171). -/
def crossScope : Instr → Option Bool
  | .shfl .. | .gred .. | .gscan .. | .vote .. | .voteBallot .. | .elect .. | .matchLanes .. => some true
  | .qswap .. | .qbcast .. => some false
  | _ => none

/-- The switch points of deterministic mode that a word is by itself (R94, R239). An EXIT of a group's last lane and a trap
make theirs where they happen. -/
def isSwitchWord : Instr → Bool
  | .barf _ | .barp _ | .arrive .. | .bwait .. | .yield | .waita .. | .waitc .. | .suspend .. | .trsv .. => true
  | _ => false

/-! Engine queues (R9, Table 1.3). -/

/-- An engine queue: the gather unit's, whose entries are one for a packet, or one of a thread's commands. -/
inductive QueueKind where
  | gather | copy | tile | array
deriving DecidableEq, Repr

def queueOf : Instr → Option QueueKind
  | .gld .. | .gst .. | .gatom .. | .gcelladd .. => some .gather
  | .cpy .. | .cpyx .. | .cpyi .. | .cbcast .. | .ccoll .. => some .copy
  | .tmma .. | .tmmas .. | .tmmal .. | .tlutb .. | .tzero .. | .taccld .. | .taccst .. | .ttrn .. | .taddw .. | .tscan .. | .tscld ..
  | .tstat .. => some .tile
  | .aacfg .. | .aainf .. | .aatrn .. | .aald .. | .aast .. => some .array
  | _ => none

/-- Free entries of a core's queue. -/
def State.room (s : State) (core : Nat) : QueueKind → Nat
  | .gather => 64 - s.gatherEntries core
  | .copy => 32 - (s.core core).copy.length
  | .tile => 16 - (s.core core).tile.queue.length
  | .array => 8 - State.arrayQueued (s.array (padOf core)) core

/-! Fetch and decode. -/

/-- What a thread meets at its program counter: a fetch that traps ACCESS (R20), an illegal word (R36), or a legal one. -/
inductive Fetched where
  | access (perm : Bool)
  | illegal (w : W64) (r : Illegal)
  | word (w : W64) (d : Decoded)
deriving DecidableEq, Repr

def State.fetch (s : State) (core launch : Nat) (regs : Nat) (pc : W64) : Fetched × State :=
  match s.codeWord core launch pc with
  | (.access perm, s1) => (.access perm, s1)
  | (.word w, s1) =>
    match decode regs w with
    | .ok d => (.word w d, s1)
    | .error r => (.illegal w r, s1)

/-- The stall and the wait mask of a word (Table 2.1). -/
def stallOf : Decoded → Nat
  | .full st .. => st.toNat
  | .pair st .. => st.toNat
def waitOf : Decoded → BitVec 12
  | .full _ w .. => w
  | .pair _ w .. => w
/-- Whether a word executes for registers: its predicate, or always for a pair (R24, R33). -/
def execsFor (r : RegFile) : Decoded → Bool
  | .full _ _ k kn _ => r.ksel ⟨k, kn⟩
  | .pair .. => true
/-- The one instruction of a full word. -/
def oneInstr : Decoded → Option Instr
  | .full _ _ _ _ i => some i
  | .pair .. => none
def instrsOf : Decoded → List Instr
  | .full _ _ _ _ i => [i]
  | .pair _ _ a b => [a, b]

/-! Why a thread that is due at a word is not ready for it. -/

/-- A hold: a flag, a counter that must be 0 or a landing; a full queue or a counter at 63; a birth that must wait for the
core's origin reserve (R68); or the order of scratchpad accesses, a barrier or other threads. -/
inductive Hold where
  | flag | queue | origin | other
deriving DecidableEq, Repr

namespace State

/-- The holds of a word for an executing thread, its W aside. A full queue holds one whose command would trap too
(assumption log 70). -/
def instrHolds (s : State) (g : Group) (lane : Nat) (t : Thread) (i : Instr) : List Hold :=
  let cyc := s.cycle g.core
  let busy := t.flags ||| t.cleared
  let armed := match flagOf i with
    | some n => busy.getLsbD n.val
    | none => false
  let leaving := !t.outs.isEmpty || decide (busy ≠ 0) || decide (t.batch.count ≠ 0)
  let pad := match s.launch? g.launch with
    | some l => l.rec_.pad
    | none => false
  let arrived (p : Bool) (n : BitVec 4) : Bool :=
    (!p || pad) && (s.barrier p g.launch g.core g.slot n.toNat).arrived.contains t.sys.logid
  let checking := (s.array (padOf g.core)).queue.any fun c => c.cfg.isNone && (match c.instr with
    | .aacfg _ => true
    | _ => false)
  (if armed then [.flag] else []) ++
  (match pointOf i with
   | some n => if cyc + n ≤ t.lastScratch then [.other] else []
   | none => []) ++
  (match counterOf t i with
   | some c => if 63 ≤ t.count c then [.queue] else []
   | none => []) ++
  (match queueOf i with
   | some q => if s.room g.core q = 0 then [.queue] else []
   | none => []) ++
  (match i with
   | .exit => if leaving then [.flag] else []
   | .suspend .. => if leaving then [.flag] else []
   | .mfs _ num =>
     if num = 0x060 ∧ t.hashq ≠ [] then [.flag] else []
   -- an arrival waits until no access of its thread could still be performed when the sleepers wake (R149, R150)
   | .barf n => if arrived false n || decide (cyc + 4 ≤ t.lastScratch) then [.other] else []
   | .barp n => if arrived true n then [.other] else []
   | .arrive _ n p => if arrived p n || (!p && decide (cyc + 4 ≤ t.lastScratch)) then [.other] else []
   | .aacfg _ | .aainf .. | .aatrn .. | .aald .. | .aast .. | .aaq .. => if pad && checking then [.other] else []
   | .qenter =>
     match g.region lane with
     | some r => if r.members.contains lane then [] else [.other]
     | none => []
   | _ => [])

/-- The holds of a thread that is due at its word. -/
def holds (s : State) (g : Group) (lane : Nat) (t : Thread) (f : Fetched) : List Hold :=
  match f with
  | .word _ d =>
    (if (t.flags ||| t.cleared) &&& waitOf d = 0 then [] else [.flag]) ++
    (if execsFor t.rf d then (match oneInstr d with
      | some i => s.instrHolds g lane t i
      | none => []) else [])
  | _ => []

/-- Whether a thread is due at its word (R21): awake, not stopped, its bound past. -/
def dueNow (s : State) (g : Group) (t : Thread) : Bool :=
  t.present && decide (t.sleep = .awake) && t.stop.isNone && decide (t.nextIssue ≤ s.cycle g.core)

end State

/-! Checks as a word issues. -/

/-- Registers an instruction reads and writes where a format slot fixes their number (R108), beside its operands. -/
def slotOpnds (slot : BitVec 3 → W64) : Instr → List Opnd
  | .pack _ a sl => [.srcRange .a a ((packCount (Slot.fmt (slot sl))).getD 1)]
  | .unpack d _ sl => [.dstRange d ((packCount (Slot.fmt (slot sl))).getD 1)]
  | .quant _ a _ sl => [.srcRange .a a ((packCount (Slot.fmt (slot sl))).getD 1)]
  | .dequant d _ _ sl => [.dstRange d ((packCount (Slot.fmt (slot sl))).getD 1)]
  | .ldk d _ n => [.dstRange d n.toNat]
  | _ => []

/-- Predicates an instruction reads (R104). -/
def predReads : Instr → List (BitVec 3)
  | .isetp _ _ _ _ kc | .fsetp _ _ _ _ kc | .sel _ _ _ kc | .hsetp2 _ _ _ _ _ kc _ => [kc.k]
  | .vote _ _ ka | .voteBallot _ ka => [ka.k]
  | .kop _ _ ka kb => [ka.k, kb.k]
  | .kmovGet _ | .suspend .. => [1, 2, 3, 4, 5, 6, 7]
  | _ => []

/-- The registers a word's instruction reads, and those it writes, zero and the codes without state aside. -/
def regReads (slot : BitVec 3 → W64) (i : Instr) : List Reg :=
  ((i.opnds ++ slotOpnds slot i).filter (·.rd)).flatMap fun o => regRange o.reg o.n
def regWrites (slot : BitVec 3 → W64) (i : Instr) : List Reg :=
  ((i.opnds ++ slotOpnds slot i).filter (·.wr)).flatMap fun o => regRange o.reg o.n

/-- The instruction by which a lane takes part in a word that it does not execute: it reads a, which it supplies to other
lanes (R172, R173; assumption log 59). -/
def suppliesIn : Instr → List Reg
  | .shfl _ _ a _ _ | .qswap _ _ a | .qbcast _ a _ => [a]
  | _ => []

/-- Whether a code names state a thread holds. -/
def heldReg : Reg → Bool
  | .v _ | .o _ | .last => true
  | _ => false

/-- Whether a fixed-latency result of a register is still to land (R23). For last it is that of the latest word (R98). -/
def shortRead (r : RegFile) (x : Reg) : Bool :=
  match x with
  | .last => r.pend.any fun w => decide (w.dst = .reg .last ∧ r.lastSeq < w.seq)
  | _ => r.pend.any fun w => decide (w.dst = .reg x)

/-- The format slots of a launch. -/
def State.slotsOf (s : State) (launch : Nat) (n : BitVec 3) : W64 :=
  match s.launch? launch with
  | some l => l.slot n
  | none => 0

/-- The registers of the liveset that a SUSPEND names: it reads them (R262, R263). -/
def State.livesetReads (s : State) (core launch : Nat) (pc : W64) (i : Instr) : List Reg :=
  match i, s.launch? launch with
  | .suspend _ _ _ off, some l =>
    let at_ := l.rec_.addrOf (l.rec_.idxOf pc + 1 + off.signExtend 32)
    match (s.codeWords core launch at_ 4).1 with
    | (ws, none) => (livesetRegs ws).1.filterMap fun n => if h : n < 240 then some (.v ⟨n, h⟩) else none
    | (_, some _) => []
  | _, _ => []

/-- The registers a thread reads at an instruction of a word: its sources where the thread executes it, and what it supplies
where it does not. -/
def State.readsOf (s : State) (core launch : Nat) (pc : W64) (on : Bool) (i : Instr) : List Reg :=
  if on then regReads (s.slotsOf launch) i ++ s.livesetReads core launch pc i else suppliesIn i

/-- The registers for which an instruction breaks R104 in a thread, in operand order; none stands for a predicate. DESIGN
CHOICE: a flagged word, whose own landing cycle is not fixed, breaks it by no fixed-latency write to its destination that is still
to land (assumption log 89). -/
def shortInstr (slot : BitVec 3 → W64) (reads : Instr → List Reg) (on : Bool) (t : Thread) (cyc : Nat) (i : Instr) :
    List (Option Reg) :=
  let flaggedDest (x : Reg) : Bool := t.flagged.any fun f => f.dests.contains x
  let rs := ((reads i).filter heldReg).filter fun x => shortRead t.rf x || flaggedDest x
  let ps := (predReads i).filter fun k => t.rf.pend.any fun w => decide (w.dst = .pred k)
  let ws := ((regWrites slot i).filter heldReg).filter fun x =>
    flaggedDest x || (match latency i with
      | some n => t.rf.pend.any fun w => decide (w.dst = .reg x ∧ cyc + n ≤ w.cyc)
      | none => false)
  rs.map some ++ if on then ps.map (fun _ => none) ++ ws.map some else []

/-- Whether a word's guard is a predicate still to land (R104). -/
def shortGuard (t : Thread) : Decoded → Bool
  | .full _ _ k _ _ => t.rf.pend.any fun w => decide (w.dst = .pred k)
  | .pair .. => false

/-- The register an instruction reads that has bad parity and no good copy, if any (R100). -/
def parityBad (reads : Instr → List Reg) (t : Thread) (i : Instr) : Option (Reg × Bool) :=
  (reads i).findSome? fun x =>
    (t.parity.find? fun p => decide (p.1 = x) && !p.2.2).map fun p => (p.1, p.2.1)

/-- Registers a word reads that are repaired from a copy (R100). -/
def parityFix (reads : Instr → List Reg) (t : Thread) (d : Decoded) : List Reg :=
  (((instrsOf d).flatMap reads).filter fun x => t.parity.any fun p => decide (p.1 = x) && p.2.2).eraseDups

end Sys2Proof.Machine
end

