-- ==== Sys2Proof/Machine/Picker.lean ====
section
/-!
DEFINITION. The picker (R83 to R95, R374): the threads that are ready on a port, the packet each mode forms from them, and
the issue of its word.
-/
namespace Sys2Proof.Machine

/-- A thread that is due at a word: its group, its lane, what it meets there and what holds it. -/
structure Due where
  g : Group
  lane : Nat
  t : Thread
  f : Fetched
  holds : List Hold
deriving DecidableEq, Repr

namespace State

/-- Groups of a port whose launch runs (R307). -/
def portResidents (s : State) (core port : Nat) : List Group :=
  if s.mgmt.dead then []
  else s.groups.filter fun g => decide (g.core = core ∧ g.port = port) &&
    ((s.launch? g.launch).any fun l => l.running && l.ending.isNone)

/-- The threads of a port that are due at their words (R21), in the order of their groups and lanes. -/
def dueLanes (s : State) (core port : Nat) : List Due :=
  (sortBy (fun a b : Group => lexLt [a.logical, a.launch] [b.logical, b.launch]) (s.portResidents core port)).flatMap fun g =>
    let regs := match s.launch? g.launch with
      | some l => l.rec_.regs
      | none => 0
    ((List.range g.lanes.length).zip g.lanes).filterMap fun p =>
      if s.dueNow g p.2 then
        let f := (s.fetch core g.launch regs p.2.pc).1
        some ⟨g, p.1, p.2, f, s.holds g p.1 p.2 f⟩
      else none

/-- Whether a lane of a group is among given threads at a word. -/
def standsIn (ds : List Due) (g lane : Nat) (pc : W64) : Bool :=
  ds.any fun d => decide (d.g.uid = g ∧ d.lane = lane ∧ d.t.pc = pc)

/-- A member of a quad region is ready only with every other member at its word (R87). -/
def regionReady (ds : List Due) (d : Due) : Bool :=
  match d.g.region d.lane with
  | some r => !r.members.contains d.lane || r.members.all fun m => standsIn ds d.g.uid m d.t.pc
  | none => true

/-- The lanes of a cross-lane word's scope. -/
def scopeLanes (group : Bool) (lane : Nat) : List Nat :=
  if group then List.range 8 else (List.range 4).map fun i => lane / 4 * 4 + i

/-- A thread at a cross-lane word is ready only with every present lane of its scope at the word, those asleep in SUSPEND
aside; in a quad region the helpers stand in for lanes that are no members (R171). -/
def crossReady (ds : List Due) (d : Due) : Bool :=
  match d.f with
  | .word _ w =>
    match (oneInstr w).bind crossScope with
    | none => true
    | some group =>
      let outside := match d.g.region d.lane with
        | some r => !r.members.contains d.lane
        | none => false
      !outside && (scopeLanes group d.lane).all fun j =>
        match d.g.region j with
        | some r => !r.members.contains j || standsIn ds d.g.uid j d.t.pc
        | none => !((d.g.lanes[j]?).any fun t => t.present && !decide (t.sleep = .suspend)) || standsIn ds d.g.uid j d.t.pc
  | _ => true

/-- The threads that are ready (R84). -/
def readyOf (ds : List Due) : List Due :=
  let a := ds.filter fun d => d.holds.isEmpty
  let b := a.filter (regionReady a)
  let c := b.filter (crossReady b)
  c.filter (regionReady c)

/-- A thread found ready in a cycle, or not (R85): since when it has been ready without issue, and the cycles of these in
which another set was served. -/
def Thread.markedReady (cyc : Nat) (ready : Bool) (t : Thread) : Thread :=
  if ready then
    match t.readySince with
    | some _ => t
    | none => { t with readySince := some cyc, passed := 0 }
  else { t with readySince := none, passed := 0 }

/-- Record since when each thread of a port has been ready (R85). -/
def markReady (s : State) (core port : Nat) (ready : List Due) : State :=
  let cyc := s.cycle core
  { s with
    groups := s.groups.map fun (g : Group) =>
      if g.core = core ∧ g.port = port then
        { g with
          lanes := ((List.range g.lanes.length).zip g.lanes).map fun p =>
            Thread.markedReady cyc (ready.any fun d => decide (d.g.uid = g.uid ∧ d.lane = p.1)) p.2 }
      else g }

/-- A cycle in which another set was served does not count for the forced-issue bound (R374); the wait age goes on (R85). -/
def passOver (s : State) (ds : List Due) : State :=
  ds.foldl (fun s d => s.modThread ⟨d.g.uid, d.lane⟩ fun t => { t with passed := t.passed + 1 }) s

/-! Packets outside deterministic mode (R85). -/

def Due.since (cyc : Nat) (d : Due) : Nat := d.t.readySince.getD cyc
def Due.quad (d : Due) : Nat × Nat := (d.g.logical, d.lane / 4)
/-- Whether a thread has been ready without issue for 4,096 cycles in which its set could have been served (R374). -/
def Due.forced (cyc : Nat) (d : Due) : Bool := decide (Due.since cyc d + d.t.passed + 4096 ≤ cyc)

/-- The forced thread with the longest ready time. -/
def forcedOf (cyc : Nat) (ds : List Due) : Option Due :=
  (sortBy (fun a b : Due => lexLt [Due.since cyc a, a.g.logical, a.lane] [Due.since cyc b, b.g.logical, b.lane])
    (ds.filter (Due.forced cyc))).head?

/-- The word with the most eligible quads; ties by wait age, then by group. -/
def mostQuads (cyc : Nat) (ds : List Due) : Option (Nat × W64) :=
  let keys := (ds.map fun d => (d.g.launch, d.t.pc)).eraseDups
  let rank (k : Nat × W64) : List Nat :=
    let at_ := ds.filter fun d => decide ((d.g.launch, d.t.pc) = k)
    let n := ((at_.map Due.quad).eraseDups).length
    [ds.length - n, (at_.map (Due.since cyc)).foldl min cyc, (at_.map (·.g.logical)).foldl min ((at_.head?.map (·.g.logical)).getD 0)]
  (sortBy (fun a b : Nat × W64 => lexLt (rank a) (rank b)) keys).head?

/-- Whether the word of a packet has the group as its scope, so that a group's two quads go together (R171). -/
def wholeGroups (ds : List Due) : Bool :=
  match ds with
  | d :: _ =>
    match d.f with
    | .word _ w => (oneInstr w).bind crossScope == some true
    | _ => false
  | [] => false

/-- The first 8 quads of an order, a group's two quads together where they must be (R171). A group of which both do not fit in
the 8 places is passed over, and the quads after it are still taken (assumption log 57). -/
def takeQuads (whole : Bool) (qs : List (Nat × Nat)) : List (Nat × Nat) :=
  qs.foldl (fun acc q =>
    let unit := if whole then qs.filter fun r => decide (r.1 = q.1) else [q]
    if acc.contains q || decide (8 < acc.length + unit.length) then acc else acc ++ unit) []

/-- The packet of a port's threads outside deterministic mode. -/
def pickFree (cyc : Nat) (chosen : Option (Nat × Nat)) (ds : List Due) : List Due :=
  let forced : Option Due := match chosen with
    | some (g, lane) => match ds.find? fun d => decide (d.g.uid = g ∧ d.lane = lane) with
      | some d => some d
      | none => forcedOf cyc ds
    | none => none
  let word : Option (Nat × W64) := match forced with
    | some d => some (d.g.launch, d.t.pc)
    | none => mostQuads cyc ds
  match word with
  | none => []
  | some key =>
    let at_ := ds.filter fun d => decide ((d.g.launch, d.t.pc) = key)
    let quads := ((at_.map Due.quad).eraseDups)
    let urgent (q : Nat × Nat) : Nat := if at_.any fun d => Due.forced cyc d && decide (Due.quad d = q) then 0 else 1
    let order := sortBy (fun a b : Nat × Nat => lexLt [urgent a, a.1, a.2] [urgent b, b.1, b.2]) quads
    let taken := takeQuads (wholeGroups at_) order
    at_.filter fun d => taken.contains (Due.quad d)

/-! Packets in deterministic mode (R94, R95). -/

/-- The word of a group's lowest-numbered ready lane. -/
def firstWord (ds : List Due) (g : Nat) : Option W64 := (ds.find? fun d => decide (d.g.uid = g)).map (·.t.pc)

/-- The groups after the current one that join its packet: each runnable one in order, up to a limit, until one does not
stand at the word. -/
def joinGroups (ds : List Due) (pc : W64) : Nat → List Group → List Nat
  | 0, _ => []
  | _, [] => []
  | n + 1, g :: gs => if firstWord ds g.uid = some pc then g.uid :: joinGroups ds pc n gs else []

/-- The packet of a deterministic launch on a port. -/
def pickDet (s : State) (core port launch : Nat) (ds : List Due) : List Due :=
  match AL.find? (s.port core port).current launch with
  | none => []
  | some cur =>
    match firstWord ds cur, s.group? cur with
    | some pc, some g =>
      let rest := (s.portGroups core port launch).filter fun x =>
        decide (g.logical < x.logical) && s.awakeGroup x && !(s.port core port).yielded.contains x.uid
      let gs := cur :: joinGroups ds pc 3 (sortBy (fun a b : Group => decide (a.logical < b.logical)) rest)
      ds.filter fun d => gs.contains d.g.uid && decide (d.t.pc = pc)
    | _, _ => []

/-- The deterministic launches of a port, in launch id order. -/
def detLaunches (s : State) (core port : Nat) : List Launch :=
  let us := ((s.portResidents core port).map (·.launch)).eraseDups
  sortBy (fun a b : Launch => decide (a.id.toNat < b.id.toNat)) ((us.filterMap s.launch?).filter fun l => l.rec_.det)

/-- Give each deterministic launch of a port a current group where it has none (R94), as where none was runnable at the last
switch point (assumption log 70). -/
def fillCurrent (s : State) (core port : Nat) : State :=
  (s.detLaunches core port).foldl (fun s l =>
    if (AL.find? (s.port core port).current l.uid).isSome then s
    else match s.nextCurrent core port l.uid with
      | some u => s.modPort core port fun p => { p with current := AL.insert p.current l.uid u }
      | none => s) s

/-- Threads of launches outside deterministic mode. -/
def freeOnes (s : State) (ds : List Due) : List Due :=
  ds.filter fun d => !((s.launch? d.g.launch).any fun l => l.rec_.det)

/-- The candidates of a port in the order in which it serves them (R374): each with the launch it stands for, none for the
set outside deterministic mode, and its packet. Where the candidate served last has left the port the order starts again at
the lowest launch id (assumption log 70). -/
def candidates (s : State) (core port : Nat) (ds : List Due) : List (Option Nat × List Due) :=
  let det := (s.detLaunches core port).map fun l => (some l.uid, s.pickDet core port l.uid ds)
  let all := det ++ [(none, pickFree (s.cycle core) (s.port core port).forced (s.freeOnes ds))]
  let last := (s.port core port).lastServed
  let after := (all.dropWhile fun c => !decide (c.1 = last)).drop 1
  let order := after ++ all.take (all.length - after.length)
  order.filter fun c => !c.2.isEmpty

/-! Issue. -/

/-- Tags of the registers an instruction names as sources a, b and c (R77); a half's first source is d. -/
def srcTags (s : State) (l : LaneRef) (i : Instr) : Tags3 :=
  let tag (f : Fld) : Tag := match i.opnds.find? fun o => decide (o.fld = f) && o.rd with
    | some o => (s.operand l o.reg).tag
    | none => 0
  match i with
  | .movHalf .. => (tag .a, 0, 0)
  | _ => if i.isHalf then (tag .d, tag .a, 0) else (tag .a, tag .b, tag .c)

/-- The trap a thread takes before a word has any effect: STALLSHORT, then PARITY, each in half A before half B (R100, R104,
R194): of PARITY in half A and STALLSHORT in half B the model reports the STALLSHORT (assumption log 58). The operand code of
a predicate is one the manual does not give (assumption log 5). -/
def earlyTrap (s : State) (d : Due) (w : Decoded) : Option TrapInfo :=
  let slot := s.slotsOf d.g.launch
  let on := execsFor d.t.rf w
  let reads := s.readsOf d.g.core d.g.launch d.t.pc on
  let cyc := s.cycle d.g.core
  let l : LaneRef := ⟨d.g.uid, d.lane, false⟩
  let is := (List.range 2).zip (instrsOf w)
  let half (n : Nat) : W32 := if n = 1 then 0x20 else 0
  let code (r : Option Reg) : W32 := match r with
    | some x => (Reg.code x).setWidth 32
    | none => (match d.f with
      | .word x _ => Config.predicateCode x
      | _ => 0) &&& 0xFF
  let short : Option TrapInfo :=
    if !d.t.sys.schken then none
    else if shortGuard d.t w then
      let t := match oneInstr w with
        | some i => s.srcTags l i
        | none => (0, 0, 0)
      some ⟨0x0A, code none, 0, t.1, t.2.1, t.2.2, 0⟩
    else is.findSome? fun p =>
      (shortInstr slot reads on d.t cyc p.2).head?.map fun r =>
        let t := s.srcTags l p.2
        ⟨0x0A, code r, 0, t.1, t.2.1, t.2.2, half p.1⟩
  match short with
  | some t => some t
  | none => is.findSome? fun p =>
    (parityBad reads d.t p.2).map fun r =>
      let t := s.srcTags l p.2
      ⟨0x15, code (some r.1) ||| (if r.2 then 0x100 else 0), 0, t.1, t.2.1, t.2.2, half p.1⟩

/-- Move a thread past a word it issues (R21), its registers with bad parity repaired where a good copy exists (R100). -/
def passWord (s : State) (d : Due) (w : Decoded) : State :=
  let cyc := s.cycle d.g.core
  let fixed := parityFix (s.readsOf d.g.core d.g.launch d.t.pc (execsFor d.t.rf w)) d.t w
  let s1 := s.modThread ⟨d.g.uid, d.lane⟩ fun t =>
    { t with
      pc := d.t.pc + 8, wpc := d.t.pc, nextIssue := cyc + 1 + stallOf w, readySince := none, passed := 0,
      parity := t.parity.filter fun p => !fixed.contains p.1 }
  if fixed.isEmpty then s1 else s1.countCore d.g.core 7 fixed.length

/-- The helper lanes of the quads whose region members are in a packet (R88). -/
def helpersOf (ps : List Due) : List LaneRef :=
  ((ps.map fun d => (d.g, d.lane / 4)).eraseDups).flatMap fun q =>
    match q.1.region (4 * q.2) with
    | some r =>
      if ps.any fun d => decide (d.g.uid = q.1.uid) && r.members.contains d.lane then
        r.helpers.map fun h => ⟨q.1.uid, h.1, true⟩
      else []
    | none => []

/-- The lanes of a packet in the fixed order (R92). -/
def laneOrder (s : State) (ls : List LaneRef) : List LaneRef :=
  let key (l : LaneRef) : List Nat := [((s.group? l.g).map (·.logical)).getD 0, l.lane]
  sortBy (fun a b : LaneRef => lexLt (key a) (key b)) ls

/-- The packet without the threads whose lanes stand for helpers of region members in it. -/
def dropShadowed (ps : List Due) : List Due :=
  let hs := helpersOf ps
  ps.filter fun d => !hs.any fun h => decide (h.g = d.g.uid ∧ h.lane = d.lane)

/-- Whether two threads of a packet go only together: they are members of one quad region (R87), or in the scope of one
cross-lane word (R171). -/
def goTogether (w : Decoded) (a b : Due) : Bool :=
  decide (a.g.uid = b.g.uid) &&
  (decide (a.lane = b.lane) ||
   (match a.g.region a.lane with
    | some r => r.members.contains a.lane && r.members.contains b.lane
    | none => false) ||
   (match (oneInstr w).bind crossScope with
    | some group => group || decide (a.lane / 4 = b.lane / 4)
    | none => false))

/-- The threads of a packet, those that go only together side by side. -/
def packetUnits (w : Decoded) : List Due → List (List Due)
  | [] => []
  | d :: ds => packetUnit d (packetUnits w ds)
where
  /-- Put a thread into the unit of those it goes with, or into one of its own. -/
  packetUnit (d : Due) : List (List Due) → List (List Due)
    | [] => [[d]]
    | u :: us => if u.any (goTogether w d) then (d :: u) :: us else u :: packetUnit d us

/-- Keep the units of a packet that a check lets go after those kept before them, in the order of R92. DESIGN CHOICE: a quad
region that does not fit, since it must go together (R87), is passed over, and what is left goes to the threads after it
(assumption log 70). -/
def keepUnits (w : Decoded) (ps : List Due) (ok : List Due → List Due → Bool) : List Due :=
  let first (u : List Due) : List Nat := match u with
    | d :: _ => [d.g.logical, d.lane]
    | [] => []
  let us := sortBy (fun a b : List Due => lexLt (first a) (first b)) (packetUnits w ps)
  let kept := us.foldl (fun acc u => if ok acc u then acc ++ u else acc) []
  ps.filter kept.contains

/-- The due threads that go only together with one at its word. -/
def unitOf (ds : List Due) (x : Due) (w : Decoded) : List Due :=
  ds.filter fun y => decide (y.t.pc = x.t.pc) && goTogether w x y

/-- The queue entries that threads take at an engine's word: one for each that executes it. A thread whose command would
trap at issue counts for one too, and stalls where there is none (assumption log 70). -/
def entriesFor (w : Decoded) (ds : List Due) : Nat := ds.countP fun d => execsFor d.t.rf w

/-- The threads of a packet that find an entry in their engine's queue (R9): the executing ones in order, as far as it has
room. -/
def limitRoom (s : State) (core : Nat) (ps : List Due) (w : Decoded) : List Due :=
  match (oneInstr w).bind queueOf with
  | none => ps
  | some .gather => ps
  | some q =>
    keepUnits w ps fun acc u => decide (entriesFor w u = 0 ∨ entriesFor w acc + entriesFor w u ≤ s.room core q)

/-- Hold the ready threads that a limit on their word leaves out (R9, R68, R84): outside deterministic mode the threads at one
word are those of one packet, in which each counts behind those before it in the order of R92 (assumption log 70). -/
def holdBeyond (s : State) (why : Hold) (limit : Due → W64 → Decoded → List Due → List Due) (ds : List Due) : List Due :=
  let ready := s.freeOnes (readyOf ds)
  let out := ((ready.map fun d => (d.g.launch, d.t.pc)).eraseDups).flatMap fun k =>
    let at_ := dropShadowed (ready.filter fun d => decide ((d.g.launch, d.t.pc) = k))
    match at_ with
    | x :: _ => match x.f with
      | .word w i =>
        let kept := limit x w i at_
        if kept.length = at_.length then [] else at_.filter fun d => !kept.contains d
      | _ => []
    | [] => []
  if out.isEmpty then ds else ds.map fun x => if out.contains x then { x with holds := [why] } else x

/-- Threads with the hold of those for which their queue has too little room: for them and the threads they go with (R9, R84,
R87), and then for them behind the others at their word. -/
def holdRoom (s : State) (core : Nat) (ds : List Due) : List Due :=
  s.holdBeyond .queue (fun _ _ w at_ => s.limitRoom core at_ w) <| ds.map fun x =>
    match x.f with
    | .word _ w =>
      match (oneInstr w).bind queueOf with
      | some .gather | none => x
      | some q =>
        if x.holds.isEmpty && decide (entriesFor w (unitOf ds x w) ≠ 0 ∧ s.room core q < entriesFor w (unitOf ds x w)) then
          { x with holds := [.queue] }
        else x
    | _ => x

end State

/-- Go on from an outcome. -/
def andThen (o : Host.Outcome State Fault Refusal) (f : State → Host.Outcome State Fault Refusal) :
    Host.Outcome State Fault Refusal :=
  match o with
  | .next s => f s
  | .fault r => .fault r
  | .refused r => .refused r

namespace State

/-- The context of a word for a packet's lanes. -/
def issueCtx (s : State) (core port launch : Nat) (pc : W64) (w : W64) (half : HalfPos) (partner : Option Instr)
    (lanes off : List LaneRef) : IssueCtx :=
  { core := core, port := port, launch := launch, pc := pc, word := w, cycle := s.cycle core, seq := s.issueSeq,
    half := half, partner := partner, lanes := lanes, off := off }

/-- Run the instructions of a word for the lanes of a packet: half A, then half B for the lanes that half A does not
trap (R194, R196). -/
def runWord (ex : Instr → State → Host.Outcome State Fault Refusal) (s : State) (core port launch : Nat) (pc w : W64)
    (d : Decoded) (ls : List LaneRef) : Host.Outcome State Fault Refusal :=
  let on := ls.filter fun l => execsFor (s.rf l) d
  let off := ls.filter fun l => !execsFor (s.rf l) d
  if on.isEmpty then .next s
  else
    match d with
    | .full _ _ _ _ i => ex i { s with cur := some (s.issueCtx core port launch pc w .full none on off) }
    | .pair _ _ a b =>
      andThen (ex a { s with cur := some (s.issueCtx core port launch pc w .a (some b) on off) }) fun s1 =>
        let hit (l : LaneRef) : Bool := (s.resTrap l (halfRes a s l)).isSome
        ex b { s1 with cur := some (s.issueCtx core port launch pc w .b (some a) (on.filter (!hit ·)) (off ++ on.filter hit)) }

/-- Whether a core's origin unit may have too few numbers for a word of some groups (R68): two for each, as a pair word may
need, beside those kept for accesses in flight. -/
def reserveLow (s : State) (core launch groups : Nat) : Bool := s.shortOf core launch (2 * groups)

/-- Whether running a word for some threads meets a birth that must wait for the reserve (R68). -/
def birthWaits (ex : Instr → State → Host.Outcome State Fault Refusal) (s : State) (core port launch : Nat) (pc w : W64)
    (d : Decoded) (ps : List Due) : Bool :=
  let ls := s.laneOrder ((ps.map fun x => ⟨x.g.uid, x.lane, false⟩) ++ helpersOf ps)
  s.mustWait core launch fun s =>
    match s.runWord ex core port launch pc w d ls with
    | .next s1 => s1
    | _ => s

/-- The threads of a packet whose births the reserve can serve, in order. -/
def limitBirths (ex : Instr → State → Host.Outcome State Fault Refusal) (s : State) (core port launch : Nat) (pc w : W64)
    (d : Decoded) (ps : List Due) : List Due :=
  if !s.reserveLow core launch ((ps.map (·.g.uid)).eraseDups).length then ps
  else keepUnits d ps fun acc u => !s.birthWaits ex core port launch pc w d (acc ++ u)

/-- Threads with the hold of those whose word, issued for them and the threads they go with alone, would make a birth that
must wait for the reserve, or behind the others at their word (R68, R84). -/
def holdBirths (ex : Instr → State → Host.Outcome State Fault Refusal) (s : State) (core port : Nat) (ds : List Due) :
    List Due :=
  s.holdBeyond .origin (fun x w d at_ => s.limitBirths ex core port x.g.launch x.t.pc w d at_) <| ds.map fun x =>
    match x.f with
    | .word w d =>
      if x.holds.isEmpty && s.reserveLow core x.g.launch 1 &&
          s.birthWaits ex core port x.g.launch x.t.pc w d (unitOf ds x d) then
        { x with holds := [.origin] }
      else x
    | _ => x

/-- The switch point of a word that issued for the lanes of some groups (R94), that of the group which was current. Whether
the word is executed does not count; each group that executes YIELD, one that joined the packet among them, yields (R95,
R151). -/
def wordSwitches (s : State) (d : Decoded) (current : Option Nat) (issued on : List Nat) : State :=
  match oneInstr d, current with
  | some i, some g =>
    if isSwitchWord i && issued.contains g then s.switchPoint g (if i = .yield then on else []) else s
  | _, _ => s

/-- Issue a legal word for a packet. A thread that traps before the word leaves the others unaffected (R86): its trap, with
the close of its region, is taken after the word has run for them. It is no participant of a cross-lane word
(assumption log 59). -/
def issueWord (ex : Instr → State → Host.Outcome State Fault Refusal) (s : State) (core port launch : Nat) (pc w : W64)
    (d : Decoded) (ps : List Due) : Host.Outcome State Fault Refusal :=
  let early := ps.filterMap fun x => (s.earlyTrap x d).map fun t => (x, t)
  let traps (s : State) : State :=
    early.foldl (fun s e => (s.takeTrap ⟨e.1.g.uid, e.1.lane⟩ e.2 pc (s.cycle core + 4))) s
  let run := ps.filter fun x => !early.any fun e => decide (e.1.g.uid = x.g.uid ∧ e.1.lane = x.lane)
  if run.isEmpty then .next (traps s)
  else
    let ls := s.laneOrder ((run.map fun x => ⟨x.g.uid, x.lane, false⟩) ++ helpersOf run)
    let on := (ls.filter fun l => !l.helper && execsFor (s.rf l) d).map (·.g)
    let s1 := run.foldl (fun s x => s.passWord x d) { s with issueSeq := s.issueSeq + 1 }
    andThen (s1.runWord ex core port launch pc w d ls) fun s2 =>
      let s3 := ((traps { s2 with cur := none }).wordSwitches d (AL.find? (s.port core port).current launch)
        (run.map (·.g.uid)) on.eraseDups).closeParted
      .next ((s3.countCore core 0 1).countCore core 1 run.length)

/-- Serve a packet: the word is fetched, and traps for every thread where it cannot be fetched or is illegal (R20, R36). DESIGN
CHOICE: TFDET.HALF of an ILLEGAL trap at decode is 0, in whichever half of a pair the reason lies (R35, assumption log 84). -/
def issuePacket (ex : Instr → State → Host.Outcome State Fault Refusal) (s : State) (core port : Nat) (ps : List Due) :
    Host.Outcome State Fault Refusal :=
  match ps with
  | [] => .next s
  | p :: _ =>
    let launch := p.g.launch
    let pc := p.t.pc
    let regs := match s.launch? launch with
      | some l => l.rec_.regs
      | none => 0
    let trapAll (s : State) (ti : TrapInfo) : Host.Outcome State Fault Refusal :=
      .next (ps.foldl (fun s d => (s.modThread ⟨d.g.uid, d.lane⟩ fun t => { t with readySince := none, passed := 0 }).takeTrap
        ⟨d.g.uid, d.lane⟩ ti pc (s.cycle core + 4)) s)
    match s.fetch core launch regs pc with
    | (.access perm, s1) =>
      trapAll s1 ⟨0x0E, pc.setWidth 32, (pc >>> 32).setWidth 32, 0, 0, 0, if perm then 4 else 0⟩
    | (.illegal w r, s1) => trapAll s1 ⟨0x01, BitVec.ofNat 32 r.code, (w >>> 32).setWidth 32, 0, 0, 0, 0⟩
    | (.word w d, s1) =>
      let qs := s1.limitBirths ex core port launch pc w d (s1.limitRoom core (dropShadowed ps) d)
      if qs.isEmpty then .next s else s1.issueWord ex core port launch pc w d qs

/-- Stop, under a stop request, the threads of a port that only flags, counters, landings or queues hold at their words
(R202), and with a stopped member its whole region. -/
def stopHeld (s : State) (ds : List Due) : State :=
  let held := ds.filter fun d => s.stopping d.g.launch && !d.holds.isEmpty && d.holds.all fun h => !decide (h = .other)
  held.foldl (fun s d =>
    let lanes := match d.g.region d.lane with
      | some r => if r.members.contains d.lane then r.members else [d.lane]
      | none => [d.lane]
    lanes.foldl (fun s i => s.modThread ⟨d.g.uid, i⟩ fun t =>
      if t.present && t.stop.isNone then { t with stop := some ⟨false, none⟩ } else t) s) s

/-- A cycle of a port with resident threads in which it issues nothing (Table 22.5): it is lost to a full queue or to a
counter at 63 where, but for these, a packet would have issued. -/
def countStall (s : State) (core port : Nat) (ds : List Due) : State :=
  let free := ds.map fun d => { d with holds := d.holds.filter (· ≠ .queue) }
  s.countCore core (if (s.candidates core port (readyOf free)).isEmpty then 2 else 3) 1

/-- One cycle of a port: at most one packet issues. -/
def servePort (ex : Instr → State → Host.Outcome State Fault Refusal) (s : State) (core port : Nat) :
    Host.Outcome State Fault Refusal :=
  let ds := s.holdBirths ex core port (s.holdRoom core (s.dueLanes core port))
  let rs := readyOf ds
  let s1 := ((s.stopHeld ds).markReady core port rs).fillCurrent core port
  let rs := rs.map fun d => { d with t := (s1.thread? ⟨d.g.uid, d.lane⟩).getD d.t }
  match s1.candidates core port rs with
  | [] => .next ((s1.countStall core port ds).modPort core port fun p => { p with served := true, forced := none })
  | (who, ps) :: _ =>
    let s2 := s1.modPort core port fun p => { p with served := true, forced := none, lastServed := who }
    let s3 := if who.isSome then s2.passOver (s2.freeOnes rs) else s2
    s3.issuePacket ex core port ps

/-- The next port to be served in this cycle: the lowest port of the lowest core that has groups and is not served. -/
def nextPort (s : State) : Option (Nat × Nat) :=
  let open_ := s.groups.filter fun g => !(s.port g.core g.port).served && decide (g.core < 320)
  let keys := open_.map fun g => (g.core, g.port)
  if s.mgmt.dead then none
  else (sortBy (fun a b : Nat × Nat => lexLt [a.1, a.2] [b.1, b.2]) keys).head?

/-- The thread of a port that must be forced now, where none is chosen yet (R85). -/
def toForce (s : State) (core port : Nat) : Option Due :=
  if (s.port core port).forced.isSome || (s.port core port).served then none
  else forcedOf (s.cycle core) (s.freeOnes (readyOf (s.holdRoom core (s.dueLanes core port))))

end State

/-- FORCED_ISSUE (R85): a thread that has been ready without issue for 4,096 cycles gives its word to the port's next packet. -/
def execForcedIssue (core port : Nat) (s : State) : Host.Outcome State Fault Refusal :=
  match s.toForce core port with
  | some d => .next (s.modPort core port fun p => { p with forced := some (d.g.uid, d.lane) })
  | none => .next s

end Sys2Proof.Machine
end

