-- ==== Sys2Proof/Machine/Auto.lean ====
section
/-!
DEFINITION. The events of the device that happen on their own: which of them is due now (R68, R103, R149, R155, R208, R210,
R226, R234, R252, R268, R287, R298 to R313, R329, R338, R362). An event given in the inbox may come before its turn here
where its own conditions allow it.
-/
namespace Sys2Proof.Machine

namespace State

/-! Cores. -/

/-- A flagged result whose latest landing cycle has come. -/
def autoLand (s : State) : Option Instr :=
  s.groups.findSome? fun g =>
    let cyc := s.cycle g.core
    (List.range g.lanes.length).findSome? fun i =>
      (g.lanes[i]?).bind fun t =>
        (t.flagged.find? fun f => f.vals.isSome && decide (f.hi ≤ cyc)).map fun f => .flaggedResultLand g.uid i f.id

def autoBarrier (s : State) : Option Instr :=
  (s.groups.find? fun g => g.lanes.any fun t => match t.sleep with
    | .barrier _ _ _ (some w) => decide (w ≤ s.cycle g.core)
    | .bwait _ _ _ (some w) => decide (w ≤ s.cycle g.core)
    | _ => false).map fun g => .barrierWake g.uid

def autoAccess (s : State) : Option Instr :=
  match s.gaccs.find? s.accReady with
  | some g => some (.globalAccessPerform g.id .plain)
  | none => (s.gaccs.find? (·.performed)).map fun g => .hostPortAcknowledge g.id

/-- Whether the origin unit of a core has an add to make now. -/
def refillDue (s : State) (core : Nat) (k : CoreSt) : Bool :=
  k.origin.any fun e => e.2.refill && !e.2.stopped && ((s.launch? e.1).any fun l => !s.originWaits l.fn core e.1)

/-- The events of a core's engines. -/
def autoCore (s : State) (core : Nat) (k : CoreSt) : Option Instr :=
  if s.refillDue core k then some (.originRefillDone core)
  else if (s.tileDue core).any fun o => !s.tileHeld core o then some (.tileOpComplete core)
  else if s.foldDue core then some (.tileFold core)
  else if (s.tileStartable core).isSome then some (.tileOpStart core)
  else
    match k.copy.find? fun c => c.code.isSome && c.mayRun s with
    | some c => some (.copyCommandFinish core c.id)
    | none =>
      if (s.startable core).any fun c => (s.flock? c.flock).isSome then some (.copyCommandStart core)
      else
        match k.copy.find? fun c =>
            s.routineAtEnd core c.id && !c.asleep && !loadedRoutine c && !s.routineHeld core c with
        | some c => some (.routineReturn core c.id 0 [])
        | none =>
          match k.copy.find? fun c => s.routineStalls core c && c.mayRun s with
          | some c => some (.routineWatchdog core c.id)
          | none => (k.copy.find? fun c => s.collLate core c).map fun c => .collectiveTimeout core c.id

/-- The events of collectives that are switched out (R219): one starts, ends or finishes where it is. -/
def autoAway (s : State) : Option Instr :=
  s.contexts.findSome? fun x => x.cores.findSome? fun e =>
    match e.2.copy.find? fun c => c.code.isSome && c.mayRun s with
    | some c => some (.copyCommandFinish e.1 c.id)
    | none =>
      if (s.startAway e.1).isSome && (s.startable e.1).isNone then some (.copyCommandStart e.1)
      else (e.2.copy.find? fun c => s.collLate e.1 c).map fun c => .collectiveTimeout e.1 c.id

def autoArray (s : State) (p : Nat) : Option Instr :=
  match s.arrayDue p with
  | some r => some (.aaCommandComplete p r.cmd.id)
  | none => if (s.arrayNext p).any fun c => !s.serveHeld p c then some (.aaServe p) else none

/-- The cores on which a pen may resume a tile: those with a flock that has pens. -/
def penCores (s : State) : List Nat := ((s.flocks.filter fun f => !f.pens.isEmpty).map (·.core)).eraseDups

def autoPen (s : State) : Option Instr :=
  (s.penCores.find? fun c => (s.nextResume c).isSome).map fun c => .penResume c

def autoSealOf (s : State) : Option Instr :=
  s.groups.findSome? fun g =>
    (((List.range g.lanes.length).zip g.lanes).find? fun p =>
      decide (p.2.batch.count ≠ 0 ∧ p.2.count .copy < 63) && s.atLeave g p.1 p.2).map fun p => .autoSeal g.uid p.1

/-! The shepherd. -/

/-- The event that starts a packet of a type. -/
def packetEvent (fn : BitVec 4) (q : BitVec 5) : Nat → Instr
  | 1 => .packetLaunch fn q
  | 2 => .packetCopy fn q
  | 3 => .packetBarrier fn q
  | 4 => .packetSignal fn q
  | 5 => .packetWaitsig fn q
  | 6 => .packetTraceStart fn q
  | 7 => .packetTraceStop fn q
  | 8 => .packetCodesync fn q
  | _ => .packetNop fn q

/-- The event that a queue's head packet is due, with its queue's priority. -/
def headDue (s : State) (fn q : Nat) : Option (Nat × Instr) :=
  let f := BitVec.ofNat 4 fn
  let n := BitVec.ofNat 5 q
  match (s.headOf fn q).1 with
  | .none_ =>
    (s.queue fn q).wait.bind fun w =>
      if (s.placeable w.wid).isSome then some ((((s.readQcb fn q).1.map (·.prio)).getD 0), .launchPlace w.wid) else none
  | .memory _ => some (8, .packetNop f n)
  | .packet p _ prio =>
    if p.waits && !s.prevDone fn q then none
    else if p.type = 6 ∧ fn = 0 ∧ s.trace.window.isSome = true then none
    else if p.type = 7 ∧ fn = 0 ∧ s.windowMoves = true then none
    else if p.type = 5 then
      match (s.queue fn q).polled with
      | none => some (prio, .packetWaitsig f n)
      | some t => if t ≤ s.timestamp 8 then some (prio, .waitsigPoll f n) else none
    else some (prio, packetEvent f n p.type)

/-- A function's next packet: the highest priority first, queues of one priority round robin (R299). -/
def packetDue (s : State) (fn : Nat) : Option Instr :=
  let last := (AL.find? s.shep.served fn).getD 31
  let heads := (s.shep.queues.filter fun e => decide (e.1 / 32 = fn)).filterMap fun e =>
    (s.headDue fn (e.1 % 32)).map fun h => ([8 - h.1, (e.1 % 32 + 31 - last) % 32], h.2)
  ((sortBy (fun a b : List Nat × Instr => lexLt a.1 b.1) heads).head?).map (·.2)

/-- A packet whose operation took time and is over. -/
def workDue (s : State) : Option Instr :=
  s.shep.queues.findSome? fun e =>
    (e.2.work.find? fun w => match w.2 with
      | .copy => true
      | .traceStart => !s.openStreams.windowMoves
      | .traceStop => s.traceFinish.trace.window.isNone).map fun w =>
        .packetComplete (BitVec.ofNat 4 (e.1 / 32)) (BitVec.ofNat 5 (e.1 % 32)) w.1

/-- The launches that end, or one past step 1 of R304 that goes on: under replacement microcode in a slice that ends (R311). -/
def launchDue (s : State) : Option Instr :=
  match s.launches.find? s.endable with
  | some l => some (.launchEnd l.uid)
  | none =>
    match s.launches.find? fun l => s.strandable l && (l.strandedAt.any fun t => decide (t + 10000 ≤ s.timestamp 8)) with
    | some l => some (.launchStranded l.uid)
    | none =>
      s.shep.queues.findSome? fun e =>
        e.2.wait.bind fun w =>
          if w.claim.isSome && (!s.shep.custom || (s.part w.part).stop.isSome) &&
              (s.placeable w.wid).isSome then some (.launchPlace w.wid) else none

/-- What a partition's slice is due (R310, R311). -/
def sliceDue (s : State) (p : Nat) : Option Instr :=
  let n := BitVec.ofNat 2 p
  let x := s.part p
  if s.deadlineDue p then some (.stopDeadline n)
  else if x.saving then some (.saveEngineDone n)
  else if (s.toRestore p).any fun c => s.restorable p c 0 0 then some (.contextRestore n 0 0)
  else if s.shep.custom then none
  else if s.swapDue p then some (.partitionSwap n)
  else if (s.cutDue p).isSome then some (.priorityCut n)
  else if s.sliceOver p && (s.nextEntry p).isSome then some (.sliceEnd n)
  else none

def autoShep (s : State) : Option Instr :=
  if !s.ready then none
  else
    match s.workDue with
    | some i => some i
    | none =>
      match s.launchDue with
      | some i => some i
      | none =>
        match (List.range 4).findSome? s.sliceDue with
        | some i => some i
        | none =>
          if s.shep.custom then none
          else (((s.shep.queues.map fun e => e.1 / 32).eraseDups).findSome? s.packetDue)

/-! Memory, trace, loads. -/

def autoDevice (s : State) : Option Instr :=
  if s.shep.mcstat = .busy then some (.imageLoadDone false)
  else if s.shep.rtstat = .busy then some (.imageLoadDone true)
  else
    match List.find? (fun e : Nat × FnMem => s.invalReady e.1) s.fnMem with
    | some e => some (.invalidationDone (BitVec.ofNat 4 e.1))
    | none =>
        s.launches.findSome? fun l =>
          if l.rec_.replay then (List.find? (fun e : Nat × StationLog => s.gateExpired l.uid e.1) l.logs).map fun e => .replayGateTimeout l.uid e.1
          else none

/-- A thread that has waited 4,096 cycles for its word (R85). -/
def autoForce (s : State) : Option Instr :=
  let old := s.groups.filter fun g => g.lanes.any fun t => t.readySince.any fun c => decide (c + t.passed + 4096 ≤ s.cycle g.core)
  (old.find? fun g => (s.toForce g.core g.port).isSome).map fun g => .forcedIssue g.core g.port

/-- The event that is due next, none where nothing happens before a port is served or time goes on. -/
def nextAuto (s : State) : Option Instr :=
  if s.mgmt.dead then none
  else if s.startLate then some .startTimeout
  else
    match (s.tickDue.map Instr.traceTick).orElse fun _ => s.autoLand with
    | some i => some i
    | none =>
      match s.autoBarrier with
      | some i => some i
      | none =>
        match s.autoAccess with
        | some i => some i
        | none =>
          match s.cores.findSome? fun e => s.autoCore e.1 e.2 with
          | some i => some i
          | none =>
            match s.arrays.findSome? fun e => s.autoArray e.1 with
            | some i => some i
            | none =>
              match s.autoAway.orElse fun _ => s.autoPen with
              | some i => some i
              | none =>
                match s.autoSealOf with
                | some i => some i
                | none =>
                  match s.autoShep with
                  | some i => some i
                  | none =>
                    match s.autoDevice with
                    | some i => some i
                    | none => s.autoForce

/-! A step. -/

/-- The parity of a register word of a thread is upset (R100). -/
def upset (s : State) (g lane : Nat) (r : Reg) (inTag copied : Bool) : State :=
  if heldReg r then
    s.modThread ⟨g, lane⟩ fun t => { t with parity := t.parity.filter (fun p => !decide (p.1 = r)) ++ [(r, inTag, copied)] }
  else s

/-- An error comes to lie in a line of bonded DRAM or of usable CXL memory, where none lies (R352, R353). -/
def lineError (s : State) (pa : Nat) (e : LineErr) : State :=
  let cxl := decide (cxlBase ≤ pa ∧ pa < cxlBase + s.pfMem.cxlu.toNat)
  if (decide (pa < 2 ^ 38) && !decide (e = .integrity) || cxl) && !(s.latent.any fun x => decide (x.1 = pa / 64)) then
    { s with latent := s.latent ++ [(pa / 64, e)] }
  else s

/-- Whether an event is of the management core, the host ports, the links or the supply, which a trip does not halt (R372). -/
def outlivesTrip : Instr → Bool
  | .registerWrite .. | .coldReset .. | .mgctlClrfail .. | .getVersion .. | .getCapabilities .. | .negotiateAlgorithms ..
  | .getDigests .. | .getCertificate .. | .challenge .. | .getMeasurements .. | .keyExchange .. | .finish .. | .endSession ..
  | .ideKm .. | .ideIntegrityFail .. | .soistlinkAuthFail .. | .soistlinkRekey .. | .soistlinkLinkFailure .. | .semRead ..
  | .semWrite .. | .portmapWrite .. | .functionLevelReset .. | .portLinkReset .. | .supplyDroop .. | .supplyRecovery ..
  | .thermalThrottle .. | .thermalThrottleEnd .. | .thermalTrip .. => true
  | _ => false

/-- What the inbox gives the machine to do. -/
def takeInput (ex : Instr → State → Host.Outcome State Fault Refusal) (s : State) (x : Input) :
    Host.Outcome State Fault Refusal :=
  match x with
  | .event i => if s.mgmt.dead && !outlivesTrip i then .next s else ex i s
  | .tick => .next s.tickNow
  | .copyProgress core id n => .next (s.copyAdvance core id n)
  | .copyAhead core id i => .next (s.copyAhead core id i)
  | .transform core id u => .next (s.transformRun core id u)
  | .partnerJoin cid mask rank op fmt count root data => .next (s.partnerJoin cid mask rank op fmt count root data)
  | .upset g lane r inTag copied => .next (s.upset g lane r inTag copied)
  | .lineError pa e => .next (s.lineError pa e)
  | .collector stream full => .next (s.collector stream full)
  | .junction tj => .next (s.junction tj)

/-- One step, the instructions' meanings given: the head of the inbox, else the event that is due, else a port that has
not been served in this cycle, else a tick (assumption log 2). -/
def stepWith (ex : Instr → State → Host.Outcome State Fault Refusal) (s : State) : Host.Outcome State Fault Refusal :=
  match s.inbox with
  | x :: rest => takeInput ex { s with inbox := rest } x
  | [] =>
    match s.nextAuto with
    | some i => ex i s
    | none =>
      match s.nextPort with
      | some (core, port) => s.servePort ex core port
      | none => .next s.tickNow

end State

end Sys2Proof.Machine
end

