-- ==== Sys2Proof/Machine/Dispatch.lean ====
section
/-!
DEFINITION. The meaning of every instruction and event: one arm for each constructor of `Instr`.
-/
namespace Sys2Proof.Machine

def exec (i : Instr) (s : State) : Host.Outcome State Fault Refusal :=
  match i with
  | .nop => Sys2Proof.Machine.execNop s
  | .bra off => Sys2Proof.Machine.execBra off s
  | .call off => Sys2Proof.Machine.execCall off s
  | .ret => Sys2Proof.Machine.execRet s
  | .jmpi a => Sys2Proof.Machine.execJmpi a s
  | .calli a => Sys2Proof.Machine.execCalli a s
  | .exit => Sys2Proof.Machine.execExit s
  | .barf n => Sys2Proof.Machine.execBarf n s
  | .barp n => Sys2Proof.Machine.execBarp n s
  | .arrive d n pad => Sys2Proof.Machine.execArrive d n pad s
  | .bwait a n pad => Sys2Proof.Machine.execBwait a n pad s
  | .barrierWake g => Sys2Proof.Machine.execBarrierWake g s
  | .yield => Sys2Proof.Machine.execYield s
  | .safept off => Sys2Proof.Machine.execSafept off s
  | .trap imm => Sys2Proof.Machine.execTrap imm s
  | .tret => Sys2Proof.Machine.execTret s
  | .tren => Sys2Proof.Machine.execTren s
  | .brk n => Sys2Proof.Machine.execBrk n s
  | .isync => Sys2Proof.Machine.execIsync s
  | .tmark a imm => Sys2Proof.Machine.execTmark a imm s
  | .mfs d num => Sys2Proof.Machine.execMfs d num s
  | .mts num a => Sys2Proof.Machine.execMts num a s
  | .fence kind scope mask => Sys2Proof.Machine.execFence kind scope mask s
  | .waitc cls n => Sys2Proof.Machine.execWaitc cls n s
  | .waita ne d a b => Sys2Proof.Machine.execWaita ne d a b s
  | .qenter => Sys2Proof.Machine.execQenter s
  | .qleave => Sys2Proof.Machine.execQleave s
  | .forcedIssue core port => Sys2Proof.Machine.execForcedIssue core port s
  | .flaggedResultLand g lane id => Sys2Proof.Machine.execFlaggedResultLand g lane id s
  | .iadd d a b ov => Sys2Proof.Machine.execIadd d a b ov s
  | .isub d a b ov => Sys2Proof.Machine.execIsub d a b ov s
  | .imul d a b ov => Sys2Proof.Machine.execImul d a b ov s
  | .imulh d a b u => Sys2Proof.Machine.execImulh d a b u s
  | .iadds d a b u => Sys2Proof.Machine.execIadds d a b u s
  | .imin d a b u => Sys2Proof.Machine.execImin d a b u s
  | .imax d a b u => Sys2Proof.Machine.execImax d a b u s
  | .iabs d a ov => Sys2Proof.Machine.execIabs d a ov s
  | .ineg d a ov => Sys2Proof.Machine.execIneg d a ov s
  | .and d a b => Sys2Proof.Machine.execAnd d a b s
  | .or d a b => Sys2Proof.Machine.execOr d a b s
  | .xor d a b => Sys2Proof.Machine.execXor d a b s
  | .andn d a b => Sys2Proof.Machine.execAndn d a b s
  | .popc d a => Sys2Proof.Machine.execPopc d a s
  | .clz d a => Sys2Proof.Machine.execClz d a s
  | .brev d a => Sys2Proof.Machine.execBrev d a s
  | .shl d a n => Sys2Proof.Machine.execShl d a n s
  | .shr d a n => Sys2Proof.Machine.execShr d a n s
  | .sar d a n => Sys2Proof.Machine.execSar d a n s
  | .rotl d a n => Sys2Proof.Machine.execRotl d a n s
  | .imad d a b c ov => Sys2Proof.Machine.execImad d a b c ov s
  | .iadd3 d a b c ov => Sys2Proof.Machine.execIadd3 d a b c ov s
  | .funnel d a b c right => Sys2Proof.Machine.execFunnel d a b c right s
  | .bfx d a b u => Sys2Proof.Machine.execBfx d a b u s
  | .bfi d a b c => Sys2Proof.Machine.execBfi d a b c s
  | .isetp cc kd a b kc => Sys2Proof.Machine.execIsetp cc kd a b kc s
  | .sel d a b kc => Sys2Proof.Machine.execSel d a b kc s
  | .mov d a => Sys2Proof.Machine.execMov d a s
  | .movi d imm sg => Sys2Proof.Machine.execMovi d imm sg s
  | .movhi d a imm => Sys2Proof.Machine.execMovhi d a imm s
  | .ldk d off count => Sys2Proof.Machine.execLdk d off count s
  | .add64 d a b => Sys2Proof.Machine.execAdd64 d a b s
  | .sub64 d a b => Sys2Proof.Machine.execSub64 d a b s
  | .mad64w d a b c sg => Sys2Proof.Machine.execMad64w d a b c sg s
  | .lea d a b sh sg => Sys2Proof.Machine.execLea d a b sh sg s
  | .iadd2 d a b => Sys2Proof.Machine.execIadd2 d a b s
  | .iadd2s d a b => Sys2Proof.Machine.execIadd2s d a b s
  | .imax2 d a b => Sys2Proof.Machine.execImax2 d a b s
  | .idot4 d a b c u => Sys2Proof.Machine.execIdot4 d a b c u s
  | .prmt d a b c => Sys2Proof.Machine.execPrmt d a b c s
  | .widen d a op => Sys2Proof.Machine.execWiden d a op s
  | .wadd d a b u => Sys2Proof.Machine.execWadd d a b u s
  | .idiv op d a b f => Sys2Proof.Machine.execIdiv op d a b f s
  | .fadd d a b => Sys2Proof.Machine.execFadd d a b s
  | .fsub d a b => Sys2Proof.Machine.execFsub d a b s
  | .fmul d a b => Sys2Proof.Machine.execFmul d a b s
  | .ffma d a b c => Sys2Proof.Machine.execFfma d a b c s
  | .fmin d a b => Sys2Proof.Machine.execFmin d a b s
  | .fmax d a b => Sys2Proof.Machine.execFmax d a b s
  | .fsetp cc kd a b kc => Sys2Proof.Machine.execFsetp cc kd a b kc s
  | .fclass d a => Sys2Proof.Machine.execFclass d a s
  | .frnd dir d a => Sys2Proof.Machine.execFrnd dir d a s
  | .frcp d a f => Sys2Proof.Machine.execFrcp d a f s
  | .frsq d a f => Sys2Proof.Machine.execFrsq d a f s
  | .fsqrt d a f => Sys2Proof.Machine.execFsqrt d a f s
  | .fdiv d a b f => Sys2Proof.Machine.execFdiv d a b f s
  | .fexp2 d a f => Sys2Proof.Machine.execFexp2 d a f s
  | .flog2 d a f => Sys2Proof.Machine.execFlog2 d a f s
  | .fsin d a f => Sys2Proof.Machine.execFsin d a f s
  | .fcos d a f => Sys2Proof.Machine.execFcos d a f s
  | .ftanh d a f => Sys2Proof.Machine.execFtanh d a f s
  | .hadd2 d a b bf => Sys2Proof.Machine.execHadd2 d a b bf s
  | .hsub2 d a b bf => Sys2Proof.Machine.execHsub2 d a b bf s
  | .hmul2 d a b bf => Sys2Proof.Machine.execHmul2 d a b bf s
  | .hfma2 d a b c bf => Sys2Proof.Machine.execHfma2 d a b c bf s
  | .hmin2 d a b bf => Sys2Proof.Machine.execHmin2 d a b bf s
  | .hmax2 d a b bf => Sys2Proof.Machine.execHmax2 d a b bf s
  | .hsetp2 cc kd0 kd1 a b kc bf => Sys2Proof.Machine.execHsetp2 cc kd0 kd1 a b kc bf s
  | .hdot2 d a b c bf => Sys2Proof.Machine.execHdot2 d a b c bf s
  | .fdot4q d a b slot => Sys2Proof.Machine.execFdot4q d a b slot s
  | .lutdot d a b slot bf => Sys2Proof.Machine.execLutdot d a b slot bf s
  | .cvtf op d a h => Sys2Proof.Machine.execCvtf op d a h s
  | .cvti op d a => Sys2Proof.Machine.execCvti op d a s
  | .cvtfi u d a => Sys2Proof.Machine.execCvtfi u d a s
  | .pack d a slot => Sys2Proof.Machine.execPack d a slot s
  | .unpack d a slot => Sys2Proof.Machine.execUnpack d a slot s
  | .quant d a b slot => Sys2Proof.Machine.execQuant d a b slot s
  | .dequant d a b slot => Sys2Proof.Machine.execDequant d a b slot s
  | .cbdec d a b c f16 => Sys2Proof.Machine.execCbdec d a b c f16 s
  | .tagget d a => Sys2Proof.Machine.execTagget d a s
  | .tagset op d a => Sys2Proof.Machine.execTagset op d a s
  | .tagbirth d a => Sys2Proof.Machine.execTagbirth d a s
  | .originRefillDone core => Sys2Proof.Machine.execOriginRefillDone core s
  | .origin d a f => Sys2Proof.Machine.execOrigin d a f s
  | .shfl mode d a b w => Sys2Proof.Machine.execShfl mode d a b w s
  | .qswap mode d a => Sys2Proof.Machine.execQswap mode d a s
  | .qbcast d a n => Sys2Proof.Machine.execQbcast d a n s
  | .gred op d a => Sys2Proof.Machine.execGred op d a s
  | .gscan op d a => Sys2Proof.Machine.execGscan op d a s
  | .vote all kd ka => Sys2Proof.Machine.execVote all kd ka s
  | .voteBallot d ka => Sys2Proof.Machine.execVoteBallot d ka s
  | .kop op kd ka kb => Sys2Proof.Machine.execKop op kd ka kb s
  | .kmovGet d => Sys2Proof.Machine.execKmovGet d s
  | .kmovSet a => Sys2Proof.Machine.execKmovSet a s
  | .elect kd => Sys2Proof.Machine.execElect kd s
  | .matchLanes d a => Sys2Proof.Machine.execMatch d a s
  | .ld w d a off => Sys2Proof.Machine.execLd w d a off s
  | .st w d a off => Sys2Proof.Machine.execSt w d a off s
  | .ldp w d a off f => Sys2Proof.Machine.execLdp w d a off f s
  | .stp w d a off => Sys2Proof.Machine.execStp w d a off s
  | .ldt d a off => Sys2Proof.Machine.execLdt d a off s
  | .atom op d a b c => Sys2Proof.Machine.execAtom op d a b c s
  | .atomp op d a b f => Sys2Proof.Machine.execAtomp op d a b f s
  | .celladd a b l => Sys2Proof.Machine.execCelladd a b l s
  | .cellrdF32 d a l => Sys2Proof.Machine.execCellrdF32 d a l s
  | .cellrdRaw d a => Sys2Proof.Machine.execCellrdRaw d a s
  | .cellclr a => Sys2Proof.Machine.execCellclr a s
  | .gld w d a f => Sys2Proof.Machine.execGld w d a f s
  | .gst w a b => Sys2Proof.Machine.execGst w a b s
  | .gatom op d a b f => Sys2Proof.Machine.execGatom op d a b f s
  | .gcelladd a b l => Sys2Proof.Machine.execGcelladd a b l s
  | .globalAccessPerform id how => Sys2Proof.Machine.execGlobalAccessPerform id how s
  | .hostPortAcknowledge id => Sys2Proof.Machine.execHostPortAcknowledge id s
  | .cpy a scope => Sys2Proof.Machine.execCpy a scope s
  | .cpyx a scope => Sys2Proof.Machine.execCpyx a scope s
  | .cpyi d a b scope => Sys2Proof.Machine.execCpyi d a b scope s
  | .seal => Sys2Proof.Machine.execSeal s
  | .autoSeal g lane => Sys2Proof.Machine.execAutoSeal g lane s
  | .cbcast d a b c => Sys2Proof.Machine.execCbcast d a b c s
  | .ccoll op a scope => Sys2Proof.Machine.execCcoll op a scope s
  | .cpyq d sel f => Sys2Proof.Machine.execCpyq d sel f s
  | .copyCommandStart core => Sys2Proof.Machine.execCopyCommandStart core s
  | .copyCommandFinish core id => Sys2Proof.Machine.execCopyCommandFinish core id s
  | .collectiveTimeout core id => Sys2Proof.Machine.execCollectiveTimeout core id s
  | .routineRestartPoint core id => Sys2Proof.Machine.execRoutineRestartPoint core id s
  | .routineSleep core id => Sys2Proof.Machine.execRoutineSleep core id s
  | .routineReturn core id status out => Sys2Proof.Machine.execRoutineReturn core id status out s
  | .routineWatchdog core id => Sys2Proof.Machine.execRoutineWatchdog core id s
  | .trsv kd wait => Sys2Proof.Machine.execTrsv kd wait s
  | .trel => Sys2Proof.Machine.execTrel s
  | .tmma td a b sa sb z => Sys2Proof.Machine.execTmma td a b sa sb z s
  | .tmmas td a b sa sb z => Sys2Proof.Machine.execTmmas td a b sa sb z s
  | .tmmal td a tt slot z => Sys2Proof.Machine.execTmmal td a tt slot z s
  | .tlutb tt a h slot bf => Sys2Proof.Machine.execTlutb tt a h slot bf s
  | .tzero td => Sys2Proof.Machine.execTzero td s
  | .taccld td a t => Sys2Proof.Machine.execTaccld td a t s
  | .taccst op td a slot => Sys2Proof.Machine.execTaccst op td a slot s
  | .ttrn a b slot => Sys2Proof.Machine.execTtrn a b slot s
  | .taddw td a slot => Sys2Proof.Machine.execTaddw td a slot s
  | .tscan f32 td => Sys2Proof.Machine.execTscan f32 td s
  | .tscld sc a => Sys2Proof.Machine.execTscld sc a s
  | .tstat a => Sys2Proof.Machine.execTstat a s
  | .tileOpStart core => Sys2Proof.Machine.execTileOpStart core s
  | .tileOpComplete core => Sys2Proof.Machine.execTileOpComplete core s
  | .tileFold core => Sys2Proof.Machine.execTileFold core s
  | .pencfg p a => Sys2Proof.Machine.execPencfg p a s
  | .suspend wait p a off => Sys2Proof.Machine.execSuspend wait p a off s
  | .penwakeMask a b => Sys2Proof.Machine.execPenwakeMask a b s
  | .penwakeWord p a => Sys2Proof.Machine.execPenwakeWord p a s
  | .penflush p bin => Sys2Proof.Machine.execPenflush p bin s
  | .penhold rel p a => Sys2Proof.Machine.execPenhold rel p a s
  | .penstat p a => Sys2Proof.Machine.execPenstat p a s
  | .pentile p a b => Sys2Proof.Machine.execPentile p a b s
  | .penResume core => Sys2Proof.Machine.execPenResume core s
  | .aacfg a => Sys2Proof.Machine.execAacfg a s
  | .aainf op a b => Sys2Proof.Machine.execAainf op a b s
  | .aatrn op a b => Sys2Proof.Machine.execAatrn op a b s
  | .aald a b => Sys2Proof.Machine.execAald a b s
  | .aast a b => Sys2Proof.Machine.execAast a b s
  | .aaq d f => Sys2Proof.Machine.execAaq d f s
  | .aaServe pad => Sys2Proof.Machine.execAaServe pad s
  | .aaCommandComplete pad id => Sys2Proof.Machine.execAaCommandComplete pad id s
  | .nopHalf => Sys2Proof.Machine.execNopHalf s
  | .iaddHalf d a => Sys2Proof.Machine.execIaddHalf d a s
  | .isubHalf d a => Sys2Proof.Machine.execIsubHalf d a s
  | .imulHalf d a => Sys2Proof.Machine.execImulHalf d a s
  | .iminHalf d a => Sys2Proof.Machine.execIminHalf d a s
  | .imaxHalf d a => Sys2Proof.Machine.execImaxHalf d a s
  | .andHalf d a => Sys2Proof.Machine.execAndHalf d a s
  | .orHalf d a => Sys2Proof.Machine.execOrHalf d a s
  | .xorHalf d a => Sys2Proof.Machine.execXorHalf d a s
  | .shlHalf d a => Sys2Proof.Machine.execShlHalf d a s
  | .shrHalf d a => Sys2Proof.Machine.execShrHalf d a s
  | .sarHalf d a => Sys2Proof.Machine.execSarHalf d a s
  | .movHalf d a => Sys2Proof.Machine.execMovHalf d a s
  | .faddHalf d a => Sys2Proof.Machine.execFaddHalf d a s
  | .fsubHalf d a => Sys2Proof.Machine.execFsubHalf d a s
  | .fmulHalf d a => Sys2Proof.Machine.execFmulHalf d a s
  | .fminHalf d a => Sys2Proof.Machine.execFminHalf d a s
  | .fmaxHalf d a => Sys2Proof.Machine.execFmaxHalf d a s
  | .hadd2Half d a => Sys2Proof.Machine.execHadd2Half d a s
  | .hmul2Half d a => Sys2Proof.Machine.execHmul2Half d a s
  | .doorbellKick fn q => Sys2Proof.Machine.execDoorbellKick fn q s
  | .doorbellResume fn q => Sys2Proof.Machine.execDoorbellResume fn q s
  | .doorbellAbort fn q => Sys2Proof.Machine.execDoorbellAbort fn q s
  | .packetNop fn q => Sys2Proof.Machine.execPacketNop fn q s
  | .packetLaunch fn q => Sys2Proof.Machine.execPacketLaunch fn q s
  | .packetCopy fn q => Sys2Proof.Machine.execPacketCopy fn q s
  | .packetBarrier fn q => Sys2Proof.Machine.execPacketBarrier fn q s
  | .packetSignal fn q => Sys2Proof.Machine.execPacketSignal fn q s
  | .packetWaitsig fn q => Sys2Proof.Machine.execPacketWaitsig fn q s
  | .waitsigPoll fn q => Sys2Proof.Machine.execWaitsigPoll fn q s
  | .packetTraceStart fn q => Sys2Proof.Machine.execPacketTraceStart fn q s
  | .packetTraceStop fn q => Sys2Proof.Machine.execPacketTraceStop fn q s
  | .packetCodesync fn q => Sys2Proof.Machine.execPacketCodesync fn q s
  | .packetComplete fn q seq => Sys2Proof.Machine.execPacketComplete fn q seq s
  | .launchPlace wid => Sys2Proof.Machine.execLaunchPlace wid s
  | .routingCheckTimeout wid => Sys2Proof.Machine.execRoutingCheckTimeout wid s
  | .launchEnd lid => Sys2Proof.Machine.execLaunchEnd lid s
  | .launchStranded lid => Sys2Proof.Machine.execLaunchStranded lid s
  | .sliceEnd p => Sys2Proof.Machine.execSliceEnd p s
  | .priorityCut p => Sys2Proof.Machine.execPriorityCut p s
  | .stopDeadline p => Sys2Proof.Machine.execStopDeadline p s
  | .partitionSwap p => Sys2Proof.Machine.execPartitionSwap p s
  | .saveEngineDone p => Sys2Proof.Machine.execSaveEngineDone p s
  | .contextRestore p dx dy => Sys2Proof.Machine.execContextRestore p dx dy s
  | .imageLoadDone rt => Sys2Proof.Machine.execImageLoadDone rt s
  | .invalidationDone fn => Sys2Proof.Machine.execInvalidationDone fn s
  | .replayGateTimeout lid station => Sys2Proof.Machine.execReplayGateTimeout lid station s
  | .traceTick n => Sys2Proof.Machine.execTraceTick n s
  | .qpendRead => Sys2Proof.Machine.execQpendRead s
  | .hartFetch fn addr len => Sys2Proof.Machine.execHartFetch fn addr len s
  | .hartCheck fn => Sys2Proof.Machine.execHartCheck fn s
  | .hartClaim fn wid x y release => Sys2Proof.Machine.execHartClaim fn wid x y release s
  | .hartStart fn wid => Sys2Proof.Machine.execHartStart fn wid s
  | .hartStop fn p => Sys2Proof.Machine.execHartStop fn p s
  | .hartSwap fn p => Sys2Proof.Machine.execHartSwap fn p s
  | .hartDrec fn kind reason rule detail => Sys2Proof.Machine.execHartDrec fn kind reason rule detail s
  | .qcbWrite fn q hi v => Sys2Proof.Machine.execQcbWrite fn q hi v s
  | .partWrite p hi v => Sys2Proof.Machine.execPartWrite p hi v s
  | .mcctlLoad v => Sys2Proof.Machine.execMcctlLoad v s
  | .rtctlLoad v => Sys2Proof.Machine.execRtctlLoad v s
  | .registerWrite fn off v => Sys2Proof.Machine.execRegisterWrite fn off v s
  | .invctl fn v => Sys2Proof.Machine.execInvctl fn v s
  | .fqrespGrant fn seq => Sys2Proof.Machine.execFqrespGrant fn seq s
  | .fqrespRefuse fn seq => Sys2Proof.Machine.execFqrespRefuse fn seq s
  | .fqtailWrite fn v => Sys2Proof.Machine.execFqtailWrite fn v s
  | .retire v => Sys2Proof.Machine.execRetire v s
  | .rangeFilterWrite f n limit hi v => Sys2Proof.Machine.execRangeFilterWrite f n limit hi v s
  | .hostBar2Read fn off len => Sys2Proof.Machine.execHostBar2Read fn off len s
  | .hostBar2Write fn off data => Sys2Proof.Machine.execHostBar2Write fn off data s
  | .scrubSweep region unit corrected bad => Sys2Proof.Machine.execScrubSweep region unit corrected bad s
  | .traceRetry stream => Sys2Proof.Machine.execTraceRetry stream s
  | .skewMeasure die offset => Sys2Proof.Machine.execSkewMeasure die offset s
  | .coldReset input => Sys2Proof.Machine.execColdReset input s
  | .startTimeout => Sys2Proof.Machine.execStartTimeout s
  | .mgctlClrfail v => Sys2Proof.Machine.execMgctlClrfail v s
  | .getVersion port => Sys2Proof.Machine.execGetVersion port s
  | .getCapabilities port body => Sys2Proof.Machine.execGetCapabilities port body s
  | .negotiateAlgorithms port body => Sys2Proof.Machine.execNegotiateAlgorithms port body s
  | .getDigests port => Sys2Proof.Machine.execGetDigests port s
  | .getCertificate port body => Sys2Proof.Machine.execGetCertificate port body s
  | .challenge port body => Sys2Proof.Machine.execChallenge port body s
  | .getMeasurements port block body => Sys2Proof.Machine.execGetMeasurements port block body s
  | .keyExchange port body => Sys2Proof.Machine.execKeyExchange port body s
  | .finish port body => Sys2Proof.Machine.execFinish port body s
  | .endSession port => Sys2Proof.Machine.execEndSession port s
  | .ideKm port stream key => Sys2Proof.Machine.execIdeKm port stream key s
  | .ideIntegrityFail port stream => Sys2Proof.Machine.execIdeIntegrityFail port stream s
  | .soistlinkAuthFail link => Sys2Proof.Machine.execSoistlinkAuthFail link s
  | .soistlinkRekey link key => Sys2Proof.Machine.execSoistlinkRekey link key s
  | .semRead port n => Sys2Proof.Machine.execSemRead port n s
  | .semWrite port n v => Sys2Proof.Machine.execSemWrite port n v s
  | .portmapWrite v => Sys2Proof.Machine.execPortmapWrite v s
  | .functionLevelReset fn => Sys2Proof.Machine.execFunctionLevelReset fn s
  | .portLinkReset port => Sys2Proof.Machine.execPortLinkReset port s
  | .supplyDroop die k => Sys2Proof.Machine.execSupplyDroop die k s
  | .thermalThrottle tj => Sys2Proof.Machine.execThermalThrottle tj s
  | .thermalTrip tj => Sys2Proof.Machine.execThermalTrip tj s
  | .soistlinkInboundAccess pa write len => Sys2Proof.Machine.execSoistlinkInboundAccess pa write len s
  | .soistlinkLinkFailure link => Sys2Proof.Machine.execSoistlinkLinkFailure link s
  | .supplyRecovery die => Sys2Proof.Machine.execSupplyRecovery die s
  | .thermalThrottleEnd tj => Sys2Proof.Machine.execThermalThrottleEnd tj s

end Sys2Proof.Machine
end

