-- ==== Sys2Proof/Machine/Step.lean ====
section
/-!
DEFINITION. One step of the machine, and the placing of one word where the next step issues it.
-/
namespace Sys2Proof.Machine

/-- One step: what the inbox gives, the device's next event, the packet of a port, or a tick of the clock. -/
def step (s : State) : Host.Outcome State Fault Refusal := s.stepWith exec

/-- The record of a launch of one word at byte address 0x20000, on one core with one flock of one group (assumption log 17). -/
def LaunchRec.oneWord : LaunchRec :=
  { code := 0x20000, size := 1, handler := 0xFFFFFFFF, w := 1, h := 1, x0 := 0, y0 := 0, regs := 240, groups := 1, pens := 0,
    flocks := 1, scratch := 4096, tlaunch := false, tmark := false, mode := 0, anyplace := false, pad := false, tagmode := 0,
    bell := 0, slots := List.replicate 8 0, wrbase := 0, wrcount := 0, ranges := [], orign := 0, origbase := 0,
    argbase := 0, arglen := 0, sigaddr := 0, sigval := 0, logbase := 0, loglen := 0, faultrec := 0 }

/-- A state with one word placed for the next step (assumption log 17): a launch of function 0 whose code is that word, its
page tables and range filter, and a group of eight threads that stand at it, ready. -/
def State.withFetchWord (s : State) (nbits w : Nat) : State :=
  let r := LaunchRec.oneWord
  let l : Launch :=
    { uid := 1, id := 0, fn := 0, q := 0, seq := 0, part := 0, rec_ := r, x0 := 0, y0 := 0, running := true, ending := none,
      fatal := none, started := s.tick, strandedAt := none, padBars := [], logs := [], replayTime := 0, drawn := [] }
  let f : Flock :=
    { uid := 2, launch := 1, core := 0, slot := 0, idx := 0, size := r.scratch, mem := [], tags := [], barriers := [],
      pens := [], resumed := 0 }
  let g : Group :=
    { uid := 3, launch := 1, core := 0, port := 0, slot := 0, gidx := 0, logical := 0,
      lanes := (List.range 8).map fun i => Thread.created r (BitVec.ofNat 32 i) (s.cycle 0), q0 := none, q1 := none }
  let mem := Mem.write64 (Mem.write64 (Mem.write64 s.mem 0x10000 0x11001) 0x11000 0x1F) 0x20000 (tableWord nbits w)
  { s with
    launches := [l], flocks := [f], groups := [g], cores := [], contexts := [], scratch := [], gaccs := [], arrays := [],
    mem := mem, tlb := [], poison := [], retired := [], inbox := [], nextUid := 4, mgmt := { s.mgmt with dead := false },
    fnMem := AL.insert s.fnMem 0 { s.fnMemOf 0 with root := 0x10001 },
    pfMem := { s.pfMem with filters := AL.insert s.pfMem.filters 0 (1, 0x4000000000) } }

end Sys2Proof.Machine
end

