-- ==== Sys2Proof/Safety.lean ====
section
/-!
DEFINITION. The terms claims use: a thread that executes the word being issued, what a result puts in flight, what a run of
the machine is, the canonical forms a state keeps, and what counts as a safe state: no thread
stopped for good by a trap that no handler takes (R197), and no launch that ended with status FAULT.
-/
namespace Sys2Proof.Machine

/-- The states a run from reset comes to when the world may put any input in the inbox between two steps. -/
inductive Reachable : State → Prop where
  | reset : Reachable State.reset
  | step {s s' : State} : Reachable s → Sys2Proof.Machine.step s = .next s' → Reachable s'
  | input {s : State} (i : Input) : Reachable s → Reachable { s with inbox := s.inbox ++ [i] }

/-- The memory of the device is in its canonical form (assumption log 4). -/
def State.memWf (s : State) : Prop := Mem.wf s.mem = true

/-- Whether a thread has been stopped for good (R197). -/
def Thread.failed (t : Thread) : Bool := t.fatal.isSome

/-- No thread has been stopped for good and no launch has met a fatal trap. -/
def State.Safe (s : State) : Prop :=
  (∀ g ∈ s.groups, ∀ t ∈ g.lanes, t.failed = false) ∧ (∀ l ∈ s.launches, l.fatal = none)

/-! A thread and the word being issued. -/

/-- A thread executes the word being issued (R24, R92): the word is a full instruction, and the thread's lane is one of its
executing lanes, once. -/
structure Executes (s : State) (c : IssueCtx) (l : LaneRef) (t : Thread) : Prop where
  issuing : s.cur = some c
  full : c.half = .full
  lane : l ∈ c.lanes
  once : c.lanes.Nodup
  own : l.helper = false
  thread : s.thread? l.tid = some t

/-- A thread executes the word being issued and no other lane does. -/
structure ExecutesAlone (s : State) (c : IssueCtx) (l : LaneRef) (t : Thread) : Prop where
  issuing : s.cur = some c
  full : c.half = .full
  lanes : c.lanes = [l]
  own : l.helper = false
  thread : s.thread? l.tid = some t

/-- A result of a word: a register, its value, and how it gets its tag. -/
abbrev Result := Reg × W32 × TagWant

/-- The tag a result must have, none where it is born (R67, R71). -/
def TagWant.settled (mode : BitVec 2) : TagWant → Option Tag
  | .fixed t => some t
  | .born => none
  | .rule srcs doms raised => tagrule mode srcs doms raised

/-- Tags that results may take under a tag mode. -/
def tagsFor (mode : BitVec 2) (rs : List Result) (tags : List Tag) : Prop :=
  List.Forall₂ (fun (r : Result) g => ∀ h, TagWant.settled mode r.2.2 = some h → g = h) rs tags

/-- Results with their tags. -/
def tagged (rs : List Result) (tags : List Tag) : List (Reg × TW) :=
  (rs.zip tags).map fun p => (p.1.1, ⟨p.1.2.1, p.2⟩)

/-- The writes that results put in flight (R25, R98, R103): one for each register but zero, and, where the word's results go
to last, the last result there. -/
def landings (cyc seq : Nat) (toLast : Bool) (ws : List (Reg × TW)) : List Landing :=
  ((ws.filter fun w => decide (w.1 ≠ .zero)).map fun w => ⟨cyc, seq, .reg w.1, some w.2⟩) ++
    (match ws.getLast? with
     | some w => if toLast then [⟨cyc, seq, .reg .last, some w.2⟩] else []
     | none => [])

/-- The predicate writes that a word puts in flight; one to k0 is discarded (R99). -/
def predLandings (cyc seq : Nat) (ks : List (BitVec 3 × Bool)) : List Landing :=
  (ks.filter fun k => decide (k.1 ≠ 0)).map fun k => ⟨cyc, seq, .pred k.1, some ⟨if k.2 then 1 else 0, 0⟩⟩

/-- A thread after a word of fixed latency n that gave it results, predicates and exceptions: all else is as before. -/
def Thread.given (t : Thread) (c : IssueCtx) (n : Nat) (ws : List (Reg × TW)) (ks : List (BitVec 3 × Bool)) (e : Exc) :
    Thread :=
  { t with
    rf := { t.rf with pend := t.rf.pend ++ predLandings (c.cycle + n) c.seq ks ++ landings (c.cycle + n) c.seq true ws },
    sys := { t.sys with fsr := t.sys.fsr ||| e } }

/-- A thread after a word that gave it results under a flag, to land between two cycles (R15, R102). -/
def Thread.flaggedGiven (t : Thread) (c : IssueCtx) (f : Flag) (lo hi id : Nat) (ws : List (Reg × TW)) (e : Exc) : Thread :=
  { t with
    flags := (match f with
      | some n => t.flags ||| (1#12 <<< n.val)
      | none => t.flags),
    flagged := t.flagged ++
      [⟨id, f, c.seq, c.cycle + lo, c.cycle + hi, ws.map (·.1), some (ws.map (·.2)), false, none⟩],
    sys := { t.sys with fsr := t.sys.fsr ||| e } }

/-- An instruction completes for a thread with results, predicates and exceptions after n cycles: whenever the thread executes
it and none of the exceptions is enabled (R57, R58), there is a next state in which the thread has them in flight and nothing
else of it has changed. -/
def Gives (i : Instr) (s : State) (c : IssueCtx) (l : LaneRef) (t : Thread) (n : Nat) (rs : List Result)
    (ks : List (BitVec 3 × Bool)) (e : Exc) : Prop :=
  Executes s c l t → e &&& t.sys.fcr = 0 →
    ∃ s' tags, exec i s = .next s' ∧ tagsFor t.sys.tagmode rs tags ∧
      s'.thread? l.tid = some (t.given c n (tagged rs tags) ks e)

/-- An instruction completes for a thread with results under a flag. -/
def GivesFlagged (i : Instr) (s : State) (c : IssueCtx) (l : LaneRef) (t : Thread) (f : Flag) (lo hi : Nat)
    (rs : List Result) (e : Exc) : Prop :=
  Executes s c l t → e &&& t.sys.fcr = 0 →
    ∃ s' tags id, exec i s = .next s' ∧ tagsFor t.sys.tagmode rs tags ∧
      s'.thread? l.tid = some (t.flaggedGiven c f lo hi id (tagged rs tags) e)

/-- A thread executes one half of the word being issued (R33). -/
structure ExecutesHalf (s : State) (c : IssueCtx) (l : LaneRef) (t : Thread) : Prop where
  issuing : s.cur = some c
  half : c.half ≠ .full
  lane : l ∈ c.lanes
  once : c.lanes.Nodup
  own : l.helper = false
  thread : s.thread? l.tid = some t

/-- Whether a half's result goes to last as well: of a pair's two results last takes half B's, unless half B is NOP (R35). -/
def keepsLast (c : IssueCtx) : Bool := decide (c.half ≠ .a ∨ c.partner = some .nopHalf ∨ c.partner = none)

/-- A half completes for a thread with results after n cycles, whenever neither half of the word traps (R33, R194). -/
def HalfGives (i : Instr) (s : State) (c : IssueCtx) (l : LaneRef) (t : Thread) (n : Nat) (rs : List Result) (e : Exc) :
    Prop :=
  ExecutesHalf s c l t → s.partnerTraps c l = false → e &&& t.sys.fcr = 0 →
    ∃ s' tags, exec i s = .next s' ∧ tagsFor t.sys.tagmode rs tags ∧
      s'.thread? l.tid = some { t with
        rf := { t.rf with
          pend := t.rf.pend ++ landings (c.cycle + n) c.seq (keepsLast c) (tagged rs tags) }
        sys := { t.sys with fsr := t.sys.fsr ||| e } }

/-! Words that change a thread at once, and words that queue a scratchpad access. -/

/-- An instruction completes for a thread with the thread changed as given. -/
def Becomes (i : Instr) (s : State) (c : IssueCtx) (l : LaneRef) (t t' : Thread) : Prop :=
  Executes s c l t → ∃ s', exec i s = .next s' ∧ s'.thread? l.tid = some t'

/-- Where a local access of n bytes goes without a trap (R162): a flock's window has it, and it is aligned. -/
def LocalOk (s : State) (l : LaneRef) (f : Flock) (addr : W32) (n : Nat) : Prop :=
  s.flockOf? l.g = some f ∧ addr.toNat + n ≤ f.size ∧ addr.toNat % n = 0

/-- Where a paddock access of n bytes goes without a trap (R18, R162): the launch has paddocks, and the flock that the address
names, at the local address y, has it. -/
def PadOk (s : State) (c : IssueCtx) (l : LaneRef) (f : Flock) (addr : W32) (y n : Nat) : Prop :=
  s.padSet c = true ∧ s.padTarget l addr = some (f, y) ∧ y + n ≤ f.size ∧ y % n = 0

/-- What a queued scratchpad access is to do, and where (R164). -/
structure Access where
  flock : Nat
  addr : Nat
  op : ScratchOp
  dests : List Reg
  flagId : Option Nat

/-- An instruction completes by queueing one scratchpad access of the thread, to be performed `delay` cycles after its issue,
with the thread changed as given and no memory changed yet. -/
def Queues (i : Instr) (s : State) (c : IssueCtx) (l : LaneRef) (t' : Thread) (delay : Nat) (x : Access) : Prop :=
  ∃ s' a, exec i s = .next s' ∧ s'.scratch = s.scratch ++ [a] ∧ a.due = c.cycle + delay ∧ a.lane = l ∧ a.seq = c.seq ∧
    a.pc = c.pc ∧ a.flock = x.flock ∧ a.addr = x.addr ∧ a.op = x.op ∧ a.dests = x.dests ∧ a.flagId = x.flagId ∧
    s'.thread? l.tid = some t' ∧ s'.flocks = s.flocks ∧ s'.mem = s.mem

/-- A thread whose result is reserved, to land at a cycle with the values that its access will bring (R101, R104). -/
def Thread.reserved (t : Thread) (c : IssueCtx) (n : Nat) (toLast : Bool) (ds : List Reg) : Thread :=
  { t with
    rf := { t.rf with
      pend := t.rf.pend ++ (ds.filter fun d => decide (d ≠ .zero)).map (fun d => ⟨c.cycle + n, c.seq, .reg d, none⟩) ++
        (if toLast then [⟨c.cycle + n, c.seq, .reg .last, none⟩] else []) } }

/-- A thread with a flagged result armed whose values are not yet known. -/
def Thread.armed (t : Thread) (c : IssueCtx) (f : Flag) (n id : Nat) (ds : List Reg) (acq : Bool) (op : Option Nat) : Thread :=
  { t with
    flags := (match f with
      | some k => t.flags ||| (1#12 <<< k.val)
      | none => t.flags),
    flagged := t.flagged ++ [⟨id, f, c.seq, c.cycle + n, c.cycle + n, ds, none, acq, op⟩] }

/-- A thread with a scratchpad access to come at a cycle: no later access of the thread overtakes it (R164). -/
def Thread.awaits (t : Thread) (due : Nat) : Thread := { t with lastScratch := max t.lastScratch due }

/-- A thread that is not ready until the point of its access decides how it goes on (R375). -/
def Thread.undecided (t : Thread) (c : IssueCtx) : Thread :=
  { t with sleep := .deciding, nextIssue := max t.nextIssue (c.cycle + 4) }

/-! Traps. -/

/-- A trap finds a handler and room for it (R197): the launch names a handler, the depth is below 15 and re-entry is allowed, and
no tag reported names an origin record still to be written (R70). -/
structure Handled (s : State) (u : ThreadId) (t : Thread) (g : Group) (la : Launch) (ti : TrapInfo) : Prop where
  group : s.group? u.g = some g
  thread : s.thread? u = some t
  launch : s.launch? g.launch = some la
  handler : la.rec_.handler ≠ 0xFFFFFFFF
  depth : t.sys.depth ≠ 15
  again : t.sys.depth = 0 ∨ t.sys.re = true
  recorded : ∀ x ∈ [ti.t0, ti.t1, ti.t2], s.recordPending g.launch x = false

/-- A thread in its handler (R197): the trap state saved, the depth one more, re-entry not allowed, at the handler's word; the
system register writes of its earlier words have taken effect (R196), and the bound its last word left holds (R21). -/
def Thread.inHandler (t : Thread) (r : LaunchRec) (ti : TrapInfo) (pc : W64) (ready : Nat) : Thread :=
  let y := State.sysWrites t.sys t.mts
  { t with
    pc := r.addrOf r.handler,
    sleep := .awake,
    nextIssue := max t.nextIssue ready,
    mts := [],
    sys := { y with
      tpc := pc, tcause := ti.cause, tinfo := ti.info, tinfoh := ti.infoh, ttag0 := ti.t0, ttag1 := ti.t1, ttag2 := ti.t2,
      tfdet := ti.detail, depth := y.depth + 1, re := false } }

/-- An instruction takes a trap for a thread, which is then in its handler. -/
def Traps (i : Instr) (s : State) (c : IssueCtx) (l : LaneRef) (t : Thread) (ti : TrapInfo) : Prop :=
  ∀ g la, ExecutesAlone s c l t → Handled s l.tid t g la ti →
    ∃ s', exec i s = .next s' ∧ s'.thread? l.tid = some (t.inHandler la.rec_ ti c.pc (c.cycle + 4))

/-- Exceptions that a word raises for a thread, of which some is enabled in FCR: the thread takes the trap of the lowest of those,
which reports the source tags, FSR keeps all that was raised, and no result is in flight (R58). -/
def Raises (i : Instr) (s : State) (c : IssueCtx) (l : LaneRef) (t : Thread) (e : Exc) (tags : Tag × Tag × Tag) : Prop :=
  ∀ g la, ExecutesAlone s c l t → e &&& t.sys.fcr ≠ 0 →
    let ti : TrapInfo := ⟨excCause (e &&& t.sys.fcr), 0, 0, tags.1, tags.2.1, tags.2.2, 0⟩
    Handled s l.tid t g la ti →
    ∃ s', exec i s = .next s' ∧
      s'.thread? l.tid = some ({ t with sys := { t.sys with fsr := t.sys.fsr ||| e } }.inHandler la.rec_ ti c.pc (c.cycle + 4))

/-! Global accesses. -/

/-- Where a global access of a thread goes without a trap (R168, R169, R320): aligned, to a page that allows it, an atomic to device
memory only, and in deterministic mode within the write ranges. -/
structure GlobalOk (s : State) (c : IssueCtx) (l : LaneRef) (va : W64) (n : Nat) (kind : AccKind) (gatom : Bool)
    (la : Launch) (gr : Group) (pa tier pk : Nat) (tagged : Bool) : Prop where
  launch : s.launch? c.launch = some la
  group : s.group? l.g = some gr
  aligned : va.toNat % n = 0
  page : (s.accessPage (coreLoc c.core) la.fn va n kind).1 = .ok pa tier pk tagged
  device : kind = .atomic → tier < 2
  owned : kind = .read ∨ la.rec_.det = false ∨ s.laneOwner c l va n = .own ∨
    (s.laneOwner c l va n = .shared ∧ gatom = false)

/-- An instruction completes by putting one global access of the thread in flight, counted in GATHER (R11, R168), with the thread
changed as given beside that count. -/
def Accesses (i : Instr) (s : State) (c : IssueCtx) (l : LaneRef) (t' : Thread) (va : W64) (pa tier pk : Nat) (tagged : Bool)
    (op : GOp) (flagId : Option Nat) : Prop :=
  ∃ s' g, exec i s = .next s' ∧ s'.gaccs = s.gaccs ++ [g] ∧ g.id = s.nextUid ∧ g.lane = l ∧ g.unit = false ∧
    g.launch = c.launch ∧ g.core = c.core ∧ g.va = va ∧ g.pa = pa ∧ g.tier = tier ∧ g.kind = pk ∧ g.tagged = tagged ∧
    g.op = op ∧ g.flagId = flagId ∧ g.seq = c.seq ∧ g.first = State.firstLane c l ∧ g.mode = t'.sys.tagmode ∧ g.merged = [] ∧
    g.performed = false ∧
    g.earliest = max (c.cycle + Config.globalMin) (t'.lastScratch + 1) ∧ s'.thread? l.tid = some t' ∧ s'.flocks = s.flocks

/-- A thread with one more operation of a class that has not completed. -/
def Thread.counting (t : Thread) (cls : EngClass) (id : Nat) : Thread := { t with outs := t.outs ++ [⟨id, cls, false, false⟩] }

/-! Engines and packets. -/

/-- An instruction completes by putting one operation in the queue of the core's tile engine, counted in TILE (R240), to start at
least 4 cycles later, after the thread's scratchpad accesses so far and after the queue has accepted it, one operation a cycle
(R182, R256), with nothing done yet. -/
def TileIssues (i : Instr) (s : State) (c : IssueCtx) (l : LaneRef) (t : Thread) (f : Flock) (a : W32) (b : W64) : Prop :=
  ∃ s' o, exec i s = .next s' ∧ (s'.tileUnit c.core).queue = (s.tileUnit c.core).queue ++ [o] ∧ o.id = s.nextUid ∧
    o.instr = i ∧ o.tid = l.tid ∧ o.flock = f.uid ∧ o.a = a ∧ o.b = b ∧ o.raised = 0 ∧ o.until_ = none ∧ o.done = false ∧
    o.ready = max (max (c.cycle + 4) (max c.cycle ((s.tileUnit c.core).lastIn + 1) + 1)) (t.lastScratch + 1) ∧
    (s'.tileUnit c.core).lastIn = max c.cycle ((s.tileUnit c.core).lastIn + 1) ∧ s'.thread? l.tid = some (t.counting .tile s.nextUid) ∧
    s'.flocks = s.flocks ∧ s'.mem = s.mem

/-- An instruction completes by putting one command in the queues of the paddock's automaton array, counted in AA (R287), to be served
at least 4 cycles later and after the thread's scratchpad accesses so far (R182). -/
def ArrayIssues (i : Instr) (s : State) (c : IssueCtx) (l : LaneRef) (t : Thread) (f : Flock) (a : W64) (b : W32) : Prop :=
  ∃ s' k, exec i s = .next s' ∧ (s'.array (padOf c.core)).queue = (s.array (padOf c.core)).queue ++ [k] ∧ k.id = s.nextUid ∧
    k.instr = i ∧ k.tid = l.tid ∧ k.core = c.core ∧ k.launch = c.launch ∧ k.flock = f.uid ∧ k.a = a ∧ k.b = b ∧
    k.ready = max (c.cycle + 4) (t.lastScratch + 1) ∧ s'.thread? l.tid = some (t.counting .aa s.nextUid) ∧ s'.flocks = s.flocks ∧
    s'.mem = s.mem

/-- A queue's head is a packet that may start now (R299, R300): it is read with its partition, is well formed, and where its type
waits for earlier packets they have completed. Reading it leaves `s'`. -/
def Begins (s : State) (fn q : Nat) (p : Packet) (part : Nat) (s' : State) : Prop :=
  (∃ prio, s.headOf fn q = (.packet p part prio, s')) ∧ p.bad = false ∧ (p.waits = true → s'.prevDone fn q = true)

/-- A packet has started and completed at once: the queue's count of started packets is one more, and of those completed in order
one more where the packet is the next in order (R299). -/
def Passes (s s' : State) (fn q : Nat) (p : Packet) : Prop :=
  (s'.queue fn q).head = (s.queue fn q).head + 1 ∧
  ((s.queue fn q).done = [] → (s.queue fn q).lastdone = p.seq → (s'.queue fn q).lastdone = p.seq + 1) ∧
  ((s.queue fn q).done = [] → (s.queue fn q).lastdone < p.seq →
    (s'.queue fn q).lastdone = (s.queue fn q).lastdone ∧ (s'.queue fn q).done = [p.seq])

/-! Frames. -/

/-- The words that act on registers alone: integer, floating-point, conversion and tag words but ORIGIN, cross-lane and predicate
words, halves, jumps, traps by word, and moves from and to system registers. -/
def Instr.registersOnly : Instr → Bool
  | .nop | .bra _ | .jmpi _ | .trap _ | .brk _ | .mfs .. | .mts .. => true
  | .iadd .. | .isub .. | .imul .. | .imulh .. | .iadds .. | .imin .. | .imax .. | .iabs .. | .ineg .. | .and .. | .or ..
  | .xor .. | .andn .. | .popc .. | .clz .. | .brev .. | .shl .. | .shr .. | .sar .. | .rotl .. | .imad .. | .iadd3 ..
  | .funnel .. | .bfx .. | .bfi .. | .isetp .. | .sel .. | .mov .. | .movi .. | .movhi .. | .add64 .. | .sub64 ..
  | .mad64w .. | .lea .. | .iadd2 .. | .iadd2s .. | .imax2 .. | .idot4 .. | .prmt .. | .widen .. | .wadd .. | .idiv .. => true
  | .fadd .. | .fsub .. | .fmul .. | .ffma .. | .fmin .. | .fmax .. | .fsetp .. | .fclass .. | .frnd .. | .frcp .. | .frsq ..
  | .fsqrt .. | .fdiv .. | .fexp2 .. | .flog2 .. | .fsin .. | .fcos .. | .ftanh .. | .hadd2 .. | .hsub2 .. | .hmul2 ..
  | .hfma2 .. | .hmin2 .. | .hmax2 .. | .hsetp2 .. | .hdot2 .. | .fdot4q .. | .lutdot .. => true
  | .cvtf .. | .cvti .. | .cvtfi .. | .pack .. | .unpack .. | .quant .. | .dequant .. | .cbdec .. | .tagget .. | .tagset ..
  | .tagbirth .. => true
  | .shfl .. | .qswap .. | .qbcast .. | .gred .. | .gscan .. | .vote .. | .voteBallot .. | .kop .. | .kmovGet .. | .kmovSet ..
  | .elect .. | .matchLanes .. => true
  | .nopHalf | .iaddHalf .. | .isubHalf .. | .imulHalf .. | .iminHalf .. | .imaxHalf .. | .andHalf .. | .orHalf ..
  | .xorHalf .. | .shlHalf .. | .shrHalf .. | .sarHalf .. | .movHalf .. | .faddHalf .. | .fsubHalf .. | .fmulHalf ..
  | .fminHalf .. | .fmaxHalf .. | .hadd2Half .. | .hmul2Half .. => true
  | _ => false

end Sys2Proof.Machine
end

