-- ==== Sys2Proof/Certificates/Slice0/Obligations.lean ====
section
/-!
DEFINITION. The claims about this machine that are to be proved, from the numbered rules of the specification.

Result statements are written with `Gives` and `GivesFlagged` of Sys2Proof/Safety.lean: whenever a thread executes the word
and none of the exceptions it raises is enabled, exec answers a next state in which the thread has exactly the named results in
flight, to land the named number of cycles after the issue, and every other part of the thread is as before.
-/
open Sys2Proof Sys2Proof.Machine

/-! Integer words. -/

/-- R106, R109 and Table 5.1: the two-source integer words. IO is raised by the .OV forms when the exact signed result does
not fit in 32 bits; the add-like words IADD and ISUB take their tag by magnitude too (R71).
R109: minimum, maximum, absolute value and negation, read signed unless .U. -/
def Obligations.IntegerArithmetic : Prop :=
  (∀ (s : State) (c : IssueCtx) (l : LaneRef) (t : Thread) (d a b : Reg) (ov u : Bool),
     let x := s.operand l a
     let y := s.operand l b
     let srcs := [⟨x.tag, false⟩, ⟨y.tag, false⟩]
     let io (exact : Int) : Exc := if ov ∧ ¬ (-(2 ^ 31) ≤ exact ∧ exact < 2 ^ 31) then Exc.io else 0
     let addLike (e : Exc) : TagWant := .rule srcs (some [intMag x, intMag y]) (decide (e ≠ 0))
     let other (e : Exc) : TagWant := .rule srcs none (decide (e ≠ 0))
     let sum := x.val.toInt + y.val.toInt
     let diff := x.val.toInt - y.val.toInt
     let prod := x.val.toInt * y.val.toInt
     Gives (.iadd d a b ov) s c l t 2 [(d, x.val + y.val, addLike (io sum))] [] (io sum) ∧
     Gives (.isub d a b ov) s c l t 2 [(d, x.val - y.val, addLike (io diff))] [] (io diff) ∧
     Gives (.imul d a b ov) s c l t 4 [(d, x.val * y.val, other (io prod))] [] (io prod) ∧
     Gives (.imulh d a b u) s c l t 4
       [(d, BitVec.ofInt 32 ((if u then (x.val.toNat : Int) * y.val.toNat else prod) / 2 ^ 32), other 0)] [] 0 ∧
     Gives (.iadds d a b u) s c l t 2
       [(d, (if u then BitVec.ofNat 32 (min (x.val.toNat + y.val.toNat) (2 ^ 32 - 1))
             else BitVec.ofInt 32 (max (-(2 ^ 31)) (min sum (2 ^ 31 - 1)))), other 0)] [] 0) ∧
  (∀ (s : State) (c : IssueCtx) (l : LaneRef) (t : Thread) (d a b : Reg) (ov u : Bool),
     let x := s.operand l a
     let y := s.operand l b
     let two : TagWant := .rule [⟨x.tag, false⟩, ⟨y.tag, false⟩] none false
     let one (e : Exc) : TagWant := .rule [⟨x.tag, false⟩] none (decide (e ≠ 0))
     let less : Bool := if u then decide (y.val.toNat < x.val.toNat) else decide (y.val.toInt < x.val.toInt)
     let more : Bool := if u then decide (x.val.toNat < y.val.toNat) else decide (x.val.toInt < y.val.toInt)
     let io : Exc := if ov ∧ x.val = 0x80000000 then Exc.io else 0
     Gives (.imin d a b u) s c l t 2 [(d, (if less then y.val else x.val), two)] [] 0 ∧
     Gives (.imax d a b u) s c l t 2 [(d, (if more then y.val else x.val), two)] [] 0 ∧
     Gives (.iabs d a ov) s c l t 2 [(d, (if x.val.toInt < 0 then -x.val else x.val), one io)] [] io ∧
     Gives (.ineg d a ov) s c l t 2 [(d, -x.val, one io)] [] io)

/-- Table 5.1: bitwise words, counts and bit reversal.
R110: a shift count is the low 8 bits of a register, or the immediate; a count of 32 or more gives 0 from SHL and SHR and
the sign from SAR, and ROTL rotates by the count modulo 32. -/
def Obligations.BitsAndShifts : Prop :=
  (∀ (s : State) (c : IssueCtx) (l : LaneRef) (t : Thread) (d a b : Reg),
     let x := s.operand l a
     let y := s.operand l b
     let two : TagWant := .rule [⟨x.tag, false⟩, ⟨y.tag, false⟩] none false
     let one : TagWant := .rule [⟨x.tag, false⟩] none false
     Gives (.and d a b) s c l t 2 [(d, x.val &&& y.val, two)] [] 0 ∧
     Gives (.or d a b) s c l t 2 [(d, x.val ||| y.val, two)] [] 0 ∧
     Gives (.xor d a b) s c l t 2 [(d, x.val ^^^ y.val, two)] [] 0 ∧
     Gives (.andn d a b) s c l t 2 [(d, x.val &&& ~~~y.val, two)] [] 0 ∧
     (∃ n : Nat, n = ((List.range 32).filter fun i => x.val.getLsbD i).length ∧
       Gives (.popc d a) s c l t 2 [(d, BitVec.ofNat 32 n, one)] [] 0) ∧
     (∃ n : Nat, (∀ i < n, x.val.getMsbD i = false) ∧ (n < 32 → x.val.getMsbD n = true) ∧ n ≤ 32 ∧
       Gives (.clz d a) s c l t 2 [(d, BitVec.ofNat 32 n, one)] [] 0) ∧
     (∃ v : W32, (∀ i < 32, v.getLsbD i = x.val.getLsbD (31 - i)) ∧ Gives (.brev d a) s c l t 2 [(d, v, one)] [] 0)) ∧
  (∀ (s : State) (c : IssueCtx) (l : LaneRef) (t : Thread) (d a : Reg) (n : ShAmt),
     let x := s.operand l a
     let k : Nat := match n with
       | .reg b => (s.operand l b).val.toNat % 256
       | .imm i => i.toNat
     let want : TagWant := match n with
       | .reg b => .rule [⟨x.tag, false⟩, ⟨(s.operand l b).tag, false⟩] none false
       | .imm _ => .rule [⟨x.tag, false⟩] none false
     Gives (.shl d a n) s c l t 2 [(d, x.val <<< k, want)] [] 0 ∧
     Gives (.shr d a n) s c l t 2 [(d, x.val >>> k, want)] [] 0 ∧
     Gives (.sar d a n) s c l t 2 [(d, x.val.sshiftRight k, want)] [] 0 ∧
     Gives (.rotl d a n) s c l t 2 [(d, x.val.rotateLeft (k % 32), want)] [] 0)

/-- R111: funnel shifts and bit fields. A field's position and length are bytes 0 and 1 of the descriptor, each at most 32; bits
beyond bit 31 read 0 and are not inserted.
R111: the three-source sums. -/
def Obligations.FieldsAndSums : Prop :=
  (∀ (s : State) (c : IssueCtx) (l : LaneRef) (t : Thread) (d a b e : Reg) (u r : Bool),
     let x := s.operand l a
     let y := s.operand l b
     let z := s.operand l e
     let two : TagWant := .rule [⟨x.tag, false⟩, ⟨y.tag, false⟩] none false
     let three : TagWant := .rule [⟨x.tag, false⟩, ⟨y.tag, false⟩, ⟨z.tag, false⟩] none false
     let both : BitVec 64 := y.val ++ x.val
     let n := z.val.toNat % 32
     let pos (w : W32) : Nat := min (w.toNat % 256) 32
     let len (w : W32) : Nat := min (w.toNat / 256 % 256) 32
     Gives (.funnel d a b e r) s c l t 2
       [(d, (if r then (both >>> n).setWidth 32 else ((both <<< n) >>> 32).setWidth 32), three)] [] 0 ∧
     (∃ v : W32,
       (∀ i < 32, v.getLsbD i =
         if i < len y.val then x.val.getLsbD (pos y.val + i)
         else !u && decide (0 < len y.val) && x.val.getLsbD (pos y.val + len y.val - 1)) ∧
       Gives (.bfx d a b u) s c l t 2 [(d, v, two)] [] 0) ∧
     (∃ v : W32,
       (∀ i < 32, v.getLsbD i =
         if pos z.val ≤ i ∧ i < pos z.val + len z.val then y.val.getLsbD (i - pos z.val) else x.val.getLsbD i) ∧
       Gives (.bfi d a b e) s c l t 2 [(d, v, three)] [] 0)) ∧
  (∀ (s : State) (c : IssueCtx) (l : LaneRef) (t : Thread) (d a b e : Reg) (ov : Bool),
     let x := s.operand l a
     let y := s.operand l b
     let z := s.operand l e
     let srcs := [⟨x.tag, false⟩, ⟨y.tag, false⟩, ⟨z.tag, false⟩]
     let io (exact : Int) : Exc := if ov ∧ ¬ (-(2 ^ 31) ≤ exact ∧ exact < 2 ^ 31) then Exc.io else 0
     let mad := io (x.val.toInt * y.val.toInt + z.val.toInt)
     let sum := io (x.val.toInt + y.val.toInt + z.val.toInt)
     Gives (.imad d a b e ov) s c l t 4
       [(d, x.val * y.val + z.val, .rule srcs
         (some [⟨if x.tag = 0 then y.tag else x.tag, (Machine.Num.ofInt (x.val.toInt * y.val.toInt)).abs⟩, intMag z])
         (decide (mad ≠ 0)))] [] mad ∧
     Gives (.iadd3 d a b e ov) s c l t 4
       [(d, x.val + y.val + z.val, .rule srcs (some [intMag x, intMag y, intMag z]) (decide (sum ≠ 0)))] [] sum)

/-- R107, R112, R113 and R114: comparisons into a predicate with its combining predicate, selection and moves. -/
def Obligations.ComparesSelectsMoves : Prop :=
  ∀ (s : State) (c : IssueCtx) (l : LaneRef) (t : Thread) (d a b : Reg) (kd : BitVec 3) (kc : KSel) (imm : BitVec 16),
    let x := s.operand l a
    let y := s.operand l b
    let p := (s.rf l).ksel kc
    Gives (.isetp .eq kd a b kc) s c l t 2 [] [(kd, decide (x.val = y.val) && p)] 0 ∧
    Gives (.isetp .ne kd a b kc) s c l t 2 [] [(kd, decide (x.val ≠ y.val) && p)] 0 ∧
    Gives (.isetp .lt kd a b kc) s c l t 2 [] [(kd, x.val.slt y.val && p)] 0 ∧
    Gives (.isetp .le kd a b kc) s c l t 2 [] [(kd, x.val.sle y.val && p)] 0 ∧
    Gives (.isetp .gt kd a b kc) s c l t 2 [] [(kd, y.val.slt x.val && p)] 0 ∧
    Gives (.isetp .ge kd a b kc) s c l t 2 [] [(kd, y.val.sle x.val && p)] 0 ∧
    Gives (.isetp .ltu kd a b kc) s c l t 2 [] [(kd, x.val.ult y.val && p)] 0 ∧
    Gives (.isetp .leu kd a b kc) s c l t 2 [] [(kd, x.val.ule y.val && p)] 0 ∧
    Gives (.isetp .gtu kd a b kc) s c l t 2 [] [(kd, y.val.ult x.val && p)] 0 ∧
    Gives (.isetp .geu kd a b kc) s c l t 2 [] [(kd, y.val.ule x.val && p)] 0 ∧
    Gives (.sel d a b kc) s c l t 2 [(d, (if p then x.val else y.val), .fixed (if p then x.tag else y.tag))] [] 0 ∧
    Gives (.mov d a) s c l t 2 [(d, x.val, .fixed x.tag)] [] 0 ∧
    Gives (.movi d imm false) s c l t 2 [(d, imm.setWidth 32, .fixed 0)] [] 0 ∧
    Gives (.movi d imm true) s c l t 2 [(d, imm.signExtend 32, .fixed 0)] [] 0 ∧
    Gives (.movhi d a imm) s c l t 2
      [(d, (x.val &&& 0x0000FFFF) ||| (imm.setWidth 32 <<< 16), .fixed x.tag)] [] 0

/-- R116 and R119: words over register pairs, low half in the even register; both registers of the pair get the one tag. -/
def Obligations.PairWords : Prop :=
  ∀ (s : State) (c : IssueCtx) (l : LaneRef) (t : Thread) (d a b e : Reg) (sg u : Bool) (sh : BitVec 4),
    let x := s.operand l a
    let y := s.operand l b
    let pair (r : Reg) : BitVec 64 := (s.operand l (regPlus r 1)).val ++ (s.operand l r).val
    let ptag (r : Reg) : Tag := (s.operand l r).tag
    let mag (r : Reg) : TDom := ⟨ptag r, (Machine.Num.ofInt (pair r).toInt).abs⟩
    let two (v : BitVec 64) (w : TagWant) : List Result :=
      [(d, v.setWidth 32, w), (regPlus d 1, (v >>> 32).setWidth 32, w)]
    let pairs : TagWant := .rule [⟨ptag a, false⟩, ⟨ptag b, false⟩] (some [mag a, mag b]) false
    let mixed : TagWant := .rule [⟨ptag a, false⟩, ⟨y.tag, false⟩] (some [mag a, intMag y]) false
    Gives (.add64 d a b) s c l t 2 (two (pair a + pair b) pairs) [] 0 ∧
    Gives (.sub64 d a b) s c l t 2 (two (pair a - pair b) pairs) [] 0 ∧
    Gives (.mad64w d a b e sg) s c l t 4
      (two ((if sg then x.val.signExtend 64 * y.val.signExtend 64 else x.val.setWidth 64 * y.val.setWidth 64) + pair e)
        (.rule [⟨x.tag, false⟩, ⟨y.tag, false⟩, ⟨ptag e, false⟩]
          (some [⟨if x.tag = 0 then y.tag else x.tag, (Machine.Num.ofInt (x.val.toInt * y.val.toInt)).abs⟩, mag e]) false)) [] 0 ∧
    Gives (.lea d a b sh sg) s c l t 2
      (two (pair a + ((if sg then y.val.signExtend 64 else y.val.setWidth 64) <<< sh.toNat)) mixed) [] 0 ∧
    Gives (.wadd d a b u) s c l t 4
      (two (pair a + (if u then y.val.setWidth 64 else y.val.signExtend 64)) mixed) [] 0

/-- R117, R118 and R119: packed integers, byte permutation and widening. -/
def Obligations.PackedIntegers : Prop :=
  ∀ (s : State) (c : IssueCtx) (l : LaneRef) (t : Thread) (d a b e : Reg) (u : Bool),
    let x := s.operand l a
    let y := s.operand l b
    let z := s.operand l e
    let half (w : W32) (i : Nat) : BitVec 16 := (w >>> (16 * i)).setWidth 16
    let byte (w : W32) (i : Nat) : BitVec 8 := (w >>> (8 * i)).setWidth 8
    let ext (v : BitVec 8) : W32 := if u then v.setWidth 32 else v.signExtend 32
    let srcs := [⟨x.tag, false⟩, ⟨y.tag, false⟩]
    let add : TagWant := .rule srcs (some [i16Mag x, i16Mag y]) false
    let other : TagWant := .rule srcs none false
    let sat (i : Int) : BitVec 16 := BitVec.ofInt 16 (max (-(2 ^ 15)) (min i (2 ^ 15 - 1)))
    let each (f : BitVec 16 → BitVec 16 → BitVec 16) : W32 :=
      f (half x.val 1) (half y.val 1) ++ f (half x.val 0) (half y.val 0)
    let nib (j : Nat) : Nat := (z.val.toNat / 2 ^ (4 * j)) % 16
    let pick (j : Nat) : BitVec 8 :=
      if nib j < 4 then byte x.val (nib j) else if nib j < 8 then byte y.val (nib j - 4) else 0
    let tag (j : Nat) : TSrc := ⟨if nib j < 4 then x.tag else if nib j < 8 then y.tag else 0, false⟩
    Gives (.iadd2 d a b) s c l t 2 [(d, each fun p q => p + q, add)] [] 0 ∧
    Gives (.iadd2s d a b) s c l t 2 [(d, each fun p q => sat (p.toInt + q.toInt), add)] [] 0 ∧
    Gives (.imax2 d a b) s c l t 2 [(d, each fun p q => if p.slt q then q else p, other)] [] 0 ∧
    Gives (.idot4 d a b e u) s c l t 4
      [(d, z.val + ext (byte x.val 0) * ext (byte y.val 0) + ext (byte x.val 1) * ext (byte y.val 1)
          + ext (byte x.val 2) * ext (byte y.val 2) + ext (byte x.val 3) * ext (byte y.val 3),
        .rule [⟨x.tag, false⟩, ⟨y.tag, false⟩, ⟨z.tag, false⟩] none false)] [] 0 ∧
    Gives (.prmt d a b e) s c l t 2
      [(d, pick 3 ++ pick 2 ++ pick 1 ++ pick 0, .rule [tag 0, tag 1, tag 2, tag 3] none false)] [] 0 ∧
    Gives (.widen d a .sb) s c l t 4
      ((List.range 4).map fun i => (regPlus d i, (byte x.val i).signExtend 32, .fixed x.tag)) [] 0 ∧
    Gives (.widen d a .zb) s c l t 4
      ((List.range 4).map fun i => (regPlus d i, (byte x.val i).setWidth 32, .fixed x.tag)) [] 0 ∧
    Gives (.widen d a .sh) s c l t 4
      ((List.range 2).map fun i => (regPlus d i, (half x.val i).signExtend 32, .fixed x.tag)) [] 0 ∧
    Gives (.widen d a .zh) s c l t 4
      ((List.range 2).map fun i => (regPlus d i, (half x.val i).setWidth 32, .fixed x.tag)) [] 0

/-- R120 and Table 5.4: division. It never stops: a zero divisor gives all ones from the quotient forms and the dividend from
the remainder forms, with IO; the signed quotient that does not fit wraps, with IO. -/
def Obligations.Divisions : Prop :=
  ∀ (s : State) (c : IssueCtx) (l : LaneRef) (t : Thread) (d a b : Reg) (f : Flag),
    let x := s.operand l a
    let y := s.operand l b
    let z : Bool := decide (y.val = 0)
    let io (b : Bool) : Exc := if b then Exc.io else 0
    let want (e : Exc) : TagWant := .rule [⟨x.tag, false⟩, ⟨y.tag, false⟩] none (decide (e ≠ 0))
    let wraps := decide (x.val = 0x80000000 ∧ y.val = 0xFFFFFFFF)
    GivesFlagged (.idiv .divs d a b f) s c l t f 1 36
      [(d, (if z then 0xFFFFFFFF else x.val.sdiv y.val), want (io (z || wraps)))] (io (z || wraps)) ∧
    GivesFlagged (.idiv .divu d a b f) s c l t f 1 36
      [(d, (if z then 0xFFFFFFFF else x.val.udiv y.val), want (io z))] (io z) ∧
    GivesFlagged (.idiv .rems d a b f) s c l t f 1 36
      [(d, (if z then x.val else x.val.srem y.val), want (io z))] (io z) ∧
    GivesFlagged (.idiv .remu d a b f) s c l t f 1 36
      [(d, (if z then x.val else x.val.umod y.val), want (io z))] (io z)

/-! Floating-point words. -/

/-- R121 to R125: FP32 words, each rounded once from the exact value; IV, OVF and the rest are what the operation and its
rounding raise. That a fused product of 0 and infinity plus a NaN is a NaN with no IV raised is the model's choice (assumption log 68). -/
def Obligations.Fp32Words : Prop :=
  ∀ (s : State) (c : IssueCtx) (l : LaneRef) (t : Thread) (d a b e : Reg) (kd : BitVec 3) (kc : KSel) (cc : FCmp)
    (dir : RndDir),
    let x := s.operand l a
    let y := s.operand l b
    let z := s.operand l e
    let X := f32 x.val
    let Y := f32 y.val
    let Z := f32 z.val
    let raised (v : Machine.Num × Exc) : Exc := v.2 ||| (toF32 v.1).2
    let result (v : Machine.Num × Exc) (srcs : List TSrc) (doms : Option (List TDom)) : List Result :=
      [(d, (toF32 v.1).1, .rule srcs doms (decide (raised v ≠ 0)))]
    let two := [f32Src x, f32Src y]
    let mags := some [f32Mag x, f32Mag y]
    let nanOr (v : Machine.Num) : Machine.Num × Exc := ((Machine.Num.firstNan [X, Y]).getD v, 0)
    Gives (.fadd d a b) s c l t 4 (result (Machine.Num.add X Y) two mags) [] (raised (Machine.Num.add X Y)) ∧
    Gives (.fsub d a b) s c l t 4 (result (Machine.Num.sub X Y) two mags) [] (raised (Machine.Num.sub X Y)) ∧
    Gives (.fmul d a b) s c l t 4 (result (Machine.Num.mul X Y) two none) [] (raised (Machine.Num.mul X Y)) ∧
    Gives (.ffma d a b e) s c l t 4
      (result (Machine.Num.fma X Y Z) [f32Src x, f32Src y, f32Src z]
        (some [⟨if x.tag = 0 then y.tag else x.tag, (Machine.Num.mul X.abs Y.abs).1⟩, f32Mag z])) [] (raised (Machine.Num.fma X Y Z)) ∧
    Gives (.fmin d a b) s c l t 4 (result (nanOr (Machine.Num.min X Y)) two none) [] (raised (nanOr (Machine.Num.min X Y))) ∧
    Gives (.fmax d a b) s c l t 4 (result (nanOr (Machine.Num.max X Y)) two none) [] (raised (nanOr (Machine.Num.max X Y))) ∧
    Gives (.fsetp cc kd a b kc) s c l t 4 [] [(kd, Machine.Num.cmp cc X Y && (s.rf l).ksel kc)] 0 ∧
    Gives (.frnd dir d a) s c l t 4 (result (roundInt dir X, 0) [f32Src x] none) [] (raised (roundInt dir X, 0)) ∧
    (∃ m : W32, m = BitVec.ofNat 32 (2 ^ (match X with
        | .inf true => 0
        | .fin true v _ => if x.val &&& 0x7F800000 ≠ 0 then 1 else if v = 0 then 3 else 2
        | .fin false v _ => if x.val &&& 0x7F800000 ≠ 0 then 6 else if v = 0 then 4 else 5
        | .inf false => 7
        | .nan _ p => if p / 0x400000 % 2 = 1 then 9 else 8)) ∧
      Gives (.fclass d a) s c l t 4 [(d, m, .rule [f32Src x] none false)] [] 0)

/-- R126: the functions of one or two FP32 numbers with a result under a flag.
R126 and Table 5.6: what the functions give before the one rounding, held to the mathematical value: a reciprocal, quotient or root is
exact, or lies with it between two neighbours far below the last bit of FP32; 2^n and log2 2^n are exact; sine and tanh are odd, cosine
even, tanh below 1. The special cases.
Table 5.6 and R123: the corners of FP32 words, bit for bit. -/
def Obligations.Fp32Functions : Prop :=
  (∀ (s : State) (c : IssueCtx) (l : LaneRef) (t : Thread) (d a b : Reg) (f : Flag),
     let x := s.operand l a
     let y := s.operand l b
     let X := f32 x.val
     let Y := f32 y.val
     let raised (v : Machine.Num × Exc) : Exc := v.2 ||| (toF32 v.1).2
     let gives (i : Instr) (lo hi : Nat) (v : Machine.Num × Exc) (srcs : List TSrc) : Prop :=
       GivesFlagged i s c l t f lo hi [(d, (toF32 v.1).1, .rule srcs none (decide (raised v ≠ 0)))] (raised v)
     gives (.frcp d a f) 12 20 (rcpNum X) [f32Src x] ∧
     gives (.frsq d a f) 12 20 (rsqNum X) [f32Src x] ∧
     gives (.fsqrt d a f) 1 24 (sqrtNum X) [f32Src x] ∧
     gives (.fdiv d a b f) 1 24 (divNum X Y) [f32Src x, f32Src y] ∧
     gives (.fexp2 d a f) 12 20 (exp2Fn X) [f32Src x] ∧
     gives (.flog2 d a f) 12 20 (log2Fn X) [f32Src x] ∧
     gives (.fsin d a f) 12 20 (trigFn false X) [f32Src x] ∧
     gives (.fcos d a f) 12 20 (trigFn true X) [f32Src x] ∧
     gives (.ftanh d a f) 12 20 (tanhFn X) [f32Src x]) ∧
  (∀ (neg neg2 : Bool) (m n k : Nat) (e e2 : Int) (p : Nat),
     let x : Machine.Num := .fin neg m e
     let y : Machine.Num := .fin neg2 n e2
     -- q is the exact value of w under f, or odd and next to it
     let near (q : Nat) (f : Nat → Nat) (w : Nat) : Prop := (q % 2 = 0 ∧ f q = w) ∨ (q % 2 = 1 ∧ f (q - 1) < w ∧ w < f (q + 1))
     let odd : Nat := (e % 2).toNat
     let m2 := m * 2 ^ odd
     let half : Int := (e - odd) / 2
     let nan : Machine.Num := .nan neg p
     let quiet : Machine.Num × Exc := (.nan neg (p ||| 0x400000), 0)
     let bad : Machine.Num × Exc := (.nan false 0x400000, Exc.iv)
     (m ≠ 0 →
       (∃ q, rcpNum x = (.fin neg q (-121 - e), 0) ∧ near q (fun q => q * m) (2 ^ 121)) ∧
       (n ≠ 0 → ∃ q, divNum y x = (.fin (neg2 != neg) q (e2 - e - 121), 0) ∧ near q (fun q => q * m) (n * 2 ^ 121)) ∧
       (∃ q, sqrtNum (.fin false m e) = (.fin false q (half - 61), 0) ∧ near q (fun q => q * q) (m2 * 2 ^ 122)) ∧
       (∃ q, rsqNum (.fin false m e) = (.fin false q (-121 - half), 0) ∧ near q (fun q => q * q * m2) (2 ^ 242)) ∧
       sqrtNum (.fin true m e) = bad ∧ rsqNum (.fin true m e) = bad ∧ log2Fn (.fin true m e) = bad ∧
       (∃ q f : Nat, tanhFn x = (.fin neg q (-f), 0) ∧ q < 2 ^ f)) ∧
     (m * 2 ^ k < 512 → exp2Fn (.fin neg m k) = (.fin false 1 (if neg then -((m * 2 ^ k : Nat) : Int) else (m * 2 ^ k : Nat)), 0)) ∧
     log2Fn (.fin false (2 ^ k) e) = (Machine.Num.ofInt (k + e), 0) ∧
     trigFn false (.fin true m e) = ((trigFn false (.fin false m e)).1.negate, 0) ∧
     trigFn true (.fin true m e) = trigFn true (.fin false m e) ∧
     tanhFn (.fin true m e) = ((tanhFn (.fin false m e)).1.negate, 0) ∧
     -- Table 5.6
     rcpNum (.fin neg 0 e) = (.inf neg, Exc.dz) ∧ rcpNum (.inf neg) = (.fin neg 0 0, 0) ∧
     rsqNum (.fin neg 0 e) = (.inf neg, Exc.dz) ∧ rsqNum (.inf false) = (.fin false 0 0, 0) ∧ rsqNum (.inf true) = bad ∧
     sqrtNum (.fin neg 0 e) = (.fin neg 0 0, 0) ∧ sqrtNum (.inf false) = (.inf false, 0) ∧ sqrtNum (.inf true) = bad ∧
     (m ≠ 0 → divNum x (.fin neg2 0 e2) = (.inf (neg != neg2), Exc.dz) ∧ divNum (.fin neg2 0 e2) x = (.fin (neg2 != neg) 0 0, 0)) ∧
     divNum (.fin neg 0 e) (.fin neg2 0 e2) = bad ∧ divNum (.inf neg) (.inf neg2) = bad ∧
     divNum (.inf neg) y = (.inf (neg != neg2), 0) ∧ divNum y (.inf neg) = (.fin (neg2 != neg) 0 0, 0) ∧
     exp2Fn (.inf true) = (.fin false 0 0, 0) ∧ exp2Fn (.inf false) = (.inf false, 0) ∧
     log2Fn (.fin neg 0 e) = (.inf true, Exc.dz) ∧ log2Fn (.inf false) = (.inf false, 0) ∧ log2Fn (.inf true) = bad ∧
     trigFn false (.inf neg) = bad ∧ trigFn true (.inf neg) = bad ∧
     trigFn false (.fin neg 0 e) = (.fin neg 0 0, 0) ∧ trigFn true (.fin neg 0 e) = (.fin false 1 0, 0) ∧
     tanhFn (.inf neg) = (.fin neg 1 0, 0) ∧ tanhFn (.fin neg 0 e) = (.fin neg 0 0, 0) ∧
     (∀ f ∈ [rcpNum, rsqNum, sqrtNum, exp2Fn, log2Fn, trigFn false, trigFn true, tanhFn], f nan = quiet) ∧
     divNum nan y = quiet ∧ divNum y nan = quiet) ∧
  ((toF32 (rcpNum (f32 0x00000000)).1).1 = 0x7F800000 ∧ (rcpNum (f32 0x00000000)).2 = Exc.dz ∧
   (toF32 (rcpNum (f32 0x80000000)).1).1 = 0xFF800000 ∧
   (toF32 (divNum (f32 0x3F800000) (f32 0x40400000)).1).1 = 0x3EAAAAAB ∧
   (toF32 (sqrtNum (f32 0x40000000)).1).1 = 0x3FB504F3 ∧
   (sqrtNum (f32 0xBF800000)).2 = Exc.iv ∧
   (toF32 (Machine.Num.fma (f32 0x3F800001) (f32 0x3F800001) (f32 0xBF800002)).1).1 = 0x28800000 ∧
   Machine.Num.cmp .eq (f32 0x80000000) (f32 0x00000000) = true ∧
   Machine.Num.cmp .lt (f32 0x7FC00000) (f32 0x00000000) = false)

/-- R127 and R128: packed 16-bit floating-point words, element by element, in FP16 or under .BF16 in BF16. That a fused
product of 0 and infinity plus a NaN is a NaN with no IV raised is the model's choice (assumption log 68). -/
def Obligations.PackedHalves : Prop :=
  ∀ (s : State) (c : IssueCtx) (l : LaneRef) (t : Thread) (d a b e : Reg) (bf : Bool) (cc : FCmp) (k0 k1 : BitVec 3)
    (kc : KSel),
    let x := s.operand l a
    let y := s.operand l b
    let z := s.operand l e
    let X (j : Nat) := hnum bf x.val j
    let Y (j : Nat) := hnum bf y.val j
    let Z (j : Nat) := hnum bf z.val j
    let code (v : Machine.Num × Exc) : Nat := (encodeF (hfmt bf) false v.1).1
    let exc (v : Machine.Num × Exc) : Exc := v.2 ||| (encodeF (hfmt bf) false v.1).2
    let raised (v : Nat → Machine.Num × Exc) : Exc := exc (v 0) ||| exc (v 1)
    let result (v : Nat → Machine.Num × Exc) (srcs : List TSrc) (doms : Option (List TDom)) : List Result :=
      [(d, BitVec.ofNat 16 (code (v 1)) ++ BitVec.ofNat 16 (code (v 0)), .rule srcs doms (decide (raised v ≠ 0)))]
    let two := [h2Src bf x, h2Src bf y]
    let mags := some [h2Mag bf x, h2Mag bf y]
    let add (j : Nat) := Machine.Num.add (X j) (Y j)
    let sub (j : Nat) := Machine.Num.sub (X j) (Y j)
    let mul (j : Nat) := Machine.Num.mul (X j) (Y j)
    let fma (j : Nat) := Machine.Num.fma (X j) (Y j) (Z j)
    let least (j : Nat) : Machine.Num × Exc := ((Machine.Num.firstNan [X j, Y j]).getD (Machine.Num.min (X j) (Y j)), 0)
    let most (j : Nat) : Machine.Num × Exc := ((Machine.Num.firstNan [X j, Y j]).getD (Machine.Num.max (X j) (Y j)), 0)
    let mag (j : Nat) := (Machine.Num.mul (X j).abs (Y j).abs).1
    let p (j : Nat) := Machine.Num.cmp cc (X j) (Y j)
    let q := (s.rf l).ksel kc
    Gives (.hadd2 d a b bf) s c l t 4 (result add two mags) [] (raised add) ∧
    Gives (.hsub2 d a b bf) s c l t 4 (result sub two mags) [] (raised sub) ∧
    Gives (.hmul2 d a b bf) s c l t 4 (result mul two none) [] (raised mul) ∧
    Gives (.hfma2 d a b e bf) s c l t 4
      (result fma [h2Src bf x, h2Src bf y, h2Src bf z]
        (some [⟨if x.tag = 0 then y.tag else x.tag, maxMag (mag 0) (mag 1)⟩, h2Mag bf z])) [] (raised fma) ∧
    Gives (.hmin2 d a b bf) s c l t 4 (result least two none) [] (raised least) ∧
    Gives (.hmax2 d a b bf) s c l t 4 (result most two none) [] (raised most) ∧
    Gives (.hsetp2 cc k0 k1 a b kc bf) s c l t 4 []
      (if k0 = k1 then [(k0, p 0 && p 1 && q)] else [(k0, p 0 && q), (k1, p 1 && q)]) 0

/-- R73 and R129 to R131: dot products over an FP32 accumulator, summed in one window; FDOT4Q and LUTDOT take their format from a
slot, and a slot of another format traps ILLEGAL with reason 0x0E and the word's other half in TINFOH (R108). -/
def Obligations.DotProducts : Prop :=
  ∀ (s : State) (c : IssueCtx) (l : LaneRef) (t : Thread) (d a b e : Reg) (bf : Bool) (slot : BitVec 3),
    let x := s.operand l a
    let y (i : Nat) := s.operand l (regPlus b i)
    let fmt := Slot.fmt (s.slotOf c slot)
    let mode := if t.sys.tagmode = 3 then 0 else t.sys.tagmode
    let gives (i : Instr) (acc : TW) (ps : List (Factor × Factor)) : Prop :=
      let sum := windowF32 (f32 acc.val) (ps.map fun p => product p.1.num p.2.num)
      let ptag (p : Factor × Factor) : Tag :=
        (tagrule mode [⟨p.1.tag, p.1.num.special⟩, ⟨p.2.tag, p.2.num.special⟩] none false).getD 0
      Gives i s c l t 6
        [(d, sum.1, .rule (f32Src acc :: ps.map fun p => ⟨ptag p, p.1.num.special || p.2.num.special⟩)
          (some (f32Mag acc :: ps.map fun p => ⟨ptag p, (Machine.Num.mul p.1.num.abs p.2.num.abs).1⟩)) (decide (sum.2 ≠ 0)))]
        [] sum.2
    (Executes s c l t →
      gives (.hdot2 d a b e bf) (s.operand l e)
        ((List.range 2).map fun i => (⟨hnum bf x.val i, x.tag⟩, ⟨hnum bf (s.operand l b).val i, (s.operand l b).tag⟩))) ∧
    (∀ f, Executes s c l t → (fmt = 3 ∧ f = .e4m3 ∨ fmt = 4 ∧ f = .e5m2) →
      gives (.fdot4q d a b slot) (s.operand l d)
        ((List.range 4).map fun i =>
          (⟨decodeF f (x.val.toNat / 2 ^ (8 * i) % 256), x.tag⟩,
           ⟨decodeF f ((s.operand l b).val.toNat / 2 ^ (8 * i) % 256), (s.operand l b).tag⟩))) ∧
    (∀ el, Executes s c l t → (fmt = 6 ∧ el = .cb4 ∨ fmt = 5 ∧ el = .flt .e2m1 ∨ fmt = 11 ∧ el = .int 4 true) →
      gives (.lutdot d a b slot bf) (s.operand l d)
        ((List.range 8).map fun i =>
          (⟨decodeElem el (x.val.toNat / 2 ^ (4 * i) % 16), x.tag⟩, ⟨hnum bf (y (i / 2)).val (i % 2), (y (i / 2)).tag⟩))) ∧
    (let other : W32 := (c.word >>> 32).setWidth 32
     (fmt ∉ [3, 4] → Traps (.fdot4q d a b slot) s c l t ⟨0x01, 0x0E, other, x.tag, (s.operand l b).tag, 0, 0⟩) ∧
     (fmt ∉ [5, 6, 11] → Traps (.lutdot d a b slot bf) s c l t ⟨0x01, 0x0E, other, x.tag, (y 0).tag, 0, 0⟩))

/-! Conversions and tags. -/

/-- R132 to R134: conversions between numbers. That CVTF.BF16.F16 and CVTF.F16.BF16 read the half of a that .H names is the
model's reading of R132 (assumption log 18). -/
def Obligations.Conversions : Prop :=
  ∀ (s : State) (c : IssueCtx) (l : LaneRef) (t : Thread) (d a : Reg) (h u : Bool),
    let x := s.operand l a
    let old := s.operand l d
    let i := if h then 1 else 0
    let exc (f : FFmt) (n : Machine.Num) : Exc := (encodeF f false n).2
    let code (f : FFmt) (n : Machine.Num) : Nat := (encodeF f false n).1
    -- a result in one half of d, the other half 0 in the plain form and kept under .H, which re-derives the tag (R74)
    let half (op : CvtfOp) (f : FFmt) (n : Machine.Num) : Prop :=
      let src : TSrc := ⟨x.tag, n.special⟩
      let low : BitVec 16 := old.val.setWidth 16
      Gives (.cvtf op d a h) s c l t 4
        [(d, (if h then BitVec.ofNat 16 (code f n) ++ low else (BitVec.ofNat 16 (code f n)).setWidth 32),
          .rule (if h then [⟨old.tag, (decodeF f low.toNat).special⟩, src] else [src]) none (decide (exc f n ≠ 0)))]
        [] (exc f n)
    let wide (op : CvtfOp) (n : Machine.Num) : Prop :=
      Gives (.cvtf op d a h) s c l t 4
        [(d, BitVec.ofNat 32 (code .fp32 n), .rule [⟨x.tag, n.special⟩] none (decide (exc .fp32 n ≠ 0)))] [] (exc .fp32 n)
    let int (op : CvtiOp) (w : Nat) (sg : Bool) : Prop :=
      let r := encodeInt w sg (f32 x.val)
      Gives (.cvti op d a) s c l t 4
        [(d, (if sg then (BitVec.ofNat w r.1).signExtend 32 else (BitVec.ofNat w r.1).setWidth 32),
          .rule [f32Src x] none (decide (r.2 ≠ 0)))] [] r.2
    half .f16F32 .fp16 (f32 x.val) ∧ half .bf16F32 .bf16 (f32 x.val) ∧
    half .bf16F16 .bf16 (hnum false x.val i) ∧ half .f16Bf16 .fp16 (hnum true x.val i) ∧
    wide .f32F16 (hnum false x.val i) ∧ wide .f32Bf16 (hnum true x.val i) ∧
    int .i32 32 true ∧ int .u32 32 false ∧ int .i16 16 true ∧ int .i8 8 true ∧
    Gives (.cvtfi u d a) s c l t 4
      [(d, (toF32 (Machine.Num.ofInt (if u then (x.val.toNat : Int) else x.val.toInt))).1, .rule [⟨x.tag, false⟩] none false)] [] 0

/-- R135 to R137: packing and unpacking by a slot's format, with a channel scale in QUANT and DEQUANT. n elements of 32 / n bits
are packed, each rounded once; the register range must be legal for n (R108). That DEQUANT of format 10 multiplies the exact INT32 by b
and rounds once is the model's choice (assumption log 76).
R138: CBDEC gives eight elements, each level · s8 · S rounded once. -/
def Obligations.PackingAndCodebook : Prop :=
  (∀ (s : State) (c : IssueCtx) (l : LaneRef) (t : Thread) (d a b : Reg) (slot : BitVec 3) (n : Nat) (el : Elem),
     let desc := s.slotOf c slot
     let fmt := Slot.fmt desc
     let legal (r : Reg) : Bool := slotRangeOk (s.allocOf c) r n
     let w := 32 / n
     let B := s.operand l b
     let A := s.operand l a
     let raw (i : Nat) : TW := s.operand l (regPlus a i)
     let scaled (i : Nat) : Machine.Num × Exc := Machine.Num.mul (f32 (raw i).val) (f32 B.val)
     -- the element code and what it raises
     let code (v : Machine.Num × Exc) : Nat := (encodeElem el (Slot.sat desc) v.1).1
     let exc (v : Machine.Num × Exc) : Exc := v.2 ||| (encodeElem el (Slot.sat desc) v.1).2
     let all (f : Nat → Exc) : Exc := (List.range n).foldl (fun acc i => acc ||| f i) 0
     let packs (i : Instr) (v : Nat → Machine.Num × Exc) (more : List TSrc) : Prop :=
       let word := (List.range n).foldl (fun acc j => acc + code (v j) * 2 ^ (w * j)) 0
       let raised := all fun j => exc (v j)
       Gives i s c l t 4 [(d, BitVec.ofNat 32 word,
         .rule (((List.range n).map fun j => f32Src (raw j)) ++ more) none (decide (raised ≠ 0)))] [] raised
     let num (i : Nat) : Machine.Num := decodeElem el (A.val.toNat / 2 ^ (w * i) % 2 ^ w)
     let out (v : Machine.Num × Exc) : W32 := (toF32 v.1).1
     let oexc (v : Machine.Num × Exc) : Exc := v.2 ||| (toF32 v.1).2
     let product (i : Nat) : Machine.Num × Exc := Machine.Num.mul (num i) (f32 B.val)
     packCount fmt = some n → Elem.ofCode fmt = some el →
       (legal a → packs (.pack d a slot) (fun j => (f32 (raw j).val, 0)) []) ∧
       (legal a → packs (.quant d a b slot) scaled [f32Src B]) ∧
       (legal d → Gives (.unpack d a slot) s c l t 4
         ((List.range n).map fun i => (regPlus d i, out (num i, 0), .fixed A.tag)) [] (all fun i => oexc (num i, 0))) ∧
       (legal d → Gives (.dequant d a b slot) s c l t 4
         ((List.range n).map fun i => (regPlus d i, out (product i),
           .rule [⟨A.tag, (List.range n).any fun j => (num j).special⟩, f32Src B] none (decide (oexc (product i) ≠ 0))))
         [] (all fun i => oexc (product i)))) ∧
  (∀ (s : State) (c : IssueCtx) (l : LaneRef) (t : Thread) (d a b e : Reg),
     let x := s.operand l a
     let y := s.operand l b
     let z := s.operand l e
     let level (i : Nat) : Machine.Num := .fin (decide (cb4Level (x.val.toNat / 2 ^ (4 * i) % 16) < 0))
       (cb4Level (x.val.toNat / 2 ^ (4 * i) % 16)).natAbs (-10)
     let exact (i : Nat) : Machine.Num × Exc :=
       Machine.Num.mul (Machine.Num.mul (level i) (Machine.Num.ofNat (y.val.toNat % 256))).1 (f32 z.val)
     let code (f : FFmt) (i : Nat) : Nat := (encodeF f false (exact i).1).1
     let exc (f : FFmt) (i : Nat) : Exc := (exact i).2 ||| (encodeF f false (exact i).1).2
     let want (r : Exc) : TagWant := .rule [⟨x.tag, false⟩, ⟨y.tag, false⟩, f32Src z] none (decide (r ≠ 0))
     let all (f : FFmt) : Exc := (List.range 8).foldl (fun acc i => acc ||| exc f i) 0
     Gives (.cbdec d a b e false) s c l t 4
       ((List.range 8).map fun i => (regPlus d i, BitVec.ofNat 32 (code .fp32 i), want (exc .fp32 i))) [] (all .fp32) ∧
     Gives (.cbdec d a b e true) s c l t 4
       ((List.range 4).map fun j => (regPlus d j,
         BitVec.ofNat 16 (code .fp16 (2 * j + 1)) ++ BitVec.ofNat 16 (code .fp16 (2 * j)),
         want (exc .fp16 (2 * j) ||| exc .fp16 (2 * j + 1)))) [] (all .fp16))

/-- R139 to R141: tags read, set and born.
R32 and R115: LDK loads the literal that its offset names, which must be code; tags are null. -/
def Obligations.LiteralsAndTags : Prop :=
  (∀ (s : State) (c : IssueCtx) (l : LaneRef) (t : Thread) (d a b : Reg),
     let x := s.operand l a
     let y := s.operand l b
     Gives (.tagget d a) s c l t 2 [(d, x.tag.setWidth 32, .fixed 0)] [] 0 ∧
     Gives (.tagset (.value b) d a) s c l t 2 [(d, x.val, .fixed (y.val.setWidth 16))] [] 0 ∧
     Gives (.tagset .null d a) s c l t 2 [(d, x.val, .fixed 0)] [] 0 ∧
     Gives (.tagset (.copy b) d a) s c l t 2 [(d, x.val, .fixed y.tag)] [] 0 ∧
     Gives (.tagbirth d a) s c l t 2 [(d, x.val, .born)] [] 0) ∧
  (∀ (s : State) (c : IssueCtx) (l : LaneRef) (t : Thread) (d : Reg) (off : BitVec 16) (count : BitVec 8) (r : LaunchRec)
     (ws : List W64),
     s.recOf c = some r →
     (s.codeWords c.core c.launch (r.addrOf (r.idxOf c.pc + 1 + off.signExtend 32)) ((count.toNat + 1) / 2)).1 = (ws, none) →
       Gives (.ldk d off count) s c l t 6
         ((List.range count.toNat).map fun i =>
           (regPlus d i, ((ws.getD (i / 2) 0) >>> (32 * (i % 2))).setWidth 32, .fixed 0)) [] 0)

/-! Lanes. -/

/-- R171 to R173: a cross-lane copy takes the value and tag of the source lane, or the lane's own where the source lies outside
the segment or takes no part.
R175: predicates across the contributors of a group, and predicates of one thread. -/
def Obligations.LanesAndPredicates : Prop :=
  (∀ (s : State) (c : IssueCtx) (l : LaneRef) (t : Thread) (d a b : Reg) (w : SegWidth) (n : BitVec 2),
     let width : Nat := match w with
       | .w8 => 8
       | .w4 => 4
       | .w2 => 2
     let base := l.lane - l.lane % width
     let j := (s.operand l b).val.toNat % 8
     -- the source is a participant of the same group, if any stands in that lane
     let here (p : LaneRef) (k : Nat) : Prop := (p ∈ c.lanes ∨ p ∈ c.off) ∧ p.g = l.g ∧ p.lane = k
     let one (x : TW) : List Result := [(d, x.val, .fixed x.tag)]
     let copies (i : Instr) (k : Nat) : Prop :=
       (∀ p, here p k → (∀ q, here q k → q = p) → Gives i s c l t 6 (one (s.operand p a)) [] 0) ∧
       ((∀ p, ¬ here p k) → Gives i s c l t 6 (one (s.operand l a)) [] 0)
     copies (.shfl .idx d a b w) (base + j % width) ∧
     copies (.shfl .xor d a b w) (l.lane ^^^ (j % width)) ∧
     (base + j ≤ l.lane → copies (.shfl .up d a b w) (l.lane - j)) ∧
     (l.lane + j < base + width → copies (.shfl .dn d a b w) (l.lane + j)) ∧
     (l.lane < base + j → Gives (.shfl .up d a b w) s c l t 6 (one (s.operand l a)) [] 0) ∧
     (base + width ≤ l.lane + j → Gives (.shfl .dn d a b w) s c l t 6 (one (s.operand l a)) [] 0) ∧
     copies (.qswap .x d a) (l.lane ^^^ 1) ∧
     copies (.qswap .y d a) (l.lane ^^^ 2) ∧
     copies (.qswap .d d a) (l.lane ^^^ 3) ∧
     copies (.qbcast d a n) (l.lane / 4 * 4 + n.toNat)) ∧
  (∀ (s : State) (c : IssueCtx) (l : LaneRef) (t : Thread) (d a : Reg) (kd : BitVec 3) (ka kb : KSel),
     let p (x : LaneRef) : Bool := (s.rf x).ksel ka
     let mine (x : LaneRef) : Prop := x ∈ c.lanes ∧ x.g = l.g
     -- the mask of the contributors' lanes that meet a condition
     let mask (m : W32) (f : LaneRef → Prop) : Prop :=
       ∀ i < 32, m.getLsbD i = true ↔ ∃ x, mine x ∧ x.lane = i ∧ f x
     let own := s.rf l
     (∀ v : Bool, (v = true ↔ ∃ x, mine x ∧ p x = true) → Gives (.vote false kd ka) s c l t 6 [] [(kd, v)] 0) ∧
     (∀ v : Bool, (v = true ↔ ∀ x, mine x → p x = true) → Gives (.vote true kd ka) s c l t 6 [] [(kd, v)] 0) ∧
     (∃ m, mask m (fun x => p x = true) ∧ Gives (.voteBallot d ka) s c l t 6 [(d, m, .fixed 0)] [] 0) ∧
     (∀ v : Bool, (v = true ↔ ∀ x, mine x → l.lane ≤ x.lane) → Gives (.elect kd) s c l t 6 [] [(kd, v)] 0) ∧
     (∃ m, mask m (fun x => (s.operand x a).val = (s.operand l a).val) ∧
       Gives (.matchLanes d a) s c l t 6 [(d, m, .fixed 0)] [] 0) ∧
     Gives (.kop .and kd ka kb) s c l t 2 [] [(kd, own.ksel ka && own.ksel kb)] 0 ∧
     Gives (.kop .or kd ka kb) s c l t 2 [] [(kd, own.ksel ka || own.ksel kb)] 0 ∧
     Gives (.kop .xor kd ka kb) s c l t 2 [] [(kd, own.ksel ka != own.ksel kb)] 0 ∧
     Gives (.kop .andn kd ka kb) s c l t 2 [] [(kd, own.ksel ka && !own.ksel kb)] 0 ∧
     Gives (.kmovGet d) s c l t 2 [(d, (own.k ||| 1).setWidth 32, .fixed 0)] [] 0 ∧
     Gives (.kmovSet a) s c l t 2 []
       [(1, (s.operand l a).val.getLsbD 1), (2, (s.operand l a).val.getLsbD 2), (3, (s.operand l a).val.getLsbD 3),
        (4, (s.operand l a).val.getLsbD 4), (5, (s.operand l a).val.getLsbD 5), (6, (s.operand l a).val.getLsbD 6),
        (7, (s.operand l a).val.getLsbD 7)] 0)

/-- R72, R93 and R174: a reduction and a scan combine the contributors' values in the fixed tree, lanes 0 and 1, 2 and 3 and so on
first; a lane that does not contribute is passed over, and with no contributor the identity results, with tag 0. Every combine
takes its tag by the rule over the two partials, the lower lane's first; a birth of a launch without tagging is the site-only
tag. That TAGMODE is the receiving thread's at every combine is the model's choice (assumption log 32). -/
def Obligations.LaneReductions : Prop :=
  ∀ (s : State) (c : IssueCtx) (l : LaneRef) (t : Thread) (d a : Reg) (op : GredOp),
    -- a combine's value and what it raises
    let f32c (f : Machine.Num → Machine.Num → Machine.Num × Exc) (x y : W32) : W32 × Exc :=
      let r := f (f32 x) (f32 y)
      ((toF32 r.1).1, r.2 ||| (toF32 r.1).2)
    let f16c (f : Machine.Num → Machine.Num → Machine.Num × Exc) (x y : W32) : W32 × Exc :=
      let r (i : Nat) := f (hnum false x i) (hnum false y i)
      let w (i : Nat) := encodeF .fp16 false (r i).1
      (BitVec.ofNat 16 (w 1).1 ++ BitVec.ofNat 16 (w 0).1, ((r 0).2 ||| (w 0).2) ||| ((r 1).2 ||| (w 1).2))
    let least (x y : Machine.Num) : Machine.Num × Exc := ((Machine.Num.firstNan [x, y]).getD (Machine.Num.min x y), 0)
    let most (x y : Machine.Num) : Machine.Num × Exc := ((Machine.Num.firstNan [x, y]).getD (Machine.Num.max x y), 0)
    let value (o : GredOp) (x y : W32) : W32 × Exc :=
      match o with
      | .addF32 => f32c Machine.Num.add x y
      | .minF32 => f32c least x y
      | .maxF32 => f32c most x y
      | .addF16 => f16c Machine.Num.add x y
      | .minF16 => f16c least x y
      | .maxF16 => f16c most x y
      | .addI32 => (x + y, 0)
      | .minI32 => (if y.slt x then y else x, 0)
      | .maxI32 => (if x.slt y then y else x, 0)
      | .minU32 => (if y.ult x then y else x, 0)
      | .maxU32 => (if x.ult y then y else x, 0)
    let identity (o : GredOp) : W32 :=
      match o with
      | .addF32 | .addF16 | .addI32 | .maxU32 => 0
      | .minF32 => 0x7F800000
      | .maxF32 => 0xFF800000
      | .minF16 => 0x7C007C00
      | .maxF16 => 0xFC00FC00
      | .minI32 => 0x7FFFFFFF
      | .maxI32 => 0x80000000
      | .minU32 => 0xFFFFFFFF
    -- the sources and magnitudes of the tag rule; a tag is none where it depends on a record number
    let source (o : GredOp) (x : TW) : TSrc :=
      match o with
      | .addF32 | .minF32 | .maxF32 => f32Src x
      | .addF16 | .minF16 | .maxF16 => h2Src false x
      | _ => ⟨x.tag, false⟩
    let mags (o : GredOp) (x y : TW) : Option (List TDom) :=
      match o with
      | .addF32 => some [f32Mag x, f32Mag y]
      | .addF16 => some [h2Mag false x, h2Mag false y]
      | .addI32 => some [intMag x, intMag y]
      | _ => none
    let birth : Option Tag := (s.launch? c.launch).bind fun la =>
      if la.rec_.tags then none else some (0x8000 ||| ((la.rec_.idxOf c.pc).setWidth 12).setWidth 16)
    let tag (o : GredOp) (x y : W32 × Option Tag) : Option Tag :=
      x.2.bind fun p => y.2.bind fun q =>
        match tagrule t.sys.tagmode [source o ⟨x.1, p⟩, source o ⟨y.1, q⟩] (mags o ⟨x.1, p⟩ ⟨y.1, q⟩)
            (decide ((value o x.1 y.1).2 ≠ 0)) with
        | some g => some g
        | none => birth
    -- the tree
    let two (o : GredOp) (x y : Option (W32 × Option Tag) × Exc) : Option (W32 × Option Tag) × Exc :=
      match x.1, y.1 with
      | some u, some v => (some ((value o u.1 v.1).1, tag o u v), (value o u.1 v.1).2 ||| (x.2 ||| y.2))
      | some u, none => (some u, x.2 ||| y.2)
      | none, v => (v, x.2 ||| y.2)
    let tree (o : GredOp) (f : Nat → Option (W32 × Option Tag)) : Option (W32 × Option Tag) × Exc :=
      let p (j : Nat) := two o (f (2 * j), 0) (f (2 * j + 1), 0)
      two o (two o (p 0) (p 1)) (two o (p 2) (p 3))
    let from' (limit : Nat) (j : Nat) : Option (W32 × Option Tag) :=
      if j < limit then (c.lanes.find? fun x => decide (x.g = l.g) && decide (x.lane = j)).map fun x =>
        ((s.operand x a).val, some (s.operand x a).tag)
      else none
    let gives (i : Instr) (o : GredOp) (limit : Nat) : Prop :=
      let r := tree o (from' limit)
      ∃ g, Gives i s c l t 6 [(d, (r.1.map (·.1)).getD (identity o), .fixed g)] [] r.2 ∧
        match r.1 with
        | some u => ∀ h, u.2 = some h → g = h
        | none => g = 0
    gives (.gred op d a) op 8 ∧
    gives (.gscan .incAddI32 d a) .addI32 (l.lane + 1) ∧
    gives (.gscan .excAddI32 d a) .addI32 l.lane ∧
    gives (.gscan .incAddF32 d a) .addF32 (l.lane + 1) ∧
    gives (.gscan .excAddF32 d a) .addF32 l.lane ∧
    gives (.gscan .incMaxI32 d a) .maxI32 (l.lane + 1) ∧
    gives (.gscan .excMaxI32 d a) .maxI32 l.lane

/-- R33 to R35: where neither half of the word traps, a half acts as its primary instruction with d as both first source and
destination. -/
def Obligations.HalfWords : Prop :=
  ∀ (s : State) (c : IssueCtx) (l : LaneRef) (t : Thread) (d a : Reg),
    let x := s.operand l d
    let y := s.operand l a
    let X := f32 x.val
    let Y := f32 y.val
    let srcs := [⟨x.tag, false⟩, ⟨y.tag, false⟩]
    let int (i : Instr) (n : Nat) (v : W32) (doms : Option (List TDom)) : Prop :=
      HalfGives i s c l t n [(d, v, .rule srcs doms false)] 0
    let k := y.val.toNat % 256
    let raised (v : Machine.Num × Exc) : Exc := v.2 ||| (toF32 v.1).2
    let fp (i : Instr) (v : Machine.Num × Exc) (doms : Option (List TDom)) : Prop :=
      HalfGives i s c l t 4
        [(d, (toF32 v.1).1, .rule [f32Src x, f32Src y] doms (decide (raised v ≠ 0)))] (raised v)
    let nanOr (v : Machine.Num) : Machine.Num × Exc := ((Machine.Num.firstNan [X, Y]).getD v, 0)
    let two (i : Instr) (f : Machine.Num → Machine.Num → Machine.Num × Exc) (doms : Option (List TDom)) : Prop :=
      let v (j : Nat) := f (hnum false x.val j) (hnum false y.val j)
      let w (j : Nat) := encodeF .fp16 false (v j).1
      let r := ((v 0).2 ||| (w 0).2) ||| ((v 1).2 ||| (w 1).2)
      HalfGives i s c l t 4
        [(d, pack16 (w 0).1 (w 1).1, .rule [h2Src false x, h2Src false y] doms (decide (r ≠ 0)))] r
    exec .nopHalf s = .next s ∧
    int (.iaddHalf d a) 2 (x.val + y.val) (some [intMag x, intMag y]) ∧
    int (.isubHalf d a) 2 (x.val - y.val) (some [intMag x, intMag y]) ∧
    int (.imulHalf d a) 4 (x.val * y.val) none ∧
    int (.iminHalf d a) 2 (if y.val.toInt < x.val.toInt then y.val else x.val) none ∧
    int (.imaxHalf d a) 2 (if x.val.toInt < y.val.toInt then y.val else x.val) none ∧
    int (.andHalf d a) 2 (x.val &&& y.val) none ∧
    int (.orHalf d a) 2 (x.val ||| y.val) none ∧
    int (.xorHalf d a) 2 (x.val ^^^ y.val) none ∧
    int (.shlHalf d a) 2 (x.val <<< k) none ∧
    int (.shrHalf d a) 2 (x.val >>> k) none ∧
    int (.sarHalf d a) 2 (x.val.sshiftRight k) none ∧
    HalfGives (.movHalf d a) s c l t 2 [(d, y.val, .fixed y.tag)] 0 ∧
    fp (.faddHalf d a) (Machine.Num.add X Y) (some [f32Mag x, f32Mag y]) ∧
    fp (.fsubHalf d a) (Machine.Num.sub X Y) (some [f32Mag x, f32Mag y]) ∧
    fp (.fmulHalf d a) (Machine.Num.mul X Y) none ∧
    fp (.fminHalf d a) (nanOr (Machine.Num.min X Y)) none ∧
    fp (.fmaxHalf d a) (nanOr (Machine.Num.max X Y)) none ∧
    two (.hadd2Half d a) Machine.Num.add (some [h2Mag false x, h2Mag false y]) ∧
    two (.hmul2Half d a) Machine.Num.mul none

/-! Control. -/

/-- R145: a branch goes to the word after it plus its offset, an indirect jump to the word that a names; NOP and YIELD do nothing
of their own.
R80 and R145: a call pushes the index of the next word below STKP and goes to its target; RET waits for the word at STKP and
at its point goes there. That a write of STKP by the word before is overwritten is the model's choice (assumption log 75). -/
def Obligations.BranchesAndCalls : Prop :=
  (∀ (s : State) (c : IssueCtx) (l : LaneRef) (t : Thread) (off : BitVec 24) (a : Reg) (r : LaunchRec),
     (∀ idx : W32, r.addrOf idx = r.code + 8 * idx.setWidth 64) ∧
     exec .nop s = .next s ∧
     exec .yield s = .next s ∧
     (s.recOf c = some r →
       Becomes (.bra off) s c l t { t with pc := r.addrOf (r.idxOf c.pc + 1 + off.signExtend 32) } ∧
       Becomes (.jmpi a) s c l t { t with pc := r.addrOf (s.operand l a).val })) ∧
  (∀ (s : State) (c : IssueCtx) (l : LaneRef) (t : Thread) (off : BitVec 24) (a : Reg) (r : LaunchRec) (f : Flock),
     let here := r.idxOf c.pc
     let sp := t.sys.stkp - 4
     -- a write of STKP by the word before is overwritten (assumption log 75)
     let mts := t.mts.filter fun m => !decide (m.num = 0x030)
     let called (target : W32) : Thread :=
       { t.awaits (c.cycle + 3) with pc := r.addrOf target, sys := { t.sys with stkp := sp }, mts := mts }
     let push : Access := ⟨f.uid, sp.toNat, .push [⟨here + 1, 0⟩], [], none⟩
     (ExecutesAlone s c l t → s.recOf c = some r → LocalOk s l f sp 4 →
       Queues (.call off) s c l (called (here + 1 + off.signExtend 32)) 3 push ∧
       Queues (.calli a) s c l (called (s.operand l a).val) 3 push) ∧
     (ExecutesAlone s c l t → LocalOk s l f t.sys.stkp 4 →
       Queues .ret s c l { (t.undecided c).awaits (c.cycle + 3) with mts := mts } 3 ⟨f.uid, t.sys.stkp.toNat, .ret, [], none⟩) ∧
     -- the point comes with a tick of the clock, while the thread waits for it
     (∀ (la : Launch) (x : ScratchAcc) (u : Thread), l.helper = false → x.lane = l → x.op = .ret → s.flock? x.flock = some f →
       s.launch? f.launch = some la → s.thread? l.tid = some u →
         (s.scratchPoint x).thread? l.tid = some { u with
           pc := la.rec_.addrOf (Mem.read32 f.mem (x.addr / 4 * 4)),
           sys := { u.sys with stkp := u.sys.stkp + 4 },
           sleep := if u.sleep = .deciding then .awake else u.sleep }))

/-- R158, R159 and R176: TRAP and BRK trap with their immediate in TINFO; TREN and TRET at depth 0 trap ILLEGAL, reason 0x13; a
system register that does not exist or may not be written traps PRIV. -/
def Obligations.SoftwareTraps : Prop :=
  ∀ (s : State) (c : IssueCtx) (l : LaneRef) (t : Thread) (imm : BitVec 16) (n : BitVec 8) (num : BitVec 12) (d a : Reg),
    c.half = .full →
    let other : W32 := (c.word >>> 32).setWidth 32
    Traps (.trap imm) s c l t ⟨0x0B, imm.setWidth 32, 0, 0, 0, 0, 0⟩ ∧
    Traps (.brk n) s c l t ⟨0x0C, n.setWidth 32, 0, 0, 0, 0, 0⟩ ∧
    (t.sys.depth = 0 → Traps .tren s c l t ⟨0x01, 0x13, other, 0, 0, 0, 0⟩) ∧
    (t.sys.depth = 0 → Traps .tret s c l t ⟨0x01, 0x13, other, 0, 0, 0, 0⟩) ∧
    (s.sysValue l num = none → Traps (.mfs d num) s c l t ⟨0x02, num.setWidth 32, 0, 0, 0, 0, 0⟩) ∧
    (sysWritable t.sys num = false →
      Traps (.mts num a) s c l t ⟨0x02, num.setWidth 32, 0, (s.operand l a).tag, 0, 0, 0⟩)

/-- R159: TREN saves the trap state below STKP and allows re-entry; TRET returns to TPCH:TPCL one depth lower, and at depth 2 or
more takes the trap state back from the stack at its point, returning to TPCH:TPCL as it read them. That a write of STKP by the word before is
overwritten is the model's choice (assumption log 75). -/
def Obligations.TrapNestingAndReturn : Prop :=
  ∀ (s : State) (c : IssueCtx) (l : LaneRef) (t : Thread) (f : Flock),
    let sp := t.sys.stkp - 32
    let y := t.sys
    -- a write of STKP by the word before is overwritten (assumption log 75)
    let mts := t.mts.filter fun m => !decide (m.num = 0x030)
    (Executes s c l t → t.sys.depth = 1 →
      Becomes .tret s c l t { t with pc := y.tpc, sys := { y with depth := 0 } }) ∧
    (ExecutesAlone s c l t → 2 ≤ t.sys.depth.toNat → LocalOk s l f t.sys.stkp 4 → t.sys.stkp.toNat + 32 ≤ f.size →
      Queues .tret s c l { (t.undecided c).awaits (c.cycle + 3) with mts := mts } 3 ⟨f.uid, t.sys.stkp.toNat, .tretPop y.tpc, [], none⟩) ∧
    (∀ (x : ScratchAcc) (u : Thread) (tpc : W64), l.helper = false → x.lane = l → x.op = .tretPop tpc → s.flock? x.flock = some f →
      s.thread? l.tid = some u →
      u.sleep = .deciding →
      let w (i : Nat) : W32 := Mem.read32 f.mem ((x.addr + 4 * i) / 4 * 4)
      (s.scratchPoint x).thread? l.tid = some { u with
        pc := tpc, sleep := .awake,
        sys := { u.sys with
          tpc := w 1 ++ w 0, tcause := (w 2).setWidth 8, tinfo := w 3, tinfoh := w 4, ttag0 := (w 5).setWidth 16,
          ttag1 := (w 6).setWidth 16, ttag2 := (w 7).setWidth 16, stkp := u.sys.stkp + 32, depth := u.sys.depth - 1,
          re := true } }) ∧
    (ExecutesAlone s c l t → t.sys.depth ≠ 0 → LocalOk s l f sp 4 → sp.toNat + 32 ≤ f.size →
      Queues .tren s c l { t.awaits (c.cycle + 3) with sys := { y with stkp := sp, re := true }, mts := mts } 3
        ⟨f.uid, sp.toNat, .push ([y.tpc.setWidth 32, (y.tpc >>> 32).setWidth 32, y.tcause.setWidth 32, y.tinfo, y.tinfoh,
          y.ttag0.setWidth 32, y.ttag1.setWidth 32, y.ttag2.setWidth 32].map fun w => ⟨w, 0⟩), [], none⟩)

/-- R197: taking a trap. With a handler and room the thread is in its handler with the trap state saved, its region closed; without
one, or out of room, it stops for good, and the first to do so ends its launch. Nothing else changes of any other thread or memory.
R58, R194 and Table 8.1: a thread of which a word raises an exception that is enabled in FCR traps with the lowest of those, keeps
what was raised in FSR, and its destination is not written; a trap from either half of a pair word takes effect from neither, half A's
before half B's, whose trap sets HALF in TFDET. -/
def Obligations.TrapEntry : Prop :=
  (∀ (s : State) (u : ThreadId) (t : Thread) (g : Group) (la : Launch) (ti : TrapInfo) (pc : W64) (ready : Nat) (code : Byte),
     let s' := s.takeTrap u ti pc ready
     (Handled s u t g la ti → s'.thread? u = some (t.inHandler la.rec_ ti pc ready) ∧ s'.launches = s.launches ∧
       ∀ r, g.region u.lane = some r → r.members.contains u.lane = true → ∃ g', s'.group? u.g = some g' ∧ g'.region u.lane = none) ∧
     (s.group? u.g = some g → s.thread? u = some t → s.launch? g.launch = some la →
       (∀ x ∈ [ti.t0, ti.t1, ti.t2], s.recordPending g.launch x = false) →
       (la.rec_.handler = 0xFFFFFFFF ∧ code = ti.cause ∨
         la.rec_.handler ≠ 0xFFFFFFFF ∧ (t.sys.depth = 15 ∨ (t.sys.depth ≠ 0 ∧ t.sys.re = false)) ∧ code = 0x16) →
       s'.thread? u = some { t with sleep := .ended, fatal := some ti } ∧
       s'.launch? g.launch = some { la with
         ending := if la.ending = none then some 1 else la.ending,
         fatal := if la.fatal = none then some ⟨ti, pc, t.sys.logid, code, g.core, s.tick⟩ else la.fatal }) ∧
     (∀ v, v ≠ u → s'.thread? v = s.thread? v) ∧ s'.mem = s.mem ∧ s'.flocks = s.flocks ∧ s'.scratch = s.scratch ∧
     s'.gaccs = s.gaccs) ∧
  (∀ (s : State) (c : IssueCtx) (l : LaneRef) (t : Thread) (d a b e : Reg) (f : Flag) (g : Group) (la : Launch) (i other : Instr),
     let x := s.operand l a
     let y := s.operand l b
     let z := s.operand l e
     let D := s.operand l d
     let X := f32 x.val
     let Y := f32 y.val
     let Z := f32 z.val
     let raised (v : Machine.Num × Exc) : Exc := v.2 ||| (toF32 v.1).2
     let tags : Tag × Tag × Tag := (x.tag, y.tag, 0)
     let one (i : Instr) (v : Machine.Num × Exc) : Prop := Raises i s c l t (raised v) (x.tag, 0, 0)
     let two (i : Instr) (v : Machine.Num × Exc) : Prop := Raises i s c l t (raised v) tags
     let halves (bf : Bool) (v : Nat → Machine.Num × Exc) : Exc :=
       let n (j : Nat) : Exc := (v j).2 ||| (encodeF (if bf then .bf16 else .fp16) false (v j).1).2
       n 0 ||| n 1
     let h (bf : Bool) (r : TW) (j : Nat) : Machine.Num := hnum bf r.val j
     two (.fadd d a b) (Machine.Num.add X Y) ∧ two (.fsub d a b) (Machine.Num.sub X Y) ∧ two (.fmul d a b) (Machine.Num.mul X Y) ∧
     Raises (.ffma d a b e) s c l t (raised (Machine.Num.fma X Y Z)) (x.tag, y.tag, z.tag) ∧
     one (.frcp d a f) (rcpNum X) ∧ one (.frsq d a f) (rsqNum X) ∧ one (.fsqrt d a f) (sqrtNum X) ∧ two (.fdiv d a b f) (divNum X Y) ∧
     one (.fexp2 d a f) (exp2Fn X) ∧ one (.flog2 d a f) (log2Fn X) ∧ one (.fsin d a f) (trigFn false X) ∧
     one (.fcos d a f) (trigFn true X) ∧
     (∀ bf, Raises (.hadd2 d a b bf) s c l t (halves bf fun j => Machine.Num.add (h bf x j) (h bf y j)) tags ∧
       Raises (.hsub2 d a b bf) s c l t (halves bf fun j => Machine.Num.sub (h bf x j) (h bf y j)) tags ∧
       Raises (.hmul2 d a b bf) s c l t (halves bf fun j => Machine.Num.mul (h bf x j) (h bf y j)) tags) ∧
     (∀ ex : Exc, ex ≠ 0 → ∃ n : Nat, n < 6 ∧ ex.getLsbD n = true ∧ (∀ j < n, ex.getLsbD j = false) ∧
       excCause ex = (if n = 5 then 0x18 else BitVec.ofNat 8 (5 + n))) ∧
     -- a pair word: `ex` is what this half raises
     (∀ (ex : Exc) (fp : Machine.Num × Exc), ex = raised fp →
       ((i = .faddHalf d a ∧ fp = Machine.Num.add (f32 D.val) X) ∨ (i = .fsubHalf d a ∧ fp = Machine.Num.sub (f32 D.val) X) ∨
         (i = .fmulHalf d a ∧ fp = Machine.Num.mul (f32 D.val) X)) →
       s.cur = some c → c.lanes = [l] → l.helper = false → s.thread? l.tid = some t → c.partner = some other →
       let ti : TrapInfo := ⟨excCause (ex &&& t.sys.fcr), 0, 0, D.tag, x.tag, 0, if c.half = .b then 0x20 else 0⟩
       (ex &&& t.sys.fcr ≠ 0 → Handled s l.tid t g la ti → c.half = .a ∨ (c.half = .b ∧ s.partnerTraps c l = false) →
         ∃ s', exec i s = .next s' ∧ s'.thread? l.tid =
           some ({ t with sys := { t.sys with fsr := t.sys.fsr ||| ex } }.inHandler la.rec_ ti c.pc (c.cycle + 4))) ∧
       (c.half ≠ .full → s.partnerTraps c l = true → (c.half = .a → ex &&& t.sys.fcr = 0) →
         ∃ s', exec i s = .next s' ∧ s'.thread? l.tid = some t)))

/-- R147 to R149: arriving at a barrier. The phase a thread arrives at goes on by one when every counted thread of the flock, or of
its paddock under BARP and .PAD, has arrived; the last arrival at BARF wakes 4 cycles later, at BARP 12.
R149: a sleeper whose wake cycle has come is ready. -/
def Obligations.Barriers : Prop :=
  (∀ (s : State) (c : IssueCtx) (l : LaneRef) (t : Thread) (g : Group) (n : BitVec 4) (pad : Bool) (d a : Reg),
     ExecutesAlone s c l t → s.group? l.g = some g →
     (pad = true → s.padSet c = true ∧ ∃ la, s.launch? g.launch = some la) →
     (pad = false → ∃ f, s.flockAt? g.launch g.core g.slot = some f) →
     let b := s.barrier pad g.launch g.core g.slot n.toNat
     let counted := s.countedThreads pad g.launch g.core g.slot
     let arrived := b.arrived ++ [t.sys.logid]
     let all : Bool := !counted.isEmpty && counted.all fun u => (s.thread? u).any fun x => arrived.contains x.sys.logid
     let after : Barrier := if all then ⟨b.phase + 1, []⟩ else ⟨b.phase, arrived⟩
     let wake := s.cycle g.core + (if pad then 12 else 4)
     let bar : Instr := if pad then .barp n else .barf n
     let passed (v : W32) : Bool := decide (1 ≤ (b.phase - v).toNat ∧ (b.phase - v).toNat < 2 ^ 31)
     (∃ s', exec bar s = .next s' ∧ s'.barrier pad g.launch g.core g.slot n.toNat = after ∧
       s'.thread? l.tid = some { t with
         sleep := .barrier pad n b.phase (if all && counted.contains l.tid then some wake else none) }) ∧
     (t.sleep = .awake → ∃ s', exec (.arrive d n pad) s = .next s' ∧
       s'.barrier pad g.launch g.core g.slot n.toNat = after ∧
       s'.thread? l.tid = some (t.given c 2 [(d, ⟨b.phase, 0⟩)] [] 0)) ∧
     (passed (s.operand l a).val = true → exec (.bwait a n pad) s = .next s) ∧
     (passed (s.operand l a).val = false →
       Becomes (.bwait a n pad) s c l t { t with sleep := .bwait pad n (s.operand l a).val none })) ∧
  (∀ (s : State) (u : ThreadId) (g : Group) (t : Thread) (pad : Bool) (n : BitVec 4) (v : W32) (w : Nat),
     s.group? u.g = some g → s.thread? u = some t → (t.sleep = .barrier pad n v (some w) ∨ t.sleep = .bwait pad n v (some w)) →
       ∃ s', exec (.barrierWake u.g) s = .next s' ∧
         s'.thread? u = some (if w ≤ s.cycle g.core then { t with sleep := .awake } else t))

/-- R176, R177 and Tables 3.6, 3.7, 4.5, 6.10, 6.13: what MFS reads from each system register.
R176: MTS takes effect two cycles later, and what it then does to each register it may write.
R160: after ISYNC the core holds no line of the launch's code; lines of other launches stay. -/
def Obligations.SystemRegisters : Prop :=
  (∀ (s : State) (c : IssueCtx) (l : LaneRef) (t : Thread) (d : Reg) (g : Group) (la : Launch) (num : BitVec 12) (v : W32),
     Executes s c l t → s.group? l.g = some g → s.launch? g.launch = some la →
     let y := t.sys
     let now := s.timestamp (dieOf g.core)
     let high : W32 := BitVec.ofNat 32 (now / 2 ^ 32)
     let clkh : Option W32 := if num = 0x050 then some high else if num = 0x051 then none else y.clkh
     (num, v) ∈ ([
       (0x000, y.tagmode.setWidth 32), (0x001, y.fcr.setWidth 32), (0x002, y.fsr.setWidth 32),
       (0x010, y.tpc.setWidth 32), (0x011, (y.tpc >>> 32).setWidth 32), (0x012, y.tcause.setWidth 32),
       (0x014, y.tinfo), (0x015, y.tinfoh), (0x016, y.ttag0.setWidth 32), (0x017, y.ttag1.setWidth 32),
       (0x018, y.ttag2.setWidth 32), (0x019, (if y.re then 16 else 0) ||| y.depth.setWidth 32), (0x01A, la.rec_.handler),
       (0x020, if y.schken then 1 else 0), (0x030, y.stkp), (0x040, y.logid),
       (0x050, BitVec.ofNat 32 now), (0x051, y.clkh.getD high), (0x060, y.hashl), (0x070, la.rec_.mode.setWidth 32),
       (0x100, BitVec.ofNat 32 (t.count .copy + 64 * t.count .gather + 4096 * t.count .tile + 262144 * t.count .aa +
         16777216 * t.count .coll)),
       (0x101, t.flags.setWidth 32), (0x102, y.engerr.setWidth 32), (0x103, y.tfdet),
       (0x104, BitVec.ofNat 32 (y.cerrCopy.toNat + 256 * y.cerrColl.toNat + (if y.cerrSat then 65536 else 0))),
       (0x105, y.terr.setWidth 32), (0x106, y.aerr.setWidth 32)] : List (BitVec 12 × W32)) →
     ∃ s', exec (.mfs d num) s = .next s' ∧
       s'.thread? l.tid = some { t.given c 2 [(d, ⟨v, 0⟩)] [] 0 with sys := { t.sys with clkh := clkh } }) ∧
  (∀ (s : State) (c : IssueCtx) (l : LaneRef) (t : Thread) (a : Reg) (num : BitVec 12) (y : SysRegs) (v : W32) (cyc : Nat),
     (num ∈ ([0x000, 0x001, 0x002, 0x020, 0x030, 0x102, 0x104] : List (BitVec 12)) ∨
         (num ∈ ([0x010, 0x011] : List (BitVec 12)) ∧ t.sys.depth ≠ 0) →
       Becomes (.mts num a) s c l t { t with mts := t.mts ++ [⟨c.cycle + 2, num, (s.operand l a).val⟩] }) ∧
     (t.landDue cyc).sys = ((t.mts.filter fun m => decide (m.cyc ≤ cyc)).foldl (fun y m => State.sysWrite y m.num m.val) t.sys) ∧
     State.sysWrite y 0x000 v = { y with tagmode := v.setWidth 2 } ∧
     State.sysWrite y 0x001 v = { y with fcr := v.setWidth 6 } ∧
     State.sysWrite y 0x002 v = { y with fsr := y.fsr &&& ~~~(v.setWidth 6) } ∧
     State.sysWrite y 0x010 v = { y with tpc := ((y.tpc >>> 32).setWidth 32 : W32) ++ v } ∧
     State.sysWrite y 0x011 v = { y with tpc := v ++ (y.tpc.setWidth 32 : W32) } ∧
     State.sysWrite y 0x020 v = { y with schken := v.getLsbD 0 } ∧
     State.sysWrite y 0x030 v = { y with stkp := v &&& 0xFFFFFFFC } ∧
     State.sysWrite y 0x102 v = { y with engerr := y.engerr &&& ~~~(v.setWidth 5) } ∧
     State.sysWrite y 0x104 v = { y with cerrSat := y.cerrSat && !v.getLsbD 16 }) ∧
  (∀ (s : State) (c : IssueCtx) (l : LaneRef) (t : Thread), Executes s c l t →
     ∃ s', exec .isync s = .next s' ∧
       (∀ e, e ∈ (s'.core c.core).icache ↔ e ∈ (s.core c.core).icache ∧ e.1 ≠ c.launch) ∧ s'.mem = s.mem ∧
       s'.groups = s.groups)

/-- R152 to R154: waiting. WAITC goes on at once when the class's counter is low enough, traps ENGINE where the class's error bit
is set, clearing it, and else sleeps; FENCE sleeps on the accesses before it that its kind covers, WAITA on its word: it wakes two
cycles after the point at which its condition holds, its own or a later write's, with the word in d. -/
def Obligations.WaitingWords : Prop :=
  ∀ (s : State) (c : IssueCtx) (l : LaneRef) (t : Thread) (cls : EngClass) (n : BitVec 6) (kind : FenceKind) (scope : Scope)
    (mask : BitVec 5) (ne : Bool) (d a b : Reg) (f : Flock) (g : Group) (la : Launch),
    let x := s.operand l a
    let y := s.operand l b
    let waits : Nat := (t.outs.filter fun o => decide (o.cls = cls)).length
    let bit := t.sys.engerr.getLsbD cls.toNat
    let cleared := { t with sys := { t.sys with engerr := t.sys.engerr &&& ~~~((1 : BitVec 5) <<< cls.toNat) } }
    (waits ≤ n.toNat → bit = false → Becomes (.waitc cls n) s c l t { t with sleep := .awake }) ∧
    (n.toNat < waits → Becomes (.waitc cls n) s c l t { t with sleep := .waitc cls n.toNat }) ∧
    (waits ≤ n.toNat → bit = true → ExecutesAlone s c l t →
      Handled s l.tid t g la ⟨0x14, BitVec.ofNat 32 cls.toNat, 0, 0, 0, 0, 0⟩ →
      ∃ s', exec (.waitc cls n) s = .next s' ∧ s'.thread? l.tid =
        some (cleared.inHandler la.rec_ ⟨0x14, BitVec.ofNat 32 cls.toNat, 0, 0, 0, 0, 0⟩ c.pc (c.cycle + 4))) ∧
    (∃ ids ticket, (∀ id, id ∈ ids ↔ (kind ≠ .acq ∧ ∃ z ∈ s.gaccs, z.id = id ∧ z.lane = l ∧ z.unit = false ∧
          (∀ k, z.op ≠ .load k) ∧ (∀ k, z.op ≠ .readRecord k)) ∨
        (kind ≠ .rel ∧ ∃ z ∈ t.flagged, z.id = id ∧ z.acq = true)) ∧
      (ticket.isSome = decide (kind = .sc)) ∧
      Becomes (.fence kind scope mask) s c l t { t with sleep := .fence scope mask ids ticket }) ∧
    (ExecutesAlone s c l t → LocalOk s l f x.val 4 →
      Queues (.waita ne d a b) s c l
        { t.awaits (c.cycle + 3) with sleep := .waita x.val.toNat ne y.val d true [] none, nextIssue := max t.nextIssue (c.cycle + 4) }
        3 ⟨f.uid, x.val.toNat, .waita, [d], none⟩) ∧
    -- at its own point, and at the point of a store to the word
    (∀ (z : ScratchAcc) (addr : Nat) (cmp : W32) (hs : List Nat) (v : TW), s.flock? z.flock = some f → s.thread? l.tid = some t →
      let holds (v : W32) : Prop := if ne then v ≠ cmp else v = cmp
      let woken (v : TW) (at_ : Nat) : Thread := { t with
        rf := t.rf.put d v, sleep := .waita addr ne cmp d false hs (some at_), parity := t.parity.filter fun p => !decide (p.1 = d) }
      let after (t' : Thread) : Prop := (s.scratchPoint z).thread? l.tid = some t'
      (z.op = .waita → z.lane = l → t.sleep = .waita addr ne cmp d true hs none →
        let v : TW := ⟨Mem.read32 f.mem (addr / 4 * 4), f.tagAt addr⟩
        (holds v.val → after (woken v (z.due + 2))) ∧ (¬ holds v.val → after { t with sleep := .waita addr ne cmp d false hs none })) ∧
      (z.op = .store .word [v] → addr = z.addr → addr % 4 = 0 → t.sleep = .waita addr ne cmp d false hs none → t.present = true →
        s.group? l.g = some g → (∀ h ∈ s.groups, h.uid = l.g → h = g) → g.launch = f.launch → g.core = f.core → g.slot = f.slot →
        (holds v.val → after (woken v (s.cycle f.core + 2))) ∧ (¬ holds v.val → after t)) ∧
      (t.sleep = .waita addr ne cmp d false hs (some n.toNat) → s.wakeDue n.toNat t = { t with sleep := .awake }))

/-- R87 to R90: QENTER opens a region for a quad without one, with the quad's active threads as members and a copy of the lowest
member's registers for each other lane; QLEAVE closes it.
R81, R85, R146, R157, R161 and R202: EXIT empties its lane, and the group goes with its last present one; SAFEPT goes on at once
where its partition is not stopping, and else stops the thread with the liveness map of the eight code words it names; TMARK
records only in a window with marks; a forced issue is taken by its port. -/
def Obligations.RegionsAndLeaving : Prop :=
  (∀ (s : State) (c : IssueCtx) (l : LaneRef) (t : Thread) (g : Group) (members : List Nat) (low : Nat),
     ExecutesAlone s c l t → s.group? l.g = some g →
     -- the lanes of the quad that stand at the word, in rising order
     (∀ n, n ∈ members ↔ n = l.lane ∨ ∃ x ∈ c.off, x.helper = false ∧ x.g = l.g ∧ x.lane / 4 = l.lane / 4 ∧ x.lane = n) →
     members.Pairwise (· < ·) → members.head? = some low → c.off.Nodup → l ∉ c.off →
     let others := ((List.range 4).map fun i => 4 * (l.lane / 4) + i).filter fun i => !members.contains i
     (g.region l.lane = none → ∃ s', exec .qenter s = .next s' ∧
       s'.group? l.g = some (g.setRegion l.lane
         (some ⟨members, others.map fun i => (i, { s.rf ⟨l.g, low, false⟩ with pend := [] })⟩))) ∧
     (∀ r, g.region l.lane = some r → exec .qenter s = .next s) ∧
     (∀ r, g.region l.lane = some r → r.members.contains l.lane = true →
       ∃ s', exec .qleave s = .next s' ∧ s'.group? l.g = some (g.setRegion l.lane none))) ∧
  (∀ (s : State) (c : IssueCtx) (l : LaneRef) (t : Thread) (g : Group) (r : LaunchRec) (f : Flock) (off : BitVec 16) (a : Reg)
     (imm : BitVec 16) (w : TraceWindow) (core port : Nat) (d : Due) (ws : List W64),
     let stands : Prop := ∃ i u, i ≠ l.lane ∧ g.lanes[i]? = some u ∧ u.present = true
     (ExecutesAlone s c l t → s.group? l.g = some g → stands →
       ∃ s', exec .exit s = .next s' ∧ s'.thread? l.tid = some Thread.absent) ∧
     (ExecutesAlone s c l t → s.group? l.g = some g → ¬ stands →
       ∃ s', exec .exit s = .next s' ∧ s'.group? l.g = none) ∧
     (s.cur = some c → s.stopping c.launch = false → exec (.safept off) s = .next s) ∧
     (s.stopping c.launch = true → s.recOf c = some r → s.flockOf? l.g = some f →
       (s.codeWords c.core c.launch (r.addrOf (r.idxOf c.pc + 1 + off.signExtend 32)) 8).1.1 = ws →
       Becomes (.safept off) s c l t { t with stop := some ⟨false, parseMap f.size ws⟩, sleep := .stopped }) ∧
     (ExecutesAlone s c l t → s.recOf c = some r → s.trace.window = some w →
       exec (.tmark a imm) s = .next (if w.marks && r.tmark then
         s.traceEmit (dieOf c.core) .mark (valueBytes 2 imm.toNat ++ [0, 0] ++ valueBytes 4 (s.operand l a).val.toNat ++
           valueBytes 4 t.sys.logid.toNat) (s.timestamp (dieOf c.core)) c.launch
         else s)) ∧
     (s.trace.window = none → exec (.tmark a imm) s = .next s) ∧
     (s.toForce core port = some d →
       ∃ s', exec (.forcedIssue core port) s = .next s' ∧ (s'.port core port).forced = some (d.g.uid, d.lane) ∧
         s'.groups = s.groups ∧ s'.mem = s.mem))

/-! Scratchpad. -/

/-- R162 to R165: a scratchpad load or store is queued for its point, 3 cycles after its issue for a local address and 12 for a
paddock one; a load's result is reserved at 6 cycles, a paddock load's armed under its flag. -/
def Obligations.ScratchpadLoadsAndStores : Prop :=
  ∀ (s : State) (c : IssueCtx) (l : LaneRef) (t : Thread) (w : Width) (d a : Reg) (off : BitVec 16) (off8 : BitVec 8)
    (fl : Flag) (f : Flock) (y : Nat),
    ExecutesAlone s c l t →
    let base := (s.operand l a).val
    let ds := regRange d w.regs
    let vs := ds.map (s.operand l)
    let stored := State.hashSettle { t with hashq := t.hashq ++ vs.map fun v => (c.seq, some (match w with
      | .b | .bs => v.val &&& 0xFF
      | .h | .hs => v.val &&& 0xFFFF
      | _ => v.val)) }
    let at_ := base + off.signExtend 32
    let atp := base + off8.signExtend 32 * BitVec.ofNat 32 w.bytes
    (LocalOk s l f at_ w.bytes →
      Queues (.ld w d a off) s c l ((t.reserved c 6 true ds).awaits (c.cycle + 3)) 3
        ⟨f.uid, at_.toNat, .load w, ds, none⟩ ∧
      Queues (.st w d a off) s c l (stored.awaits (c.cycle + 3)) 3 ⟨f.uid, at_.toNat, .store w vs, [], none⟩) ∧
    (LocalOk s l f at_ 4 →
      Queues (.ldt d a off) s c l ((t.reserved c 6 true [d]).awaits (c.cycle + 3)) 3
        ⟨f.uid, at_.toNat, .loadTag, [d], none⟩) ∧
    (PadOk s c l f atp y w.bytes →
      Queues (.ldp w d a off8 fl) s c l ((t.armed c fl 24 s.nextUid ds false none).awaits (c.cycle + 12)) 12
        ⟨f.uid, y, .load w, ds, some s.nextUid⟩) ∧
    (PadOk s c l f at_ y w.bytes →
      Queues (.stp w d a off) s c l (stored.awaits (c.cycle + 12)) 12 ⟨f.uid, y, .store w vs, [], none⟩)

/-- R162, R166, R194 and R18: a scratchpad access of any form outside the window traps SP_RANGE, else one out of alignment ALIGN, with the
address in TINFO, the sources' tags, and WRITE in TFDET for a store, an atomic or a cell write (Table 8.2); a paddock access without
paddocks traps ILLEGAL, reason 0x14, one that names no flock SP_RANGE, and in deterministic mode an ATOMP to another core RACE.
R194, R199, R320 and R334: a global access of any form out of alignment traps ALIGN, one to a page that refuses it ACCESS, an atomic to
host or peer memory ACCESS, and in deterministic mode a write outside its ranges OWNERSHIP or RACE (Table 19.3). One whose page is not
present, or is the host's, puts its thread into the fault sleep at the word, with no trap state changed; where no fault service is set
up it traps PAGE. -/
def Obligations.AccessTraps : Prop :=
  (∀ (s : State) (c : IssueCtx) (l : LaneRef) (t : Thread) (op : AtomOp) (w : Width) (d a b e : Reg) (off : BitVec 16) (off8 : BitVec 8)
     (fl : Flag) (k : BitVec 8) (f : Flock),
     c.half = .full → s.flockOf? l.g = some f →
     let x := s.operand l a
     let y := (s.operand l b).tag
     let z : Tag := if op = .cas then (s.operand l e).tag else 0
     let at_ := x.val + off.signExtend 32
     let atp := x.val + off8.signExtend 32 * BitVec.ofNat 32 w.bytes
     let refuses (i : Instr) (addr : W32) (n : Nat) (write : W32) (t1 t2 : Tag) : Prop :=
       (f.size < addr.toNat + n → Traps i s c l t ⟨0x03, addr, 0, x.tag, t1, t2, write⟩) ∧
       (addr.toNat + n ≤ f.size → addr.toNat % n ≠ 0 → Traps i s c l t ⟨0x04, addr, 0, x.tag, t1, t2, write⟩)
     let padRefuses (i : Instr) (addr : W32) (n : Nat) (write : W32) (t1 : Tag) (race : Bool) : Prop :=
       let trap (cause : Byte) : Prop := Traps i s c l t ⟨cause, addr, 0, x.tag, t1, 0, write⟩
       (s.padSet c = false → Traps i s c l t ⟨0x01, 0x14, (c.word >>> 32).setWidth 32, x.tag, t1, 0, 0⟩) ∧
       (s.padSet c = true → s.padTarget l addr = none → trap 0x03) ∧
       (∀ h p, s.padSet c = true → s.padTarget l addr = some (h, p) → (h.size < p + n → trap 0x03) ∧ (p + n ≤ h.size → p % n ≠ 0 → trap 0x04)) ∧
       (∀ h p, PadOk s c l h addr p n → race = true → s.isDet c = true → h.core ≠ c.core → trap 0x10)
     refuses (.ld w d a off) at_ w.bytes 0 0 0 ∧ refuses (.st w d a off) at_ w.bytes 1 0 0 ∧ refuses (.ldt d a off) at_ 4 0 0 0 ∧
     refuses (.atom op d a b e) x.val 4 1 y z ∧ refuses (.celladd a b k) x.val 32 1 y 0 ∧ refuses (.cellclr a) x.val 32 1 0 0 ∧
     refuses (.cellrdF32 d a k) x.val 32 0 0 0 ∧ refuses (.cellrdRaw d a) x.val 32 0 0 0 ∧
     padRefuses (.ldp w d a off8 fl) atp w.bytes 0 0 false ∧ padRefuses (.stp w d a off) at_ w.bytes 1 0 false ∧
     padRefuses (.atomp op d a b fl) x.val 4 1 y true) ∧
  (∀ (s : State) (c : IssueCtx) (l : LaneRef) (t : Thread) (w : GWidth) (op : AtomOp) (d a b : Reg) (fl : Flag) (k : BitVec 8) (la : Launch),
     c.half = .full → s.launch? c.launch = some la →
     let va : W64 := (s.operand l (regPlus a 1)).val ++ (s.operand l a).val
     let tag := (s.operand l a).tag
     let y := (s.operand l b).tag
     let lo : W32 := va.setWidth 32
     let hi : W32 := (va >>> 32).setWidth 32
     let hi16 : W32 := ((va >>> 32).setWidth 16).setWidth 32
     let page (n : Nat) (kind : AccKind) : Trans := (s.accessPage (coreLoc c.core) la.fn va n kind).1
     let refused (i : Instr) (n : Nat) (kind : AccKind) (t1 : Tag) : Prop :=
       let write : W32 := if kind = .read then 0 else 1
       let trap (cause : Byte) (more : W32) : Prop := Traps i s c l t ⟨cause, lo, hi, tag, t1, 0, write ||| more⟩
       (va.toNat % n ≠ 0 → trap 0x04 0) ∧
       (va.toNat % n = 0 → ∀ perm, page n kind = .access perm → trap 0x0E (if perm then 4 else 0)) ∧
       (va.toNat % n = 0 → page n kind = .notPresent ∨ page n kind = .hostOwned →
         let ti : TrapInfo := ⟨0x0D, lo, hi16, tag, t1, 0, write ||| (if page n kind = .hostOwned then 8 else 2) ||| 16⟩
         ((s.fnMemOf la.fn).fqsize = 0 → Traps i s c l t ti) ∧
         ((s.fnMemOf la.fn).fqsize ≠ 0 → ExecutesAlone s c l t → ∃ s', exec i s = .next s' ∧ s'.gaccs = s.gaccs ∧
           s'.thread? l.tid = some { t with sleep := .fault (va.toNat / 65536) ti, pc := c.pc } ∧ s'.waits la.fn (.thread l.tid) = true))
     let ranged (i : Instr) (n : Nat) (kind : AccKind) (gatom : Bool) : Prop := ∀ pa tier pk tagged,
       va.toNat % n = 0 → page n kind = .ok pa tier pk tagged →
       let trap (cause : Byte) (up : W32) : Prop := Traps i s c l t ⟨cause, lo, up, tag, y, 0, 1⟩
       let owner := s.laneOwner c l va n
       (kind = .atomic → 2 ≤ tier → trap 0x0E hi) ∧
       ((kind = .atomic → tier < 2) → la.rec_.det = true →
         (owner = .outside ∨ owner = .other ∧ gatom = false → trap 0x0F hi16) ∧
         (gatom = true → owner = .other ∨ owner = .shared → trap 0x10 hi16))
     refused (.gld w d a fl) (4 * w.regs) .read 0 ∧ refused (.gst w a b) (4 * w.regs) .write y ∧
     refused (.gatom op d a b fl) 4 .atomic y ∧ refused (.gcelladd a b k) 32 .atomic y ∧
     ranged (.gst w a b) (4 * w.regs) .write false ∧ ranged (.gatom op d a b fl) 4 .atomic (decide (op ≠ .amax)) ∧
     ranged (.gcelladd a b k) 32 .atomic false)

/-- R166 and R167: atomics and cell words are queued for their points. -/
def Obligations.AtomicAndCellWords : Prop :=
  ∀ (s : State) (c : IssueCtx) (l : LaneRef) (t : Thread) (op : AtomOp) (d a b e : Reg) (fl : Flag) (w : BitVec 8) (f : Flock)
    (y : Nat),
    ExecutesAlone s c l t →
    let x := s.operand l a
    let v := s.operand l b
    let cmp (r : Reg) : TW := if op = .cas then s.operand l r else ⟨0, 0⟩
    let hashed := State.hashSettle { t with hashq := t.hashq ++ [(c.seq, none)] }
    let cell := LocalOk s l f x.val 32
    let five := regRange d 5
    (LocalOk s l f x.val 4 →
      Queues (.atom op d a b e) s c l ((hashed.reserved c 6 true [d]).awaits (c.cycle + 3)) 3
        ⟨f.uid, x.val.toNat, .atom op v (cmp e), [d], none⟩) ∧
    (PadOk s c l f x.val y 4 → (s.isDet c = true → f.core = c.core) →
      Queues (.atomp op d a b fl) s c l ((hashed.armed c fl 24 s.nextUid [d] false none).awaits (c.cycle + 12)) 12
        ⟨f.uid, y, .atom op v (cmp (regPlus b 1)), [d], some s.nextUid⟩) ∧
    (cell → Queues (.celladd a b w) s c l (t.awaits (c.cycle + 3)) 3 ⟨f.uid, x.val.toNat, .cellAdd v w, [], none⟩) ∧
    (cell → Queues (.cellclr a) s c l (t.awaits (c.cycle + 3)) 3 ⟨f.uid, x.val.toNat, .cellClr, [], none⟩) ∧
    (cell → Queues (.cellrdF32 d a w) s c l (((t.reserved c 6 true [d]).undecided c).awaits (c.cycle + 3)) 3
      ⟨f.uid, x.val.toNat, .cellRdF32 w, [d], none⟩) ∧
    (cell → Queues (.cellrdRaw d a) s c l ((t.reserved c 6 true five).awaits (c.cycle + 3)) 3
      ⟨f.uid, x.val.toNat, .cellRdRaw, five, none⟩)

/-- R165 and R74: what a store does at its point: whole words with their tags, a sub-word merged into its word with the tag
re-derived, every byte outside the stored ones as before, and nothing of another flock or of global memory.
R165: what a load gives: bytes and halfwords zero-extended or sign-extended, words in order, each with the tag of the word that
holds its bytes.
R166 and Table 6.6: the new word of an atomic and where its tag comes from; a tie keeps the old word.
R62: a cell's addend is an integer modulo 2^144 or a sticky bit, so that the order of addends does not matter to the cell's value
and sticky bits.
R61 to R64 and Table 3.9: what an addend does to a cell: a finite one that is a whole number of units is added modulo 2^144, any
other one rounded to the nearest, ties to even; a NaN or an infinity sets its sticky bit and adds nothing. What CELLRD.F32 reads of it.
R63, R64, R166, R167 and R375: what the cell words and an atomic do at their points, 32 or 4 bytes of one flock, and nothing else:
CELLADD writes the sum with its tag on all eight words, CELLCLR zeros, the reads nothing; a read's and an atomic's result land with
their value, CELLRD.F32's unless an exception it raises is enabled: then it traps. -/
def Obligations.ScratchpadPoints : Prop :=
  (∀ (s : State) (x : ScratchAcc) (f : Flock) (w : Width) (vals : List TW),
     s.flock? x.flock = some f → x.op = .store w vals → x.addr % w.bytes = 0 → vals.length = w.regs →
     ∃ f', (s.scratchPoint x).flock? x.flock = some f' ∧
       (∀ a, (a < x.addr ∨ x.addr + w.bytes ≤ a) → Mem.read f'.mem a = Mem.read f.mem a) ∧
       (∀ i v, vals[i]? = some v → w.bytes = 4 * w.regs →
         Mem.read32 f'.mem (x.addr + 4 * i) = v.val ∧ f'.tagAt (x.addr + 4 * i) = v.tag) ∧
       (∀ v, vals = [v] → w.bytes < 4 →
         Mem.readNat f'.mem x.addr w.bytes = v.val.toNat % 2 ^ (8 * w.bytes) ∧
         (let old := f.tagAt x.addr
          let first := if x.addr % 4 = 0 then v.tag else old
          let second := if x.addr % 4 = 0 then old else v.tag
          f'.tagAt x.addr = if first = 0 then second else first)) ∧
       (∀ a, (a / 4 < x.addr / 4 ∨ (x.addr + w.bytes + 3) / 4 ≤ a / 4) → f'.tagAt a = f.tagAt a) ∧
       f'.size = f.size ∧ f'.barriers = f.barriers ∧ f'.pens = f.pens ∧
       (∀ u, u ≠ x.flock → (s.scratchPoint x).flock? u = s.flock? u) ∧ (s.scratchPoint x).mem = s.mem) ∧
  (∀ (f : Flock) (a : Nat),
     let byte (i : Nat) : BitVec 8 := Mem.read f.mem (a + i)
     let half : BitVec 16 := byte 1 ++ byte 0
     let tag (b : Nat) : Tag := f.tagAt b
     let word (b : Nat) : TW := ⟨Mem.read f.mem (b + 3) ++ Mem.read f.mem (b + 2) ++ Mem.read f.mem (b + 1) ++ Mem.read f.mem b,
       tag b⟩
     loadWords f .b a = [⟨(byte 0).setWidth 32, tag a⟩] ∧
     loadWords f .bs a = [⟨(byte 0).signExtend 32, tag a⟩] ∧
     loadWords f .h a = [⟨half.setWidth 32, tag a⟩] ∧
     loadWords f .hs a = [⟨half.signExtend 32, tag a⟩] ∧
     (a % 4 = 0 →
       loadWords f .word a = [word a] ∧ loadWords f .w2 a = [word a, word (a + 4)] ∧
       loadWords f .w4 a = [word a, word (a + 4), word (a + 8), word (a + 12)])) ∧
  (∀ (old b : TW) (cmp : W32),
     atomNew .add old b cmp = (old.val + b.val, .rule true) ∧
     atomNew .min old b cmp = (if b.val.slt old.val then (b.val, .b) else (old.val, .old)) ∧
     atomNew .max old b cmp = (if old.val.slt b.val then (b.val, .b) else (old.val, .old)) ∧
     atomNew .umin old b cmp = (if b.val.ult old.val then (b.val, .b) else (old.val, .old)) ∧
     atomNew .umax old b cmp = (if old.val.ult b.val then (b.val, .b) else (old.val, .old)) ∧
     atomNew .and old b cmp = (old.val &&& b.val, .rule false) ∧
     atomNew .or old b cmp = (old.val ||| b.val, .rule false) ∧
     atomNew .xor old b cmp = (old.val ^^^ b.val, .rule false) ∧
     atomNew .exch old b cmp = (b.val, .b) ∧
     atomNew .cas old b cmp = (if old.val = cmp then (b.val, .b) else (old.val, .old))) ∧
  (∀ (v sticky : Nat) (x y : W32) (l : BitVec 8), v < 2 ^ 144 →
     let one := cellSum v sticky x l
     let other := cellSum v sticky y l
     cellSum one.1 one.2 y l = cellSum other.1 other.2 x l ∧ one.1 < 2 ^ 144) ∧
  (∀ (v st m : Nat) (e : Int) (x : W32) (l : BitVec 8) (neg : Bool), v < 2 ^ 144 → st < 8 →
     let plus (q : Nat) : Nat := (((v : Int) + (if neg then -(q : Int) else q)) % 2 ^ 144).toNat
     (f32 x = .fin neg m e → l.toInt ≤ e → cellSum v st x l = (plus (m * 2 ^ (e - l.toInt).toNat), st)) ∧
     (f32 x = .fin neg m e → e < l.toInt → ∃ q, cellSum v st x l = (plus q, st) ∧
       let unit := 2 ^ (l.toInt - e).toNat
       2 * m ≤ (2 * q + 1) * unit ∧ 2 * q * unit ≤ 2 * m + unit ∧
         (2 * m = (2 * q + 1) * unit ∨ 2 * q * unit = 2 * m + unit → q % 2 = 0)) ∧
     ((f32 x).isNan = true → cellSum v st x l = (v, st ||| 1)) ∧
     (f32 x = .inf false → cellSum v st x l = (v, st ||| 2)) ∧
     (f32 x = .inf true → cellSum v st x l = (v, st ||| 4)) ∧
     (st % 2 = 1 ∨ st / 2 = 3 → cellRead v st l = (0x7FC00000, Exc.iv)) ∧
     cellRead v 2 l = (0x7F800000, 0) ∧ cellRead v 4 l = (0xFF800000, 0) ∧
     (let i : Int := if v < 2 ^ 143 then v else (v : Int) - 2 ^ 144
      cellRead v 0 l = toF32 (.fin (decide (i < 0)) i.natAbs l.toInt))) ∧
  (∀ (s : State) (x : ScratchAcc) (f : Flock) (t : Thread) (g : Group) (la : Launch) (v b : TW) (k : BitVec 8) (op : AtomOp) (cmp : TW) (d : Reg)
     (due : Nat) (q : List Landing),
     s.flock? x.flock = some f → x.lane.helper = false → s.thread? x.lane.tid = some t → x.flagId = none →
     let s' := s.scratchPoint x
     let writes (n : Nat) (p : Flock → Prop) : Prop := ∃ f', s'.flock? x.flock = some f' ∧ p f' ∧
       (∀ a, (a < x.addr ∨ x.addr + n ≤ a) → Mem.read f'.mem a = Mem.read f.mem a ∧ f'.tagAt a = f.tagAt a) ∧
       f'.size = f.size ∧ f'.barriers = f.barriers ∧ f'.pens = f.pens ∧ (∀ u, u ≠ x.flock → s'.flock? u = s.flock? u) ∧ s'.mem = s.mem
     let cell (f' : Flock) (val sticky : Nat) (tag : Tag) : Prop := Mem.readNat f'.mem x.addr 18 = val ∧
       Mem.read f'.mem (x.addr + 18) = BitVec.ofNat 8 sticky ∧ (∀ i, 19 ≤ i → i < 32 → Mem.read f'.mem (x.addr + i) = 0) ∧
       ∀ i < 8, f'.tagAt (x.addr + 4 * i) = tag
     let reads : Prop := s'.flocks = s.flocks ∧ s'.mem = s.mem
     -- the result's writes in flight, and what they become
     let waits (ds : List Reg) : List Landing := (ds.filter fun r => decide (r ≠ .zero)).map (fun r => ⟨due, x.seq, .reg r, none⟩) ++ [⟨due, x.seq, .reg .last, none⟩]
     let lands (ds : List Reg) (ws : List TW) : List Landing :=
       ((ds.zip ws).filter fun p => decide (p.1 ≠ .zero)).map (fun p => ⟨due, x.seq, .reg p.1, some p.2⟩) ++ [⟨due, x.seq, .reg .last, ws.getLast?⟩]
     let sticky := (Mem.read f.mem (x.addr + 18)).toNat
     let sum := cellSum (Mem.readNat f.mem x.addr 18) (sticky % 8) v.val k
     let got := cellRead (Mem.readNat f.mem x.addr 18) (sticky % 8) k
     let word (i : Nat) : W32 := Mem.read32 f.mem (x.addr + 4 * i)
     let old : TW := ⟨Mem.read32 f.mem x.addr, f.tagAt x.addr⟩
     (x.addr % 32 = 0 →
       (x.op = .cellAdd v k → writes 32 fun f' => cell f' sum.1 sum.2 (cellTagAfter (f.tagAt x.addr) (sticky % 8) v)) ∧
       (x.op = .cellClr → writes 32 fun f' => cell f' 0 0 0) ∧
       (x.op = .cellRdRaw → x.dests = regRange d 5 → x.dests.Nodup → t.rf.pend = waits x.dests → .last ∉ x.dests →
         reads ∧ ∃ t', s'.thread? x.lane.tid = some t' ∧ t'.rf.pend = lands x.dests
           ([word 0, word 1, word 2, word 3, word 4 &&& 0x00FFFFFF].map fun w => ⟨w, f.tagAt x.addr⟩)) ∧
       (x.op = .cellRdF32 k → x.dests = [d] → t.rf.pend = waits [d] ++ q → (∀ w ∈ q, w.seq ≠ x.seq) →
         (got.2 &&& x.fcr = 0 → got.2 = 0 ∨ x.mode = 0 → t.sleep = .deciding →
           reads ∧ s'.thread? x.lane.tid = some { t with
             rf := { t.rf with pend := lands [d] [⟨got.1, f.tagAt x.addr⟩] ++ q }, sleep := .awake,
             sys := { t.sys with fsr := t.sys.fsr ||| got.2 } }) ∧
         (let ti : TrapInfo := ⟨excCause (got.2 &&& x.fcr), 0, 0, x.tags.1, x.tags.2.1, x.tags.2.2, 0⟩
          got.2 &&& x.fcr ≠ 0 → Handled s x.lane.tid t g la ti →
           let u : Thread := { t with rf := { t.rf with pend := q }, sys := { t.sys with fsr := t.sys.fsr ||| got.2 } }
           s'.thread? x.lane.tid = some (u.inHandler la.rec_ ti x.pc (x.due + 1))))) ∧
     (x.addr % 4 = 0 → x.op = .atom op b cmp → x.dests = [d] → t.rf.pend = waits [d] → t.sleep = .awake →
       let new := atomNew op old b cmp.val
       writes 4 (fun f' => Mem.read32 f'.mem x.addr = new.1 ∧
         ∀ h, TagWant.settled x.mode (atomWant new.2 old b) = some h → f'.tagAt x.addr = h) ∧
       ∃ t', s'.thread? x.lane.tid = some t' ∧ t'.rf.pend = lands [d] [old]))

/-! Global memory. -/

/-- R168 and R169: a global access is put in flight at its page and counted in GATHER; a load and an atomic arm their flag. -/
def Obligations.GlobalWords : Prop :=
  ∀ (s : State) (c : IssueCtx) (l : LaneRef) (t : Thread) (w : GWidth) (op : AtomOp) (d a b : Reg) (fl : Flag) (k : BitVec 8)
    (la : Launch) (gr : Group) (pa tier pk : Nat) (tagged : Bool),
    ExecutesAlone s c l t →
    let va : W64 := (s.operand l (regPlus a 1)).val ++ (s.operand l a).val
    let y := s.operand l b
    let ds := regRange d w.regs
    let vs := (regRange b w.regs).map (s.operand l)
    let id := s.nextUid
    let hashed (q : List (Nat × Option W32)) : Thread := State.hashSettle { t with hashq := t.hashq ++ q }
    let ok (n : Nat) (kind : AccKind) (g : Bool) : Prop := GlobalOk s c l va n kind g la gr pa tier pk tagged
    (ok (4 * w.regs) .read false →
      Accesses (.gld w d a fl) s c l ((t.counting .gather id).armed c fl Config.globalMin (id + 1) ds true (some id)) va pa tier
        pk tagged (.load w.regs) (some (id + 1))) ∧
    (ok (4 * w.regs) .write false →
      Accesses (.gst w a b) s c l ((hashed (vs.map fun v => (c.seq, some v.val))).counting .gather id) va pa tier pk tagged
        (.store vs) none) ∧
    (ok 4 .atomic (decide (op ≠ .amax)) →
      Accesses (.gatom op d a b fl) s c l
        (((hashed [(c.seq, none)]).counting .gather id).armed c fl Config.globalMin (id + 1) [d] true (some id)) va pa tier pk
        tagged (.atom op y (s.operand l d).val) (some (id + 1))) ∧
    (ok 32 .atomic false →
      Accesses (.gcelladd a b k) s c l (t.counting .gather id) va pa tier pk tagged (.cellAdd y k) none)

/-- R155, R165, R179, R340 and R347: a store in flight that may be performed, and whose line is good, writes its words at its physical
address, on a tagged page their tags at theirs, and nothing else, and its operation finishes; to host or peer memory it is kept until it is
acknowledged. One whose line is bad by then (R354) writes nothing, and its thread traps ACCESS at its word, which is the model's choice of
when (assumption log 82).
R155, R166, R169 and R62: a load in flight that may be performed gives its flagged result the words at its physical address, and
changes no memory; an atomic to device memory gives the old word and writes the new one, on a tagged page with its tag by the rule; an
addend to a cell is added to the cell's value and sticky bits.
R155 and R347: a write to host or peer memory that is performed at .DEV is done when it is acknowledged. -/
def Obligations.GlobalPerformed : Prop :=
  (∀ (s : State) (id : Nat) (g : GAcc) (vs : List TW),
     s.gaccs.find? (fun x => decide (x.id = id)) = some g → s.accReady g = true → g.unit = false → g.op = .store vs →
     let ta := s.tagAddr g.tier g.pa
     let n := vs.length
     let mine (x : GAcc) : Bool := decide (x.id = id)
     (s.atLine g = (.ok, s) → g.pa % 64 + 4 * n ≤ 64 → s.cxlFull g.pa = false →
       (g.tagged = true → s.cxlFull ta = false ∧ tierBase g.tier ≤ g.pa ∧ (ta + 2 * n ≤ g.pa ∨ g.pa + 4 * n ≤ ta)) →
       ∃ s', exec (.globalAccessPerform id .plain) s = .next s' ∧
         s'.gaccs = (if 2 ≤ g.tier then updateWhere mine (fun x => ({ x with performed := true } : GAcc)) s.gaccs
           else s.gaccs.filter fun x => !mine x) ∧
         (∀ i v, vs[i]? = some v → Mem.read32 s'.mem (g.pa + 4 * i) = v.val ∧
           (g.tagged = true → s'.readTag g.tier (g.pa + 4 * i) = v.tag)) ∧
         (∀ a, (a < g.pa ∨ g.pa + 4 * n ≤ a) → (g.tagged = true → a < ta ∨ ta + 2 * n ≤ a) → Mem.read s'.mem a = Mem.read s.mem a) ∧
         s'.flocks = s.flocks) ∧
     (∀ p s1 t gr la, s.atLine g = (p, s1) → p ≠ .ok → g.flagId = none → (∀ cls k, t.sleep ≠ .waitc cls k) →
       let ti : TrapInfo := ⟨0x0E, g.va.setWidth 32, (g.va >>> 32).setWidth 32, g.tags.1, g.tags.2.1, g.tags.2.2, 1⟩
       Handled s g.lane.tid t gr la ti → ∃ s' t', exec (.globalAccessPerform id .plain) s = .next s' ∧ s'.mem = s1.mem ∧
         s'.gaccs = s.gaccs.filter (fun x => !mine x) ∧ s'.thread? g.lane.tid = some t' ∧ t'.pc = la.rec_.addrOf la.rec_.handler ∧
         t'.sys.tcause = 0x0E ∧ t'.sys.tinfo = ti.info ∧ t'.sys.tinfoh = ti.infoh ∧ t'.sys.tpc = g.pc ∧ t'.sys.tfdet = 1 ∧
         t'.sys.depth = t.sys.depth + 1)) ∧
  (∀ (s : State) (id n fid : Nat) (g : GAcc) (t : Thread) (f : FlagRes) (op : AtomOp) (b x : TW) (cmp : W32) (k : BitVec 8),
     s.gaccs.find? (fun x => decide (x.id = id)) = some g → s.accReady g = true → g.unit = false → g.lane.helper = false →
     s.atLine g = (.ok, s) → s.thread? g.lane.tid = some t →
     let ta := s.tagAddr g.tier g.pa
     let word (i : Nat) : TW := ⟨Mem.read32 s.mem (g.pa + 4 * i), if g.tagged then s.readTag g.tier (g.pa + 4 * i) else g.site⟩
     -- device memory whose write counters are not full, with tags that lie apart
     let writable (n : Nat) : Prop := g.tier < 2 ∧ s.cxlFull g.pa = false ∧ (g.tagged = true → s.cxlFull ta = false ∧
       tierBase g.tier ≤ g.pa ∧ (ta + n / 2 ≤ g.pa ∨ g.pa + n ≤ ta))
     let outside (n : Nat) (s' : State) : Prop := ∀ a, (a < g.pa ∨ g.pa + n ≤ a) → (g.tagged = true → a < ta ∨ ta + n / 2 ≤ a) →
       Mem.read s'.mem a = Mem.read s.mem a
     (g.flagId = some fid → t.flagged = [f] → f.id = fid →
       (g.op = .load n → ∃ s', exec (.globalAccessPerform id .plain) s = .next s' ∧
         s'.gaccs = s.gaccs.filter (fun x => !decide (x.id = id)) ∧ s'.mem = s.mem ∧
         s'.thread? g.lane.tid = some { t with flagged := [{ f with vals := some ((List.range n).map word) }] }) ∧
       (g.op = .atom op b cmp → writable 4 → (∀ la, s.launch? g.launch = some la → la.rec_.record = false ∧ la.rec_.replay = false) →
         ∃ s' u, exec (.globalAccessPerform id .plain) s = .next s' ∧
           Mem.read32 s'.mem g.pa = (atomNew op (word 0) b cmp).1 ∧ outside 4 s' ∧
           (g.tagged = true → ∀ h, TagWant.settled g.mode (atomWant (atomNew op (word 0) b cmp).2 (word 0) b) = some h →
             s'.readTag g.tier g.pa = h) ∧
           s'.thread? g.lane.tid = some u ∧ u.flagged = [{ f with vals := some [word 0] }])) ∧
     (g.op = .cellAdd x k → writable 32 →
       let sum := cellSum (Mem.readNat s.mem g.pa 18) ((Mem.read s.mem (g.pa + 18)).toNat % 8) x.val k
       ∃ s', exec (.globalAccessPerform id .plain) s = .next s' ∧ Mem.readNat s'.mem g.pa 18 = sum.1 ∧
         Mem.read s'.mem (g.pa + 18) = BitVec.ofNat 8 sum.2 ∧ (∀ i, 19 ≤ i → i < 32 → Mem.read s'.mem (g.pa + i) = 0) ∧ outside 32 s')) ∧
  (∀ (s : State) (id : Nat) (g : GAcc),
     s.gaccs.find? (fun x => decide (x.id = id)) = some g → g.performed = true →
     exec (.hostPortAcknowledge id) s = .next { s with gaccs := s.gaccs.filter fun x => !decide (x.id = id) })

/-- R67, R141: the tag a birth gives, here TAGBIRTH's: the site-only tag where the launch has no tagging, the origin unit has stopped
or the table has no number left, which is counted at header +4; the number of the key in the core's origin cache; else the lowest
number of the reserve, which it takes, caches and records. That numbers are kept for the births of accesses in flight is the model's
choice (assumption log 55).
R142, R143 and Table 5.9: ORIGIN answers at once for a tag that names no record of the table, and else reads the record.
R68: when the refill's atomic add returns, the reserve takes the eight numbers after the table's count, as far as the table
goes, and the count is eight higher; with four or fewer still, and a table that is not at its end, the unit adds again. -/
def Obligations.Origins : Prop :=
  (∀ (s : State) (c : IssueCtx) (l : LaneRef) (t : Thread) (d a : Reg) (g : Group) (la : Launch) (n : Nat),
     let x := s.operand l a
     (ExecutesAlone s c l t → s.group? l.g = some g → s.launch? c.launch = some la →
       let st : Tag := 0x8000 ||| ((la.rec_.idxOf c.pc).setWidth 12).setWidth 16
       let unit (s : State) := s.originUnit c.core c.launch
       let cache (s : State) := (s.core c.core).originCache
       let mine (e : OriginEnt) : Bool := decide (e.launch = c.launch ∧ e.site = st ∧ e.logical = g.logical)
       let births (tag : Tag) (more : State → Prop) : Prop := ∃ s', exec (.tagbirth d a) s = .next s' ∧
         s'.thread? l.tid = some (t.given c 2 [(d, ⟨x.val, tag⟩)] [] 0) ∧ more s'
       (la.rec_.tags = false → births st fun s' => s'.gaccs = s.gaccs) ∧
       (la.rec_.tags = true →
         (∀ e, (cache s).find? mine = some e → births (BitVec.ofNat 16 e.num) fun s' => s'.gaccs = s.gaccs) ∧
         ((cache s).find? mine = none →
           ((unit s).stopped = true → births st fun s' => s'.gaccs = s.gaccs) ∧
           ((unit s).stopped = false → (unit s).reserve = [] → (unit s).full = true → births st fun s' =>
             ∃ z, s'.gaccs = s.gaccs ++ [z] ∧ z.va = la.rec_.origbase + 4 ∧ z.op = .overflow) ∧
           ((unit s).stopped = false → n ∈ (unit s).reserve → (∀ m ∈ (unit s).reserve, n ≤ m) →
             (s.pledged c.core c.launch).length < (unit s).reserve.length → births (BitVec.ofNat 16 n) fun s' =>
               (cache s').head? = some ⟨c.launch, st, g.logical, n⟩ ∧
               (unit s').reserve.length + 1 = (unit s).reserve.length ∧
               ∃ z, s'.gaccs = s.gaccs ++ [z] ∧ z.va = la.rec_.origbase + 16 * BitVec.ofNat 64 n ∧
                 z.op = .record n [st.setWidth 32, BitVec.ofNat 32 g.logical,
                   BitVec.ofNat 32 (coreX c.core + 256 * coreY c.core + 65536 * g.slot + 16777216 * l.lane),
                   BitVec.ofNat 32 (s.timestamp (dieOf c.core))]))))) ∧
  (∀ (s : State) (c : IssueCtx) (l : LaneRef) (t : Thread) (d a : Reg) (f : Flag) (la : Launch) (pa tier pk : Nat)
     (tagged : Bool),
     ExecutesAlone s c l t → s.launch? c.launch = some la →
     let x : Tag := (s.operand l a).val.setWidth 16
     let named := x ≠ 0 ∧ x.toNat < 0x8000 ∧ la.rec_.tags = true ∧ x.toNat ≤ la.rec_.orign - 1 ∧ 1 ≤ la.rec_.orign
     let kind : W32 := if x = 0 then 0 else if x.toNat < 0x8000 then 0x07000000
       else if x.toNat < 0xA000 then 0x02000000 ||| (x.setWidth 32 &&& 0x1FFF) else if x = 0xFFFD then 0x03000000
       else if x = 0xFFFE then 0x04000000 else if x = 0xFFFF then 0x05000000 else 0x06000000
     let n := Config.globalMin
     (¬ named → ∃ s', exec (.origin d a f) s = .next s' ∧
       s'.thread? l.tid = some (t.flaggedGiven c f n n s.nextUid
         ((regRange d 4).zip [⟨kind, 0⟩, ⟨0xFFFFFFFF, 0⟩, ⟨0, 0⟩, ⟨0, 0⟩]) 0)) ∧
     (named → (s.accessPage (coreLoc c.core) la.fn (la.rec_.origbase + 16 * x.setWidth 64) 16 .read).1 = .ok pa tier pk tagged →
       ∃ s' g, exec (.origin d a f) s = .next s' ∧ s'.gaccs = s.gaccs ++ [g] ∧ g.op = .readRecord x.toNat ∧ g.pa = pa ∧
         g.flagId = some (s.nextUid + 1) ∧
         s'.thread? l.tid = some (t.armed c f n (s.nextUid + 1) (regRange d 4) false none))) ∧
  (∀ (s : State) (core launch pa pk : Nat) (u : OriginUnit) (la : Launch),
     (s.core core).origin = [(launch, u)] → u.refill = true → u.stopped = false → s.launch? launch = some la →
     s.waits la.fn (.origin core launch) = false →
     (s.accessPage (coreLoc core) la.fn la.rec_.origbase 4 .atomic).1 = .ok pa 0 pk false → pa + 4 ≤ 2 ^ 38 →
     let v := Mem.read32 (s.accessPage (coreLoc core) la.fn la.rec_.origbase 4 .atomic).2.mem pa
     ∃ s', exec (.originRefillDone core) s = .next s' ∧ Mem.read32 s'.mem pa = v + 8 ∧
       (s'.originUnit core launch).reserve = u.reserve ++
         (((List.range 8).map fun i => v.toNat + 1 + i).filter fun n => decide (n ≤ la.rec_.orign - 1)) ∧
       (s'.originUnit core launch).refill = (decide ((s'.originUnit core launch).reserve.length ≤ 4) &&
         !decide (la.rec_.orign - 1 ≤ v.toNat)))

/-! Copy engine. -/

/-- R207 to R211, R225 and R233: a copy command of the bellwether group joins the thread's open batch, or is counted in COLL, and its
block is read at the scratchpad point; any other group traps ISSUE_RIGHTS.
R209 and R210: sealing a batch counts it in COPY under its number and opens the next; while it has members in the queue it is not
finished. AUTO_SEAL does the same for a thread at EXIT or SUSPEND.
R235: CPYQ gives the counts of the thread's batches, or of the engine, under its flag within 40 cycles. -/
def Obligations.CopyIssue : Prop :=
  (∀ (s : State) (c : IssueCtx) (l : LaneRef) (t : Thread) (g : Group) (la : Launch) (f : Flock) (d a b e : Reg) (sc : Scope)
     (op : CcollOp),
     ExecutesAlone s c l t → s.group? l.g = some g → s.launch? c.launch = some la → s.flockOf? l.g = some f →
     let rights := g.gidx = la.rec_.bell
     let v (r : Reg) : W32 := (s.operand l r).val
     let tag (r : Reg) : Tag := (s.operand l r).tag
     let queue (s : State) : List CopyCmd := (s.core c.core).copy
     let opened := if t.batch.count = 0 then s.nextUid else t.batch.openId
     let joined : Thread := { t with batch := { t.batch with openId := opened, count := t.batch.count + 1 } }
     -- the command an instruction appends
     let appends (i : Instr) (kind : CopyKind) (scope : Scope) (args : Option (List W32)) (batch : Option Nat)
         (t' : Nat → Thread) (block : Bool) : Prop :=
       ∃ s' cmd, exec i s = .next s' ∧ queue s' = queue s ++ [cmd] ∧ cmd.kind = kind ∧ cmd.tid = l.tid ∧
         cmd.launch = c.launch ∧ cmd.flock = f.uid ∧ cmd.scope = scope ∧ cmd.args = args ∧ cmd.batch = batch ∧
         cmd.started = none ∧ cmd.code = none ∧ s'.thread? l.tid = some (t' cmd.id) ∧ s'.flocks = s.flocks ∧ s'.mem = s.mem ∧
         (if block then ∃ x, s'.scratch = s.scratch ++ [x] ∧ x.op = .snap cmd.id ∧ x.addr = (v a).toNat ∧
             x.due = c.cycle + 3 ∧ x.core = f.core
           else s'.scratch = s.scratch)
     (rights → t.batch.count < 255 → LocalOk s l f (v a) 64 →
       appends (.cpy a sc) .cpy sc none (some opened) (fun _ => joined.awaits (c.cycle + 3)) true ∧
       appends (.cpyx a sc) .cpyx sc none (some opened) (fun _ => joined.awaits (c.cycle + 3)) true) ∧
     (rights → t.batch.count < 255 →
       appends (.cpyi d a b sc) .cpyi sc (some [v d, v a, v (regPlus a 1), v b, v (regPlus b 1)]) (some opened)
         (fun _ => joined) false) ∧
     (rights → LocalOk s l f (v a) 64 →
       appends (.ccoll op a sc) (.ccoll op) sc none none (fun id => (t.counting .coll id).awaits (c.cycle + 3)) true) ∧
     (rights → appends (.cbcast d a b e) .cbcast .flk (some [v d, v a, v b, v e]) none (fun id => t.counting .coll id) false) ∧
     (¬ rights → c.half = .full →
       let info : W32 := BitVec.ofNat 32 (c.word.toNat / 2 ^ 40 % 2 ^ 8)
       let denied (i : Instr) (x y z : Tag) : Prop := Traps i s c l t ⟨0x11, info, 0, x, y, z, 0⟩
       denied .seal 0 0 0 ∧ denied (.cpyi d a b sc) (tag a) (tag b) 0 ∧ denied (.cbcast d a b e) (tag a) (tag b) (tag e) ∧
       (LocalOk s l f (v a) 64 → denied (.cpy a sc) (tag a) 0 0 ∧ denied (.cpyx a sc) (tag a) 0 0 ∧
         denied (.ccoll op a sc) (tag a) 0 0))) ∧
  (∀ (s : State) (c : IssueCtx) (l : LaneRef) (t : Thread) (g : Group) (la : Launch),
     s.group? l.g = some g → s.thread? l.tid = some t → t.batch.count ≠ 0 →
     (((s.core g.core).copy.any fun k => decide (k.batch = some t.batch.openId)) = true) →
     let sealed (t' : Thread) : Prop := t'.batch = ⟨0, 0, false, t.batch.next + 1⟩ ∧ t'.pc = t.pc ∧ t'.rf = t.rf ∧
       t'.outs.length = t.outs.length + 1 ∧
       ∃ o ∈ t'.outs, o.id = t.batch.openId ∧ o.cls = .copy ∧ o.finished = false ∧ o.err = t.batch.err
     (ExecutesAlone s c l t → c.core = g.core → s.launch? c.launch = some la → g.gidx = la.rec_.bell →
       ∃ s' t', exec .seal s = .next s' ∧ s'.thread? l.tid = some t' ∧ sealed t') ∧
     (s.atLeave g l.lane t = true → t.count .copy < 63 →
       ∃ s' t', exec (.autoSeal l.g l.lane) s = .next s' ∧ s'.thread? l.tid = some t' ∧ sealed t')) ∧
  (∀ (s : State) (c : IssueCtx) (l : LaneRef) (t : Thread) (d : Reg) (f : Flag) (g : Group) (la : Launch),
     ExecutesAlone s c l t → s.group? l.g = some g → s.launch? g.launch = some la →
     let q := (s.core c.core).copy
     let gives (sel : BitVec 1) (ws : List W32) : Prop :=
       ∃ s' t', exec (.cpyq d sel f) s = .next s' ∧ s'.thread? l.tid = some t' ∧ t'.flags = (match f with
           | some n => t.flags ||| (1#12 <<< n.val)
           | none => t.flags) ∧
         t'.flagged = t.flagged ++ [⟨s.nextUid, f, c.seq, c.cycle + 1, c.cycle + 40, regRange d 4,
           some (ws.map fun w => ⟨w, 0⟩), true, none⟩] ∧ t'.rf = t.rf
     gives 0 [BitVec.ofNat 32 (t.count .copy + 64 * t.count .coll + 4096 * t.batch.count), t.batch.next,
       t.batch.next - BitVec.ofNat 32 (t.count .copy),
       BitVec.ofNat 32 (t.sys.cerrCopy.toNat + 256 * t.sys.cerrColl.toNat + (if t.sys.cerrSat then 65536 else 0))] ∧
     gives 1 [BitVec.ofNat 32 (q.length + 64 * (q.filter fun k => k.started.isSome).length +
         512 * (q.filter fun k => decide (k.kind = .cpyx) && k.started.isSome).length),
       BitVec.ofNat 32 (q.filter fun k => s.waits k.fn (.copy c.core k.id)).length, 0, 0])

/-- R208, R209, R214 to R216, R226 and R234: the events of a copy command: its start with its checks, a routine's restart point, sleep,
return and watchdog, a collective's timeout, and its end, which writes the completion word and takes it from the queue. That the 10 ms
of a collective run from its own start, a waiting partner's data, and what a loaded routine's return carries are the model's choices
(assumption logs 74, 20 and 45). -/
def Obligations.CopyEvents : Prop :=
  ∀ (s : State) (core id : Nat) (k : CopyCmd) (f : Flock) (code : Nat) (cwo cwv : W32) (out : List (Byte × Tag)) (status : W64),
    s.copyCmd? core id = some k → k.id = id →
    let becomes (i : Instr) (k' : CopyCmd) : Prop := ∃ s', exec i s = .next s' ∧ s'.copyCmd? core id = some k'
    let runs := k.kind = .cpyx ∧ k.started.isSome = true ∧ k.code = none ∧ k.output = none
    (s.startable core = some k → s.flock? k.flock = some f → k.kind = .cpy →
      becomes (.copyCommandStart core) { k with
        started := some (s.timestamp (dieOf core)), xcore := State.freeTransform (s.core core).copy,
        code := (let n := k.desc.check f.size f.idx (s.detRanges k.launch)
          if n ≠ 0 then some n else if k.desc.total = 0 then some 0 else none) }) ∧
    (runs → becomes (.routineRestartPoint core id) { k with restart := (k.next, k.sent) }) ∧
    (runs → k.next < k.desc.total → becomes (.routineSleep core id) { k with asleep := true }) ∧
    (runs → becomes (.routineWatchdog core id) { k with code := some 0x0B }) ∧
    (runs → k.mayRun s = true → k.asleep = false →
      -- a loaded routine's last bytes go into its output ring, its status is a0 (R226)
      (6 ≤ k.desc.rid → k.next ≠ 0 → (s.xcoreOf core k).roomFor xOut out.length = true →
        ∃ s', exec (.routineReturn core id status out) s = .next s' ∧
          s'.copyCmd? core id = some { k with output := some [], status := status.toNat } ∧
          AL.get 0 (s'.xcoreOf core k).regs.x 10 = status) ∧
      -- a shipped routine gives what it makes of its input (Table 10.11); under policy 0 every tag is the site-only tag
      (let r := shipped k.desc.rid k.desc.arg k.desc.fin k.desc.fout k.desc.esz k.input
       let bytes := r.words.flatMap fun w => w.1.map fun b => (b, k.site)
       1 ≤ k.desc.rid → k.desc.rid ≤ 5 → k.desc.total ≤ k.next → s.routineHeld core k = false → k.policy = false →
        s.outputCheck k bytes.length = 0 →
        becomes (.routineReturn core id status out) { k with output := some bytes, status := r.status })) ∧
    (∀ op t0, k.kind = .ccoll op → k.started = some t0 → k.code = none → s.collParts k = none →
      t0 + 10000000 ≤ s.timestamp (dieOf core) → becomes (.collectiveTimeout core id) { k with code := some 0x0C }) ∧
    (k.code = some code → k.mayRun s = true → s.flock? k.flock = some f → k.cw = (cwo, cwv) →
      cwo ≠ 0 → cwo.toNat % 4 = 0 → cwo.toNat + 4 ≤ f.size →
      ∃ s' f', exec (.copyCommandFinish core id) s = .next s' ∧
        (s'.core core).copy = (s.core core).copy.filter (fun x => !decide (x.id = id)) ∧
        s'.flock? k.flock = some f' ∧
        Mem.read32 f'.mem cwo.toNat = (if code = 0 then cwv
          else BitVec.ofNat 32 (0x80000000 + code * 65536 + min (State.cmdDelivered k) 0xFFFF)) ∧
        (∀ a, (a < cwo.toNat ∨ cwo.toNat + 4 ≤ a) → Mem.read f'.mem a = Mem.read f.mem a) ∧ s'.mem = s.mem)

/-! Tile engine, pens and arrays. -/

/-- R237 to R239: TRSV by the flock that holds the reservation, or finds it free, sets kd, and clears the tiles where the launch
changes; a wait joins the queue of flocks; TREL gives the reservation back once the holder's operations that were queued at it have
completed. -/
def Obligations.TileReservation : Prop :=
  ∀ (s : State) (c : IssueCtx) (l : LaneRef) (t : Thread) (kd : BitVec 3) (wait : Bool) (f : Flock),
    ExecutesAlone s c l t → s.flockOf? l.g = some f →
    let u := s.tileUnit c.core
    -- the thread sleeps until its outcome has landed
    let answered (b : Bool) : Thread :=
      { t with rf := { t.rf with pend := t.rf.pend ++ predLandings (c.cycle + 4) c.seq [(kd, b)] },
               sleep := .trsv kd (some (c.cycle + 4)) }
    let free : Prop := u.holder = none ∧ ∀ x ∈ u.waiting, x = f.uid
    (u.holder = some f.uid → ∃ s', exec (.trsv kd wait) s = .next s' ∧ (s'.tileUnit c.core).holder = some f.uid ∧
      (s'.tileUnit c.core).releasing = false ∧ s'.thread? l.tid = some (answered true)) ∧
    (free → t.sleep = .awake → ∃ s', exec (.trsv kd wait) s = .next s' ∧
      (s'.tileUnit c.core).holder = some f.uid ∧ s'.thread? l.tid = some (answered true) ∧
      (s'.tileUnit c.core).acc = (if u.lastLaunch = some f.launch then u.acc else []) ∧
      (s'.tileUnit c.core).sc = (if u.lastLaunch = some f.launch then u.sc else [])) ∧
    (u.holder ≠ some f.uid → ¬ free → wait = true ∨ s.isDet c = true → ∃ s', exec (.trsv kd wait) s = .next s' ∧
      f.uid ∈ (s'.tileUnit c.core).waiting ∧ (s'.tileUnit c.core).holder = u.holder ∧
      s'.thread? l.tid = some { t with sleep := .trsv kd none }) ∧
    (u.holder ≠ some f.uid → ¬ free → wait = false → s.isDet c = false → ∃ s', exec (.trsv kd wait) s = .next s' ∧
      s'.tileUnit c.core = u ∧ s'.thread? l.tid = some (answered false)) ∧
    (u.holder = some f.uid → u.releasing = false → (∃ o ∈ u.queue, o.flock = f.uid) → ∃ s', exec .trel s = .next s' ∧
      s'.tileUnit c.core = { u with
        releasing := true, releaseAfter := (u.queue.filter fun o => decide (o.flock = f.uid)).map (·.id) }) ∧
    (u.holder = some f.uid → u.releasing = false → (∀ o ∈ u.queue, o.flock ≠ f.uid) → u.waiting = [] →
      ∃ s', exec .trel s = .next s' ∧
        s'.tileUnit c.core = { u with holder := none, releasing := false, releaseAfter := [] }) ∧
    (u.holder ≠ some f.uid → exec .trel s = .next s)

/-- R240, R241, R244 to R248 and Tables 12.2, 12.3: a tile operation whose slots are accepted and whose regions lie in the window enters
the engine's queue and counts in TILE; without the reservation each traps TILE with its opcode and its sources' tags. TSTAT needs none. -/
def Obligations.TileWords : Prop :=
  ∀ (s : State) (c : IssueCtx) (l : LaneRef) (t : Thread) (td tt : BitVec 6) (a b : Reg) (sa sb slot sc : BitVec 3)
    (h : BitVec 1) (z bf row : Bool) (f : Flock) (la : Launch) (gr : Group) (m n : Nat),
    ExecutesAlone s c l t → s.flockOf? l.g = some f → s.launch? c.launch = some la → s.group? l.g = some gr →
    let x := (s.operand l a).val
    let y := (s.operand l b).val
    let at_ (w : W32) (k al : Nat) : Prop := w.toNat + k ≤ f.size ∧ w.toNat % al = 0
    let da := s.slotOf c sa
    let db := s.slotOf c sb
    let d := s.slotOf c slot
    let e := storeWidth (Slot.fmt d)
    let pair : W64 := (s.operand l (regPlus b 1)).val ++ y
    let codes : Prop := (Slot.fmt d = 5 ∨ Slot.fmt d = 6 ∨ Slot.fmt d = 11) ∧ Slot.acc d = 0
    let xt := (s.operand l a).tag
    let yt := (s.operand l b).tag
    -- with the reservation it is queued, without it traps
    let queues (i : Instr) (p : W32) (q : W64) (t0 t1 : Tag) : Prop :=
      (s.hasTile c.core f = true → TileIssues i s c l t f p q) ∧
      (s.hasTile c.core f = false → Traps i s c l t ⟨0x12, BitVec.ofNat 32 (c.word.toNat / 2 ^ 40 % 256), 0, t0, t1, 0, 0⟩)
    (
      (tileBytes da = some m → tileBytes db = some n → at_ x m 32 → at_ y n 32 →
        (tmmaPair false da db = true → queues (.tmma td a b sa sb z) x (y.setWidth 64) xt yt) ∧
        (tmmaPair true da db = true → queues (.tmmas td a b sa sb z) x (y.setWidth 64) xt yt)) ∧
      (codes → at_ x 512 32 → queues (.tmmal td a tt slot z) x 0 xt 0) ∧
      (codes → at_ x 64 32 → queues (.tlutb tt a h slot bf) x 0 xt 0) ∧
      queues (.tzero td) 0 0 0 0 ∧
      (at_ x 4096 32 → queues (.taccld td a z) x 0 xt 0) ∧
      (e ≠ 0 → at_ x (1024 * e) 32 →
        queues (.taccst .plain td a slot) x 0 xt 0 ∧ queues (.taccst (.scale sc row) td a slot) x 0 xt 0 ∧
        (pair.toNat % 4 = 0 → pair.toNat < 2 ^ 48 → queues (.taccst (.scalemax sc row b) td a slot) x pair xt yt) ∧
        (at_ y (1024 * e) 32 → queues (.ttrn a b slot) x (y.setWidth 64) xt yt) ∧
        (Slot.fmt d ∈ [7, 8, 9, 12] → queues (.taddw td a slot) x 0 xt 0)) ∧
      queues (.tscan z td) 0 0 0 0 ∧
      (at_ x 128 32 → queues (.tscld sc a) x 0 xt 0)) ∧
    (at_ x 16 16 → TileIssues (.tstat a) s c l t f x 0)

/-- R244, R247, R252, R254 to R256: the operation at the head of the queue occupies the engine, then is performed whole and completes:
what it leaves in the tiles, and a fold's new maximum in memory. That an operation reads its operands and is performed whole at
one step, TILE_OP_COMPLETE, is the model's choice (assumption log 24).
R52, R243 to R248, R251 and R254: what the other tile operations leave in tiles and in scratchpad: products with a floating-point
accumulator, in dense and sparse rows, table products, stores, transposition, sums and scans, and the status record. That an
operation reads its operands and is performed whole at one step, TILE_OP_COMPLETE, is the model's choice (assumption log 24). -/
def Obligations.TileEvents : Prop :=
  (∀ (s : State) (core : Nat) (o : TileOp) (f : Flock),
     let u := s.tileUnit core
     (s.tileStartable core = some o → ∃ s', exec (.tileOpStart core) s = .next s' ∧
       (s'.tileUnit core).queue.head? = some { o with until_ := some (s.cycle core + s.tileCycles o) } ∧
       s'.groups = s.groups ∧ s'.flocks = s.flocks) ∧
     -- an operation with no fold to make, on an engine that no other flock waits for
     (s.tileDue core = some o → s.tileHeld core o = false → o.fold = none → s.flock? o.flock = some f → u.waiting = [] →
       let completes (p : TileUnit → Prop) : Prop := ∃ s', exec (.tileOpComplete core) s = .next s' ∧ p (s'.tileUnit core) ∧
         (s'.tileUnit core).queue = u.queue.filter (fun x => !decide (x.id = o.id)) ∧ (s'.tileUnit core).done = u.done + 1 ∧
         s'.flocks = s.flocks
       let tile (v : TileUnit) (td : BitVec 6) (w : Nat → Nat → TW) : Prop :=
         (∀ i j, i < 32 → j < 32 → v.getAcc td.toNat i j = w i j) ∧
         (∀ t' i j, t' ≠ td.toNat → i < 32 → j < 32 → v.getAcc t' i j = u.getAcc t' i j) ∧ v.sc = u.sc
       (∀ td, o.instr = .tzero td → completes fun v => tile v td fun _ _ => ⟨0, 0⟩) ∧
       (∀ td a, o.instr = .taccld td a false → completes fun v => tile v td fun i j => f.word (o.a.toNat + 128 * i + 4 * j)) ∧
       (∀ td a, o.instr = .taccld td a true → completes fun v => tile v td fun i j => f.word (o.a.toNat + 128 * j + 4 * i)) ∧
       (∀ sc a, o.instr = .tscld sc a → completes fun v => v.acc = u.acc ∧
         (∀ m < 32, v.getSc sc.toNat m = f.word (o.a.toNat + 4 * m)) ∧
         (∀ n m, n ≠ sc.toNat → m < 32 → v.getSc n m = u.getSc n m)) ∧
       -- products of dense tiles of bytes, signed or not, summed modulo 2^32
       (∀ td a b sa sb z, o.instr = .tmma td a b sa sb z →
         let da := s.launchSlot o.launch sa
         let db := s.launchSlot o.launch sb
         let int (d : W64) (p : Nat) : Int := if Slot.fmt d = 7 then (Mem.read f.mem p).toInt else (Mem.read f.mem p).toNat
         Slot.fmt da ∈ [7, 8] → Slot.fmt db ∈ [7, 8] → Slot.acc da = 10 → Slot.sparse da = 0 → Slot.sparse db = 0 →
         Slot.scale da ≤ 1 → Slot.scale db ≤ 1 → completes fun v =>
           ∀ i j, i < 32 → j < 32 →
             (v.getAcc td.toNat i j).val = (if z then 0 else (u.getAcc td.toNat i j).val) +
               BitVec.ofInt 32 (((List.range 32).map fun k =>
                 int da (o.a.toNat + 32 * i + k) * int db (o.b.toNat + 32 * j + k)).foldl (· + ·) 0))) ∧
     (∀ pa m, s.tileFolding core = some o → o.fold = some m → s.detRanges o.launch = none →
       s.engineAccess (coreLoc core) o.fn o.b.toNat 4 .atomic = (.ok pa 0 false, s) →
       s.gateOpen o.launch (stationOf 0 pa) o.logical = true → pa + 4 ≤ 2 ^ 38 →
       (∀ la, s.launch? o.launch = some la → la.rec_.record = false ∧ la.rec_.replay = false) →
       ∃ s', exec (.tileFold core) s = .next s' ∧
         Mem.read32 s'.mem pa = (atomNew .amax ⟨Mem.read32 s.mem pa, 0⟩ m 0).1 ∧
         (∀ a, (a < pa ∨ pa + 4 ≤ a) → Mem.read s'.mem a = Mem.read s.mem a))) ∧
  (∀ (s : State) (core : Nat) (o : TileOp) (f : Flock),
     let u := s.tileUnit core
     let slot (n : BitVec 3) := s.launchSlot o.launch n
     s.tileDue core = some o → s.tileHeld core o = false → o.fold = none → s.flock? o.flock = some f → u.waiting = [] →
     let a := o.a.toNat
     let b := o.b.toNat
     let completes (p : State → Prop) : Prop := ∃ s', exec (.tileOpComplete core) s = .next s' ∧ p s' ∧
       (s'.tileUnit core).queue = u.queue.filter (fun x => !decide (x.id = o.id)) ∧ (s'.tileUnit core).done = u.done + 1
     let old (td : BitVec 6) (i j : Nat) : W32 := (u.getAcc td.toNat i j).val
     let tile (td : BitVec 6) (w : Nat → Nat → W32) : Prop := completes fun s' =>
       (∀ i j, i < 32 → j < 32 → ((s'.tileUnit core).getAcc td.toNat i j).val = w i j) ∧ s'.flocks = s.flocks
     let byte (p : Nat) : Nat := (Mem.read f.mem p).toNat
     let nib (p k : Nat) : Nat := byte (p + k / 2) / (if k % 2 = 0 then 1 else 16) % 16
     let wide (d : W64) : Nat := if Slot.fmt d = 1 ∨ Slot.fmt d = 2 then 2 else 1
     let scaled (d : W64) (x : Machine.Num) (p : Nat) : Machine.Num :=
       if Slot.scale d = 2 then (Machine.Num.mul x (e8m0 (byte p))).1 else x
     -- element k of row i of a dense operand (Table 12.2, R52)
     let dense (d : W64) (p i k : Nat) : Machine.Num :=
       if Slot.fmt d = 5 then
         let q := p + 24 * i
         let before := ((List.range k).filter fun k' => decide (nib q k' = 8)).length
         if Slot.esc d = true ∧ nib q k = 8 then
           (if before < 2 ∧ byte (q + 16) ≠ 255 then decodeF .fp16 (Mem.readNat f.mem (q + 20 + 2 * before) 2)
            else Machine.Num.defaultNan)
         else (Machine.Num.mul (decodeF .e2m1 (nib q k)) (e8m0 (byte (q + 16)))).1
       else if Slot.fmt d = 6 then
         (Machine.Num.mul (Machine.Num.mul (decodeElem .cb4 (nib (p + 16 * i) k)) (Machine.Num.ofNat (byte (p + 512 + i / 2)))).1
           (f32 (Mem.read32 f.mem (p + 528)))).1
       else scaled d (rawNum (Slot.fmt d) (Mem.readNat f.mem (p + 32 * wide d * i + wide d * k) (wide d))) (p + 1024 * wide d + i)
     -- the stored values of row i of a sparse operand, each with its k (R243)
     let sparse (d : W64) (p i : Nat) : List (Nat × Machine.Num) :=
       let e := wide d
       if Slot.sparse d = 1 then
         (List.range 16).map fun v => (4 * (v / 2) + Mem.readNat f.mem (p + 512 * e + 4 * i) 4 / 4 ^ v % 4,
           scaled d (rawNum (Slot.fmt d) (Mem.readNat f.mem (p + 16 * e * i + e * v) e)) (p + 512 * e + 128 + i))
       else
         (List.range 8).map fun v => (4 * v + Mem.readNat f.mem (p + 256 * e + 2 * i) 2 / 4 ^ v % 4,
           scaled d (rawNum (Slot.fmt d) (Mem.readNat f.mem (p + 8 * e * i + e * v) e)) (p + 256 * e + 64 + i))
     let acc (z : Bool) (td : BitVec 6) (i j : Nat) : W32 := if z then 0 else old td i j
     let fp (d : W64) : Prop := 1 ≤ Slot.fmt d ∧ Slot.fmt d ≤ 6
     (∀ td ra rb sa sb z, o.instr = .tmma td ra rb sa sb z → fp (slot sa) → fp (slot sb) → Slot.acc (slot sa) = 0 →
       Slot.sparse (slot sa) = 0 → Slot.sparse (slot sb) = 0 → tile td fun i j =>
         (windowF32 (f32 (acc z td i j)) ((List.range 32).map fun k => product (dense (slot sa) a i k) (dense (slot sb) b j k))).1) ∧
     (∀ td ra rb sa sb z, o.instr = .tmmas td ra rb sa sb z → (Slot.sparse (slot sa) = 1 ∨ Slot.sparse (slot sa) = 2) →
       Slot.fmt (slot sa) ∉ [5, 6] → Slot.sparse (slot sb) = 0 →
       (fp (slot sb) → Slot.acc (slot sa) = 0 → tile td fun i j =>
         (windowF32 (f32 (acc z td i j)) ((sparse (slot sa) a i).map fun x => product x.2 (dense (slot sb) b j x.1))).1) ∧
       (Slot.fmt (slot sa) ∈ [7, 8] → Slot.fmt (slot sb) ∈ [7, 8] → Slot.acc (slot sa) = 10 → Slot.scale (slot sa) ≤ 1 →
         Slot.scale (slot sb) ≤ 1 → tile td fun i j =>
           acc z td i j + BitVec.ofInt 32 (((sparse (slot sa) a i).map fun x =>
             (Machine.Num.mul x.2 (dense (slot sb) b j x.1)).1.scaled 0).foldl (· + ·) 0))) ∧
     (∀ tt ra h n bf el, o.instr = .tlutb tt ra h n bf →
       (Slot.fmt (slot n) = 6 ∧ el = .cb4 ∨ Slot.fmt (slot n) = 5 ∧ el = .flt .e2m1 ∨ Slot.fmt (slot n) = 11 ∧ el = .int 4 true) →
       completes fun s' => s'.flocks = s.flocks ∧
         (∀ k v, k < 32 → v < 16 →
           (s'.tileUnit core).getAcc tt.toNat (16 * h.toNat + k / 2) (16 * (k % 2) + v) =
             ⟨(toF32 (Machine.Num.mul (decodeElem el v) (decodeF (if bf then .bf16 else .fp16) (Mem.readNat f.mem (a + 2 * k) 2))).1).1,
              f.tagAt (a + 2 * k)⟩) ∧
         (∀ i j, i < 32 → j < 32 → i / 16 ≠ h.toNat → (s'.tileUnit core).getAcc tt.toNat i j = u.getAcc tt.toNat i j)) ∧
     (∀ td ra tt n z, o.instr = .tmmal td ra tt n z → completes fun s' => s'.flocks = s.flocks ∧
       ∀ i < 32, (∀ h < 2, ((s'.tileUnit core).getAcc td.toNat i h).val =
           (windowF32 (f32 (acc z td i h)) ((List.range 32).map fun k => product (Machine.Num.ofNat 1)
             (f32 (old tt (16 * h + k / 2) (16 * (k % 2) + nib (a + 16 * i) k))))).1) ∧
         (∀ j, 2 ≤ j → j < 32 → (s'.tileUnit core).getAcc td.toNat i j = u.getAcc td.toNat i j)) ∧
     (∀ td ra n, o.instr = .taddw td ra n → Slot.fmt (slot n) ∈ [7, 8, 9, 12] →
       let e := if Slot.fmt (slot n) = 7 ∨ Slot.fmt (slot n) = 8 then 1 else 2
       let x (i j : Nat) : Nat := Mem.readNat f.mem (a + e * (32 * i + j)) e
       tile td fun i j => old td i j + (if Slot.fmt (slot n) = 7 then (BitVec.ofNat 8 (x i j)).signExtend 32
         else if Slot.fmt (slot n) = 9 then (BitVec.ofNat 16 (x i j)).signExtend 32 else BitVec.ofNat 32 (x i j))) ∧
     (∀ isF td, o.instr = .tscan isF td → completes fun s' => s'.flocks = s.flocks ∧
       let now (i j : Nat) : W32 := ((s'.tileUnit core).getAcc td.toNat i j).val
       ∀ i < 32, now i 0 = old td i 0 ∧ ∀ j < 31, now i (j + 1) =
         (if isF then (toF32 (Machine.Num.add (f32 (now i j)) (f32 (old td i (j + 1)))).1).1 else now i j + old td i (j + 1))) ∧
     -- what goes to scratchpad: elements of e bytes at p, and every byte outside as before
     (let stores (p e : Nat) (v : Nat → Nat → Nat) (s' : State) : Prop := ∃ f', s'.flock? o.flock = some f' ∧
       (∀ i j, i < 32 → j < 32 → Mem.readNat f'.mem (p + e * (32 * i + j)) e = v i j) ∧
       (∀ q, (q < p ∨ p + 1024 * e ≤ q) → Mem.read f'.mem q = Mem.read f.mem q) ∧ (s'.tileUnit core).acc = u.acc
      let value (n : BitVec 3) (td : BitVec 6) (i j : Nat) : Machine.Num :=
        if Slot.acc (slot n) = 10 then Machine.Num.ofInt (old td i j).toInt else f32 (old td i j)
      let times (n sc : BitVec 3) (row : Bool) (td : BitVec 6) (i j : Nat) : Machine.Num :=
        (Machine.Num.mul (value n td i j) (f32 (u.getSc sc.toNat (if row then i else j)).val)).1
      (∀ td ra n el, Elem.ofCode (Slot.fmt (slot n)) = some el → storeWidth (Slot.fmt (slot n)) ≠ 0 → a % 32 = 0 →
        let e := storeWidth (Slot.fmt (slot n))
        let code (x : Machine.Num) : Nat := (encodeElem el (Slot.sat (slot n)) x).1
        (o.instr = .taccst .plain td ra n → completes (stores a e fun i j => code (value n td i j))) ∧
        (∀ sc row, o.instr = .taccst (.scale sc row) td ra n → completes (stores a e fun i j => code (times n sc row td i j))) ∧
        (∀ sc row rb, o.instr = .taccst (.scalemax sc row rb) td ra n → ∃ s' p m, exec (.tileOpComplete core) s = .next s' ∧
          stores a e (fun i j => code (times n sc row td i j)) s' ∧ (s'.tileUnit core).queue.head? = some p ∧ p.id = o.id ∧
          p.fold = some m ∧
          -- the greatest magnitude of the products rounded to FP32, NaN skipped
          let r (i j : Nat) : Machine.Num := f32 (toF32 (times n sc row td i j)).1
          (∀ i j, i < 32 → j < 32 → (r i j).isNan = false → Machine.Num.magLt (f32 m.val) (r i j).abs = false) ∧
          ((∃ i j, i < 32 ∧ j < 32 ∧ (r i j).isNan = false ∧ m.val = (toF32 (r i j).abs).1) ∨
            ((∀ i j, i < 32 → j < 32 → (r i j).isNan = true) ∧ m.val = 0)))) ∧
      (∀ ra rb n, o.instr = .ttrn ra rb n → storeWidth (Slot.fmt (slot n)) ≠ 0 → a % 32 = 0 → b % 32 = 0 →
        let e := storeWidth (Slot.fmt (slot n))
        (b = a ∨ b + 1024 * e ≤ a ∨ a + 1024 * e ≤ b) →
        completes (stores b e fun i j => Mem.readNat f.mem (a + e * (32 * j + i)) e))) ∧
     (∀ ra, o.instr = .tstat ra → a % 16 = 0 → completes fun s' => ∃ f', s'.flock? o.flock = some f' ∧
       let holder : Nat := match u.holder with
         | some x => ((s.flock? x).map (·.slot)).getD 255
         | none => 255
       Mem.read32 f'.mem a = BitVec.ofNat 32 (2 ^ 31 + (if u.holder.isSome then 2 ^ 30 else 0) +
         (if u.releasing then 2 ^ 29 else 0) + holder * 65536 + u.queue.length) ∧
       Mem.read32 f'.mem (a + 4) = 0 ∧ Mem.read32 f'.mem (a + 8) = u.done + 1 ∧
       Mem.read32 f'.mem (a + 12) = BitVec.ofNat 32 (s.timestamp (dieOf core)) ∧
       (∀ q, (q < a ∨ a + 16 ≤ q) → Mem.read f'.mem q = Mem.read f.mem q) ∧ (∀ i < 4, f'.tagAt (a + 4 * i) = o.site)))

/-- R258 to R270: a word on a configured pen is queued for its point; SUSPEND records the suspend word and the liveset and sleeps until
its row, with the registers as the word reads them; a tile's address that is no multiple of 64 traps ALIGN. -/
def Obligations.PenWords : Prop :=
  ∀ (s : State) (c : IssueCtx) (l : LaneRef) (t : Thread) (p : BitVec 4) (a b e : Reg) (rel wait : Bool) (off : BitVec 16)
    (f : Flock) (la : Launch) (pen : Pen) (ws : List W64),
    ExecutesAlone s c l t → s.launch? c.launch = some la → s.flockOf? l.g = some f → p.toNat < la.rec_.pens →
    let x := (s.operand l a).val
    let y := (s.operand l b).val
    let later : Thread := t.awaits (c.cycle + 3)
    let queues (i : Instr) (addr : Nat) (op : ScratchOp) : Prop := Queues i s c l later 3 ⟨f.uid, addr, op, [], none⟩
    (LocalOk s l f x 32 → Queues (.pencfg p a) s c l ((t.undecided c).awaits (c.cycle + 3)) 3
      ⟨f.uid, x.toNat, .pencfg p, [], none⟩) ∧
    (State.tileAt f la.rec_.pens x.toNat ≠ none → LocalOk s l f x 64 →
      queues (.penwakeMask a b) x.toNat (.penwakeMask (y.setWidth 8))) ∧
    (AL.find? f.pens p.toNat = some pen →
      queues (.penwakeWord p a) 0 (.penwakeWord p x) ∧
      queues (.penflush p none) 0 (.penflush p none) ∧
      queues (.penflush p (some e)) 0 (.penflush p (some ((s.operand l e).val.setWidth 4))) ∧
      queues (.penhold rel p a) 0 (.penhold rel p (if x.getLsbD 4 then none else some (x.setWidth 4))) ∧
      (LocalOk s l f x 64 →
        queues (.penstat p a) x.toNat (.penstat p) ∧ queues (.pentile p a b) x.toNat (.pentile p (y.setWidth 4)))) ∧
    (AL.find? f.pens p.toNat = some pen → t.sys.depth = 0 →
      let idx := la.rec_.idxOf c.pc
      (s.codeWords c.core c.launch (la.rec_.addrOf (idx + 1 + off.signExtend 32)) 4).1 = (ws, none) →
      let live := (List.range 240).filter fun n => (ws.getD (n / 64) 0).getLsbD (n % 64)
      (∀ i < 16, (ws.getD ((240 + i) / 64) 0).getLsbD ((240 + i) % 64) = false) → (∀ n ∈ live, n < la.rec_.regs) →
      live.length ≤ pen.w → (pen.word = none ∨ pen.word = some idx) →
      ∃ s' q f', exec (.suspend wait p a off) s = .next s' ∧ s'.scratch = s.scratch ++ [q] ∧ q.due = c.cycle + 3 ∧ q.lane = l ∧
        q.op = .suspendRow (!wait) p (x.setWidth 4) (live.map t.rf.getV) t.rf.k ∧ s'.flockOf? l.g = some f' ∧
        AL.find? f'.pens p.toNat = some { pen with word := some idx, live := live } ∧
        s'.thread? l.tid = some
          ({ t with sleep := .suspend, nextIssue := max t.nextIssue (c.cycle + 4) }.awaits (c.cycle + 3))) ∧
    (x.toNat % 64 ≠ 0 → Traps (.penwakeMask a b) s c l t
      ⟨0x04, x, 0, (s.operand l a).tag, (s.operand l b).tag, 0, State.writeDetail true⟩)

/-- R259, R265, R268 and R269: PENCFG with a legal block configures the pen with every frame free; a wake mask joins a tile's header; a
resumption leaves the tile resuming, and a new group stands at its resume word with a present lane for each row. That a wake mask is
checked when it issues, and that a tile which has gone meanwhile takes none of it, is the model's choice (assumption log 25). -/
def Obligations.PenEvents : Prop :=
  ∀ (s : State) (x : ScratchAcc) (f : Flock) (p : BitVec 4) (mask : Byte) (core : Nat) (r : State.Resumable) (n : Nat) (pen : Pen)
    (la : Launch),
    (s.flock? x.flock = some f → x.op = .pencfg p → AL.find? f.pens p.toNat = none →
      let w (i : Nat) : W32 := (f.word (x.addr + 4 * i)).val
      let wid := (w 1).toNat / 256 % 256
      let nt := (w 1).toNat % 256
      let obase : W64 := w 3 ++ w 2
      let fbase := (w 0).toNat
      fbase % 64 = 0 → (w 1).toNat < 65536 → wid % 8 = 0 → 8 ≤ wid → wid ≤ 64 → 1 ≤ nt →
      fbase + nt * (64 + 32 * wid) ≤ f.size → obase.toNat % 64 = 0 → obase.toNat < 2 ^ 48 → (w 4).toNat ≤ 256 →
      (obase = 0 → (w 4).toNat = 0) → w 5 = 0 → w 6 = 0 → w 7 = 0 →
      ∃ f' q, (s.scratchPoint x).flock? x.flock = some f' ∧ AL.find? f'.pens p.toNat = some q ∧ q.fbase = fbase ∧ q.w = wid ∧
        q.nt = nt ∧ q.obase = obase ∧ q.ocap = (w 4).toNat ∧ q.word = none ∧ q.hold = 0 ∧ q.spilled = [] ∧
        ∀ k < nt, Flock.hState (f'.header0 q k) = 0) ∧
    (s.flock? x.flock = some f → x.op = .penwakeMask mask → x.addr % 4 = 0 →
      let h := Mem.read32 f.mem x.addr
      ∃ f', (s.scratchPoint x).flock? x.flock = some f' ∧
        Mem.read32 f'.mem x.addr =
          (if Flock.hState h = 1 ∨ Flock.hState h = 2 then h ||| (((mask.setWidth 32 : W32) &&& h &&& 0xFF) <<< 8) else h) ∧
        (∀ a, (a < x.addr ∨ x.addr + 4 ≤ a) → Mem.read f'.mem a = Mem.read f.mem a)) ∧
    (s.nextResume core = some r → s.flock? r.flock = some f → AL.find? f.pens r.pen = some pen → r.frame = some n →
      s.launch? f.launch = some la → Flock.frameAddr pen n % 64 = 0 →
      let a := Flock.frameAddr pen n
      ∃ s' g f', exec (.penResume core) s = .next s' ∧ g ∈ s'.groups ∧ g.uid = s.nextUid ∧ g.launch = f.launch ∧
        g.core = core ∧ g.slot = f.slot ∧ g.lanes.length = 8 ∧
        (∀ i < 8, ∃ u, g.lanes[i]? = some u ∧ u.present = (f.header0 pen n).getLsbD i ∧
          (u.present = true → u.pc = la.rec_.addrOf (Mem.read32 f.mem (a + 4)) ∧
            u.sys.logid = Mem.read32 f.mem (a + 8 + 4 * i) ∧ u.nextIssue = s.cycle core + 12)) ∧
        s'.flock? r.flock = some f' ∧ Flock.hState (f'.header0 pen n) = 3)

/-- R278, R287, R293, R294 and R295: a command on an array that the launch owns, with its regions in the window and its numbers in
range, joins the array's queues; AACFG's block is read at its scratchpad point; AAQ answers under its flag. In a launch without
paddocks every one traps ILLEGAL, reason 0x14.
R278, R279, R290, R293 and Table 16.5: AA_CONFIG traps. A command whose regions lie in the window traps with the lowest code that
holds: 1 for an array that is not the launch's, 8 for a class at or above K, 9 for a clause range, 10 in deterministic mode for a flock
that does not hold the configuration. AACFG traps at its point with the code of its block, and is then in no queue; else its block is the
latest configuration. -/
def Obligations.ArrayWords : Prop :=
  (∀ (s : State) (c : IssueCtx) (l : LaneRef) (t : Thread) (iop : AainfOp) (top : AatrnOp) (a b d : Reg) (fl : Flag) (f : Flock)
     (la : Launch) (gr : Group) (g : ArrayCfg) (k u0 : Nat),
     ExecutesAlone s c l t → s.launch? c.launch = some la → s.group? l.g = some gr → s.flockOf? l.g = some f →
     let u := s.array (padOf c.core)
     let x := (s.operand l a).val
     let y := (s.operand l b).val
     let img : W64 := (s.operand l (regPlus a 1)).val ++ x
     let at_ (w : W32) (n al : Nat) : Prop := w.toNat + n ≤ f.size ∧ w.toNat % al = 0
     -- no other function's cells have to give way
     let admitted : Prop := s.admitArray (padOf c.core) la.fn = s
     let owned : Prop := admitted ∧ u.owner = some c.launch ∧ u.latest = some (g, k, u0) ∧ (s.isDet c = true → u0 = f.uid)
     let first := y.toNat % 65536
     let count := y.toNat / 65536
     let rows : Prop := first % 16 = 0 ∧ count % 16 = 0 ∧ count ≠ 0 ∧ first + count ≤ g.nc
     let place : Prop :=
       (img.getLsbD 63 = true → at_ (img.setWidth 32) (count * g.nl) 64) ∧
       (img.getLsbD 63 = false → img.toNat % 64 = 0 ∧ img.toNat < 2 ^ 48)
     let size (o : AainfOp) : Nat := match o with
       | .clauses => 4 * ((g.nc + 31) / 32)
       | .sums => 4 * g.k
       | .argmax => 4
     (la.rec_.pad = true →
       (admitted → LocalOk s l f x 64 → ∃ s' q p, exec (.aacfg a) s = .next s' ∧
         (s'.array (padOf c.core)).queue = u.queue ++ [q] ∧ q.instr = .aacfg a ∧ q.cfg = none ∧
         s'.scratch = s.scratch ++ [p] ∧ p.op = .aacfg ∧ p.addr = x.toNat ∧ p.due = c.cycle + 3 ∧
         s'.thread? l.tid = some (((t.counting .aa s.nextUid).undecided c).awaits (c.cycle + 3))) ∧
       (owned → at_ x (g.nl / 16) 4 →
         (at_ y (size iop) 4 → ArrayIssues (.aainf iop a b) s c l t f (x.setWidth 64) y) ∧
         (y.toNat % 64 < g.k → ArrayIssues (.aatrn top a b) s c l t f (x.setWidth 64) y)) ∧
       (owned → rows → place →
         ArrayIssues (.aald a b) s c l t f img y ∧ ArrayIssues (.aast a b) s c l t f img y) ∧
       (admitted → ∃ s' id, exec (.aaq d fl) s = .next s' ∧ s'.thread? l.tid = some (t.flaggedGiven c fl 1 40 id
         ((regRange d 4).zip ([BitVec.ofNat 32 (u.queue.countP (fun q => decide (q.core = c.core)) +
               (if u.owner = some c.launch then 16 else 0)),
             BitVec.ofNat 32 (match u.latest with
               | some v => v.1.nc + 65536 * v.1.nl
               | none => 0),
             u.qstep.setWidth 32, (u.qstep >>> 32).setWidth 32].map fun v => ⟨v, 0⟩)) 0))) ∧
     (la.rec_.pad = false →
       let absent (i : Instr) (t0 t1 : Tag) : Prop := Traps i s c l t ⟨0x01, 0x14, (c.word >>> 32).setWidth 32, t0, t1, 0, 0⟩
       let xt := (s.operand l a).tag
       let yt := (s.operand l b).tag
       absent (.aacfg a) xt 0 ∧ absent (.aainf iop a b) xt yt ∧ absent (.aatrn top a b) xt yt ∧ absent (.aald a b) xt yt ∧
       absent (.aast a b) xt yt ∧ absent (.aaq d fl) 0 0)) ∧
  (∀ (s : State) (c : IssueCtx) (l : LaneRef) (t : Thread) (iop : AainfOp) (top : AatrnOp) (a b : Reg) (f : Flock)
     (la : Launch) (gr : Group) (g : ArrayCfg) (k u0 : Nat) (x : ScratchAcc) (cmd : ArrayCmd),
     s.flockOf? l.g = some f →
     let u := s.array (padOf c.core)
     let v (r : Reg) : W32 := (s.operand l r).val
     let img : W64 := (s.operand l (regPlus a 1)).val ++ v a
     let at_ (w : W32) (n al : Nat) : Prop := w.toNat + n ≤ f.size ∧ w.toNat % al = 0
     let first := (v b).toNat % 65536
     let count := (v b).toNat / 65536
     let place : Prop :=
       (img.getLsbD 63 = true → at_ (img.setWidth 32) (count * g.nl) 64) ∧
       (img.getLsbD 63 = false → img.toNat % 64 = 0 ∧ img.toNat < 2 ^ 48)
     let size : Nat := match iop with
       | .clauses => 4 * ((g.nc + 31) / 32)
       | .sums => 4 * g.k
       | .argmax => 4
     let owned : Prop := u.owner = some c.launch ∨ ∃ q ∈ u.queue, q.launch = c.launch ∧ ∃ r, q.instr = .aacfg r
     let foreign : Prop := s.isDet c = true ∧ u0 ≠ f.uid
     let traps (i : Instr) (code : W32) : Prop := Traps i s c l t ⟨0x17, code, 0, (s.operand l a).tag, (s.operand l b).tag, 0, 0⟩
     -- the commands other than AACFG, by what else is wrong with them
     let codes (i : Instr) (class_ range : Prop) : Prop :=
       (¬ owned → traps i 1) ∧ (owned → class_ → traps i 8) ∧ (owned → ¬ class_ → range → traps i 9) ∧
       (owned → ¬ class_ → ¬ range → foreign → traps i 10)
     (s.launch? c.launch = some la → s.group? l.g = some gr → la.rec_.pad = true → s.admitArray (padOf c.core) la.fn = s →
       u.latest = some (g, k, u0) →
       (at_ (v a) (g.nl / 16) 4 → at_ (v b) size 4 → codes (.aainf iop a b) False False) ∧
       (at_ (v a) (g.nl / 16) 4 → codes (.aatrn top a b) (g.k ≤ (v b).toNat % 64) False) ∧
       (let bad : Prop := first % 16 ≠ 0 ∨ count % 16 ≠ 0 ∨ count = 0 ∨ g.nc < first + count
        place → codes (.aald a b) False bad ∧ codes (.aast a b) False bad)) ∧
     -- AACFG at its point
     (s.flock? x.flock = some f → x.op = .aacfg → x.addr % 4 = 0 → x.lane = l → l.helper = false → s.group? l.g = some gr → gr.core = c.core →
       (∃ r, cmd.instr = .aacfg r) → cmd.cfg = none → cmd.tid = l.tid → u.queue = [cmd] → s.thread? l.tid = some t →
       let w (i : Nat) : W32 := Mem.read32 f.mem (x.addr + 4 * i)
       let nc := (w 0).toNat % 65536
       let nl := (w 0).toNat / 65536
       let classes := (w 1).toNat % 65536
       let top := (w 1).toNat / 65536
       let image : W64 := w 7 ++ w 6
       let nudge (i : Nat) : Nat := Mem.readNat f.mem (x.addr + 33 + 2 * i) 1
       let code : W32 :=
         if nc < 16 ∨ 2048 < nc ∨ nc % 16 ≠ 0 then 2
         else if nl < 64 ∨ 1024 < nl ∨ nl % 64 ≠ 0 then 3
         else if classes < 1 ∨ 64 < classes ∨ nc % (2 * classes) ≠ 0 then 4
         else if top < 1 ∨ 1024 < top then 5
         else if (List.range 16).any (fun i => decide (nudge i ≠ 0 ∧ nudge i ≠ 1 ∧ nudge i ≠ 255)) then 6
         else if image.toNat % 64 ≠ 0 ∨ 2 ^ 48 ≤ image.toNat then 7 else 0
       let s' := s.scratchPoint x
       (code ≠ 0 → ∀ ti, ti = ⟨0x17, code, 0, x.tags.1, x.tags.2.1, x.tags.2.2, 0⟩ → Handled s l.tid t gr la ti →
         (s'.array (padOf c.core)).queue = [] ∧ s'.thread? l.tid =
           some ({ t with outs := t.outs.filter fun o => !decide (o.id = cmd.id) }.inHandler la.rec_ ti x.pc (x.due + 1))) ∧
       (code = 0 → t.sleep = .deciding → ∃ cfg, (s'.array (padOf c.core)).queue = [{ cmd with cfg := some cfg }] ∧
         (s'.array (padOf c.core)).latest = some (cfg, cmd.launch, f.uid) ∧ cfg.nc = nc ∧ cfg.nl = nl ∧ cfg.k = classes ∧ cfg.t = top ∧
         cfg.seed = w 3 ++ w 2 ∧ cfg.step = w 5 ++ w 4 ∧ cfg.image = image ∧
         s'.thread? l.tid = some { t with sleep := .awake })))

/-- R279 to R287, R289 and R292: the array serves its queues one command at a time: AACFG sets every cell of its geometry to 127,
AAINF writes what the cells give for its sample, AATRN's changes land with the step one on. That the array serves one command at a time
and that all a command's changes land at once, at AA_COMMAND_COMPLETE, is the model's choice (assumption log 26).
R280 to R286 and Table 16.4: the words of AAINF and the cells of AATRN, from the votes and the outputs of the clauses: the bit of a
clause, the vote and the class sum of a class, the lowest class with the greatest vote; a cell moves by its nudge entry where its
clause's selection draw is below P256 and its own draw below the entry's threshold. The stream's example. -/
def Obligations.ArrayEvents : Prop :=
  (∀ (s : State) (pad : Nat) (k : ArrayCmd) (g : ArrayCfg) (f : Flock) (r : ArrayRun) (a b : Reg) (iop : AainfOp) (top : AatrnOp),
     let u := s.array pad
     let served (p : ArrayUnit → ArrayRun → Prop) : Prop := ∃ s' r', exec (.aaServe pad) s = .next s' ∧
       (s'.array pad).run = some r' ∧ r'.cmd = k ∧ (s'.array pad).last = padIdx k.core ∧ p (s'.array pad) r'
     let sample := Mem.readBytes f.mem (k.a.toNat) (g.nl / 16)
     (s.arrayNext pad = some k → s.serveHeld pad k = false → k.instr = .aacfg a →
       k.cfg = some g → (∀ x ∈ u.queue, x.launch = k.launch) →
       served fun v r' => v.cfg = some g ∧ v.owner = some k.launch ∧ v.fn = k.fn ∧ v.qstep = g.step ∧
         r'.due = s.cycle k.core + 8 + g.nc / 16 ∧
         (∀ i j, i < g.nc → j < g.nl → j < 1024 → v.cell i j = 127) ∧
         (∀ i j, j < 1024 → (g.nc ≤ i ∨ g.nl ≤ j) → v.cell i j = u.cell i j)) ∧
     (s.arrayNext pad = some k → s.serveHeld pad k = false → k.instr = .aainf iop a b →
       u.cfg = some g → u.owner = some k.launch → s.flock? k.flock = some f →
       k.a.toNat % 4 = 0 → g.nl % 64 = 0 → k.a.toNat + g.nl / 16 ≤ f.size →
       served fun v r' => v.cells = u.cells ∧ r'.due = s.cycle k.core + 2 ∧
         r'.words.map (·.val) = u.inference g iop sample) ∧
     (s.arrayNext pad = some k → s.serveHeld pad k = false → k.instr = .aatrn top a b →
       u.cfg = some g → u.owner = some k.launch → s.flock? k.flock = some f →
       k.a.toNat % 4 = 0 → g.nl % 64 = 0 → k.a.toNat + g.nl / 16 ≤ f.size →
       served fun v r' => v.cells = u.cells ∧ r'.due = s.cycle k.core + 8 + g.nc / 16 ∧
         r'.cells = u.training g top sample (k.b.toNat % 64)) ∧
     (s.arrayDue pad = some r → r.cmd.instr = .aatrn top a b → u.cfg = some g → ∃ s',
       exec (.aaCommandComplete pad r.cmd.id) s = .next s' ∧ (s'.array pad).run = none ∧
       (s'.array pad).cfg = some { g with step := g.step + 1 } ∧ (s'.array pad).qstep = g.step + 1 ∧
       (s'.array pad).cells = (u.putCells r.cells).cells ∧ s'.mem = s.mem ∧ s'.flocks = s.flocks) ∧
     (s.arrayDue pad = some r → r.cmd.instr = .aainf iop a b → s.flock? r.cmd.flock = some f → r.cmd.b.toNat % 4 = 0 →
       r.cmd.b.toNat + 4 * r.words.length ≤ f.size → ∃ s' f',
       exec (.aaCommandComplete pad r.cmd.id) s = .next s' ∧ (s'.array pad).run = none ∧ (s'.array pad).cells = u.cells ∧
       s'.flock? r.cmd.flock = some f' ∧ (∀ i w, r.words[i]? = some w → f'.word (r.cmd.b.toNat + 4 * i) = w)) ∧
     -- the words themselves: outputs, votes and nudges
     (∀ lits empty i, u.output g lits empty i = true ↔
       ((∀ j v, j < g.nl → lits[j]? = some v → 128 ≤ (u.cell i j).toNat → v = true) ∧
        ((∃ j, j < g.nl ∧ j < lits.length ∧ 128 ≤ (u.cell i j).toNat) ∨ empty = true))) ∧
     (∀ v : Byte, ArrayUnit.nudge v 1 = BitVec.ofNat 8 (min 255 (v.toNat + 1)) ∧
       ArrayUnit.nudge v 0xFF = BitVec.ofNat 8 (v.toNat - 1) ∧ ArrayUnit.nudge v 0 = v)) ∧
  (∀ (u : ArrayUnit) (g : ArrayCfg) (sample : List Byte) (k i j : Nat),
     0 < g.k → g.k ≤ 64 → 0 < g.nc → g.nc % g.k = 0 → 0 < g.t → g.nl ≤ 1024 →
     let per := g.nc / g.k
     let lit (j : Nat) : Bool := (sample.getD (j / 2 / 8) 0).getLsbD (j / 2 % 8) != decide (j % 2 = 1)
     let lits := (List.range g.nl).map lit
     let out (empty : Bool) (c : Nat) : Bool := u.output g lits empty c
     -- clauses of class k with even or odd place that output 1
     let ones (empty : Bool) (k odd : Nat) : Nat := ((List.range per).filter fun i => decide (i % 2 = odd) && out empty (k * per + i)).length
     let vote (empty : Bool) (k : Nat) : Int := (ones empty k 0 : Int) - ones empty k 1
     let sum (empty : Bool) (k : Nat) : Int := max (-(g.t : Int)) (min g.t (vote empty k))
     let words (op : AainfOp) : List W32 := u.inference g op sample
     (words .clauses).length = (g.nc + 31) / 32 ∧
     (i < 32 * ((g.nc + 31) / 32) → ∃ w, (words .clauses)[i / 32]? = some w ∧ w.getLsbD (i % 32) = (decide (i < g.nc) && out false i)) ∧
     (words .sums).length = g.k ∧
     (k < g.k → (words .sums)[k]? = some (BitVec.ofInt 16 (vote false k) ++ BitVec.ofInt 16 (sum false k))) ∧
     (∃ n, n < g.k ∧ words .argmax = [BitVec.ofInt 16 (vote false n) ++ BitVec.ofNat 16 n] ∧
       (∀ m < g.k, vote false m ≤ vote false n) ∧ ∀ m < n, vote false m < vote false n) ∧
     -- a cell after one fed class, and after AUTO's one or two
     (k < g.k → i < g.nc → j < g.nl →
       let cell := u.cell i j
       let type (firm : Bool) : Nat := if firm = decide (i % per % 2 = 0) then 0 else 1
       let entry (firm : Bool) : Byte × Byte :=
         g.nudge.getD (8 * type firm + 4 * (out true i).toNat + 2 * (lit j).toNat + (decide (128 ≤ cell.toNat)).toNat) (0, 0)
       let p256 (firm : Bool) (k : Nat) : Int := 128 * (if firm then g.t - sum true k else g.t + sum true k) / g.t
       let moved (firm : Bool) (k : Nat) : Byte :=
         if i / per = k ∧ (aaSel g i g.step : Int) < p256 firm k ∧ aaDraw g i j g.step < (entry firm).1.toNat
           then ArrayUnit.nudge cell (entry firm).2 else cell
       let trained (op : AatrnOp) : Byte := (u.putCells (u.training g op sample k)).cell i j
       let second := (k + 1 + (aaStream g 0xFFFF 0xFFFF g.step).toNat % (g.k - 1)) % g.k
       trained .firm = moved true k ∧ trained .suppress = moved false k ∧
       trained .auto = (if i / per = k then moved true k else if 2 ≤ g.k then moved false second else cell)) ∧
     (∀ c, aaStream g c j g.step = aaMix (g.seed.setWidth 32 ^^^ (g.seed >>> 32).setWidth 32 ^^^ BitVec.ofNat 32 (c * 1024 + j) ^^^
       (g.step.setWidth 32 * 0x9E3779B9))) ∧
     aaMix 0x9E3779B9 = 0x01FCE552)

/-! The shepherd and the device. -/

/-- R298 and R300: a KICK takes TAIL from the control block, a RESUME clears HALTED first, an ABORT ends the queue's launches as ABORTED
and halts it. -/
def Obligations.Doorbells : Prop :=
  ∀ (s : State) (fn : BitVec 4) (q : BitVec 5) (b : Qcb) (s1 : State),
    let f := fn.toNat
    let n := q.toNat
    s.bellOk f n = true →
    (s.wakePolls.readQcb f n = (some b, s1) →
      ((s.queue f n).halted = false → b.bad = false → b.vf = f → (s1.queue f n).head ≤ b.tail →
        b.tail ≤ (s1.queue f n).head + b.size → ∃ s', exec (.doorbellKick fn q) s = .next s' ∧
        (s'.queue f n).tail = b.tail ∧ (s'.queue f n).head = (s1.queue f n).head ∧ (s'.queue f n).halted = false) ∧
      exec (.doorbellResume fn q) s = .next (((s1.modQueue f n fun x => { x with halted := false }).writeQcb f n 0x28
        [b.word &&& ~~~0x100#32]).kick f n)) ∧
    ((s.queue f n).halted = true → exec (.doorbellKick fn q) s = .next s.wakePolls) ∧
    (∃ s', exec (.doorbellAbort fn q) s = .next s' ∧ (s'.queue f n).halted = true ∧ (s'.queue f n).wait = none ∧
      s'.launches = s.launches.map fun la =>
      if la.fn = f ∧ la.q = n ∧ la.ending = none then { la with ending := some 4 } else la)

/-- R299 to R302, R359: the packet at the head of a queue, by type: what it does, and when the queue counts it as started and as
completed. That a COPY is performed whole in the step that starts it is the model's choice (assumption log 35), and that a trace window
which still opens or closes is waited for is too (log 63), and that a LAUNCH which waits has not read its record (log 65). -/
def Obligations.Packets : Prop :=
  ∀ (s s1 : State) (fn : BitVec 4) (q : BitVec 5) (p : Packet) (part : Nat),
    let f := fn.toNat
    let n := q.toNat
    let started := s1.startPacket f n
    let passes (i : Instr) (also : State → Prop) : Prop := ∃ s', exec i s = .next s' ∧ Passes s1 s' f n p ∧ also s'
    let fails (i : Instr) : Prop := passes i fun s' => (s'.queue f n).halted = true
    let any (_ : State) : Prop := True
    let waits (i : Instr) : Prop := ∀ v s2, s1.svcRead64 f (p.dw 8) = (some v, s2) →
      let cond := (p.w 6).toNat % 4
      let holds : Prop := (cond = 0 ∧ v = p.dw 0x10) ∨ (cond = 1 ∧ v ≠ p.dw 0x10) ∨ (cond = 2 ∧ p.dw 0x10 ≤ v)
      (holds → passes i any) ∧
      (¬ holds → ∃ s', exec i s = .next s' ∧ (s'.queue f n).polled = some (s2.timestamp 8 + 1000) ∧
        (s'.queue f n).head = (s1.queue f n).head)
    (Begins s f n p part s1 →
      (p.type = 0 → passes (.packetNop fn q) any) ∧
      (p.type = 3 → passes (.packetBarrier fn q) any) ∧
      (p.type = 2 → ∀ s2, started.svcCopy f (p.dw 8) (p.dw 0x10) ((p.dw 0x18).toNat / 4) = (true, s2) →
        ∃ s', exec (.packetCopy fn q) s = .next s' ∧ s'.mem = s2.mem ∧
          (s'.queue f n).work = (s1.queue f n).work ++ [(p.seq, .copy)]) ∧
      (p.type = 4 → ∀ v s2 s3,
        (if (p.w 6).getLsbD 0 then started.svcRead64 f (p.dw 8) = (some v, s2) else v = 0 ∧ s2 = started) →
        s2.svcWrite f (p.dw 8) 0xFFFE [(v + p.dw 0x10).setWidth 32, ((v + p.dw 0x10) >>> 32).setWidth 32] = (true, s3) →
        passes (.packetSignal fn q) any) ∧
      (p.type = 5 → (s.queue f n).polled = none → waits (.packetWaitsig fn q)) ∧
      (p.type = 5 → (∃ t, (s.queue f n).polled = some t ∧ t ≤ s.timestamp 8) → waits (.waitsigPoll fn q)) ∧
      (p.type = 6 → fn = 0 → s.trace.window = none → ∀ ws s2 w, started.svcRead f (p.dw 8) 16 = (some ws, s2) →
        State.parseTrace (ws.map (·.val)) n p.seq = some w →
        ((s2.openWindow w).windowMoves = false → passes (.packetTraceStart fn q) fun s' => s'.trace.window.isSome = true) ∧
        ((s2.openWindow w).windowMoves = true → ∃ s', exec (.packetTraceStart fn q) s = .next s' ∧
          (s'.queue f n).work = (s1.queue f n).work ++ [(p.seq, .traceStart)] ∧ s'.trace = (s2.openWindow w).trace)) ∧
      (p.type = 6 → fn ≠ 0 → fails (.packetTraceStart fn q)) ∧
      (p.type = 7 → fn = 0 → s.windowMoves = false → s1.trace.window = none → passes (.packetTraceStop fn q) any) ∧
      (p.type = 7 → fn = 0 → s.windowMoves = true → exec (.packetTraceStop fn q) s = .next s) ∧
      (p.type = 7 → fn ≠ 0 → fails (.packetTraceStop fn q)) ∧
      (let dropped (e : Nat × W64 × W64) : Prop := (∃ la, s1.launch? e.1 = some la ∧ la.fn = f) ∧
        (p.dw 8).toNat ≤ e.2.1.toNat ∧ e.2.1.toNat < (p.dw 8).toNat + 8 * (p.dw 0x10).toNat
       p.type = 8 → passes (.packetCodesync fn q) fun s' =>
        (∀ c e, e ∈ (s'.core c).icache ↔ e ∈ (s1.core c).icache ∧ ¬ dropped e) ∧
        ∀ x ∈ s'.contexts, ∀ k ∈ x.cores, ∀ e ∈ k.2.icache, ¬ dropped e) ∧
      -- a LAUNCH stands at the head until it starts (LaunchEvents), its record not read yet
      (p.type = 1 → ∃ s', exec (.packetLaunch fn q) s = .next s' ∧ (s'.queue f n).head = (s1.queue f n).head ∧ s'.mem = s1.mem ∧
        (s'.queue f n).wait = some ⟨s1.shep.nextWait, p.seq, p.dw 8, part, none, false⟩ ∧ s'.shep.nextWait = s1.shep.nextWait + 1)) ∧
    (∀ seq, s.ready = true → (s.queue f n).work.find? (fun w => decide (w.1 = seq)) = some (seq, .copy) →
      ∃ s', exec (.packetComplete fn q seq) s = .next s' ∧
        (s'.queue f n).work = (s.queue f n).work.filter (fun w => !decide (w.1 = seq)) ∧
        ((s.queue f n).done = [] → (s.queue f n).lastdone = seq → (s'.queue f n).lastdone = seq + 1))

/-- R301, R302, R304 to R308 and R329: a waiting launch that can start reads its record, is refused or claims its rectangle, and stands
on it with all its threads at word 0; a routing check that fails refuses it; a launch that is over is gone from the machine; a stranded
one is being ended; a gate that has held an access too long gives up the logged order. That the record of a launch which waits for room
is read at the moment it can start, and not when its packet comes to the head of its queue, is the model's choice (assumption log 65).
R307 and Table 18.7: the end of a launch that is over: its fault record where it has one to write, then its places released, its END
decision record and trace record, then the completion signal, SIGVAL at SIGADDR, made on failure too, and its packet completed with the
launch's status; a failure of the record or the signal gives status MEMORY. What the record holds after a fatal stop. -/
def Obligations.LaunchEvents : Prop :=
  (∀ (s s0 : State) (wid fn q x y lid station : Nat) (w : WaitLaunch) (r : LaunchRec) (la : Launch),
     -- the claim: kept where it was made before, else made for the record as it stands now; a bad record refuses the launch
     (s.placeable wid = some (fn, q, w) →
       (w.claim = some (r, x, y) → s.takeClaim wid = (some (fn, q, w, r, x, y), s)) ∧
       (w.claim = none → ∀ ws s1, s.readLaunch fn w.addr = (some (ws, r), s1) →
         ((checkLaunch (s1.part w.part) fn ws r).1 = 0 → s1.placeAt w.part r = some (x, y) →
           let w1 : WaitLaunch := { w with claim := some (r, x, y) }
           s.takeClaim wid = (some (fn, q, w1, r, x, y), s1.modQueue fn q fun z => { z with wait := some w1 })) ∧
         ((checkLaunch (s1.part w.part) fn ws r).1 ≠ 0 → ∃ s', exec (.launchPlace wid) s = .next s' ∧
           (s'.queue fn q).halted = true ∧ (s'.queue fn q).wait = none ∧ s'.launches = s.launches ∧ s'.groups = s.groups))) ∧
     (∀ args ok s1 s2, s.takeClaim wid = (some (fn, q, w, r, x, y), s0) →
       -- the arguments read, and the add to the origin table made or refused, where the record asks for them
       (if r.arglen = 0 then args = [] ∧ s1 = s0 else s0.svcRead fn r.argbase (r.arglen.toNat / 4) = (some args, s1)) →
       (if r.tags && !w.refused then s1.originSeed fn w.wid r = (some ok, s2) else s2 = s1) →
       ∃ s' l fs gs, exec (.launchPlace wid) s = .next s' ∧ l ∈ s'.launches ∧ l.uid = s2.nextUid ∧ l.rec_ = r ∧
         l.id = s.shep.nextLaunch ∧ l.part = w.part ∧
         l.x0 = x ∧ l.y0 = y ∧ l.ending = none ∧ s'.flocks = s.flocks ++ fs ∧ fs.length = r.w * r.h * r.flocks ∧
         (∀ f ∈ fs, f.launch = l.uid ∧ f.size = r.scratch ∧ f.pens = [] ∧ f.barriers = [] ∧
           (∀ i v, args[i]? = some v → f.word (4 * i) = ⟨v.val, 0xFFFE⟩) ∧
           ∀ a, 4 * args.length ≤ a → Mem.read f.mem a = 0) ∧
         s'.groups = s.groups ++ gs ∧ gs.length = r.w * r.h * r.flocks * r.groups ∧
         (∀ g ∈ gs, g.launch = l.uid ∧ g.lanes.length = 8 ∧
           ∀ t ∈ g.lanes, t.present = true ∧ t.pc = r.code ∧ t.rf = RegFile.fresh ∧ t.sys.depth = 0 ∧ t.sys.tagmode = r.tagmode) ∧
         (s'.queue fn q).wait = none) ∧
     (s.takeClaim wid = (some (fn, q, w, r, x, y), s0) → ∃ s', exec (.routingCheckTimeout wid) s = .next s' ∧
       (s'.queue fn q).wait = none ∧ (s'.queue fn q).halted = true ∧ s'.launches = s.launches ∧ s'.groups = s.groups) ∧
     (s.launch? lid = some la → s.endable la = true → la.rec_.record = false → la.rec_.replay = false →
       ∃ s', exec (.launchEnd lid) s = .next s' ∧ (∀ l, l ∈ s'.launches ↔ l ∈ s.launches ∧ l.uid ≠ lid) ∧
         (∀ f ∈ s'.flocks, f.launch ≠ lid) ∧ (∀ g ∈ s'.groups, g.launch ≠ lid) ∧ (∀ z ∈ s'.gaccs, z.launch ≠ lid)) ∧
     (∀ t0, s.launch? lid = some la → la.strandedAt = some t0 → s.strandable la = true → t0 + 10000 ≤ s.timestamp 8 →
       ∃ s' la', exec (.launchStranded lid) s = .next s' ∧ s'.launch? lid = some la' ∧ la' = { la with ending := some 8 }) ∧
     (s.gateExpired lid station = true → s.launch? lid = some la →
       ∃ s' la', exec (.replayGateTimeout lid station) s = .next s' ∧ s'.launch? lid = some la' ∧
         (AL.get StationLog.fresh la'.logs station).diverged = true ∧
         (AL.get StationLog.fresh la'.logs station).divat =
           BitVec.ofNat 32 (AL.get StationLog.fresh la.logs station).pos ∧ s'.mem = s.mem)) ∧
  (∀ (s s1 s3 : State) (lid : Nat) (la : Launch) (fa : FatalInfo) (ok1 ok2 : Bool),
     s.launch? lid = some la → s.endable la = true → la.rec_.record = false → la.rec_.replay = false →
     la.ending = none ∨ (la.ending = some 1 ∧ la.fatal = some fa) →
     let status : Nat := if la.ending = none then 0 else 1
     let noted : Prop := status = 1 ∧ la.rec_.faultrec ≠ 0
     let time := fa.tick * 10 / 33
     let second : Nat := if fa.code = 0x16 then fa.trap.cause.toNat else 0
     let words : List W32 := [BitVec.ofNat 32 (fa.code.toNat + 256 * second), fa.logid, fa.pc.setWidth 32, (fa.pc >>> 32).setWidth 32,
       fa.trap.info, fa.trap.infoh, fa.trap.t1 ++ fa.trap.t0, fa.trap.t2.setWidth 32, fa.trap.detail,
       BitVec.ofNat 32 (coreX fa.core + 256 * coreY fa.core), BitVec.ofNat 32 time, BitVec.ofNat 32 (time / 2 ^ 32), 0, 0, 0, 0]
     let ended : State := ((s1.releaseLaunch lid).drec
       ⟨la.fn, la.part, 0, 7, 0x0050, la.q, la.id, State.rectWord la.x0 la.y0 la.rec_.w la.rec_.h, 0⟩).traceLaunch la (some status)
     (noted → s.svcWrite la.fn la.rec_.faultrec 0xFFFE words = (ok1, s1)) → (¬ noted → s1 = s ∧ ok1 = true) →
     (la.rec_.sigaddr ≠ 0 → ended.svcWrite la.fn la.rec_.sigaddr 0xFFFE
       [la.rec_.sigval.setWidth 32, (la.rec_.sigval >>> 32).setWidth 32] = (ok2, s3)) →
     (la.rec_.sigaddr = 0 → s3 = ended ∧ ok2 = true) →
     let last : Nat := if ok1 && ok2 then status else 5
     exec (.launchEnd lid) s = .next
       (if last = 0 then s3.completePacket la.fn la.q la.seq else s3.failPacket la.fn la.q la.seq last 1) ∧
     (last ≠ 0 → ((s3.failPacket la.fn la.q la.seq last 1).queue la.fn la.q).halted = true) ∧
     ((s3.queue la.fn la.q).done = [] → (s3.queue la.fn la.q).lastdone = la.seq →
       ((s3.completePacket la.fn la.q la.seq).queue la.fn la.q).lastdone = la.seq + 1))

/-- R202 to R206, R310 and R311: the rotation of a partition's slices, the stop of the outgoing context, the swap, and the restore that
puts the context's flocks and groups back. That a partition which runs no entry takes the next at once, and that an entry of the same
function goes on without a swap, is the model's choice (assumption log 28); so are the place and the bytes of the save area (log 29). -/
def Obligations.PartitionEvents : Prop :=
  ∀ (s : State) (p : BitVec 2) (e dx dy : Nat) (c : Context) (st : StopReq) (h : Nat),
    let n := p.toNat
    let x := s.part n
    let runs (i : Instr) (q : State → Part → Prop) : Prop := ∃ s', exec i s = .next s' ∧ q s' (s'.part n)
    let same (e : Nat) : Prop := x.cur = none ∨ State.entryFn x e = s.partFn n
    -- a slice that ends: no launch of the function is placed any more, and the stop request goes out once no claim is left to start
    let stops (i : Instr) (reason : Nat) : Prop :=
      let asked := s.modPart n fun y =>
        { y with stop := some ⟨s.timestamp 8, reason, e, [], false⟩, haltedAt := none, waited := false }
      (asked.claimsIn n (asked.partFn n) = true → exec i s = .next asked) ∧
      (asked.claimsIn n (asked.partFn n) = false → runs i fun _ y =>
        y.stop = some ⟨s.timestamp 8, reason, e, [], true⟩ ∧ y.cur = x.cur ∧ y.haltedAt = none)
    (s.sliceOver n = true → s.nextEntry n = some e →
      (same e → runs (.sliceEnd p) fun s' y => y.cur = some e ∧ y.rot = e ∧ y.sliceAt = s.timestamp 8 ∧ s'.groups = s.groups) ∧
      (¬ same e → stops (.sliceEnd p) 0x10)) ∧
    (s.cutDue n = some e →
      (State.entryFn x e = s.partFn n → runs (.priorityCut p) fun _ y => y.cur = some e ∧ y.cut = none) ∧
      (State.entryFn x e ≠ s.partFn n → stops (.priorityCut p) 0x11)) ∧
    (s.deadlineDue n = true → x.stop = some st → runs (.stopDeadline p) fun s' y =>
      y.stop = some { st with expired := st.expired ++ s.lateDies n } ∧
      -- a core's deadline comes on its own die's timestamp; a launch that is being ended has no thread left to stop
      ∀ g ∈ s'.groups, dieOf g.core ∈ s.lateDies n →
        (∃ la, s'.launch? g.launch = some la ∧ la.part = n ∧ la.ending = none) → ∀ t ∈ g.lanes, State.stillRuns t = false) ∧
    (s.ready = true → x.stop = some st → st.sent = true → ∀ d, d < 8 →
      (d ∈ s.lateDies n ↔ d ∉ st.expired ∧ st.t0 + 20000 ≤ s.timestamp d)) ∧
    (s.swapDue n = true → x.stop = some st → x.haltedAt = some h →
      (x.saving = true → runs (.partitionSwap p) fun s' y => y = { x with waited := true } ∧ s'.groups = s.groups) ∧
      (x.saving = false → runs (.partitionSwap p) fun s' y =>
        y.cur = some st.next ∧ y.stop = none ∧ y.haltedAt = none ∧ y.saving = true ∧ y.sliceAt = s.timestamp 8 ∧
        (∀ g ∈ s'.groups, g ∈ s.groups) ∧ (∀ g, g ∈ s.groups → g ∉ s'.groups → ∃ k ∈ s'.contexts, k.part = n ∧
          k.fn = s.partFn n ∧ ∃ g' ∈ k.groups, g'.uid = g.uid))) ∧
    (runs (.saveEngineDone p) fun s' y => y = { x with saving := false } ∧ s'.groups = s.groups ∧
      (x.saving = false → s'.mem = s.mem) ∧
      -- the context that went out last has been written, and nothing else
      (∀ k, (s.contexts.filter fun k => decide (k.part = n)).getLast? = some k →
        let at_ := s.shep.savebase.toNat + Config.saveOffset n k.fn
        ∀ a, (a < at_ ∨ at_ + (Config.saveImage s.fresh).length ≤ a) → Mem.read s'.mem a = Mem.read s.mem a)) ∧
    (s.toRestore n = some c → s.restorable n c dx dy = true → ∃ s', exec (.contextRestore p dx dy) s = .next s' ∧
      (∀ k ∈ s'.contexts, k ∈ s.contexts ∧ ¬ (k.part = c.part ∧ k.fn = c.fn)) ∧
      (∀ f ∈ c.flocks, ∃ f' ∈ s'.flocks, f'.uid = f.uid ∧ f'.core = State.moveCore dx dy f.core ∧ f'.mem = f.mem) ∧
      (∀ g ∈ c.groups, ∃ g' ∈ s'.groups, g'.uid = g.uid ∧ g'.core = State.moveCore dx dy g.core ∧ g'.slot = g.slot))

/-- R296, R304, R313 and Table 18.14: the units that replacement microcode works with. The model's choices are that the record is
read, once, when HART_CLAIM starts the packet (assumption log 65), that a HART_STOP in favour of the same function goes on at once (log
28), and that decision records of the kinds and rules which hardware writes are refused (log 66). -/
def Obligations.HartUnitEvents : Prop :=
  ∀ (s : State) (fn : BitVec 4) (addr : W64) (len wid q x y : Nat) (w : WaitLaunch) (p : BitVec 2) (kind reason : Byte)
    (rule : BitVec 16) (detail : W32) (next : BitVec 4) (cut : Bool) (h : Nat),
    let f := fn.toNat
    let unit (i : Instr) (k : State → HartUnits → Prop) : Prop := ∃ s', exec i s = .next s' ∧ k s' (s'.units f)
    -- a shepherd in reset runs no microcode (R367)
    (s.ready = false → ∀ i ∈ [Instr.qpendRead, .hartFetch fn addr len, .hartCheck fn, .hartStart fn wid, .hartStop fn ⟨p, cut, next⟩,
      .hartDrec fn kind reason rule detail], exec i s = .next s) ∧
    (s.ready = true →
    (∃ s', exec .qpendRead s = .next s' ∧ s'.shep.qpend = (s.shep.queues.filter fun z => z.2.pending).map (·.1) ∧
      ∀ a b, (s'.queue a b).pending = false) ∧
    (∀ ws s1, s.svcRead f addr (len / 4) = (some ws, s1) →
      unit (.hartFetch fn addr len) fun _ u => u.fetched = ws.map (·.val) ∧ u.fetchFail = false) ∧
    (∀ s1, s.svcRead f addr (len / 4) = (none, s1) → unit (.hartFetch fn addr len) fun _ u => u.fetchFail = true) ∧
    (let ws := (s.units f).fetched
     let at_ := ((List.range 4).find? fun p => (State.entryOf (s.part p) f).isSome).getD 0
     let r := checkLaunch (s.part at_) f ws (parseLaunch ws [])
     unit (.hartCheck fn) fun _ u => u.check = (r.1, BitVec.ofNat 32 r.2)) ∧
    (s.waiting? wid = some (f, q, w) → s.shep.custom = true → q < 32 → (s.queue f q).wait = some w →
      unit (.hartClaim fn wid x y true) fun s' u => u.claimed = false ∧ (s'.queue f q).wait = some { w with claim := none }) ∧
    -- a claim starts the packet: it reads the record, and takes the rectangle that the microcode chose (assumption log 65)
    (s.waiting? wid = some (f, q, w) → s.shep.custom = true → q < 32 → (s.queue f q).wait = some w →
      w.claim = none → s.partRuns w.part f = true → ∀ ws r s1, s.readLaunch f w.addr = (some (ws, r), s1) →
      let home := s1.part w.part
      let reg := home.reg
      (checkLaunch home f ws r).1 = 0 → bits reg 7 0 ≤ x → x + r.w ≤ bits reg 7 0 + bits reg 23 16 →
      bits reg 15 8 ≤ y → y + r.h ≤ bits reg 15 8 + bits reg 31 24 →
      (r.anyplace = true ∨ x = bits reg 7 0 + r.x0 ∧ y = bits reg 15 8 + r.y0) →
      (r.pad = true → x % 2 = 0 ∧ y % 2 = 0) → s1.logRoom r = true → s1.claimable x y r = true →
      unit (.hartClaim fn wid x y false) fun s' u =>
        u.claimed = true ∧ (s'.queue f q).wait = some { w with claim := some (r, x, y) }) ∧
    -- a launch with a claim starts on its rectangle
    (∀ args ok s1 s2 r, s.placeable wid = some (f, q, w) → w.claim = some (r, x, y) →
      exec (.hartStart fn wid) s = exec (.launchPlace wid) s ∧
      ((if r.arglen = 0 then args = [] ∧ s1 = s else s.svcRead f r.argbase (r.arglen.toNat / 4) = (some args, s1)) →
        (if r.tags && !w.refused then s1.originSeed f w.wid r = (some ok, s2) else s2 = s1) →
        ∃ s' l, exec (.hartStart fn wid) s = .next s' ∧ l ∈ s'.launches ∧ l.uid = s2.nextUid ∧ l.rec_ = r ∧ l.fn = f ∧ l.q = q ∧
          l.x0 = x ∧ l.y0 = y ∧ l.ending = none ∧ (s'.queue f q).wait = none)) ∧
    -- the slice ends in favour of the enabled entry that the microcode chose, at once where its function goes on
    (s.shep.custom = true → (AL.get 0 (s.part p.toNat).table next.toNat).getLsbD 23 = true → (s.part p.toNat).cur.isSome = true →
      s.partRuns p.toNat f = true → unit (.hartStop fn ⟨p, cut, next⟩) fun s' u => u.halted = s.haltedCores p.toNat ∧
        (State.entryFn (s.part p.toNat) next.toNat = f → (s'.part p.toNat).cur = some next.toNat ∧
          (s'.part p.toNat).sliceAt = s.timestamp 8 ∧ (s'.part p.toNat).stop = (s.part p.toNat).stop) ∧
        (State.entryFn (s.part p.toNat) next.toNat ≠ f → ∃ sent, (s'.part p.toNat).stop =
          some ⟨s.timestamp 8, if cut then 0x11 else 0x10, next.toNat, [], sent⟩)) ∧
    (s.shep.custom = true → s.partFn p.toNat = f → s.swapDue p.toNat = true → (s.part p.toNat).saving = false →
      (s.part p.toNat).haltedAt = some h →
      unit (.hartSwap fn p) fun s' u => u.swapWait = (s.tick - h) * 10 / 33 ∧ (s'.part p.toNat).saving = true ∧
        (s'.part p.toNat).stop = none) ∧
    -- a decision record of the function, counted by its kind and written where the log has room; the kinds and rule ids that hardware
    -- writes are refused, which is the model's choice (assumption log 66)
    (let own : Prop := kind ∈ [(1 : Byte), 2, 4] ∧ (rule < 0x21 ∨ 0x8000 ≤ rule)
     (own → ∃ s', exec (.hartDrec fn kind reason rule detail) s = .next s' ∧ s'.groups = s.groups ∧ s'.flocks = s.flocks ∧
      (kind = 1 → (s'.fnLogOf f).placed = (s.fnLogOf f).placed + 1) ∧
      (kind = 2 → (s'.fnLogOf f).preempted = (s.fnLogOf f).preempted + 1) ∧
      (kind = 4 → (s'.fnLogOf f).refused = (s.fnLogOf f).refused + 1) ∧
      ((s.fnLogOf f).size = 0 → f ≠ 0 → (s'.fnLogOf f).lost = (s.fnLogOf f).lost + 1)) ∧
     (¬ own → exec (.hartDrec fn kind reason rule detail) s = .next s)))

/-- R297, R310, R312, R314, R315 and R349: what register writes do. A 64-bit register takes effect with its high
word. A partition with a launch or context, of a bad shape or that overlaps another keeps its rectangle and sets PERR; that a rectangle
outside the core grid is such a shape is the model's choice (assumption log 40). -/
def Obligations.RegisterWrites : Prop :=
  ∀ (s : State) (fn : BitVec 4) (q : BitVec 5) (p : BitVec 2) (v : W32) (off : BitVec 24) (ff : BitVec 5) (k : BitVec 4)
    (limit : Bool),
    let f := fn.toNat
    let n := q.toNat
    let low (fn off : Nat) : W32 := AL.get 0 s.shep.lows (State.lowKey fn off)
    let keeps (i : Instr) (fn off : Nat) : Prop := ∃ s', exec i s = .next s' ∧
      AL.get 0 s'.shep.lows (State.lowKey fn off) = v ∧ s'.parts = s.parts ∧ s'.pfMem = s.pfMem ∧ s'.shep.queues = s.shep.queues
    let does (i : Instr) (d : State → Prop) : Prop := ∃ s', exec i s = .next s' ∧ d s'
    s.ready = true →
    keeps (.qcbWrite fn q false v) f (0x100 + 8 * n) ∧
    (let a : W64 := v ++ low f (0x100 + 8 * n)
     let s1 := s.modQueue f n fun _ => { QueueSt.fresh with qcb := a }
     (a = 0 → does (.qcbWrite fn q true v) fun s' => s'.queue f n = QueueSt.fresh) ∧
     (∀ b s2, a ≠ 0 → s1.readQcb f n = (some b, s2) → does (.qcbWrite fn q true v) fun s' =>
       s'.queue f n = { QueueSt.fresh with qcb := a, head := b.head, tail := b.head, lastdone := b.lastdone, halted := b.halted })) ∧
    keeps (.partWrite p false v) 0 (0x10000 + 8 * p.toNat) ∧
    (let r : W64 := v ++ low 0 (0x10000 + 8 * p.toNat)
     let taken : Prop := s.partBusy p.toNat = true ∨ State.partShape r = false ∨
       (r.getLsbD 32 = true ∧ ∃ o, o < 4 ∧ o ≠ p.toNat ∧ (s.part o).reg.getLsbD 32 = true ∧
         State.partOverlap r (s.part o).reg = true)
     (¬ taken → does (.partWrite p true v) fun s' => (s'.part p.toNat).reg = r ∧ (s'.part p.toNat).cur = none) ∧
     (taken → does (.partWrite p true v) fun s' => s'.parts = s.parts ∧ s'.shep.perr = true)) ∧
    (v = 1 → s.shep.mcstat ≠ .busy → does (.mcctlLoad v) fun s' =>
      s'.shep.mcstat = if s.launches = [] ∧ s.contexts = [] then .busy else .rejected 3) ∧
    (v.getLsbD 8 = true → 6 ≤ v.toNat % 256 → v.toNat % 256 ≠ 0xFF → s.shep.rtstat ≠ .busy → does (.rtctlLoad v) fun s' =>
      s'.shep.rtid = v.toNat % 256 ∧ s'.shep.rtstat = if s.rtBusy (v.toNat % 256) then .rejected 3 else .busy) ∧
    (v = 1 → does (.invctl fn v) fun s' => (s'.fnMemOf f).inval = (s.fnMemOf f).inval ++ [((s.fnMemOf f).invva, (s.fnMemOf f).invlen)]) ∧
    (∀ w : W64, does (.retire w) fun s' => (w.toNat / 65536 % 2 ^ 36) ∈ s'.retired ∧ (∀ x ∈ s.retired, x ∈ s'.retired) ∧
      s'.mem = s.mem) ∧
    ((s.fnMemOf f).faults = [] → does (.fqtailWrite fn v) fun s' => s'.fnMemOf f = { s.fnMemOf f with fqtail := v }) ∧
    (ff.toNat ≤ 16 → (if ff.toNat = 16 then s.anyLink else s.fnBusy ff.toNat) = false →
      let at_ := 0x11000 + 256 * ff.toNat + 16 * k.toNat + (if limit then 8 else 0)
      let old := AL.get (0, 0) s.pfMem.filters (16 * ff.toNat + k.toNat)
      keeps (.rangeFilterWrite ff k limit false v) 0 at_ ∧
      does (.rangeFilterWrite ff k limit true v) fun s' => AL.get (0, 0) s'.pfMem.filters (16 * ff.toNat + k.toNat) =
        if limit then (old.1, v ++ low 0 at_) else (v ++ low 0 at_, old.2)) ∧
    (ff.toNat ≤ 16 → (if ff.toNat = 16 then s.anyLink else s.fnBusy ff.toNat) = true →
      does (.rangeFilterWrite ff k limit true v) fun s' => s'.pfMem = s.pfMem ∧ s'.shep.perr = true) ∧
    (off = 0x308 → does (.registerWrite fn off v) fun s' => (s'.fnLogOf f).size = v) ∧
    (off = 0x428 → does (.registerWrite fn off v) fun s' => (s'.fnMemOf f).fqsize = v) ∧
    (off = 0x404 → does (.registerWrite fn off v) fun s' => (s'.fnMemOf f).root = v ++ low f 0x400) ∧
    (fn = 0 → off = 0x10040 → does (.registerWrite fn off v) fun s' => s'.shep.minq = v) ∧
    (off = 0x42C → exec (.registerWrite fn off v) s = exec (.fqtailWrite fn v) s) ∧
    (off.toNat = 0x200 + 4 * n → v = 0 → exec (.registerWrite fn off v) s = exec (.doorbellKick fn q) s)

/-- R338, R341, R343, R345 to R347 and R354: an invalidation that completes takes its translations away; a grant or a refusal takes the
record and lets its thread retry or trap; hosts and peers read and write device memory through their pages. That a grant wakes its
thread at once, and a refusal acts at once, is the model's choice (assumption log 49). -/
def Obligations.HostAccess : Prop :=
  ∀ (s : State) (fn : BitVec 4) (r : W64 × W64) (rest : List (W64 × W64)) (seq : BitVec 63) (ft : FaultSt) (u : ThreadId)
    (t : Thread) (g : Group) (la : Launch) (ti : TrapInfo) (off : BitVec 36) (len pa : Nat) (s1 : State) (data : List Byte),
    let f := fn.toNat
    let m := s.fnMemOf f
    (s.invalReady f = true → m.inval = r :: rest → ∃ s', exec (.invalidationDone fn) s = .next s' ∧
      (s'.fnMemOf f).inval = rest ∧ (s'.fnMemOf f).invCount = m.invCount + 1 ∧
      ∀ e, e ∈ s'.tlb ↔ e ∈ s.tlb ∧ ¬ (e.fn = f ∧ State.inInval r e.page = true)) ∧
    (s.faultNamed f seq.toNat = some ft → ft.waiters = [.thread u] → s.thread? u = some t → t.sleep = .fault ft.page ti →
      (∃ s', exec (.fqrespGrant fn seq) s = .next s' ∧ s'.thread? u = some { t with sleep := .awake } ∧
        s'.faultNamed f seq.toNat = none) ∧
      (Handled s u t g la ti → ∃ s', exec (.fqrespRefuse fn seq) s = .next s' ∧
        s'.thread? u = some (t.inHandler la.rec_ ti t.pc (s.cycle g.core + 4)) ∧ s'.faultNamed f seq.toNat = none)) ∧
    -- an access within one line, to a page of the host's in device memory
    (∀ tagged, s.ready = true → 0 < len → off.toNat + len ≤ 2 ^ 36 →
      let va := (s.fnMemOf f).winbase.toNat + off.toNat
      va % 64 + len ≤ 64 →
      (s.hostPage f va len false = (some (pa, 0, tagged), s1) → exec (.hostBar2Read fn off len) s = .next (s1.send (.hostRead f
        (if s1.lineBad pa len then List.replicate len 0xFF else Mem.readBytes s1.mem pa len)))) ∧
      (s.hostPage f va len false = (none, s1) →
        exec (.hostBar2Read fn off len) s = .next ((s1.barRefused f).send (.hostRead f (List.replicate len 0xFF)))) ∧
      (data.length = len → s.hostPage f va len true = (some (pa, 0, false), s1) → s1.lineBad pa len = false → pa + len ≤ 2 ^ 38 →
        ∃ s', exec (.hostBar2Write fn off data) s = .next s' ∧ (∀ i b, data[i]? = some b → Mem.read s'.mem (pa + i) = b) ∧
          ∀ a, (a < pa ∨ pa + len ≤ a) → Mem.read s'.mem a = Mem.read s1.mem a)) ∧
    (s.ready = true → s.anyLink = true → 0 < len → pa % 64 + len ≤ 64 → pa + len ≤ 2 ^ 38 → s.filterOk 16 pa len = true →
      s.lineBad pa len = false → (∀ e ∈ s.latent, e.1 ≠ pa / 64) →
      (∃ s', exec (.soistlinkInboundAccess (BitVec.ofNat 64 pa) none len) s = .next s' ∧ s'.mem = s.mem ∧
        s'.outbox = s.outbox ++ [.peerRead (Mem.readBytes s.mem pa len)]) ∧
      (data.length = len → ∃ s', exec (.soistlinkInboundAccess (BitVec.ofNat 64 pa) (some data) len) s = .next s' ∧
        (∀ i b, data[i]? = some b → Mem.read s'.mem (pa + i) = b) ∧
        ∀ a, (a < pa ∨ pa + len ≤ a) → Mem.read s'.mem a = Mem.read s.mem a))

/-- R315, R353 to R355, R358, R362 and R364: loads of images, sweeps, ticks of trace and skew measurements.
The model's choices are that one event runs a sweep whole, or ends one under way, with its receipt (assumption log 62), that the receipt
goes through the PF's tables (log 31), and when a stopped stream tries again (log 63).
R371 and R372: a droop stretches its die's clock and is counted; 105 °C throttles the compute dies until the end; 115 °C trips the
device, whose launches end; under way a start fails instead. That the launches end in the same step, without a wait for the fault
service, and what heat stretches the clocks by, are the model's choices (assumption logs 78 and 50). -/
def Obligations.ServicesAndSupply : Prop :=
  (∀ (s : State) (region unit die n t : Nat) (corrected offset : W32) (d : BitVec 512) (image : List Byte) (s1 : State)
     (w : TraceWindow),
     let h := s.shep
     let measured (old : State) (i : Nat) : BitVec 512 :=
       Config.shake256 (valueBytes 64 (old.mr i).toNat ++ valueBytes 64 d.toNat)
     (s.ready = true → h.rtstat = .busy → s.loadImage h.rtaddr h.rtlen.toNat 65536 (s.rtBusy h.rtid) = (.ok (d, image), s1) → ∃ s',
       exec (.imageLoadDone true) s = .next s' ∧ s'.shep.rtstat = .loaded ∧ h.rtid ∈ s'.routines ∧ AL.get [] s'.images h.rtid = image ∧
       s'.mr 6 = measured s1 6) ∧
     (s.ready = true → h.mcstat = .busy → s.loadImage h.mcaddr h.mclen.toNat 262144 s.mcBusy = (.ok (d, image), s1) → ∃ s',
       exec (.imageLoadDone false) s = .next s' ∧ s'.shep.mcstat = .loaded ∧ s'.shep.custom = true ∧ s'.mr 5 = measured s1 5) ∧
     (∀ r, s.ready = true → h.mcstat = .busy → s.loadImage h.mcaddr h.mclen.toNat 262144 s.mcBusy = (.error r, s1) → ∃ s',
       exec (.imageLoadDone false) s = .next s' ∧ s'.shep.mcstat = .rejected r ∧ s'.mr 5 = s1.mr 5 ∧ s'.shep.custom = s1.shep.custom) ∧
     -- a sweep that is under way since t, or that may start now, counts what it corrected and ends with a receipt, announced once written
     (s.ready = true → s.latent = [] →
       ((s.scrub region unit).start = some t ∧ s.receiptSlot = true ∨
         ((s.scrub region unit).start = none ∧ s.sweepStarts region unit = true ∧ t = s.timestamp 8)) →
       let read := s.sweepRead region unit corrected []
       read.pfMem.cecnt = BitVec.ofNat 32 (min (s.pfMem.cecnt.toNat + corrected.toNat) (2 ^ 32 - 1)) ∧
       ∀ ok s2, read.svcWrite 0 (read.pfMem.scrbase + BitVec.ofNat 64 (4096 * (read.pfMem.scrhead.toNat % read.pfMem.scrsize.toNat))) 0
           (read.receipt region unit t corrected (read.sweepExceptions region unit)) = (ok, s2) → ∃ s',
         exec (.scrubSweep region unit corrected []) s = .next s' ∧ s'.pfMem.cecnt = s2.pfMem.cecnt ∧
         s'.pfMem.scrhead = s2.pfMem.scrhead + 1 ∧ s'.mgmt.sweeps = s2.mgmt.sweeps + 1 ∧ (s'.scrub region unit).start = none ∧
         s'.outbox = s2.outbox ++ (if ok then [.msix 0 .scrubReceipt] else [])) ∧
     ((s.scrub region unit).start = none → s.sweepStarts region unit = false → exec (.scrubSweep region unit corrected []) s = .next s) ∧
     ((s.scrub region unit).start ≠ none → s.receiptSlot = false → exec (.scrubSweep region unit corrected []) s = .next s) ∧
     (s.tickDue = some n → ∃ s' w', exec (.traceTick n) s = .next s' ∧ s'.trace.window = some w' ∧
       ∀ x < 9, ∀ w, s.dieTick x = some (w, n) → ∃ z, w'.streams[x]? = some z ∧ z.tick = n + 1) ∧
     (s.trace.window = some w → w.k = 0 → w.closing = none → ∀ z, w.streams[n]? = some z →
       (z.stopped = some 1 → exec (.traceRetry n) s = .next (s.traceResume n)) ∧
       (z.stopped ≠ some 1 → exec (.traceRetry n) s = .next s)) ∧
     (die ≠ 8 → die ≤ 9 → ∃ s', exec (.skewMeasure die offset) s = .next s' ∧ AL.get 0 s'.trace.skew die = offset ∧
       (∀ x, x ≠ die → AL.get 0 s'.trace.skew x = AL.get 0 s.trace.skew x) ∧ s'.trace.window = s.trace.window)) ∧
  (∀ (s : State) (die : Nat) (k : BitVec 3) (tj : Byte),
     let does (e : Instr) (d : State → Prop) : Prop := ∃ s', exec e s = .next s' ∧ d s'
     (die < 10 → k ≠ 0 → does (.supplyDroop die k) fun s' => (s'.die die).stretch = k ∧
       AL.get 0 s'.mgmt.droop die = AL.get 0 s.mgmt.droop die + 1 ∧ ∀ x, x ≠ die → s'.die x = s.die x) ∧
     does (.supplyRecovery die) (fun s' => (s'.die die).stretch = 0 ∧ ∀ x, x ≠ die → s'.die x = s.die x) ∧
     (105 ≤ tj.toNat → (tj.toNat < 115 ∨ s.mgmt.trip = true) → s.mgmt.thr = false → does (.thermalThrottle tj) fun s' =>
       s'.mgmt.thr = true ∧ s'.mgmt.tj = tj ∧ (∀ d < 8, (s'.die d).heat ≠ 0) ∧ s'.outbox = s.outbox ++ [.msix 0 .thermalChange]) ∧
     (105 ≤ tj.toNat → (tj.toNat < 115 ∨ s.mgmt.trip = true) → s.mgmt.thr = true →
       exec (.thermalThrottle tj) s = .next { s with mgmt := { s.mgmt with tj := tj } }) ∧
     (tj.toNat < 105 → s.mgmt.thr = true → does (.thermalThrottleEnd tj) fun s' => s'.mgmt.thr = false ∧ s'.mgmt.tj = tj ∧
       (∀ d < 8, (s'.die d).heat = 0) ∧ s'.outbox = s.outbox ++ [.msix 0 .thermalChange]) ∧
     (115 ≤ tj.toNat → s.mgmt.trip = false → ∀ e ∈ [Instr.thermalThrottle tj, .thermalTrip tj],
       (s.mgmt.starting = none → does e fun s' => s'.mgmt.trip = true ∧ s'.mgmt.dead = true ∧ s'.mgmt.thr = true ∧ s'.mgmt.tj = tj ∧
         s'.launches = []) ∧
       (s.mgmt.starting.isSome = true → does e fun s' => s'.mgmt.reason = 8 ∧ s'.mgmt.trip = false ∧
         s'.mgmt.fails = min 3 (s.mgmt.fails + 1))))

/-- R365, R367, R369 and R370: a cold start whose every stage passes ends READY with the failures forgotten and its images measured; a
failed one is counted; after the third the device stands in minimal mode until CLRFAIL. How long a stage takes is the model's free
value (assumption log 64); that the start after a failed one meets what the last COLD_RESET gave is its choice (log 11), and so is that a function level
reset, which numbers the function's faults from 0 (Table 21.4), leaves its launches alone (log 14). Semaphores and the port map. -/
def Obligations.StartAndPorts : Prop :=
  ∀ (s : State) (i : StartInput) (v : W32) (port : Bool) (n : BitVec 5) (fn : BitVec 4),
    let m := s.mgmt
    let does (e : Instr) (d : State → Prop) : Prop := ∃ s', exec e s = .next s' ∧ d s'
    let image (k : Nat) : StartImage := i.images.getD k ⟨[], []⟩
    let digest (k : Nat) : BitVec 512 := Config.shake256 (image k).image
    let first (k : Nat) : BitVec 512 := Config.shake256 (valueBytes 64 0 ++ valueBytes 64 (digest k).toNat)
    let signed (k key : Nat) : Prop := Config.signatureOk key (digest k) (image k).signature = true
    let owner := if i.ownerKey then 1 else 0
    -- the start begins with everything as at reset, and each stage ends when its time has come
    (m.fails < 3 → does (.coldReset i) fun s' => s'.mgmt.state = 0 ∧ s'.mgmt.fails = m.fails ∧ s'.mgmt.starting = some (i, 1) ∧
      s'.launches = [] ∧ s'.mem = []) ∧
    (∀ k, m.starting = some (i, k) →
      let late : Prop := m.state < 3 ∧ m.since + 6600000000 ≤ s.tick
      (¬ late → m.stageAt + Config.stageTicks k ≤ s.tick → s.startCycle = s.runStageOf i k) ∧
      (¬ late → s.tick < m.stageAt + Config.stageTicks k → s.startCycle = s) ∧
      (late → s.startCycle = s.failStart i 3)) ∧
    (m.fails < 3 → ∀ s', exec (.coldReset i) s = .next s' →
      (signed 0 0 → (s'.runStageOf i 1).mgmt.starting = some (i, 2) ∧ (s'.runStageOf i 1).mr 0 = first 0) ∧
      (¬ signed 0 0 → let r := s'.runStageOf i 1
        r.mgmt.fails = m.fails + 1 ∧ r.mgmt.reason = 1 ∧ r.launches = [] ∧
          -- the reset enters stage 1 again, and minimal mode after the third failure
          (m.fails < 2 → r.mgmt.state = 0 ∧ r.mgmt.starting = some (i, 1)) ∧ (m.fails = 2 → r.mgmt.state = 4 ∧ r.mgmt.starting = none)) ∧
      (signed 0 0 → i.keyStoreOk = true → i.dramOk = true → i.linksOk = true → signed 3 owner → signed 4 owner → i.configOk = true →
        let r := [1, 2, 3, 4, 5, 6].foldl (fun s k => s.runStageOf i k) s'
        r.mgmt.state = 3 ∧ r.mgmt.fails = 0 ∧ r.mgmt.starting = none ∧ r.domain = i.domain.toNat ∧ r.mr 0 = first 0 ∧ r.mr 1 = first 1 ∧
          r.mr 2 = first 3 ∧ r.mr 3 = first 4 ∧ r.mr 4 = first 5)) ∧
    (3 ≤ m.fails → does (.coldReset i) fun s' => s'.mgmt.state = 4 ∧ s'.mgmt.fails = m.fails ∧ s'.mgmt.reason = m.reason) ∧
    (m.starting = none → exec .startTimeout s = .next s) ∧
    (m.starting.isSome = true → m.state < 3 → m.since + 6600000000 ≤ s.tick → does .startTimeout fun s' => s'.mgmt.reason = 3 ∧
      s'.mgmt.fails = min 3 (m.fails + 1)) ∧
    (m.state = 4 → v.getLsbD 0 = true → exec (.mgctlClrfail v) s = .next { s with mgmt := { m with fails := 0 } }) ∧
    (m.state ≠ 4 → exec (.mgctlClrfail v) s = .next s) ∧
    (s.portUp port = true →
      let me := if port then 2 else 1
      let owned := s.semOwner n.toNat
      does (.semRead port n) (fun s' => s'.semOwner n.toNat = (if owned = 0 then me else owned) ∧
        s'.outbox = s.outbox ++ [.semRead port (0x80000000 ||| BitVec.ofNat 32 (if owned = 0 then me else owned))]) ∧
      (owned = me → does (.semWrite port n 0) fun s' => s'.semOwner n.toNat = 0) ∧
      (owned ≠ me ∨ v ≠ 0 → exec (.semWrite port n v) s = .next s)) ∧
    does (.portLinkReset port) (fun s' => ∀ k < 32, s'.semOwner k = (if s.semOwner k = (if port then 2 else 1) then 0 else s.semOwner k)) ∧
    does (.portmapWrite v) (fun s' => ∀ k < 16, s'.mgmt.portmap.getLsbD k =
      (decide (k ≠ 0) && (if s.fnBusy k then m.portmap.getLsbD k else v.getLsbD k))) ∧
    (fn ≠ 0 → does (.functionLevelReset fn) fun s' => s'.mgmt.ports.getLsbD fn.toNat = m.portmap.getLsbD fn.toNat ∧
      (s'.fnMemOf fn.toNat).nextFault = 0 ∧ s'.launches = s.launches ∧ s'.mem = s.mem)

/-- R350 and R366: every SPDM request is answered through its port's mailbox where that is there, a measurement with the register it
names; algorithms, sessions and port ciphers follow the requests; a link is up with a new key, and down after a failure. The order in
which requests take effect and what answers hold, and that the flit counters stand at 0 after a re-keying, are the model's choices (assumption logs 38 and 39). -/
def Obligations.SpdmAndLinks : Prop :=
  ∀ (s : State) (port : Bool) (body : SpdmBody) (block : Byte) (stream link : BitVec 4),
    let m := s.mgmt
    let key := if port then 1 else 0
    -- the answer and what a request does beside
    let asks (e : Instr) (k : Nat) (known : List Byte) (d : Mgmt → Mgmt) : Prop :=
      (s.mailbox port = true → ∃ s' rest, exec e s = .next s' ∧ s'.outbox = s.outbox ++ [.spdm port k (known ++ rest)] ∧
        s'.mgmt = d m ∧ s'.groups = s.groups ∧ s'.mem = s.mem) ∧
      (s.mailbox port = false → exec e s = .next s)
    let same (m : Mgmt) : Mgmt := m
    let session (x : SessionSt) (m : Mgmt) : Mgmt := { m with sessions := AL.set .none_ m.sessions key x }
    let known : List Byte := if 1 ≤ block.toNat ∧ block.toNat ≤ 8 then
      [block, if block = 1 then 0 else 1] ++ valueBytes 64 (s.mr (block.toNat - 1)).toNat else []
    asks (.getVersion port) 0 [] same ∧ asks (.getCapabilities port body) 1 [] same ∧
    asks (.negotiateAlgorithms port body) 2 [] (fun m => { m with negotiated := AL.set false m.negotiated key true }) ∧
    asks (.getDigests port) 3 [] same ∧ asks (.getCertificate port body) 4 [] same ∧ asks (.challenge port body) 5 [] same ∧
    asks (.getMeasurements port block body) 6 known same ∧
    asks (.keyExchange port body) 7 [] (if AL.get false m.negotiated key then session .opened else same) ∧
    asks (.finish port body) 8 [] (if AL.get .none_ m.sessions key = .opened then session .established else same) ∧
    asks (.endSession port) 9 [] (session .none_) ∧
    (stream.toNat ≤ 8 → AL.get .none_ m.sessions key = .established →
      asks (.ideKm port stream body) 10 [] (fun m => { m with ide := AL.set IdeSt.fresh m.ide (16 * key + stream.toNat) ⟨true, false⟩ })) ∧
    ((AL.get IdeSt.fresh m.ide (16 * key + stream.toNat)).keyed = true → ∃ s', exec (.ideIntegrityFail port stream) s = .next s' ∧
      AL.get IdeSt.fresh s'.mgmt.ide (16 * key + stream.toNat) = ⟨true, true⟩) ∧
    (m.state = 3 → link.toNat < 12 → ∃ s', exec (.soistlinkRekey link body) s = .next s' ∧
      s'.link link.toNat = ⟨true, (s.link link.toNat).keyId + 1, 0, 0⟩ ∧
      s'.mr 7 = Config.shake256 (valueBytes 64 (s.mr 7).toNat ++ valueBytes 64 (Config.shake256 body).toNat)) ∧
    (∀ e ∈ ([.soistlinkAuthFail link, .soistlinkLinkFailure link] : List Instr), (s.link link.toNat).up = true →
      ∃ s', exec e s = .next s' ∧ (s'.link link.toNat).up = false ∧ s'.mem = s.mem)

/-! The whole machine. -/

/-- Tables 2.1 to 2.10: words written out bit by bit from the encoding, one or more of each family, and the instructions they stand
for: P, S, W, then for a full word primary, d, a, b, c, fn, k and the negation bit, and for a pair primary, d and a of each half. -/
def Obligations.WordsDecode : Prop :=
  decode 240 (0b0_000_000000000000_00100000_00000001_00000010_00000011_00000000_0000_000_0 : BitVec 64) =
    .ok (.full 0 0 0 false (.iadd (.v 1) (.v 2) (.v 3) false)) ∧
  decode 240 (0b0_001_100000000001_01010011_11110000_11110110_11110111_00000111_0000_010_1 : BitVec 64) =
    .ok (.full 1 0x801 2 true (.ffma (.o 0) .last .zero (.v 7))) ∧
  decode 240 (0b0_000_000000000000_00101111_00000100_00000101_00011111_00000000_0001_000_0 : BitVec 64) =
    .ok (.full 0 0 0 false (.shl (.v 4) (.v 5) (.imm 31))) ∧
  decode 240 (0b0_000_000000000000_00111001_00000011_00000001_11111000_00001010_0010_000_0 : BitVec 64) =
    .ok (.full 0 0 0 false (.isetp .lt 3 (.v 1) .lane ⟨2, true⟩)) ∧
  decode 240 (0b0_000_000000000000_00000001_11111111_11111111_11111110_00000000_0000_000_0 : BitVec 64) =
    .ok (.full 0 0 0 false (.bra 0xFFFFFE)) ∧
  decode 240 (0b0_000_000000000000_00010000_00001001_00000000_00000001_00000100_0000_000_0 : BitVec 64) =
    .ok (.full 0 0 0 false (.mfs (.v 9) 0x104)) ∧
  decode 240 (0b0_000_000000000000_01011001_00001000_00001001_00000000_00001111_0000_000_0 : BitVec 64) =
    .ok (.full 0 0 0 false (.frcp (.v 8) (.v 9) none)) ∧
  decode 240 (0b0_000_000000000000_01101000_00100001_00000010_00000011_00010000_0110_000_0 : BitVec 64) =
    .ok (.full 0 0 0 false (.hsetp2 .num 1 2 (.v 2) (.v 3) ⟨0, false⟩ true)) ∧
  decode 240 (0b0_000_000000000000_10000000_00000001_00000010_00000011_00000010_0011_000_0 : BitVec 64) =
    .ok (.full 0 0 0 false (.shfl .dn (.v 1) (.v 2) (.v 3) .w2)) ∧
  decode 240 (0b0_000_000000000000_10010001_00000100_00000101_11111111_11110000_0110_000_0 : BitVec 64) =
    .ok (.full 0 0 0 false (.st .w4 (.v 4) (.v 5) 0xFFF0)) ∧
  decode 240 (0b0_000_000000000000_10011100_00000001_00000010_00000100_00001011_1010_000_0 : BitVec 64) =
    .ok (.full 0 0 0 false (.gatom .amax (.v 1) (.v 2) (.v 4) (some 11))) ∧
  decode 240 (0b0_000_000000000000_10101000_00000000_00000011_00000000_00000110_0000_000_0 : BitVec 64) =
    .ok (.full 0 0 0 false (.cpy (.v 3) .sys)) ∧
  decode 240 (0b0_000_000000000000_10110010_00111111_00000001_00000010_00101110_0001_000_0 : BitVec 64) =
    .ok (.full 0 0 0 false (.tmma 63 (.v 1) (.v 2) 6 5 true)) ∧
  decode 240 (0b0_000_000000000000_11000001_00001111_00000001_00000001_00000010_0001_000_0 : BitVec 64) =
    .ok (.full 0 0 0 false (.suspend true 15 (.v 1) 0x0102)) ∧
  decode 240 (0b0_000_000000000000_11001101_00000100_00000000_00000000_00000011_0000_000_0 : BitVec 64) =
    .ok (.full 0 0 0 false (.aaq (.v 4) (some 3))) ∧
  decode 240 (0b1_000_000000000000_00100000_00000001_00000010_01010000_00000101_00001000 : BitVec 64) =
    .ok (.pair 0 0 (.iaddHalf (.v 1) (.v 2)) (.faddHalf (.v 5) (.v 8))) ∧
  decode 240 (0b0_000_000000000000_00011010_00000000_00000000_00000000_00000000_0000_000_0 : BitVec 64) =
    .error .reservedPrimary ∧
  decode 8 (0b0_000_000000000000_00100000_00000001_00000010_00001000_00000000_0000_000_0 : BitVec 64) =
    .error .badRegister

/-- A well-formed instruction is read back from its word with every operand, and so is a legal pair of halves. -/
def Obligations.EncodedWordsDecode : Prop :=
  ∀ (alloc : Nat) (stall : BitVec 3) (wait : BitVec 12) (k : BitVec 3) (kn : Bool) (i ha hb : Instr) (w : W64),
    (i.wf alloc = true → encode (.full stall wait k kn i) = some w →
      decode alloc w = .ok (.full stall wait k kn i)) ∧
    (ha.wf alloc = true → hb.wf alloc = true → pairReasons ha hb = [] → encode (.pair stall wait ha hb) = some w →
      decode alloc w = .ok (.pair stall wait ha hb))

/-- Every legal word is the encoding of what it decodes to, so that no two words stand for the same. -/
def Obligations.LegalWordsEncode : Prop :=
  ∀ (alloc : Nat) (w : W64) (d : Decoded), decode alloc w = .ok d → encode d = some w

/-- How a step runs an instruction (assumption log 2): an event of the inbox, or the device's next event, is performed (of a device
halted by a trip, R372, only those of its management core, ports, links and supply); else the
next port is served: the packet's word is the eight bytes of the code at its address, which when they decode to an instruction is
performed for the lanes whose predicate is true, all threads of the packet having moved past it, and else traps ILLEGAL (R36). Half B
of a pair word runs for the lanes which half A does not trap (R194, R196), and a switch word ends the turn of the current group where
it issues for it, executed or not (R94). The model's choices are that the report of an ILLEGAL trap has the source tags 0, 0, 0
(assumption log 41), which threads find no room in an engine's queue (log 70), and the order of the ports (log 2). -/
def Obligations.StepRunsDecodedWords : Prop :=
  ∀ (s : State) (i : Instr) (rest : List Input) (core port launch regs : Nat) (pc : W64) (la : Launch) (s1 : State)
    (pa tier kind : Nat) (tagged : Bool) (w : W64) (d : Decoded) (ps : List Due) (stall : BitVec 3) (wait : BitVec 12)
    (k : BitVec 3) (kn : Bool) (a b : Instr),
    (s.inbox = .event i :: rest → s.mgmt.dead = false ∨ State.outlivesTrip i = true → step s = exec i { s with inbox := rest }) ∧
    (s.inbox = .event i :: rest → s.mgmt.dead = true → State.outlivesTrip i = false → step s = .next { s with inbox := rest }) ∧
    (s.inbox = [] → s.nextAuto = some i → step s = exec i s) ∧
    (s.inbox = [] → s.nextAuto = none → s.nextPort = some (core, port) → step s = s.servePort exec core port) ∧
    (s.inbox = [] → s.nextAuto = none → s.nextPort = none → step s = .next s.tickNow) ∧
    -- fetch
    (s.launch? launch = some la → (pc - la.rec_.code).toNat % 8 = 0 → (pc - la.rec_.code).toNat / 8 < la.rec_.size →
      (∀ e ∈ (s.core core).icache, e.1 = launch → e.2.1 ≠ pc) →
      s.accessPage (coreLoc core) la.fn pc 8 .fetch = (.ok pa tier kind tagged, s1) →
      decode regs (Mem.read64 s1.mem pa) = .ok d → (s.fetch core launch regs pc).1 = .word (Mem.read64 s1.mem pa) d) ∧
    -- the packet of a port, and what an illegal word does to its threads
    (let ds := s.holdBirths exec core port (s.holdRoom core (s.dueLanes core port))
     let s0 := ((s.stopHeld ds).markReady core port (State.readyOf ds)).fillCurrent core port
     let rs := (State.readyOf ds).map fun x => { x with t := (s0.thread? ⟨x.g.uid, x.lane⟩).getD x.t }
     ∀ (who : Option Nat) (p : Due) (more : List Due) (others : List (Option Nat × List Due)) (r : Illegal),
       s0.candidates core port rs = (who, p :: more) :: others →
       let s2 := s0.modPort core port fun q => { q with served := true, forced := none, lastServed := who }
       let s3 := if who.isSome then s2.passOver (s2.freeOnes rs) else s2
       s3.launch? p.g.launch = some la →
       let f := s3.fetch core p.g.launch la.rec_.regs p.t.pc
       (f.1 = .word w d →
         let qs := f.2.limitBirths exec core port p.g.launch p.t.pc w d (f.2.limitRoom core (State.dropShadowed (p :: more)) d)
         qs ≠ [] → s.servePort exec core port = f.2.issueWord exec core port p.g.launch p.t.pc w d qs) ∧
       (f.1 = .illegal w r →
         s.servePort exec core port = .next ((p :: more).foldl (fun s x =>
           (s.modThread ⟨x.g.uid, x.lane⟩ fun t => { t with readySince := none, passed := 0 }).takeTrap ⟨x.g.uid, x.lane⟩
             ⟨0x01, BitVec.ofNat 32 r.code, (w >>> 32).setWidth 32, 0, 0, 0, 0⟩ p.t.pc (s.cycle core + 4)) f.2))) ∧
    -- issue
    ((∀ x ∈ ps, s.earlyTrap x d = none) → ps ≠ [] →
      let ls := s.laneOrder ((ps.map fun x => ⟨x.g.uid, x.lane, false⟩) ++ State.helpersOf ps)
      let s2 := ps.foldl (fun s x => s.passWord x d) { s with issueSeq := s.issueSeq + 1 }
      let on := ls.filter fun l => execsFor (s2.rf l) d
      let off := ls.filter fun l => !execsFor (s2.rf l) d
      let cur (half : HalfPos) (partner : Option Instr) (lanes off : List LaneRef) : IssueCtx :=
        { core := core, port := port, launch := launch, pc := pc, word := w, cycle := s2.cycle core, seq := s2.issueSeq,
          half := half, partner := partner, lanes := lanes, off := off }
      let yields : List Nat := ((ls.filter fun l => !l.helper && execsFor (s.rf l) d).map fun l => l.g).eraseDups
      let after (s3 : State) : Host.Outcome State Fault Refusal :=
        let s4 := (({ s3 with cur := none }).wordSwitches d (AL.find? (s.port core port).current launch)
          (ps.map fun (x : Due) => x.g.uid) yields).closeParted
        .next ((s4.countCore core 0 1).countCore core 1 ps.length)
      (on ≠ [] → d = .full stall wait k kn i →
        s.issueWord exec core port launch pc w d ps = andThen (exec i { s2 with cur := some (cur .full none on off) }) after) ∧
      (on ≠ [] → d = .pair stall wait a b →
        s.issueWord exec core port launch pc w d ps =
          andThen (andThen (exec a { s2 with cur := some (cur .a (some b) on off) }) fun s3 =>
            let hit (l : LaneRef) : Bool := (s2.resTrap l (halfRes a s2 l)).isSome
            exec b { s3 with cur := some (cur .b (some a) (on.filter (!hit ·)) (off ++ on.filter hit)) }) after) ∧
      (on = [] → s.issueWord exec core port launch pc w d ps = after s2))

/-- The machine of the manual does not stop: every instruction and every step has a next state. -/
def Obligations.NeverStops : Prop :=
  (∀ (i : Instr) (s : State), ∃ s', exec i s = .next s') ∧ (∀ s : State, ∃ s', step s = .next s')

/-- Memory keeps its canonical form: addresses strictly rising and no entry that reads as an unlisted address does. -/
def Obligations.MemoryStaysCanonical : Prop :=
  ∀ s s' : State, s.memWf → step s = .next s' → s'.memWf

/-- Frame: a word that acts on registers alone changes no byte of global or scratchpad memory, puts no access in flight to a
scratchpad, and changes no thread but those it executes for. -/
def Obligations.RegisterWordsFrame : Prop :=
  ∀ (i : Instr) (s s' : State), Instr.registersOnly i = true → exec i s = .next s' →
    s'.mem = s.mem ∧ s'.flocks = s.flocks ∧ s'.scratch = s.scratch ∧
    ∀ u : ThreadId, (∀ c, s.cur = some c → ∀ l ∈ c.lanes, l.helper = false → l.tid ≠ u) → s'.thread? u = s.thread? u

/-- R357, R366 and Tables 18.12, 18.13, 21.6 and 23.3: what reset leaves: the timestamps at 0, no launch, no thread, PART0 the
whole grid and enabled, MINQ 10, SCRPER 86400, the measurement registers zero; and memory in its canonical form.
R79 and Table 4.1: a created thread stands at word 0 of its launch's code, awake, with every register 0 under the null tag, no
predicate but k0 true, no flag pending, no operation outstanding, trap depth 0, and the launch's tag rule and checking bit. -/
def Obligations.InitialValues : Prop :=
  (let s := State.reset
   (∀ d, s.timestamp d = 0) ∧ s.launches = [] ∧ s.groups = [] ∧ s.flocks = [] ∧ s.gaccs = [] ∧ s.poison = [] ∧ s.latent = [] ∧
   s.mgmt.starting = none ∧
   (s.part 0).reg = 0x0000000128080000 ∧ (∀ p, 1 ≤ p → p < 4 → (s.part p).reg = 0) ∧ s.shep.minq = 10 ∧
   s.pfMem.scrper = 86400 ∧ s.shep.nextLaunch = 0 ∧ (∀ n, AL.get 0 s.mgmt.mr n = 0) ∧ (∀ f, (s.fnMemOf f).root = 0) ∧
   (∀ f, (s.fnMemOf f).fqsize = 0) ∧ (∀ f q, (s.queue f q).qcb = 0) ∧ s.mgmt.portmap = 0 ∧ s.pfMem.tsbase0 = 0 ∧
   s.trace.window = none ∧ s.memWf) ∧
  (∀ (r : LaunchRec) (logid : W32) (cycle : Nat),
     let t := Thread.created r logid cycle
     t.pc = r.code ∧ t.sleep = .awake ∧ (∀ x, t.rf.get x = ⟨0, 0⟩) ∧ (∀ k, t.rf.pred k = decide (k = 0)) ∧ t.rf.pend = [] ∧
     t.flags = 0 ∧ t.flagged = [] ∧ (∀ c, t.count c = 0) ∧ t.sys.depth = 0 ∧ t.sys.re = false ∧ t.sys.fcr = 0 ∧ t.sys.fsr = 0 ∧
     t.sys.tagmode = r.tagmode ∧ t.sys.schken = r.schk ∧ t.sys.stkp = 0 ∧ t.sys.logid = logid ∧ t.sys.hashl = 0 ∧
     t.sys.engerr = 0 ∧ t.fatal = none)

/-- R25, R96 to R99: the codes without state read what they name, zero reads 0 and discards what is written to it, and k0 is true
whatever is written to it; every other register reads what was put there last.
R98 and R103: writes in flight land at their cycles, those of one cycle in issue order: the last to land of a register or a
predicate gives it its value, last takes that of the latest word, and what has no write due stays.
R102, R103 and R168: a flagged result that may land puts its values and tags in its registers and clears its flag, but
that a register to which a word issued later has landed in the same cycle stays; with no operation that ends with it, the thread's
pc, outstanding operations and system registers stay, HASHL aside, which takes an awaited word (R330). -/
def Obligations.RegisterReadsAndLandings : Prop :=
  (∀ (s : State) (l : LaneRef) (r : RegFile) (x y : Reg) (w : TW) (k j : BitVec 3) (b : Bool) (g : Group) (f : Flock),
     s.operand l .zero = ⟨0, 0⟩ ∧ s.operand l .lane = ⟨BitVec.ofNat 32 l.lane, 0⟩ ∧
     (s.group? l.g = some g → s.operand l .grp = ⟨BitVec.ofNat 32 g.gidx, 0⟩ ∧
       s.operand l .cxy = ⟨BitVec.ofNat 32 (g.core % 8 + 256 * (g.core / 8)), 0⟩) ∧
     (s.flockOf? l.g = some f → s.operand l .flk = ⟨BitVec.ofNat 32 f.idx, 0⟩) ∧
     r.put .zero w = r ∧ ((∃ n, x = .v n) ∨ (∃ n, x = .o n) → (r.put x w).get x = w) ∧
     (y ≠ x → (r.put x w).get y = r.get y) ∧
     r.pred 0 = true ∧ r.setPred 0 b = r ∧ (k ≠ 0 → (r.setPred k b).pred k = b) ∧ (j ≠ k → (r.setPred k b).pred j = r.pred j)) ∧
  (∀ (r : RegFile) (cyc : Nat) (x : Reg) (k : BitVec 3) (w : Landing) (v : TW),
     let r' := r.landAll cyc
     let due (u : Landing) : Prop := u ∈ r.pend ∧ u.cyc ≤ cyc
     let final (dst : Dest) : Prop := due w ∧ w.dst = dst ∧ w.val = some v ∧
       ∀ u, due u → u.dst = dst → u = w ∨ u.cyc < w.cyc ∨ (u.cyc = w.cyc ∧ u.seq < w.seq)
     r'.pend = r.pend.filter (fun u => decide (cyc < u.cyc)) ∧
     ((∀ u, due u → u.dst ≠ .reg x) → r'.get x = r.get x) ∧
     ((∀ u, due u → u.dst ≠ .pred k) → r'.pred k = r.pred k) ∧
     ((∃ n, x = .v n) ∨ (∃ n, x = .o n) → final (.reg x) → r'.get x = v) ∧
     (k ≠ 0 → final (.pred k) → r'.pred k = v.val.getLsbD 0) ∧
     (due w → w.dst = .reg .last → w.val = some v → r.lastSeq ≤ w.seq →
       (∀ u, due u → u.dst = .reg .last → u = w ∨ u.seq < w.seq) → r'.last = v)) ∧
  (∀ (s : State) (g lane id : Nat) (gr : Group) (t : Thread) (f : FlagRes) (vs : List TW),
     s.group? g = some gr → s.thread? ⟨g, lane⟩ = some t → t.flagged.find? (fun x => decide (x.id = id)) = some f →
     f.vals = some vs → f.lo ≤ s.cycle gr.core → f.opId = none →
     ∃ s' t', exec (.flaggedResultLand g lane id) s = .next s' ∧ s'.thread? ⟨g, lane⟩ = some t' ∧
       (t.rf.landed = [] → f.dests.Nodup → ∀ (i : Nat) (d : Reg) (w : TW), f.dests[i]? = some d → vs[i]? = some w →
         ((∃ n, d = .v n) ∨ ∃ n, d = .o n) → t'.rf.get d = w) ∧
       (∀ d, d ∉ f.dests → t'.rf.get d = t.rf.get d) ∧
       (∀ d ∈ f.dests, (∃ q, (d, q) ∈ t.rf.landed ∧ f.seq < q) → t'.rf.get d = t.rf.get d) ∧
       t'.rf.pend = t.rf.pend ∧ t'.rf.k = t.rf.k ∧
       (∀ k : Fin 12, f.flag = some k → t'.flags.getLsbD k.val = false) ∧
       (∀ k : Nat, f.flag.map (·.val) ≠ some k → t'.flags.getLsbD k = t.flags.getLsbD k) ∧
       t'.flagged = t.flagged.filter (fun x => !decide (x.id = id)) ∧ { t'.sys with hashl := t.sys.hashl } = t.sys ∧
       ((∀ p ∈ t.hashq, p.1 ≠ f.seq ∧ p.2 = none) → t'.sys = t.sys) ∧ t'.pc = t.pc ∧ t'.outs = t.outs)
end

