-- ==== Sys2Proof/Laws/Decode.lean ====
section
/-!
SUPPORT. Laws of the encoding: codes of registers, flags and predicates are read back, and a word made of fields is decoded
from those fields.
-/
namespace Sys2Proof

/-! Codes. -/

theorem Reg.code_lt (r : Reg) : (Reg.code r).toNat < 0xFC := by
  cases r with
  | v n => simp [Reg.code]; omega
  | o n => simp [Reg.code]; omega
  | _ => decide

theorem Reg.ofCode_code (r : Reg) : Reg.ofCode (Reg.code r) = r := by
  cases r with
  | v n =>
    have h : (BitVec.ofNat 8 n.val).toNat = n.val := by simp; omega
    unfold Reg.ofCode Reg.code
    have hn : (BitVec.ofNat 8 n.val).toNat < 240 := by omega
    rw [dif_pos hn]
    congr
  | o n =>
    have h : ∀ n : Fin 6, Reg.ofCode (Reg.code (.o n)) = .o n := by decide +kernel
    exact h n
  | _ => decide +kernel

theorem Reg.code_ofCode {x : BitVec 8} (h : x.toNat < 0xFC) : Reg.code (Reg.ofCode x) = x := by
  revert x
  decide +kernel

theorem Flag.ofCode_code (f : Flag) : Flag.ofCode (Flag.code f) = f := by
  cases f with
  | none => rfl
  | some n =>
    revert n
    decide

theorem KSel.ofCode_code (k : KSel) : KSel.ofCode (KSel.code k) = k := by
  obtain ⟨a, b⟩ := k
  revert a b
  decide +kernel

/-- Five bits of a predicate source and a bit above it are read apart. -/
theorem KSel.code_bf (k : KSel) (bf : Bool) : KSel.ofCode (KSel.code k ||| (if bf then 16 else 0)) = k ∧
    (KSel.code k ||| (if bf then 16 else 0)).getLsbD 4 = bf := by
  obtain ⟨a, b⟩ := k
  revert a b bf
  decide +kernel

/-! Kinds of payload bytes: what an encoder writes breaks no reason. -/

@[simp] theorem FieldKind.reg_code (r : Reg) : FieldKind.reg.reasons (Reg.code r) = [] := by
  simp [FieldKind.reasons, Reg.code_lt r]

@[simp] theorem FieldKind.flag_code (f : Flag) : FieldKind.flag.reasons (Flag.code f) = [] := by
  cases f with
  | none => rfl
  | some n =>
    revert n
    decide

@[simp] theorem FieldKind.ksel_code (k : KSel) : (FieldKind.mask 0x0F).reasons (KSel.code k) = [] := by
  obtain ⟨a, b⟩ := k
  revert a b
  decide +kernel

@[simp] theorem FieldKind.any_ok (x : BitVec 8) : FieldKind.any.reasons x = [] := rfl
@[simp] theorem FieldKind.un_zero : FieldKind.un.reasons 0 = [] := rfl

/-! Immediates put into payload bytes and taken out again. -/

@[simp] theorem low_one (n : BitVec 1) : (n.setWidth 8).extractLsb' 0 1 = n := by revert n; decide +kernel
@[simp] theorem low_two (n : BitVec 2) : (n.setWidth 8).extractLsb' 0 2 = n := by revert n; decide +kernel
@[simp] theorem low_three (n : BitVec 3) : (n.setWidth 8).extractLsb' 0 3 = n := by revert n; decide +kernel
@[simp] theorem low_four (n : BitVec 4) : (n.setWidth 8).extractLsb' 0 4 = n := by revert n; decide +kernel
@[simp] theorem low_five (n : BitVec 5) : (n.setWidth 8).extractLsb' 0 5 = n := by revert n; decide +kernel
@[simp] theorem low_six (n : BitVec 6) : (n.setWidth 8).extractLsb' 0 6 = n := by revert n; decide +kernel

/-- Two 3-bit fields and a bit of one byte. -/
theorem two_fields (x y : BitVec 3) (r : Bool) :
    let v : BitVec 8 := x.setWidth 8 ||| (y.setWidth 8 <<< 3) ||| (if r then 64 else 0)
    v.extractLsb' 0 3 = x ∧ v.extractLsb' 3 3 = y ∧ v.getLsbD 6 = r := by
  revert x y r
  decide +kernel

theorem two_fields_plain (x y : BitVec 3) :
    (x.setWidth 8 ||| (y.setWidth 8 <<< 3)).extractLsb' 0 3 = x ∧ (x.setWidth 8 ||| (y.setWidth 8 <<< 3)).extractLsb' 3 3 = y := by
  revert x y
  decide +kernel

/-- The two predicates of HSETP2. -/
theorem two_preds (x y : BitVec 3) :
    (x.setWidth 8 ||| (y.setWidth 8 <<< 4)).extractLsb' 0 3 = x ∧ (x.setWidth 8 ||| (y.setWidth 8 <<< 4)).extractLsb' 4 3 = y := by
  revert x y
  decide +kernel

@[simp] theorem imm16_bytes (o : BitVec 16) : o.extractLsb' 8 8 ++ o.extractLsb' 0 8 = o := by
  apply BitVec.eq_of_getLsbD_eq
  intro i hi
  rw [BitVec.getLsbD_append]
  split
  · simp [*]
  · have h : 8 + (i - 8) = i := by omega
    have h2 : i - 8 < 8 := by omega
    simp [h, h2]

@[simp] theorem imm24_bytes (o : BitVec 24) : o.extractLsb' 16 8 ++ o.extractLsb' 8 8 ++ o.extractLsb' 0 8 = o := by
  apply BitVec.eq_of_getLsbD_eq
  intro i hi
  rw [BitVec.getLsbD_append]
  split
  · simp [*]
  · rw [BitVec.getLsbD_append]
    split
    · have h : 8 + (i - 8) = i := by omega
      simp [*]
    · have h : 16 + (i - 8 - 8) = i := by omega
      have h2 : i - 8 - 8 < 8 := by omega
      simp [h, h2]

@[simp] theorem imm12_bytes (o : BitVec 12) : ((o.extractLsb' 8 4).setWidth 8 ++ o.extractLsb' 0 8).extractLsb' 0 12 = o := by
  apply BitVec.eq_of_getLsbD_eq
  intro i hi
  rw [BitVec.getLsbD_extractLsb', BitVec.getLsbD_append]
  have h0 : 0 + i = i := by omega
  simp only [h0, hi, decide_true, Bool.true_and]
  split
  · simp [*]
  · have h : 8 + (i - 8) = i := by omega
    have h2 : i - 8 < 4 := by omega
    have h3 : i - 8 < 8 := by omega
    simp [h, h2, h3]

@[simp] theorem FieldKind.mask_four (y : BitVec 4) : (FieldKind.mask 0x0F).reasons (y.setWidth 8) = [] := by
  revert y
  decide +kernel

theorem FieldKind.lim_2 (x : BitVec 1) : (FieldKind.lim 2).reasons (x.setWidth 8) = [] := by revert x; decide +kernel
theorem FieldKind.lim_4 (x : BitVec 2) : (FieldKind.lim 4).reasons (x.setWidth 8) = [] := by revert x; decide +kernel
theorem FieldKind.lim_8 (x : BitVec 3) : (FieldKind.lim 8).reasons (x.setWidth 8) = [] := by revert x; decide +kernel
theorem FieldKind.lim_16 (x : BitVec 4) : (FieldKind.lim 16).reasons (x.setWidth 8) = [] := by revert x; decide +kernel
theorem FieldKind.lim_32 (x : BitVec 5) : (FieldKind.lim 32).reasons (x.setWidth 8) = [] := by revert x; decide +kernel
theorem FieldKind.lim_64 (x : BitVec 6) : (FieldKind.lim 64).reasons (x.setWidth 8) = [] := by revert x; decide +kernel
theorem FieldKind.mask_7 (x : BitVec 3) : (FieldKind.mask 7).reasons (x.setWidth 8) = [] := by revert x; decide +kernel
theorem FieldKind.mask_31 (x : BitVec 5) : (FieldKind.mask 31).reasons (x.setWidth 8) = [] := by revert x; decide +kernel
theorem FieldKind.two_fields (x y : BitVec 3) : (FieldKind.mask 0x3F).reasons (x.setWidth 8 ||| (y.setWidth 8 <<< 3)) = [] := by
  revert x y
  decide +kernel
theorem FieldKind.two_fields_bit (x y : BitVec 3) (r : Bool) :
    (FieldKind.mask 0x7F).reasons (x.setWidth 8 ||| (y.setWidth 8 <<< 3) ||| (if r then 64 else 0)) = [] := by
  revert x y r
  decide +kernel
theorem FieldKind.two_preds (x y : BitVec 3) : (FieldKind.mask 0x77).reasons (x.setWidth 8 ||| (y.setWidth 8 <<< 4)) = [] := by
  revert x y
  decide +kernel
theorem FieldKind.ksel_bf (k : KSel) (bf : Bool) : (FieldKind.mask 0x1F).reasons (KSel.code k ||| (if bf then 16 else 0)) = [] := by
  obtain ⟨a, b⟩ := k
  revert a b bf
  decide +kernel

theorem FieldKind.half_bit (h : Bool) : (FieldKind.mask 1).reasons (if h then 1 else 0) = [] := by cases h <;> rfl
theorem half_bit (h : Bool) : (if h then 1 else 0 : BitVec 8).getLsbD 0 = h := by cases h <;> rfl

/-! What an instruction's fields must be for its word to be read back. -/

/-- Fields from which the decoder reads an instruction, breaking no reason of their own. -/
def FieldsRead (i : Instr) (f : Fields) : Prop :=
  f.fn < 16 ∧ ∃ r, opRow f.op.toNat f.fn = some r ∧ f.fn < r.nfn ∧ r.d.reasons f.d = [] ∧ r.a.reasons f.a = [] ∧
    r.b.reasons f.b = [] ∧ r.c.reasons f.c = [] ∧ buildInstr f.op.toNat f.fn f.d f.a f.b f.c = i

/-- Fields are read back when their kinds are right and the decoder's reading `n` of them is the instruction. -/
theorem read_of {i n : Instr} {f : Fields} {r : OpRow} (h0 : decide (f.fn < 16) = true) (h1 : opRow f.op.toNat f.fn = some r)
    (h2 : decide (f.fn < r.nfn) = true) (h3 : r.d.reasons f.d = []) (h4 : r.a.reasons f.a = []) (h5 : r.b.reasons f.b = [])
    (h6 : r.c.reasons f.c = []) (h7 : buildInstr f.op.toNat f.fn f.d f.a f.b f.c = n) (h8 : n = i) : FieldsRead i f :=
  ⟨of_decide_eq_true h0, r, h1, of_decide_eq_true h2, h3, h4, h5, h6, h7.trans h8⟩

theorem FieldKind.weight_ok {l : BitVec 8} (h : weightOk l = true) : FieldKind.weight.reasons l = [] := by
  simp [FieldKind.reasons, h]

/-! Words. -/

/-- The word of a full instruction with given fields (Tables 2.1 and 2.3). -/
def fullWord (stall : BitVec 3) (wait : BitVec 12) (k : BitVec 3) (kn : Bool) (f : Fields) : W64 :=
  (0 : BitVec 1) ++ stall ++ wait ++ encodeFull k kn f

/-- The reasons that given fields break as a full instruction, and the instruction. -/
def parseFields (alloc : Nat) (f : Fields) : List Nat × Instr :=
  match opRow f.op.toNat f.fn with
  | none => ([0x01], .nop)
  | some r =>
    let i := buildInstr f.op.toNat f.fn f.d f.a f.b f.c
    ((if f.fn < r.nfn then [] else [0x03]) ++ r.d.reasons f.d ++ r.a.reasons f.a ++ r.b.reasons f.b ++ r.c.reasons f.c ++
      i.reasons alloc, i)

theorem extract_low {m n : Nat} (x : BitVec m) (y : BitVec n) : (x ++ y).extractLsb' 0 n = y := by
  apply BitVec.eq_of_getLsbD_eq
  intro i hi
  simp [BitVec.getLsbD_append, hi]

/-- A field above the low part of a word is a field of its high part. -/
theorem extract_high {m n : Nat} (x : BitVec m) (y : BitVec n) (s : Nat) {t w : Nat} (h : t = n + s) :
    (x ++ y).extractLsb' t w = x.extractLsb' s w := by
  subst h
  apply BitVec.eq_of_getLsbD_eq
  intro i hi
  have h : n + s + i - n = s + i := by omega
  have h2 : ¬ n + s + i < n := by omega
  simp [BitVec.getLsbD_append, h, h2, hi]

theorem parseFull_encodeFull (alloc : Nat) (k : BitVec 3) (kn : Bool) (f : Fields) (h : f.fn < 16) :
    parseFull alloc (encodeFull k kn f) = parseFields alloc f := by
  have low : ∀ s w : Nat, (encodeFull k kn f).extractLsb' (8 + s) w = (f.op ++ f.d ++ f.a ++ f.b ++ f.c).extractLsb' s w :=
    fun s w => (extract_high _ _ (7 + s) (by omega)).trans <| (extract_high _ _ (4 + s) (by omega)).trans <|
      extract_high _ _ s rfl
  have hop : (encodeFull k kn f).extractLsb' 40 8 = f.op :=
    (low 32 8).trans <| (extract_high _ _ 24 rfl).trans <| (extract_high _ _ 16 rfl).trans <| (extract_high _ _ 8 rfl).trans <|
      (extract_high _ _ 0 rfl).trans (by simp)
  have hd : (encodeFull k kn f).extractLsb' 32 8 = f.d :=
    (low 24 8).trans <| (extract_high _ _ 16 rfl).trans <| (extract_high _ _ 8 rfl).trans <| (extract_high _ _ 0 rfl).trans <|
      extract_low _ _
  have ha : (encodeFull k kn f).extractLsb' 24 8 = f.a :=
    (low 16 8).trans <| (extract_high _ _ 8 rfl).trans <| (extract_high _ _ 0 rfl).trans <| extract_low _ _
  have hb : (encodeFull k kn f).extractLsb' 16 8 = f.b := (low 8 8).trans <| (extract_high _ _ 0 rfl).trans <| extract_low _ _
  have hc : (encodeFull k kn f).extractLsb' 8 8 = f.c := (low 0 8).trans <| extract_low _ _
  have hf : (encodeFull k kn f).extractLsb' 4 4 = BitVec.ofNat 4 f.fn :=
    (extract_high _ _ 3 rfl).trans <| (extract_high _ _ 0 rfl).trans <| extract_low _ _
  have hn : (BitVec.ofNat 4 f.fn).toNat = f.fn := by simp; omega
  simp only [parseFull, hop, hd, ha, hb, hc, hf, hn, parseFields]
  all_goals rfl

/-- A word made of fields is decoded from those fields. -/
theorem decode_fullWord (alloc : Nat) (stall : BitVec 3) (wait : BitVec 12) (k : BitVec 3) (kn : Bool) (f : Fields)
    (h : f.fn < 16) :
    decode alloc (fullWord stall wait k kn f) =
      match lowestReason (parseFields alloc f).1 with
      | some r => .error (Illegal.ofCode r)
      | none => .ok (.full stall wait k kn (parseFields alloc f).2) := by
  have h63 : (fullWord stall wait k kn f).getLsbD 63 = false := by
    rw [fullWord, BitVec.getLsbD_append, if_neg (by omega), BitVec.getLsbD_append, if_neg (by omega), BitVec.getLsbD_append,
      if_neg (by omega)]
    rfl
  have hs : (fullWord stall wait k kn f).extractLsb' 60 3 = stall :=
    (extract_high _ _ 12 rfl).trans <| (extract_high _ _ 0 rfl).trans <| extract_low _ _
  have hw : (fullWord stall wait k kn f).extractLsb' 48 12 = wait := (extract_high _ _ 0 rfl).trans <| extract_low _ _
  have hp : (fullWord stall wait k kn f).extractLsb' 0 48 = encodeFull k kn f := extract_low _ _
  have hk : (fullWord stall wait k kn f).extractLsb' 1 3 = k := by
    have h1 : (encodeFull k kn f).extractLsb' 1 3 = k := (extract_high _ _ 0 rfl).trans <| extract_low _ _
    refine Eq.trans ?_ h1
    rw [← hp]
    apply BitVec.eq_of_getLsbD_eq
    intro i hi
    have h2 : 1 + i < 48 := by omega
    rw [BitVec.getLsbD_extractLsb', BitVec.getLsbD_extractLsb', BitVec.getLsbD_extractLsb']
    simp [h2]
  have hn : (fullWord stall wait k kn f).getLsbD 0 = kn := by
    rw [fullWord, BitVec.getLsbD_append, if_pos (by omega), encodeFull, BitVec.getLsbD_append, if_pos (by omega)]
    cases kn <;> rfl
  simp only [decode, h63, Bool.false_eq_true, if_false, hs, hw, hp, hk, hn, parseFull_encodeFull alloc k kn f h]
  all_goals (split <;> simp_all)

/-- A half is read back from its byte and its two codes. -/
theorem parseHalf_of {alloc : Nat} {i : Instr} (op : BitVec 8) (d a : Reg) (h0 : op.toNat ≠ 0)
    (h : buildHalf op.toNat d a = some i) (hw : i.reasons alloc = []) :
    parseHalf alloc (op ++ Reg.code d ++ Reg.code a) = ([], i) := by
  have hop : (op ++ Reg.code d ++ Reg.code a).extractLsb' 16 8 = op :=
    (extract_high _ _ 8 rfl).trans <| (extract_high _ _ 0 rfl).trans (by simp)
  have hd : (op ++ Reg.code d ++ Reg.code a).extractLsb' 8 8 = Reg.code d := (extract_high _ _ 0 rfl).trans <| extract_low _ _
  have ha : (op ++ Reg.code d ++ Reg.code a).extractLsb' 0 8 = Reg.code a := extract_low _ _
  simp only [parseHalf, hop, hd, ha, Reg.ofCode_code, h, h0, if_false, FieldKind.reg_code, hw, List.append_nil]

/-- The word of a pair of halves is decoded from them. -/
theorem decode_pairWord {alloc : Nat} {ha hb : Instr} {x y : BitVec 24} (h1 : parseHalf alloc x = ([], ha))
    (h2 : parseHalf alloc y = ([], hb)) (h3 : pairReasons ha hb = []) (stall : BitVec 3) (wait : BitVec 12) :
    decode alloc ((1 : BitVec 1) ++ stall ++ wait ++ x ++ y : BitVec 64) = .ok (.pair stall wait ha hb) := by
  have h63 : ((1 : BitVec 1) ++ stall ++ wait ++ x ++ y : BitVec 64).getLsbD 63 = true := by
    rw [BitVec.getLsbD_append, if_neg (by omega), BitVec.getLsbD_append, if_neg (by omega), BitVec.getLsbD_append,
      if_neg (by omega), BitVec.getLsbD_append, if_neg (by omega)]
    rfl
  have hs : ((1 : BitVec 1) ++ stall ++ wait ++ x ++ y : BitVec 64).extractLsb' 60 3 = stall :=
    (extract_high _ _ 36 rfl).trans <| (extract_high _ _ 12 rfl).trans <| (extract_high _ _ 0 rfl).trans <| extract_low _ _
  have hw : ((1 : BitVec 1) ++ stall ++ wait ++ x ++ y : BitVec 64).extractLsb' 48 12 = wait :=
    (extract_high _ _ 24 rfl).trans <| (extract_high _ _ 0 rfl).trans <| extract_low _ _
  have hx : ((1 : BitVec 1) ++ stall ++ wait ++ x ++ y : BitVec 64).extractLsb' 24 24 = x :=
    (extract_high _ _ 0 rfl).trans <| extract_low _ _
  have hy : ((1 : BitVec 1) ++ stall ++ wait ++ x ++ y : BitVec 64).extractLsb' 0 24 = y := extract_low _ _
  simp only [decode, h63, if_true, hs, hw, hx, hy, h1, h2, h3, List.append_nil, lowestReason]

/-- A word whose fields are read back decodes to its instruction, where the instruction is well formed. -/
theorem decode_of_fieldsRead {alloc : Nat} {i : Instr} {f : Fields} (hw : i.reasons alloc = []) (h : FieldsRead i f)
    (stall : BitVec 3) (wait : BitVec 12) (k : BitVec 3) (kn : Bool) :
    decode alloc (fullWord stall wait k kn f) = .ok (.full stall wait k kn i) := by
  obtain ⟨h0, r, h1, h2, h3, h4, h5, h6, h7⟩ := h
  rw [decode_fullWord _ _ _ _ _ _ h0]
  simp only [parseFields, h1, h2, h3, h4, h5, h6, h7, if_true, hw, List.append_nil, lowestReason]

end Sys2Proof
end

