-- ==== Sys2Proof/Laws/State.lean ====
section
/-!
SUPPORT. What each named update leaves alone, field by field, and what it does to the field it changes.
-/
namespace Sys2Proof.Machine.State

variable (s : State)

/-! modCore. -/

@[simp] theorem modCore_tick (c : Nat) (f : CoreSt → CoreSt) : (s.modCore c f).tick = s.tick := rfl
@[simp] theorem modCore_dies (c : Nat) (f : CoreSt → CoreSt) : (s.modCore c f).dies = s.dies := rfl
@[simp] theorem modCore_groups (c : Nat) (f : CoreSt → CoreSt) : (s.modCore c f).groups = s.groups := rfl
@[simp] theorem modCore_flocks (c : Nat) (f : CoreSt → CoreSt) : (s.modCore c f).flocks = s.flocks := rfl
@[simp] theorem modCore_launches (c : Nat) (f : CoreSt → CoreSt) : (s.modCore c f).launches = s.launches := rfl
@[simp] theorem modCore_cores (c : Nat) (f : CoreSt → CoreSt) : (s.modCore c f).cores = AL.modify CoreSt.fresh s.cores c f := rfl
@[simp] theorem modCore_scratch (c : Nat) (f : CoreSt → CoreSt) : (s.modCore c f).scratch = s.scratch := rfl
@[simp] theorem modCore_mem (c : Nat) (f : CoreSt → CoreSt) : (s.modCore c f).mem = s.mem := rfl
@[simp] theorem modCore_tlb (c : Nat) (f : CoreSt → CoreSt) : (s.modCore c f).tlb = s.tlb := rfl
@[simp] theorem modCore_gaccs (c : Nat) (f : CoreSt → CoreSt) : (s.modCore c f).gaccs = s.gaccs := rfl
@[simp] theorem modCore_fnMem (c : Nat) (f : CoreSt → CoreSt) : (s.modCore c f).fnMem = s.fnMem := rfl
@[simp] theorem modCore_pfMem (c : Nat) (f : CoreSt → CoreSt) : (s.modCore c f).pfMem = s.pfMem := rfl
@[simp] theorem modCore_fnLog (c : Nat) (f : CoreSt → CoreSt) : (s.modCore c f).fnLog = s.fnLog := rfl
@[simp] theorem modCore_poison (c : Nat) (f : CoreSt → CoreSt) : (s.modCore c f).poison = s.poison := rfl
@[simp] theorem modCore_integrity (c : Nat) (f : CoreSt → CoreSt) : (s.modCore c f).integrity = s.integrity := rfl
@[simp] theorem modCore_latent (c : Nat) (f : CoreSt → CoreSt) : (s.modCore c f).latent = s.latent := rfl
@[simp] theorem modCore_retired (c : Nat) (f : CoreSt → CoreSt) : (s.modCore c f).retired = s.retired := rfl
@[simp] theorem modCore_cxlCount (c : Nat) (f : CoreSt → CoreSt) : (s.modCore c f).cxlCount = s.cxlCount := rfl
@[simp] theorem modCore_parts (c : Nat) (f : CoreSt → CoreSt) : (s.modCore c f).parts = s.parts := rfl
@[simp] theorem modCore_contexts (c : Nat) (f : CoreSt → CoreSt) : (s.modCore c f).contexts = s.contexts := rfl
@[simp] theorem modCore_joins (c : Nat) (f : CoreSt → CoreSt) : (s.modCore c f).joins = s.joins := rfl
@[simp] theorem modCore_arrays (c : Nat) (f : CoreSt → CoreSt) : (s.modCore c f).arrays = s.arrays := rfl
@[simp] theorem modCore_arraySaved (c : Nat) (f : CoreSt → CoreSt) : (s.modCore c f).arraySaved = s.arraySaved := rfl
@[simp] theorem modCore_domain (c : Nat) (f : CoreSt → CoreSt) : (s.modCore c f).domain = s.domain := rfl
@[simp] theorem modCore_shep (c : Nat) (f : CoreSt → CoreSt) : (s.modCore c f).shep = s.shep := rfl
@[simp] theorem modCore_trace (c : Nat) (f : CoreSt → CoreSt) : (s.modCore c f).trace = s.trace := rfl
@[simp] theorem modCore_mgmt (c : Nat) (f : CoreSt → CoreSt) : (s.modCore c f).mgmt = s.mgmt := rfl
@[simp] theorem modCore_routines (c : Nat) (f : CoreSt → CoreSt) : (s.modCore c f).routines = s.routines := rfl
@[simp] theorem modCore_images (c : Nat) (f : CoreSt → CoreSt) : (s.modCore c f).images = s.images := rfl
@[simp] theorem modCore_nextUid (c : Nat) (f : CoreSt → CoreSt) : (s.modCore c f).nextUid = s.nextUid := rfl
@[simp] theorem modCore_issueSeq (c : Nat) (f : CoreSt → CoreSt) : (s.modCore c f).issueSeq = s.issueSeq := rfl
@[simp] theorem modCore_fresh (c : Nat) (f : CoreSt → CoreSt) : (s.modCore c f).fresh = s.fresh := rfl
@[simp] theorem modCore_inbox (c : Nat) (f : CoreSt → CoreSt) : (s.modCore c f).inbox = s.inbox := rfl
@[simp] theorem modCore_outbox (c : Nat) (f : CoreSt → CoreSt) : (s.modCore c f).outbox = s.outbox := rfl
@[simp] theorem modCore_cur (c : Nat) (f : CoreSt → CoreSt) : (s.modCore c f).cur = s.cur := rfl

/-! modPort. -/

@[simp] theorem modPort_tick (c p : Nat) (f : Port → Port) : (s.modPort c p f).tick = s.tick := rfl
@[simp] theorem modPort_dies (c p : Nat) (f : Port → Port) : (s.modPort c p f).dies = s.dies := rfl
@[simp] theorem modPort_groups (c p : Nat) (f : Port → Port) : (s.modPort c p f).groups = s.groups := rfl
@[simp] theorem modPort_flocks (c p : Nat) (f : Port → Port) : (s.modPort c p f).flocks = s.flocks := rfl
@[simp] theorem modPort_launches (c p : Nat) (f : Port → Port) : (s.modPort c p f).launches = s.launches := rfl
@[simp] theorem modPort_scratch (c p : Nat) (f : Port → Port) : (s.modPort c p f).scratch = s.scratch := rfl
@[simp] theorem modPort_mem (c p : Nat) (f : Port → Port) : (s.modPort c p f).mem = s.mem := rfl
@[simp] theorem modPort_tlb (c p : Nat) (f : Port → Port) : (s.modPort c p f).tlb = s.tlb := rfl
@[simp] theorem modPort_gaccs (c p : Nat) (f : Port → Port) : (s.modPort c p f).gaccs = s.gaccs := rfl
@[simp] theorem modPort_fnMem (c p : Nat) (f : Port → Port) : (s.modPort c p f).fnMem = s.fnMem := rfl
@[simp] theorem modPort_pfMem (c p : Nat) (f : Port → Port) : (s.modPort c p f).pfMem = s.pfMem := rfl
@[simp] theorem modPort_fnLog (c p : Nat) (f : Port → Port) : (s.modPort c p f).fnLog = s.fnLog := rfl
@[simp] theorem modPort_poison (c p : Nat) (f : Port → Port) : (s.modPort c p f).poison = s.poison := rfl
@[simp] theorem modPort_integrity (c p : Nat) (f : Port → Port) : (s.modPort c p f).integrity = s.integrity := rfl
@[simp] theorem modPort_latent (c p : Nat) (f : Port → Port) : (s.modPort c p f).latent = s.latent := rfl
@[simp] theorem modPort_retired (c p : Nat) (f : Port → Port) : (s.modPort c p f).retired = s.retired := rfl
@[simp] theorem modPort_cxlCount (c p : Nat) (f : Port → Port) : (s.modPort c p f).cxlCount = s.cxlCount := rfl
@[simp] theorem modPort_parts (c p : Nat) (f : Port → Port) : (s.modPort c p f).parts = s.parts := rfl
@[simp] theorem modPort_contexts (c p : Nat) (f : Port → Port) : (s.modPort c p f).contexts = s.contexts := rfl
@[simp] theorem modPort_joins (c p : Nat) (f : Port → Port) : (s.modPort c p f).joins = s.joins := rfl
@[simp] theorem modPort_arrays (c p : Nat) (f : Port → Port) : (s.modPort c p f).arrays = s.arrays := rfl
@[simp] theorem modPort_arraySaved (c p : Nat) (f : Port → Port) : (s.modPort c p f).arraySaved = s.arraySaved := rfl
@[simp] theorem modPort_domain (c p : Nat) (f : Port → Port) : (s.modPort c p f).domain = s.domain := rfl
@[simp] theorem modPort_shep (c p : Nat) (f : Port → Port) : (s.modPort c p f).shep = s.shep := rfl
@[simp] theorem modPort_trace (c p : Nat) (f : Port → Port) : (s.modPort c p f).trace = s.trace := rfl
@[simp] theorem modPort_mgmt (c p : Nat) (f : Port → Port) : (s.modPort c p f).mgmt = s.mgmt := rfl
@[simp] theorem modPort_routines (c p : Nat) (f : Port → Port) : (s.modPort c p f).routines = s.routines := rfl
@[simp] theorem modPort_images (c p : Nat) (f : Port → Port) : (s.modPort c p f).images = s.images := rfl
@[simp] theorem modPort_nextUid (c p : Nat) (f : Port → Port) : (s.modPort c p f).nextUid = s.nextUid := rfl
@[simp] theorem modPort_issueSeq (c p : Nat) (f : Port → Port) : (s.modPort c p f).issueSeq = s.issueSeq := rfl
@[simp] theorem modPort_fresh (c p : Nat) (f : Port → Port) : (s.modPort c p f).fresh = s.fresh := rfl
@[simp] theorem modPort_inbox (c p : Nat) (f : Port → Port) : (s.modPort c p f).inbox = s.inbox := rfl
@[simp] theorem modPort_outbox (c p : Nat) (f : Port → Port) : (s.modPort c p f).outbox = s.outbox := rfl
@[simp] theorem modPort_cur (c p : Nat) (f : Port → Port) : (s.modPort c p f).cur = s.cur := rfl

/-! modTile. -/

@[simp] theorem modTile_tick (c : Nat) (f : TileUnit → TileUnit) : (s.modTile c f).tick = s.tick := rfl
@[simp] theorem modTile_dies (c : Nat) (f : TileUnit → TileUnit) : (s.modTile c f).dies = s.dies := rfl
@[simp] theorem modTile_groups (c : Nat) (f : TileUnit → TileUnit) : (s.modTile c f).groups = s.groups := rfl
@[simp] theorem modTile_flocks (c : Nat) (f : TileUnit → TileUnit) : (s.modTile c f).flocks = s.flocks := rfl
@[simp] theorem modTile_launches (c : Nat) (f : TileUnit → TileUnit) : (s.modTile c f).launches = s.launches := rfl
@[simp] theorem modTile_scratch (c : Nat) (f : TileUnit → TileUnit) : (s.modTile c f).scratch = s.scratch := rfl
@[simp] theorem modTile_mem (c : Nat) (f : TileUnit → TileUnit) : (s.modTile c f).mem = s.mem := rfl
@[simp] theorem modTile_tlb (c : Nat) (f : TileUnit → TileUnit) : (s.modTile c f).tlb = s.tlb := rfl
@[simp] theorem modTile_gaccs (c : Nat) (f : TileUnit → TileUnit) : (s.modTile c f).gaccs = s.gaccs := rfl
@[simp] theorem modTile_fnMem (c : Nat) (f : TileUnit → TileUnit) : (s.modTile c f).fnMem = s.fnMem := rfl
@[simp] theorem modTile_pfMem (c : Nat) (f : TileUnit → TileUnit) : (s.modTile c f).pfMem = s.pfMem := rfl
@[simp] theorem modTile_fnLog (c : Nat) (f : TileUnit → TileUnit) : (s.modTile c f).fnLog = s.fnLog := rfl
@[simp] theorem modTile_poison (c : Nat) (f : TileUnit → TileUnit) : (s.modTile c f).poison = s.poison := rfl
@[simp] theorem modTile_integrity (c : Nat) (f : TileUnit → TileUnit) : (s.modTile c f).integrity = s.integrity := rfl
@[simp] theorem modTile_latent (c : Nat) (f : TileUnit → TileUnit) : (s.modTile c f).latent = s.latent := rfl
@[simp] theorem modTile_retired (c : Nat) (f : TileUnit → TileUnit) : (s.modTile c f).retired = s.retired := rfl
@[simp] theorem modTile_cxlCount (c : Nat) (f : TileUnit → TileUnit) : (s.modTile c f).cxlCount = s.cxlCount := rfl
@[simp] theorem modTile_parts (c : Nat) (f : TileUnit → TileUnit) : (s.modTile c f).parts = s.parts := rfl
@[simp] theorem modTile_contexts (c : Nat) (f : TileUnit → TileUnit) : (s.modTile c f).contexts = s.contexts := rfl
@[simp] theorem modTile_joins (c : Nat) (f : TileUnit → TileUnit) : (s.modTile c f).joins = s.joins := rfl
@[simp] theorem modTile_arrays (c : Nat) (f : TileUnit → TileUnit) : (s.modTile c f).arrays = s.arrays := rfl
@[simp] theorem modTile_arraySaved (c : Nat) (f : TileUnit → TileUnit) : (s.modTile c f).arraySaved = s.arraySaved := rfl
@[simp] theorem modTile_domain (c : Nat) (f : TileUnit → TileUnit) : (s.modTile c f).domain = s.domain := rfl
@[simp] theorem modTile_shep (c : Nat) (f : TileUnit → TileUnit) : (s.modTile c f).shep = s.shep := rfl
@[simp] theorem modTile_trace (c : Nat) (f : TileUnit → TileUnit) : (s.modTile c f).trace = s.trace := rfl
@[simp] theorem modTile_mgmt (c : Nat) (f : TileUnit → TileUnit) : (s.modTile c f).mgmt = s.mgmt := rfl
@[simp] theorem modTile_routines (c : Nat) (f : TileUnit → TileUnit) : (s.modTile c f).routines = s.routines := rfl
@[simp] theorem modTile_images (c : Nat) (f : TileUnit → TileUnit) : (s.modTile c f).images = s.images := rfl
@[simp] theorem modTile_nextUid (c : Nat) (f : TileUnit → TileUnit) : (s.modTile c f).nextUid = s.nextUid := rfl
@[simp] theorem modTile_issueSeq (c : Nat) (f : TileUnit → TileUnit) : (s.modTile c f).issueSeq = s.issueSeq := rfl
@[simp] theorem modTile_fresh (c : Nat) (f : TileUnit → TileUnit) : (s.modTile c f).fresh = s.fresh := rfl
@[simp] theorem modTile_inbox (c : Nat) (f : TileUnit → TileUnit) : (s.modTile c f).inbox = s.inbox := rfl
@[simp] theorem modTile_outbox (c : Nat) (f : TileUnit → TileUnit) : (s.modTile c f).outbox = s.outbox := rfl
@[simp] theorem modTile_cur (c : Nat) (f : TileUnit → TileUnit) : (s.modTile c f).cur = s.cur := rfl

/-! modCmd. -/

@[simp] theorem modCmd_tick (c id : Nat) (f : CopyCmd → CopyCmd) : (s.modCmd c id f).tick = s.tick := rfl
@[simp] theorem modCmd_dies (c id : Nat) (f : CopyCmd → CopyCmd) : (s.modCmd c id f).dies = s.dies := rfl
@[simp] theorem modCmd_groups (c id : Nat) (f : CopyCmd → CopyCmd) : (s.modCmd c id f).groups = s.groups := rfl
@[simp] theorem modCmd_flocks (c id : Nat) (f : CopyCmd → CopyCmd) : (s.modCmd c id f).flocks = s.flocks := rfl
@[simp] theorem modCmd_launches (c id : Nat) (f : CopyCmd → CopyCmd) : (s.modCmd c id f).launches = s.launches := rfl
@[simp] theorem modCmd_scratch (c id : Nat) (f : CopyCmd → CopyCmd) : (s.modCmd c id f).scratch = s.scratch := rfl
@[simp] theorem modCmd_mem (c id : Nat) (f : CopyCmd → CopyCmd) : (s.modCmd c id f).mem = s.mem := rfl
@[simp] theorem modCmd_tlb (c id : Nat) (f : CopyCmd → CopyCmd) : (s.modCmd c id f).tlb = s.tlb := rfl
@[simp] theorem modCmd_gaccs (c id : Nat) (f : CopyCmd → CopyCmd) : (s.modCmd c id f).gaccs = s.gaccs := rfl
@[simp] theorem modCmd_fnMem (c id : Nat) (f : CopyCmd → CopyCmd) : (s.modCmd c id f).fnMem = s.fnMem := rfl
@[simp] theorem modCmd_pfMem (c id : Nat) (f : CopyCmd → CopyCmd) : (s.modCmd c id f).pfMem = s.pfMem := rfl
@[simp] theorem modCmd_fnLog (c id : Nat) (f : CopyCmd → CopyCmd) : (s.modCmd c id f).fnLog = s.fnLog := rfl
@[simp] theorem modCmd_poison (c id : Nat) (f : CopyCmd → CopyCmd) : (s.modCmd c id f).poison = s.poison := rfl
@[simp] theorem modCmd_integrity (c id : Nat) (f : CopyCmd → CopyCmd) : (s.modCmd c id f).integrity = s.integrity := rfl
@[simp] theorem modCmd_latent (c id : Nat) (f : CopyCmd → CopyCmd) : (s.modCmd c id f).latent = s.latent := rfl
@[simp] theorem modCmd_retired (c id : Nat) (f : CopyCmd → CopyCmd) : (s.modCmd c id f).retired = s.retired := rfl
@[simp] theorem modCmd_cxlCount (c id : Nat) (f : CopyCmd → CopyCmd) : (s.modCmd c id f).cxlCount = s.cxlCount := rfl
@[simp] theorem modCmd_parts (c id : Nat) (f : CopyCmd → CopyCmd) : (s.modCmd c id f).parts = s.parts := rfl
@[simp] theorem modCmd_contexts (c id : Nat) (f : CopyCmd → CopyCmd) : (s.modCmd c id f).contexts = s.contexts := rfl
@[simp] theorem modCmd_joins (c id : Nat) (f : CopyCmd → CopyCmd) : (s.modCmd c id f).joins = s.joins := rfl
@[simp] theorem modCmd_arrays (c id : Nat) (f : CopyCmd → CopyCmd) : (s.modCmd c id f).arrays = s.arrays := rfl
@[simp] theorem modCmd_arraySaved (c id : Nat) (f : CopyCmd → CopyCmd) : (s.modCmd c id f).arraySaved = s.arraySaved := rfl
@[simp] theorem modCmd_domain (c id : Nat) (f : CopyCmd → CopyCmd) : (s.modCmd c id f).domain = s.domain := rfl
@[simp] theorem modCmd_shep (c id : Nat) (f : CopyCmd → CopyCmd) : (s.modCmd c id f).shep = s.shep := rfl
@[simp] theorem modCmd_trace (c id : Nat) (f : CopyCmd → CopyCmd) : (s.modCmd c id f).trace = s.trace := rfl
@[simp] theorem modCmd_mgmt (c id : Nat) (f : CopyCmd → CopyCmd) : (s.modCmd c id f).mgmt = s.mgmt := rfl
@[simp] theorem modCmd_routines (c id : Nat) (f : CopyCmd → CopyCmd) : (s.modCmd c id f).routines = s.routines := rfl
@[simp] theorem modCmd_images (c id : Nat) (f : CopyCmd → CopyCmd) : (s.modCmd c id f).images = s.images := rfl
@[simp] theorem modCmd_nextUid (c id : Nat) (f : CopyCmd → CopyCmd) : (s.modCmd c id f).nextUid = s.nextUid := rfl
@[simp] theorem modCmd_issueSeq (c id : Nat) (f : CopyCmd → CopyCmd) : (s.modCmd c id f).issueSeq = s.issueSeq := rfl
@[simp] theorem modCmd_fresh (c id : Nat) (f : CopyCmd → CopyCmd) : (s.modCmd c id f).fresh = s.fresh := rfl
@[simp] theorem modCmd_inbox (c id : Nat) (f : CopyCmd → CopyCmd) : (s.modCmd c id f).inbox = s.inbox := rfl
@[simp] theorem modCmd_outbox (c id : Nat) (f : CopyCmd → CopyCmd) : (s.modCmd c id f).outbox = s.outbox := rfl
@[simp] theorem modCmd_cur (c id : Nat) (f : CopyCmd → CopyCmd) : (s.modCmd c id f).cur = s.cur := rfl

/-! modOrigin. -/

@[simp] theorem modOrigin_tick (c u : Nat) (f : OriginUnit → OriginUnit) : (s.modOrigin c u f).tick = s.tick := rfl
@[simp] theorem modOrigin_dies (c u : Nat) (f : OriginUnit → OriginUnit) : (s.modOrigin c u f).dies = s.dies := rfl
@[simp] theorem modOrigin_groups (c u : Nat) (f : OriginUnit → OriginUnit) : (s.modOrigin c u f).groups = s.groups := rfl
@[simp] theorem modOrigin_flocks (c u : Nat) (f : OriginUnit → OriginUnit) : (s.modOrigin c u f).flocks = s.flocks := rfl
@[simp] theorem modOrigin_launches (c u : Nat) (f : OriginUnit → OriginUnit) : (s.modOrigin c u f).launches = s.launches := rfl
@[simp] theorem modOrigin_scratch (c u : Nat) (f : OriginUnit → OriginUnit) : (s.modOrigin c u f).scratch = s.scratch := rfl
@[simp] theorem modOrigin_mem (c u : Nat) (f : OriginUnit → OriginUnit) : (s.modOrigin c u f).mem = s.mem := rfl
@[simp] theorem modOrigin_tlb (c u : Nat) (f : OriginUnit → OriginUnit) : (s.modOrigin c u f).tlb = s.tlb := rfl
@[simp] theorem modOrigin_gaccs (c u : Nat) (f : OriginUnit → OriginUnit) : (s.modOrigin c u f).gaccs = s.gaccs := rfl
@[simp] theorem modOrigin_fnMem (c u : Nat) (f : OriginUnit → OriginUnit) : (s.modOrigin c u f).fnMem = s.fnMem := rfl
@[simp] theorem modOrigin_pfMem (c u : Nat) (f : OriginUnit → OriginUnit) : (s.modOrigin c u f).pfMem = s.pfMem := rfl
@[simp] theorem modOrigin_fnLog (c u : Nat) (f : OriginUnit → OriginUnit) : (s.modOrigin c u f).fnLog = s.fnLog := rfl
@[simp] theorem modOrigin_poison (c u : Nat) (f : OriginUnit → OriginUnit) : (s.modOrigin c u f).poison = s.poison := rfl
@[simp] theorem modOrigin_integrity (c u : Nat) (f : OriginUnit → OriginUnit) : (s.modOrigin c u f).integrity = s.integrity := rfl
@[simp] theorem modOrigin_latent (c u : Nat) (f : OriginUnit → OriginUnit) : (s.modOrigin c u f).latent = s.latent := rfl
@[simp] theorem modOrigin_retired (c u : Nat) (f : OriginUnit → OriginUnit) : (s.modOrigin c u f).retired = s.retired := rfl
@[simp] theorem modOrigin_cxlCount (c u : Nat) (f : OriginUnit → OriginUnit) : (s.modOrigin c u f).cxlCount = s.cxlCount := rfl
@[simp] theorem modOrigin_parts (c u : Nat) (f : OriginUnit → OriginUnit) : (s.modOrigin c u f).parts = s.parts := rfl
@[simp] theorem modOrigin_contexts (c u : Nat) (f : OriginUnit → OriginUnit) : (s.modOrigin c u f).contexts = s.contexts := rfl
@[simp] theorem modOrigin_joins (c u : Nat) (f : OriginUnit → OriginUnit) : (s.modOrigin c u f).joins = s.joins := rfl
@[simp] theorem modOrigin_arrays (c u : Nat) (f : OriginUnit → OriginUnit) : (s.modOrigin c u f).arrays = s.arrays := rfl
@[simp] theorem modOrigin_arraySaved (c u : Nat) (f : OriginUnit → OriginUnit) : (s.modOrigin c u f).arraySaved = s.arraySaved := rfl
@[simp] theorem modOrigin_domain (c u : Nat) (f : OriginUnit → OriginUnit) : (s.modOrigin c u f).domain = s.domain := rfl
@[simp] theorem modOrigin_shep (c u : Nat) (f : OriginUnit → OriginUnit) : (s.modOrigin c u f).shep = s.shep := rfl
@[simp] theorem modOrigin_trace (c u : Nat) (f : OriginUnit → OriginUnit) : (s.modOrigin c u f).trace = s.trace := rfl
@[simp] theorem modOrigin_mgmt (c u : Nat) (f : OriginUnit → OriginUnit) : (s.modOrigin c u f).mgmt = s.mgmt := rfl
@[simp] theorem modOrigin_routines (c u : Nat) (f : OriginUnit → OriginUnit) : (s.modOrigin c u f).routines = s.routines := rfl
@[simp] theorem modOrigin_images (c u : Nat) (f : OriginUnit → OriginUnit) : (s.modOrigin c u f).images = s.images := rfl
@[simp] theorem modOrigin_nextUid (c u : Nat) (f : OriginUnit → OriginUnit) : (s.modOrigin c u f).nextUid = s.nextUid := rfl
@[simp] theorem modOrigin_issueSeq (c u : Nat) (f : OriginUnit → OriginUnit) : (s.modOrigin c u f).issueSeq = s.issueSeq := rfl
@[simp] theorem modOrigin_fresh (c u : Nat) (f : OriginUnit → OriginUnit) : (s.modOrigin c u f).fresh = s.fresh := rfl
@[simp] theorem modOrigin_inbox (c u : Nat) (f : OriginUnit → OriginUnit) : (s.modOrigin c u f).inbox = s.inbox := rfl
@[simp] theorem modOrigin_outbox (c u : Nat) (f : OriginUnit → OriginUnit) : (s.modOrigin c u f).outbox = s.outbox := rfl
@[simp] theorem modOrigin_cur (c u : Nat) (f : OriginUnit → OriginUnit) : (s.modOrigin c u f).cur = s.cur := rfl

/-! modGroup. -/

@[simp] theorem modGroup_tick (g : Nat) (f : Group → Group) : (s.modGroup g f).tick = s.tick := rfl
@[simp] theorem modGroup_dies (g : Nat) (f : Group → Group) : (s.modGroup g f).dies = s.dies := rfl
@[simp] theorem modGroup_groups (g : Nat) (f : Group → Group) : (s.modGroup g f).groups = updateWhere (fun x => decide (x.uid = g)) f s.groups := rfl
@[simp] theorem modGroup_flocks (g : Nat) (f : Group → Group) : (s.modGroup g f).flocks = s.flocks := rfl
@[simp] theorem modGroup_launches (g : Nat) (f : Group → Group) : (s.modGroup g f).launches = s.launches := rfl
@[simp] theorem modGroup_cores (g : Nat) (f : Group → Group) : (s.modGroup g f).cores = s.cores := rfl
@[simp] theorem modGroup_scratch (g : Nat) (f : Group → Group) : (s.modGroup g f).scratch = s.scratch := rfl
@[simp] theorem modGroup_mem (g : Nat) (f : Group → Group) : (s.modGroup g f).mem = s.mem := rfl
@[simp] theorem modGroup_tlb (g : Nat) (f : Group → Group) : (s.modGroup g f).tlb = s.tlb := rfl
@[simp] theorem modGroup_gaccs (g : Nat) (f : Group → Group) : (s.modGroup g f).gaccs = s.gaccs := rfl
@[simp] theorem modGroup_fnMem (g : Nat) (f : Group → Group) : (s.modGroup g f).fnMem = s.fnMem := rfl
@[simp] theorem modGroup_pfMem (g : Nat) (f : Group → Group) : (s.modGroup g f).pfMem = s.pfMem := rfl
@[simp] theorem modGroup_fnLog (g : Nat) (f : Group → Group) : (s.modGroup g f).fnLog = s.fnLog := rfl
@[simp] theorem modGroup_poison (g : Nat) (f : Group → Group) : (s.modGroup g f).poison = s.poison := rfl
@[simp] theorem modGroup_integrity (g : Nat) (f : Group → Group) : (s.modGroup g f).integrity = s.integrity := rfl
@[simp] theorem modGroup_latent (g : Nat) (f : Group → Group) : (s.modGroup g f).latent = s.latent := rfl
@[simp] theorem modGroup_retired (g : Nat) (f : Group → Group) : (s.modGroup g f).retired = s.retired := rfl
@[simp] theorem modGroup_cxlCount (g : Nat) (f : Group → Group) : (s.modGroup g f).cxlCount = s.cxlCount := rfl
@[simp] theorem modGroup_parts (g : Nat) (f : Group → Group) : (s.modGroup g f).parts = s.parts := rfl
@[simp] theorem modGroup_contexts (g : Nat) (f : Group → Group) : (s.modGroup g f).contexts = s.contexts := rfl
@[simp] theorem modGroup_joins (g : Nat) (f : Group → Group) : (s.modGroup g f).joins = s.joins := rfl
@[simp] theorem modGroup_arrays (g : Nat) (f : Group → Group) : (s.modGroup g f).arrays = s.arrays := rfl
@[simp] theorem modGroup_arraySaved (g : Nat) (f : Group → Group) : (s.modGroup g f).arraySaved = s.arraySaved := rfl
@[simp] theorem modGroup_domain (g : Nat) (f : Group → Group) : (s.modGroup g f).domain = s.domain := rfl
@[simp] theorem modGroup_shep (g : Nat) (f : Group → Group) : (s.modGroup g f).shep = s.shep := rfl
@[simp] theorem modGroup_trace (g : Nat) (f : Group → Group) : (s.modGroup g f).trace = s.trace := rfl
@[simp] theorem modGroup_mgmt (g : Nat) (f : Group → Group) : (s.modGroup g f).mgmt = s.mgmt := rfl
@[simp] theorem modGroup_routines (g : Nat) (f : Group → Group) : (s.modGroup g f).routines = s.routines := rfl
@[simp] theorem modGroup_images (g : Nat) (f : Group → Group) : (s.modGroup g f).images = s.images := rfl
@[simp] theorem modGroup_nextUid (g : Nat) (f : Group → Group) : (s.modGroup g f).nextUid = s.nextUid := rfl
@[simp] theorem modGroup_issueSeq (g : Nat) (f : Group → Group) : (s.modGroup g f).issueSeq = s.issueSeq := rfl
@[simp] theorem modGroup_fresh (g : Nat) (f : Group → Group) : (s.modGroup g f).fresh = s.fresh := rfl
@[simp] theorem modGroup_inbox (g : Nat) (f : Group → Group) : (s.modGroup g f).inbox = s.inbox := rfl
@[simp] theorem modGroup_outbox (g : Nat) (f : Group → Group) : (s.modGroup g f).outbox = s.outbox := rfl
@[simp] theorem modGroup_cur (g : Nat) (f : Group → Group) : (s.modGroup g f).cur = s.cur := rfl

/-! modThread. -/

@[simp] theorem modThread_tick (t : ThreadId) (f : Thread → Thread) : (s.modThread t f).tick = s.tick := rfl
@[simp] theorem modThread_dies (t : ThreadId) (f : Thread → Thread) : (s.modThread t f).dies = s.dies := rfl
@[simp] theorem modThread_flocks (t : ThreadId) (f : Thread → Thread) : (s.modThread t f).flocks = s.flocks := rfl
@[simp] theorem modThread_launches (t : ThreadId) (f : Thread → Thread) : (s.modThread t f).launches = s.launches := rfl
@[simp] theorem modThread_cores (t : ThreadId) (f : Thread → Thread) : (s.modThread t f).cores = s.cores := rfl
@[simp] theorem modThread_scratch (t : ThreadId) (f : Thread → Thread) : (s.modThread t f).scratch = s.scratch := rfl
@[simp] theorem modThread_mem (t : ThreadId) (f : Thread → Thread) : (s.modThread t f).mem = s.mem := rfl
@[simp] theorem modThread_tlb (t : ThreadId) (f : Thread → Thread) : (s.modThread t f).tlb = s.tlb := rfl
@[simp] theorem modThread_gaccs (t : ThreadId) (f : Thread → Thread) : (s.modThread t f).gaccs = s.gaccs := rfl
@[simp] theorem modThread_fnMem (t : ThreadId) (f : Thread → Thread) : (s.modThread t f).fnMem = s.fnMem := rfl
@[simp] theorem modThread_pfMem (t : ThreadId) (f : Thread → Thread) : (s.modThread t f).pfMem = s.pfMem := rfl
@[simp] theorem modThread_fnLog (t : ThreadId) (f : Thread → Thread) : (s.modThread t f).fnLog = s.fnLog := rfl
@[simp] theorem modThread_poison (t : ThreadId) (f : Thread → Thread) : (s.modThread t f).poison = s.poison := rfl
@[simp] theorem modThread_integrity (t : ThreadId) (f : Thread → Thread) : (s.modThread t f).integrity = s.integrity := rfl
@[simp] theorem modThread_latent (t : ThreadId) (f : Thread → Thread) : (s.modThread t f).latent = s.latent := rfl
@[simp] theorem modThread_retired (t : ThreadId) (f : Thread → Thread) : (s.modThread t f).retired = s.retired := rfl
@[simp] theorem modThread_cxlCount (t : ThreadId) (f : Thread → Thread) : (s.modThread t f).cxlCount = s.cxlCount := rfl
@[simp] theorem modThread_parts (t : ThreadId) (f : Thread → Thread) : (s.modThread t f).parts = s.parts := rfl
@[simp] theorem modThread_contexts (t : ThreadId) (f : Thread → Thread) : (s.modThread t f).contexts = s.contexts := rfl
@[simp] theorem modThread_joins (t : ThreadId) (f : Thread → Thread) : (s.modThread t f).joins = s.joins := rfl
@[simp] theorem modThread_arrays (t : ThreadId) (f : Thread → Thread) : (s.modThread t f).arrays = s.arrays := rfl
@[simp] theorem modThread_arraySaved (t : ThreadId) (f : Thread → Thread) : (s.modThread t f).arraySaved = s.arraySaved := rfl
@[simp] theorem modThread_domain (t : ThreadId) (f : Thread → Thread) : (s.modThread t f).domain = s.domain := rfl
@[simp] theorem modThread_shep (t : ThreadId) (f : Thread → Thread) : (s.modThread t f).shep = s.shep := rfl
@[simp] theorem modThread_trace (t : ThreadId) (f : Thread → Thread) : (s.modThread t f).trace = s.trace := rfl
@[simp] theorem modThread_mgmt (t : ThreadId) (f : Thread → Thread) : (s.modThread t f).mgmt = s.mgmt := rfl
@[simp] theorem modThread_routines (t : ThreadId) (f : Thread → Thread) : (s.modThread t f).routines = s.routines := rfl
@[simp] theorem modThread_images (t : ThreadId) (f : Thread → Thread) : (s.modThread t f).images = s.images := rfl
@[simp] theorem modThread_nextUid (t : ThreadId) (f : Thread → Thread) : (s.modThread t f).nextUid = s.nextUid := rfl
@[simp] theorem modThread_issueSeq (t : ThreadId) (f : Thread → Thread) : (s.modThread t f).issueSeq = s.issueSeq := rfl
@[simp] theorem modThread_fresh (t : ThreadId) (f : Thread → Thread) : (s.modThread t f).fresh = s.fresh := rfl
@[simp] theorem modThread_inbox (t : ThreadId) (f : Thread → Thread) : (s.modThread t f).inbox = s.inbox := rfl
@[simp] theorem modThread_outbox (t : ThreadId) (f : Thread → Thread) : (s.modThread t f).outbox = s.outbox := rfl
@[simp] theorem modThread_cur (t : ThreadId) (f : Thread → Thread) : (s.modThread t f).cur = s.cur := rfl

/-! modSys. -/

@[simp] theorem modSys_tick (t : ThreadId) (f : SysRegs → SysRegs) : (s.modSys t f).tick = s.tick := rfl
@[simp] theorem modSys_dies (t : ThreadId) (f : SysRegs → SysRegs) : (s.modSys t f).dies = s.dies := rfl
@[simp] theorem modSys_flocks (t : ThreadId) (f : SysRegs → SysRegs) : (s.modSys t f).flocks = s.flocks := rfl
@[simp] theorem modSys_launches (t : ThreadId) (f : SysRegs → SysRegs) : (s.modSys t f).launches = s.launches := rfl
@[simp] theorem modSys_cores (t : ThreadId) (f : SysRegs → SysRegs) : (s.modSys t f).cores = s.cores := rfl
@[simp] theorem modSys_scratch (t : ThreadId) (f : SysRegs → SysRegs) : (s.modSys t f).scratch = s.scratch := rfl
@[simp] theorem modSys_mem (t : ThreadId) (f : SysRegs → SysRegs) : (s.modSys t f).mem = s.mem := rfl
@[simp] theorem modSys_tlb (t : ThreadId) (f : SysRegs → SysRegs) : (s.modSys t f).tlb = s.tlb := rfl
@[simp] theorem modSys_gaccs (t : ThreadId) (f : SysRegs → SysRegs) : (s.modSys t f).gaccs = s.gaccs := rfl
@[simp] theorem modSys_fnMem (t : ThreadId) (f : SysRegs → SysRegs) : (s.modSys t f).fnMem = s.fnMem := rfl
@[simp] theorem modSys_pfMem (t : ThreadId) (f : SysRegs → SysRegs) : (s.modSys t f).pfMem = s.pfMem := rfl
@[simp] theorem modSys_fnLog (t : ThreadId) (f : SysRegs → SysRegs) : (s.modSys t f).fnLog = s.fnLog := rfl
@[simp] theorem modSys_poison (t : ThreadId) (f : SysRegs → SysRegs) : (s.modSys t f).poison = s.poison := rfl
@[simp] theorem modSys_integrity (t : ThreadId) (f : SysRegs → SysRegs) : (s.modSys t f).integrity = s.integrity := rfl
@[simp] theorem modSys_latent (t : ThreadId) (f : SysRegs → SysRegs) : (s.modSys t f).latent = s.latent := rfl
@[simp] theorem modSys_retired (t : ThreadId) (f : SysRegs → SysRegs) : (s.modSys t f).retired = s.retired := rfl
@[simp] theorem modSys_cxlCount (t : ThreadId) (f : SysRegs → SysRegs) : (s.modSys t f).cxlCount = s.cxlCount := rfl
@[simp] theorem modSys_parts (t : ThreadId) (f : SysRegs → SysRegs) : (s.modSys t f).parts = s.parts := rfl
@[simp] theorem modSys_contexts (t : ThreadId) (f : SysRegs → SysRegs) : (s.modSys t f).contexts = s.contexts := rfl
@[simp] theorem modSys_joins (t : ThreadId) (f : SysRegs → SysRegs) : (s.modSys t f).joins = s.joins := rfl
@[simp] theorem modSys_arrays (t : ThreadId) (f : SysRegs → SysRegs) : (s.modSys t f).arrays = s.arrays := rfl
@[simp] theorem modSys_arraySaved (t : ThreadId) (f : SysRegs → SysRegs) : (s.modSys t f).arraySaved = s.arraySaved := rfl
@[simp] theorem modSys_domain (t : ThreadId) (f : SysRegs → SysRegs) : (s.modSys t f).domain = s.domain := rfl
@[simp] theorem modSys_shep (t : ThreadId) (f : SysRegs → SysRegs) : (s.modSys t f).shep = s.shep := rfl
@[simp] theorem modSys_trace (t : ThreadId) (f : SysRegs → SysRegs) : (s.modSys t f).trace = s.trace := rfl
@[simp] theorem modSys_mgmt (t : ThreadId) (f : SysRegs → SysRegs) : (s.modSys t f).mgmt = s.mgmt := rfl
@[simp] theorem modSys_routines (t : ThreadId) (f : SysRegs → SysRegs) : (s.modSys t f).routines = s.routines := rfl
@[simp] theorem modSys_images (t : ThreadId) (f : SysRegs → SysRegs) : (s.modSys t f).images = s.images := rfl
@[simp] theorem modSys_nextUid (t : ThreadId) (f : SysRegs → SysRegs) : (s.modSys t f).nextUid = s.nextUid := rfl
@[simp] theorem modSys_issueSeq (t : ThreadId) (f : SysRegs → SysRegs) : (s.modSys t f).issueSeq = s.issueSeq := rfl
@[simp] theorem modSys_fresh (t : ThreadId) (f : SysRegs → SysRegs) : (s.modSys t f).fresh = s.fresh := rfl
@[simp] theorem modSys_inbox (t : ThreadId) (f : SysRegs → SysRegs) : (s.modSys t f).inbox = s.inbox := rfl
@[simp] theorem modSys_outbox (t : ThreadId) (f : SysRegs → SysRegs) : (s.modSys t f).outbox = s.outbox := rfl
@[simp] theorem modSys_cur (t : ThreadId) (f : SysRegs → SysRegs) : (s.modSys t f).cur = s.cur := rfl

/-! modLaunch. -/

@[simp] theorem modLaunch_tick (u : Nat) (f : Launch → Launch) : (s.modLaunch u f).tick = s.tick := rfl
@[simp] theorem modLaunch_dies (u : Nat) (f : Launch → Launch) : (s.modLaunch u f).dies = s.dies := rfl
@[simp] theorem modLaunch_groups (u : Nat) (f : Launch → Launch) : (s.modLaunch u f).groups = s.groups := rfl
@[simp] theorem modLaunch_flocks (u : Nat) (f : Launch → Launch) : (s.modLaunch u f).flocks = s.flocks := rfl
@[simp] theorem modLaunch_launches (u : Nat) (f : Launch → Launch) : (s.modLaunch u f).launches = updateWhere (fun x => decide (x.uid = u)) f s.launches := rfl
@[simp] theorem modLaunch_cores (u : Nat) (f : Launch → Launch) : (s.modLaunch u f).cores = s.cores := rfl
@[simp] theorem modLaunch_scratch (u : Nat) (f : Launch → Launch) : (s.modLaunch u f).scratch = s.scratch := rfl
@[simp] theorem modLaunch_mem (u : Nat) (f : Launch → Launch) : (s.modLaunch u f).mem = s.mem := rfl
@[simp] theorem modLaunch_tlb (u : Nat) (f : Launch → Launch) : (s.modLaunch u f).tlb = s.tlb := rfl
@[simp] theorem modLaunch_gaccs (u : Nat) (f : Launch → Launch) : (s.modLaunch u f).gaccs = s.gaccs := rfl
@[simp] theorem modLaunch_fnMem (u : Nat) (f : Launch → Launch) : (s.modLaunch u f).fnMem = s.fnMem := rfl
@[simp] theorem modLaunch_pfMem (u : Nat) (f : Launch → Launch) : (s.modLaunch u f).pfMem = s.pfMem := rfl
@[simp] theorem modLaunch_fnLog (u : Nat) (f : Launch → Launch) : (s.modLaunch u f).fnLog = s.fnLog := rfl
@[simp] theorem modLaunch_poison (u : Nat) (f : Launch → Launch) : (s.modLaunch u f).poison = s.poison := rfl
@[simp] theorem modLaunch_integrity (u : Nat) (f : Launch → Launch) : (s.modLaunch u f).integrity = s.integrity := rfl
@[simp] theorem modLaunch_latent (u : Nat) (f : Launch → Launch) : (s.modLaunch u f).latent = s.latent := rfl
@[simp] theorem modLaunch_retired (u : Nat) (f : Launch → Launch) : (s.modLaunch u f).retired = s.retired := rfl
@[simp] theorem modLaunch_cxlCount (u : Nat) (f : Launch → Launch) : (s.modLaunch u f).cxlCount = s.cxlCount := rfl
@[simp] theorem modLaunch_parts (u : Nat) (f : Launch → Launch) : (s.modLaunch u f).parts = s.parts := rfl
@[simp] theorem modLaunch_contexts (u : Nat) (f : Launch → Launch) : (s.modLaunch u f).contexts = s.contexts := rfl
@[simp] theorem modLaunch_joins (u : Nat) (f : Launch → Launch) : (s.modLaunch u f).joins = s.joins := rfl
@[simp] theorem modLaunch_arrays (u : Nat) (f : Launch → Launch) : (s.modLaunch u f).arrays = s.arrays := rfl
@[simp] theorem modLaunch_arraySaved (u : Nat) (f : Launch → Launch) : (s.modLaunch u f).arraySaved = s.arraySaved := rfl
@[simp] theorem modLaunch_domain (u : Nat) (f : Launch → Launch) : (s.modLaunch u f).domain = s.domain := rfl
@[simp] theorem modLaunch_shep (u : Nat) (f : Launch → Launch) : (s.modLaunch u f).shep = s.shep := rfl
@[simp] theorem modLaunch_trace (u : Nat) (f : Launch → Launch) : (s.modLaunch u f).trace = s.trace := rfl
@[simp] theorem modLaunch_mgmt (u : Nat) (f : Launch → Launch) : (s.modLaunch u f).mgmt = s.mgmt := rfl
@[simp] theorem modLaunch_routines (u : Nat) (f : Launch → Launch) : (s.modLaunch u f).routines = s.routines := rfl
@[simp] theorem modLaunch_images (u : Nat) (f : Launch → Launch) : (s.modLaunch u f).images = s.images := rfl
@[simp] theorem modLaunch_nextUid (u : Nat) (f : Launch → Launch) : (s.modLaunch u f).nextUid = s.nextUid := rfl
@[simp] theorem modLaunch_issueSeq (u : Nat) (f : Launch → Launch) : (s.modLaunch u f).issueSeq = s.issueSeq := rfl
@[simp] theorem modLaunch_fresh (u : Nat) (f : Launch → Launch) : (s.modLaunch u f).fresh = s.fresh := rfl
@[simp] theorem modLaunch_inbox (u : Nat) (f : Launch → Launch) : (s.modLaunch u f).inbox = s.inbox := rfl
@[simp] theorem modLaunch_outbox (u : Nat) (f : Launch → Launch) : (s.modLaunch u f).outbox = s.outbox := rfl
@[simp] theorem modLaunch_cur (u : Nat) (f : Launch → Launch) : (s.modLaunch u f).cur = s.cur := rfl

/-! modStation. -/

@[simp] theorem modStation_tick (u st : Nat) (f : StationLog → StationLog) : (s.modStation u st f).tick = s.tick := rfl
@[simp] theorem modStation_dies (u st : Nat) (f : StationLog → StationLog) : (s.modStation u st f).dies = s.dies := rfl
@[simp] theorem modStation_groups (u st : Nat) (f : StationLog → StationLog) : (s.modStation u st f).groups = s.groups := rfl
@[simp] theorem modStation_flocks (u st : Nat) (f : StationLog → StationLog) : (s.modStation u st f).flocks = s.flocks := rfl
@[simp] theorem modStation_cores (u st : Nat) (f : StationLog → StationLog) : (s.modStation u st f).cores = s.cores := rfl
@[simp] theorem modStation_scratch (u st : Nat) (f : StationLog → StationLog) : (s.modStation u st f).scratch = s.scratch := rfl
@[simp] theorem modStation_mem (u st : Nat) (f : StationLog → StationLog) : (s.modStation u st f).mem = s.mem := rfl
@[simp] theorem modStation_tlb (u st : Nat) (f : StationLog → StationLog) : (s.modStation u st f).tlb = s.tlb := rfl
@[simp] theorem modStation_gaccs (u st : Nat) (f : StationLog → StationLog) : (s.modStation u st f).gaccs = s.gaccs := rfl
@[simp] theorem modStation_fnMem (u st : Nat) (f : StationLog → StationLog) : (s.modStation u st f).fnMem = s.fnMem := rfl
@[simp] theorem modStation_pfMem (u st : Nat) (f : StationLog → StationLog) : (s.modStation u st f).pfMem = s.pfMem := rfl
@[simp] theorem modStation_fnLog (u st : Nat) (f : StationLog → StationLog) : (s.modStation u st f).fnLog = s.fnLog := rfl
@[simp] theorem modStation_poison (u st : Nat) (f : StationLog → StationLog) : (s.modStation u st f).poison = s.poison := rfl
@[simp] theorem modStation_integrity (u st : Nat) (f : StationLog → StationLog) : (s.modStation u st f).integrity = s.integrity := rfl
@[simp] theorem modStation_latent (u st : Nat) (f : StationLog → StationLog) : (s.modStation u st f).latent = s.latent := rfl
@[simp] theorem modStation_retired (u st : Nat) (f : StationLog → StationLog) : (s.modStation u st f).retired = s.retired := rfl
@[simp] theorem modStation_cxlCount (u st : Nat) (f : StationLog → StationLog) : (s.modStation u st f).cxlCount = s.cxlCount := rfl
@[simp] theorem modStation_parts (u st : Nat) (f : StationLog → StationLog) : (s.modStation u st f).parts = s.parts := rfl
@[simp] theorem modStation_contexts (u st : Nat) (f : StationLog → StationLog) : (s.modStation u st f).contexts = s.contexts := rfl
@[simp] theorem modStation_joins (u st : Nat) (f : StationLog → StationLog) : (s.modStation u st f).joins = s.joins := rfl
@[simp] theorem modStation_arrays (u st : Nat) (f : StationLog → StationLog) : (s.modStation u st f).arrays = s.arrays := rfl
@[simp] theorem modStation_arraySaved (u st : Nat) (f : StationLog → StationLog) : (s.modStation u st f).arraySaved = s.arraySaved := rfl
@[simp] theorem modStation_domain (u st : Nat) (f : StationLog → StationLog) : (s.modStation u st f).domain = s.domain := rfl
@[simp] theorem modStation_shep (u st : Nat) (f : StationLog → StationLog) : (s.modStation u st f).shep = s.shep := rfl
@[simp] theorem modStation_trace (u st : Nat) (f : StationLog → StationLog) : (s.modStation u st f).trace = s.trace := rfl
@[simp] theorem modStation_mgmt (u st : Nat) (f : StationLog → StationLog) : (s.modStation u st f).mgmt = s.mgmt := rfl
@[simp] theorem modStation_routines (u st : Nat) (f : StationLog → StationLog) : (s.modStation u st f).routines = s.routines := rfl
@[simp] theorem modStation_images (u st : Nat) (f : StationLog → StationLog) : (s.modStation u st f).images = s.images := rfl
@[simp] theorem modStation_nextUid (u st : Nat) (f : StationLog → StationLog) : (s.modStation u st f).nextUid = s.nextUid := rfl
@[simp] theorem modStation_issueSeq (u st : Nat) (f : StationLog → StationLog) : (s.modStation u st f).issueSeq = s.issueSeq := rfl
@[simp] theorem modStation_fresh (u st : Nat) (f : StationLog → StationLog) : (s.modStation u st f).fresh = s.fresh := rfl
@[simp] theorem modStation_inbox (u st : Nat) (f : StationLog → StationLog) : (s.modStation u st f).inbox = s.inbox := rfl
@[simp] theorem modStation_outbox (u st : Nat) (f : StationLog → StationLog) : (s.modStation u st f).outbox = s.outbox := rfl
@[simp] theorem modStation_cur (u st : Nat) (f : StationLog → StationLog) : (s.modStation u st f).cur = s.cur := rfl

/-! modFlock. -/

@[simp] theorem modFlock_tick (u : Nat) (f : Flock → Flock) : (s.modFlock u f).tick = s.tick := rfl
@[simp] theorem modFlock_dies (u : Nat) (f : Flock → Flock) : (s.modFlock u f).dies = s.dies := rfl
@[simp] theorem modFlock_groups (u : Nat) (f : Flock → Flock) : (s.modFlock u f).groups = s.groups := rfl
@[simp] theorem modFlock_flocks (u : Nat) (f : Flock → Flock) : (s.modFlock u f).flocks = updateWhere (fun x => decide (x.uid = u)) f s.flocks := rfl
@[simp] theorem modFlock_launches (u : Nat) (f : Flock → Flock) : (s.modFlock u f).launches = s.launches := rfl
@[simp] theorem modFlock_cores (u : Nat) (f : Flock → Flock) : (s.modFlock u f).cores = s.cores := rfl
@[simp] theorem modFlock_scratch (u : Nat) (f : Flock → Flock) : (s.modFlock u f).scratch = s.scratch := rfl
@[simp] theorem modFlock_mem (u : Nat) (f : Flock → Flock) : (s.modFlock u f).mem = s.mem := rfl
@[simp] theorem modFlock_tlb (u : Nat) (f : Flock → Flock) : (s.modFlock u f).tlb = s.tlb := rfl
@[simp] theorem modFlock_gaccs (u : Nat) (f : Flock → Flock) : (s.modFlock u f).gaccs = s.gaccs := rfl
@[simp] theorem modFlock_fnMem (u : Nat) (f : Flock → Flock) : (s.modFlock u f).fnMem = s.fnMem := rfl
@[simp] theorem modFlock_pfMem (u : Nat) (f : Flock → Flock) : (s.modFlock u f).pfMem = s.pfMem := rfl
@[simp] theorem modFlock_fnLog (u : Nat) (f : Flock → Flock) : (s.modFlock u f).fnLog = s.fnLog := rfl
@[simp] theorem modFlock_poison (u : Nat) (f : Flock → Flock) : (s.modFlock u f).poison = s.poison := rfl
@[simp] theorem modFlock_integrity (u : Nat) (f : Flock → Flock) : (s.modFlock u f).integrity = s.integrity := rfl
@[simp] theorem modFlock_latent (u : Nat) (f : Flock → Flock) : (s.modFlock u f).latent = s.latent := rfl
@[simp] theorem modFlock_retired (u : Nat) (f : Flock → Flock) : (s.modFlock u f).retired = s.retired := rfl
@[simp] theorem modFlock_cxlCount (u : Nat) (f : Flock → Flock) : (s.modFlock u f).cxlCount = s.cxlCount := rfl
@[simp] theorem modFlock_parts (u : Nat) (f : Flock → Flock) : (s.modFlock u f).parts = s.parts := rfl
@[simp] theorem modFlock_contexts (u : Nat) (f : Flock → Flock) : (s.modFlock u f).contexts = s.contexts := rfl
@[simp] theorem modFlock_joins (u : Nat) (f : Flock → Flock) : (s.modFlock u f).joins = s.joins := rfl
@[simp] theorem modFlock_arrays (u : Nat) (f : Flock → Flock) : (s.modFlock u f).arrays = s.arrays := rfl
@[simp] theorem modFlock_arraySaved (u : Nat) (f : Flock → Flock) : (s.modFlock u f).arraySaved = s.arraySaved := rfl
@[simp] theorem modFlock_domain (u : Nat) (f : Flock → Flock) : (s.modFlock u f).domain = s.domain := rfl
@[simp] theorem modFlock_shep (u : Nat) (f : Flock → Flock) : (s.modFlock u f).shep = s.shep := rfl
@[simp] theorem modFlock_trace (u : Nat) (f : Flock → Flock) : (s.modFlock u f).trace = s.trace := rfl
@[simp] theorem modFlock_mgmt (u : Nat) (f : Flock → Flock) : (s.modFlock u f).mgmt = s.mgmt := rfl
@[simp] theorem modFlock_routines (u : Nat) (f : Flock → Flock) : (s.modFlock u f).routines = s.routines := rfl
@[simp] theorem modFlock_images (u : Nat) (f : Flock → Flock) : (s.modFlock u f).images = s.images := rfl
@[simp] theorem modFlock_nextUid (u : Nat) (f : Flock → Flock) : (s.modFlock u f).nextUid = s.nextUid := rfl
@[simp] theorem modFlock_issueSeq (u : Nat) (f : Flock → Flock) : (s.modFlock u f).issueSeq = s.issueSeq := rfl
@[simp] theorem modFlock_fresh (u : Nat) (f : Flock → Flock) : (s.modFlock u f).fresh = s.fresh := rfl
@[simp] theorem modFlock_inbox (u : Nat) (f : Flock → Flock) : (s.modFlock u f).inbox = s.inbox := rfl
@[simp] theorem modFlock_outbox (u : Nat) (f : Flock → Flock) : (s.modFlock u f).outbox = s.outbox := rfl
@[simp] theorem modFlock_cur (u : Nat) (f : Flock → Flock) : (s.modFlock u f).cur = s.cur := rfl

/-! modPen. -/

@[simp] theorem modPen_tick (u p : Nat) (f : Pen → Pen) : (s.modPen u p f).tick = s.tick := rfl
@[simp] theorem modPen_dies (u p : Nat) (f : Pen → Pen) : (s.modPen u p f).dies = s.dies := rfl
@[simp] theorem modPen_groups (u p : Nat) (f : Pen → Pen) : (s.modPen u p f).groups = s.groups := rfl
@[simp] theorem modPen_launches (u p : Nat) (f : Pen → Pen) : (s.modPen u p f).launches = s.launches := rfl
@[simp] theorem modPen_cores (u p : Nat) (f : Pen → Pen) : (s.modPen u p f).cores = s.cores := rfl
@[simp] theorem modPen_scratch (u p : Nat) (f : Pen → Pen) : (s.modPen u p f).scratch = s.scratch := rfl
@[simp] theorem modPen_mem (u p : Nat) (f : Pen → Pen) : (s.modPen u p f).mem = s.mem := rfl
@[simp] theorem modPen_tlb (u p : Nat) (f : Pen → Pen) : (s.modPen u p f).tlb = s.tlb := rfl
@[simp] theorem modPen_gaccs (u p : Nat) (f : Pen → Pen) : (s.modPen u p f).gaccs = s.gaccs := rfl
@[simp] theorem modPen_fnMem (u p : Nat) (f : Pen → Pen) : (s.modPen u p f).fnMem = s.fnMem := rfl
@[simp] theorem modPen_pfMem (u p : Nat) (f : Pen → Pen) : (s.modPen u p f).pfMem = s.pfMem := rfl
@[simp] theorem modPen_fnLog (u p : Nat) (f : Pen → Pen) : (s.modPen u p f).fnLog = s.fnLog := rfl
@[simp] theorem modPen_poison (u p : Nat) (f : Pen → Pen) : (s.modPen u p f).poison = s.poison := rfl
@[simp] theorem modPen_integrity (u p : Nat) (f : Pen → Pen) : (s.modPen u p f).integrity = s.integrity := rfl
@[simp] theorem modPen_latent (u p : Nat) (f : Pen → Pen) : (s.modPen u p f).latent = s.latent := rfl
@[simp] theorem modPen_retired (u p : Nat) (f : Pen → Pen) : (s.modPen u p f).retired = s.retired := rfl
@[simp] theorem modPen_cxlCount (u p : Nat) (f : Pen → Pen) : (s.modPen u p f).cxlCount = s.cxlCount := rfl
@[simp] theorem modPen_parts (u p : Nat) (f : Pen → Pen) : (s.modPen u p f).parts = s.parts := rfl
@[simp] theorem modPen_contexts (u p : Nat) (f : Pen → Pen) : (s.modPen u p f).contexts = s.contexts := rfl
@[simp] theorem modPen_joins (u p : Nat) (f : Pen → Pen) : (s.modPen u p f).joins = s.joins := rfl
@[simp] theorem modPen_arrays (u p : Nat) (f : Pen → Pen) : (s.modPen u p f).arrays = s.arrays := rfl
@[simp] theorem modPen_arraySaved (u p : Nat) (f : Pen → Pen) : (s.modPen u p f).arraySaved = s.arraySaved := rfl
@[simp] theorem modPen_domain (u p : Nat) (f : Pen → Pen) : (s.modPen u p f).domain = s.domain := rfl
@[simp] theorem modPen_shep (u p : Nat) (f : Pen → Pen) : (s.modPen u p f).shep = s.shep := rfl
@[simp] theorem modPen_trace (u p : Nat) (f : Pen → Pen) : (s.modPen u p f).trace = s.trace := rfl
@[simp] theorem modPen_mgmt (u p : Nat) (f : Pen → Pen) : (s.modPen u p f).mgmt = s.mgmt := rfl
@[simp] theorem modPen_routines (u p : Nat) (f : Pen → Pen) : (s.modPen u p f).routines = s.routines := rfl
@[simp] theorem modPen_images (u p : Nat) (f : Pen → Pen) : (s.modPen u p f).images = s.images := rfl
@[simp] theorem modPen_nextUid (u p : Nat) (f : Pen → Pen) : (s.modPen u p f).nextUid = s.nextUid := rfl
@[simp] theorem modPen_issueSeq (u p : Nat) (f : Pen → Pen) : (s.modPen u p f).issueSeq = s.issueSeq := rfl
@[simp] theorem modPen_fresh (u p : Nat) (f : Pen → Pen) : (s.modPen u p f).fresh = s.fresh := rfl
@[simp] theorem modPen_inbox (u p : Nat) (f : Pen → Pen) : (s.modPen u p f).inbox = s.inbox := rfl
@[simp] theorem modPen_outbox (u p : Nat) (f : Pen → Pen) : (s.modPen u p f).outbox = s.outbox := rfl
@[simp] theorem modPen_cur (u p : Nat) (f : Pen → Pen) : (s.modPen u p f).cur = s.cur := rfl

/-! modArray. -/

@[simp] theorem modArray_tick (p : Nat) (f : ArrayUnit → ArrayUnit) : (s.modArray p f).tick = s.tick := rfl
@[simp] theorem modArray_dies (p : Nat) (f : ArrayUnit → ArrayUnit) : (s.modArray p f).dies = s.dies := rfl
@[simp] theorem modArray_groups (p : Nat) (f : ArrayUnit → ArrayUnit) : (s.modArray p f).groups = s.groups := rfl
@[simp] theorem modArray_flocks (p : Nat) (f : ArrayUnit → ArrayUnit) : (s.modArray p f).flocks = s.flocks := rfl
@[simp] theorem modArray_launches (p : Nat) (f : ArrayUnit → ArrayUnit) : (s.modArray p f).launches = s.launches := rfl
@[simp] theorem modArray_cores (p : Nat) (f : ArrayUnit → ArrayUnit) : (s.modArray p f).cores = s.cores := rfl
@[simp] theorem modArray_scratch (p : Nat) (f : ArrayUnit → ArrayUnit) : (s.modArray p f).scratch = s.scratch := rfl
@[simp] theorem modArray_mem (p : Nat) (f : ArrayUnit → ArrayUnit) : (s.modArray p f).mem = s.mem := rfl
@[simp] theorem modArray_tlb (p : Nat) (f : ArrayUnit → ArrayUnit) : (s.modArray p f).tlb = s.tlb := rfl
@[simp] theorem modArray_gaccs (p : Nat) (f : ArrayUnit → ArrayUnit) : (s.modArray p f).gaccs = s.gaccs := rfl
@[simp] theorem modArray_fnMem (p : Nat) (f : ArrayUnit → ArrayUnit) : (s.modArray p f).fnMem = s.fnMem := rfl
@[simp] theorem modArray_pfMem (p : Nat) (f : ArrayUnit → ArrayUnit) : (s.modArray p f).pfMem = s.pfMem := rfl
@[simp] theorem modArray_fnLog (p : Nat) (f : ArrayUnit → ArrayUnit) : (s.modArray p f).fnLog = s.fnLog := rfl
@[simp] theorem modArray_poison (p : Nat) (f : ArrayUnit → ArrayUnit) : (s.modArray p f).poison = s.poison := rfl
@[simp] theorem modArray_integrity (p : Nat) (f : ArrayUnit → ArrayUnit) : (s.modArray p f).integrity = s.integrity := rfl
@[simp] theorem modArray_latent (p : Nat) (f : ArrayUnit → ArrayUnit) : (s.modArray p f).latent = s.latent := rfl
@[simp] theorem modArray_retired (p : Nat) (f : ArrayUnit → ArrayUnit) : (s.modArray p f).retired = s.retired := rfl
@[simp] theorem modArray_cxlCount (p : Nat) (f : ArrayUnit → ArrayUnit) : (s.modArray p f).cxlCount = s.cxlCount := rfl
@[simp] theorem modArray_parts (p : Nat) (f : ArrayUnit → ArrayUnit) : (s.modArray p f).parts = s.parts := rfl
@[simp] theorem modArray_contexts (p : Nat) (f : ArrayUnit → ArrayUnit) : (s.modArray p f).contexts = s.contexts := rfl
@[simp] theorem modArray_joins (p : Nat) (f : ArrayUnit → ArrayUnit) : (s.modArray p f).joins = s.joins := rfl
@[simp] theorem modArray_arraySaved (p : Nat) (f : ArrayUnit → ArrayUnit) : (s.modArray p f).arraySaved = s.arraySaved := rfl
@[simp] theorem modArray_domain (p : Nat) (f : ArrayUnit → ArrayUnit) : (s.modArray p f).domain = s.domain := rfl
@[simp] theorem modArray_shep (p : Nat) (f : ArrayUnit → ArrayUnit) : (s.modArray p f).shep = s.shep := rfl
@[simp] theorem modArray_trace (p : Nat) (f : ArrayUnit → ArrayUnit) : (s.modArray p f).trace = s.trace := rfl
@[simp] theorem modArray_mgmt (p : Nat) (f : ArrayUnit → ArrayUnit) : (s.modArray p f).mgmt = s.mgmt := rfl
@[simp] theorem modArray_routines (p : Nat) (f : ArrayUnit → ArrayUnit) : (s.modArray p f).routines = s.routines := rfl
@[simp] theorem modArray_images (p : Nat) (f : ArrayUnit → ArrayUnit) : (s.modArray p f).images = s.images := rfl
@[simp] theorem modArray_nextUid (p : Nat) (f : ArrayUnit → ArrayUnit) : (s.modArray p f).nextUid = s.nextUid := rfl
@[simp] theorem modArray_issueSeq (p : Nat) (f : ArrayUnit → ArrayUnit) : (s.modArray p f).issueSeq = s.issueSeq := rfl
@[simp] theorem modArray_fresh (p : Nat) (f : ArrayUnit → ArrayUnit) : (s.modArray p f).fresh = s.fresh := rfl
@[simp] theorem modArray_inbox (p : Nat) (f : ArrayUnit → ArrayUnit) : (s.modArray p f).inbox = s.inbox := rfl
@[simp] theorem modArray_outbox (p : Nat) (f : ArrayUnit → ArrayUnit) : (s.modArray p f).outbox = s.outbox := rfl
@[simp] theorem modArray_cur (p : Nat) (f : ArrayUnit → ArrayUnit) : (s.modArray p f).cur = s.cur := rfl

/-! modFnMem. -/

@[simp] theorem modFnMem_tick (fn : Nat) (f : FnMem → FnMem) : (s.modFnMem fn f).tick = s.tick := rfl
@[simp] theorem modFnMem_dies (fn : Nat) (f : FnMem → FnMem) : (s.modFnMem fn f).dies = s.dies := rfl
@[simp] theorem modFnMem_groups (fn : Nat) (f : FnMem → FnMem) : (s.modFnMem fn f).groups = s.groups := rfl
@[simp] theorem modFnMem_flocks (fn : Nat) (f : FnMem → FnMem) : (s.modFnMem fn f).flocks = s.flocks := rfl
@[simp] theorem modFnMem_launches (fn : Nat) (f : FnMem → FnMem) : (s.modFnMem fn f).launches = s.launches := rfl
@[simp] theorem modFnMem_cores (fn : Nat) (f : FnMem → FnMem) : (s.modFnMem fn f).cores = s.cores := rfl
@[simp] theorem modFnMem_scratch (fn : Nat) (f : FnMem → FnMem) : (s.modFnMem fn f).scratch = s.scratch := rfl
@[simp] theorem modFnMem_mem (fn : Nat) (f : FnMem → FnMem) : (s.modFnMem fn f).mem = s.mem := rfl
@[simp] theorem modFnMem_tlb (fn : Nat) (f : FnMem → FnMem) : (s.modFnMem fn f).tlb = s.tlb := rfl
@[simp] theorem modFnMem_gaccs (fn : Nat) (f : FnMem → FnMem) : (s.modFnMem fn f).gaccs = s.gaccs := rfl
@[simp] theorem modFnMem_pfMem (fn : Nat) (f : FnMem → FnMem) : (s.modFnMem fn f).pfMem = s.pfMem := rfl
@[simp] theorem modFnMem_fnLog (fn : Nat) (f : FnMem → FnMem) : (s.modFnMem fn f).fnLog = s.fnLog := rfl
@[simp] theorem modFnMem_poison (fn : Nat) (f : FnMem → FnMem) : (s.modFnMem fn f).poison = s.poison := rfl
@[simp] theorem modFnMem_integrity (fn : Nat) (f : FnMem → FnMem) : (s.modFnMem fn f).integrity = s.integrity := rfl
@[simp] theorem modFnMem_latent (fn : Nat) (f : FnMem → FnMem) : (s.modFnMem fn f).latent = s.latent := rfl
@[simp] theorem modFnMem_retired (fn : Nat) (f : FnMem → FnMem) : (s.modFnMem fn f).retired = s.retired := rfl
@[simp] theorem modFnMem_cxlCount (fn : Nat) (f : FnMem → FnMem) : (s.modFnMem fn f).cxlCount = s.cxlCount := rfl
@[simp] theorem modFnMem_parts (fn : Nat) (f : FnMem → FnMem) : (s.modFnMem fn f).parts = s.parts := rfl
@[simp] theorem modFnMem_contexts (fn : Nat) (f : FnMem → FnMem) : (s.modFnMem fn f).contexts = s.contexts := rfl
@[simp] theorem modFnMem_joins (fn : Nat) (f : FnMem → FnMem) : (s.modFnMem fn f).joins = s.joins := rfl
@[simp] theorem modFnMem_arrays (fn : Nat) (f : FnMem → FnMem) : (s.modFnMem fn f).arrays = s.arrays := rfl
@[simp] theorem modFnMem_arraySaved (fn : Nat) (f : FnMem → FnMem) : (s.modFnMem fn f).arraySaved = s.arraySaved := rfl
@[simp] theorem modFnMem_domain (fn : Nat) (f : FnMem → FnMem) : (s.modFnMem fn f).domain = s.domain := rfl
@[simp] theorem modFnMem_shep (fn : Nat) (f : FnMem → FnMem) : (s.modFnMem fn f).shep = s.shep := rfl
@[simp] theorem modFnMem_trace (fn : Nat) (f : FnMem → FnMem) : (s.modFnMem fn f).trace = s.trace := rfl
@[simp] theorem modFnMem_mgmt (fn : Nat) (f : FnMem → FnMem) : (s.modFnMem fn f).mgmt = s.mgmt := rfl
@[simp] theorem modFnMem_routines (fn : Nat) (f : FnMem → FnMem) : (s.modFnMem fn f).routines = s.routines := rfl
@[simp] theorem modFnMem_images (fn : Nat) (f : FnMem → FnMem) : (s.modFnMem fn f).images = s.images := rfl
@[simp] theorem modFnMem_nextUid (fn : Nat) (f : FnMem → FnMem) : (s.modFnMem fn f).nextUid = s.nextUid := rfl
@[simp] theorem modFnMem_issueSeq (fn : Nat) (f : FnMem → FnMem) : (s.modFnMem fn f).issueSeq = s.issueSeq := rfl
@[simp] theorem modFnMem_fresh (fn : Nat) (f : FnMem → FnMem) : (s.modFnMem fn f).fresh = s.fresh := rfl
@[simp] theorem modFnMem_inbox (fn : Nat) (f : FnMem → FnMem) : (s.modFnMem fn f).inbox = s.inbox := rfl
@[simp] theorem modFnMem_outbox (fn : Nat) (f : FnMem → FnMem) : (s.modFnMem fn f).outbox = s.outbox := rfl
@[simp] theorem modFnMem_cur (fn : Nat) (f : FnMem → FnMem) : (s.modFnMem fn f).cur = s.cur := rfl

/-! modPfMem. -/

@[simp] theorem modPfMem_tick (f : PfMem → PfMem) : (s.modPfMem f).tick = s.tick := rfl
@[simp] theorem modPfMem_dies (f : PfMem → PfMem) : (s.modPfMem f).dies = s.dies := rfl
@[simp] theorem modPfMem_groups (f : PfMem → PfMem) : (s.modPfMem f).groups = s.groups := rfl
@[simp] theorem modPfMem_flocks (f : PfMem → PfMem) : (s.modPfMem f).flocks = s.flocks := rfl
@[simp] theorem modPfMem_launches (f : PfMem → PfMem) : (s.modPfMem f).launches = s.launches := rfl
@[simp] theorem modPfMem_cores (f : PfMem → PfMem) : (s.modPfMem f).cores = s.cores := rfl
@[simp] theorem modPfMem_scratch (f : PfMem → PfMem) : (s.modPfMem f).scratch = s.scratch := rfl
@[simp] theorem modPfMem_mem (f : PfMem → PfMem) : (s.modPfMem f).mem = s.mem := rfl
@[simp] theorem modPfMem_tlb (f : PfMem → PfMem) : (s.modPfMem f).tlb = s.tlb := rfl
@[simp] theorem modPfMem_gaccs (f : PfMem → PfMem) : (s.modPfMem f).gaccs = s.gaccs := rfl
@[simp] theorem modPfMem_fnMem (f : PfMem → PfMem) : (s.modPfMem f).fnMem = s.fnMem := rfl
@[simp] theorem modPfMem_pfMem (f : PfMem → PfMem) : (s.modPfMem f).pfMem = f s.pfMem := rfl
@[simp] theorem modPfMem_fnLog (f : PfMem → PfMem) : (s.modPfMem f).fnLog = s.fnLog := rfl
@[simp] theorem modPfMem_poison (f : PfMem → PfMem) : (s.modPfMem f).poison = s.poison := rfl
@[simp] theorem modPfMem_integrity (f : PfMem → PfMem) : (s.modPfMem f).integrity = s.integrity := rfl
@[simp] theorem modPfMem_latent (f : PfMem → PfMem) : (s.modPfMem f).latent = s.latent := rfl
@[simp] theorem modPfMem_retired (f : PfMem → PfMem) : (s.modPfMem f).retired = s.retired := rfl
@[simp] theorem modPfMem_cxlCount (f : PfMem → PfMem) : (s.modPfMem f).cxlCount = s.cxlCount := rfl
@[simp] theorem modPfMem_parts (f : PfMem → PfMem) : (s.modPfMem f).parts = s.parts := rfl
@[simp] theorem modPfMem_contexts (f : PfMem → PfMem) : (s.modPfMem f).contexts = s.contexts := rfl
@[simp] theorem modPfMem_joins (f : PfMem → PfMem) : (s.modPfMem f).joins = s.joins := rfl
@[simp] theorem modPfMem_arrays (f : PfMem → PfMem) : (s.modPfMem f).arrays = s.arrays := rfl
@[simp] theorem modPfMem_arraySaved (f : PfMem → PfMem) : (s.modPfMem f).arraySaved = s.arraySaved := rfl
@[simp] theorem modPfMem_domain (f : PfMem → PfMem) : (s.modPfMem f).domain = s.domain := rfl
@[simp] theorem modPfMem_shep (f : PfMem → PfMem) : (s.modPfMem f).shep = s.shep := rfl
@[simp] theorem modPfMem_trace (f : PfMem → PfMem) : (s.modPfMem f).trace = s.trace := rfl
@[simp] theorem modPfMem_mgmt (f : PfMem → PfMem) : (s.modPfMem f).mgmt = s.mgmt := rfl
@[simp] theorem modPfMem_routines (f : PfMem → PfMem) : (s.modPfMem f).routines = s.routines := rfl
@[simp] theorem modPfMem_images (f : PfMem → PfMem) : (s.modPfMem f).images = s.images := rfl
@[simp] theorem modPfMem_nextUid (f : PfMem → PfMem) : (s.modPfMem f).nextUid = s.nextUid := rfl
@[simp] theorem modPfMem_issueSeq (f : PfMem → PfMem) : (s.modPfMem f).issueSeq = s.issueSeq := rfl
@[simp] theorem modPfMem_fresh (f : PfMem → PfMem) : (s.modPfMem f).fresh = s.fresh := rfl
@[simp] theorem modPfMem_inbox (f : PfMem → PfMem) : (s.modPfMem f).inbox = s.inbox := rfl
@[simp] theorem modPfMem_outbox (f : PfMem → PfMem) : (s.modPfMem f).outbox = s.outbox := rfl
@[simp] theorem modPfMem_cur (f : PfMem → PfMem) : (s.modPfMem f).cur = s.cur := rfl

/-! modFnLog. -/

@[simp] theorem modFnLog_tick (fn : Nat) (f : FnLog → FnLog) : (s.modFnLog fn f).tick = s.tick := rfl
@[simp] theorem modFnLog_dies (fn : Nat) (f : FnLog → FnLog) : (s.modFnLog fn f).dies = s.dies := rfl
@[simp] theorem modFnLog_groups (fn : Nat) (f : FnLog → FnLog) : (s.modFnLog fn f).groups = s.groups := rfl
@[simp] theorem modFnLog_flocks (fn : Nat) (f : FnLog → FnLog) : (s.modFnLog fn f).flocks = s.flocks := rfl
@[simp] theorem modFnLog_launches (fn : Nat) (f : FnLog → FnLog) : (s.modFnLog fn f).launches = s.launches := rfl
@[simp] theorem modFnLog_cores (fn : Nat) (f : FnLog → FnLog) : (s.modFnLog fn f).cores = s.cores := rfl
@[simp] theorem modFnLog_scratch (fn : Nat) (f : FnLog → FnLog) : (s.modFnLog fn f).scratch = s.scratch := rfl
@[simp] theorem modFnLog_mem (fn : Nat) (f : FnLog → FnLog) : (s.modFnLog fn f).mem = s.mem := rfl
@[simp] theorem modFnLog_tlb (fn : Nat) (f : FnLog → FnLog) : (s.modFnLog fn f).tlb = s.tlb := rfl
@[simp] theorem modFnLog_gaccs (fn : Nat) (f : FnLog → FnLog) : (s.modFnLog fn f).gaccs = s.gaccs := rfl
@[simp] theorem modFnLog_fnMem (fn : Nat) (f : FnLog → FnLog) : (s.modFnLog fn f).fnMem = s.fnMem := rfl
@[simp] theorem modFnLog_pfMem (fn : Nat) (f : FnLog → FnLog) : (s.modFnLog fn f).pfMem = s.pfMem := rfl
@[simp] theorem modFnLog_poison (fn : Nat) (f : FnLog → FnLog) : (s.modFnLog fn f).poison = s.poison := rfl
@[simp] theorem modFnLog_integrity (fn : Nat) (f : FnLog → FnLog) : (s.modFnLog fn f).integrity = s.integrity := rfl
@[simp] theorem modFnLog_latent (fn : Nat) (f : FnLog → FnLog) : (s.modFnLog fn f).latent = s.latent := rfl
@[simp] theorem modFnLog_retired (fn : Nat) (f : FnLog → FnLog) : (s.modFnLog fn f).retired = s.retired := rfl
@[simp] theorem modFnLog_cxlCount (fn : Nat) (f : FnLog → FnLog) : (s.modFnLog fn f).cxlCount = s.cxlCount := rfl
@[simp] theorem modFnLog_parts (fn : Nat) (f : FnLog → FnLog) : (s.modFnLog fn f).parts = s.parts := rfl
@[simp] theorem modFnLog_contexts (fn : Nat) (f : FnLog → FnLog) : (s.modFnLog fn f).contexts = s.contexts := rfl
@[simp] theorem modFnLog_joins (fn : Nat) (f : FnLog → FnLog) : (s.modFnLog fn f).joins = s.joins := rfl
@[simp] theorem modFnLog_arrays (fn : Nat) (f : FnLog → FnLog) : (s.modFnLog fn f).arrays = s.arrays := rfl
@[simp] theorem modFnLog_arraySaved (fn : Nat) (f : FnLog → FnLog) : (s.modFnLog fn f).arraySaved = s.arraySaved := rfl
@[simp] theorem modFnLog_domain (fn : Nat) (f : FnLog → FnLog) : (s.modFnLog fn f).domain = s.domain := rfl
@[simp] theorem modFnLog_shep (fn : Nat) (f : FnLog → FnLog) : (s.modFnLog fn f).shep = s.shep := rfl
@[simp] theorem modFnLog_trace (fn : Nat) (f : FnLog → FnLog) : (s.modFnLog fn f).trace = s.trace := rfl
@[simp] theorem modFnLog_mgmt (fn : Nat) (f : FnLog → FnLog) : (s.modFnLog fn f).mgmt = s.mgmt := rfl
@[simp] theorem modFnLog_routines (fn : Nat) (f : FnLog → FnLog) : (s.modFnLog fn f).routines = s.routines := rfl
@[simp] theorem modFnLog_images (fn : Nat) (f : FnLog → FnLog) : (s.modFnLog fn f).images = s.images := rfl
@[simp] theorem modFnLog_nextUid (fn : Nat) (f : FnLog → FnLog) : (s.modFnLog fn f).nextUid = s.nextUid := rfl
@[simp] theorem modFnLog_issueSeq (fn : Nat) (f : FnLog → FnLog) : (s.modFnLog fn f).issueSeq = s.issueSeq := rfl
@[simp] theorem modFnLog_fresh (fn : Nat) (f : FnLog → FnLog) : (s.modFnLog fn f).fresh = s.fresh := rfl
@[simp] theorem modFnLog_inbox (fn : Nat) (f : FnLog → FnLog) : (s.modFnLog fn f).inbox = s.inbox := rfl
@[simp] theorem modFnLog_outbox (fn : Nat) (f : FnLog → FnLog) : (s.modFnLog fn f).outbox = s.outbox := rfl
@[simp] theorem modFnLog_cur (fn : Nat) (f : FnLog → FnLog) : (s.modFnLog fn f).cur = s.cur := rfl

/-! modShep. -/

@[simp] theorem modShep_tick (f : Shep → Shep) : (s.modShep f).tick = s.tick := rfl
@[simp] theorem modShep_dies (f : Shep → Shep) : (s.modShep f).dies = s.dies := rfl
@[simp] theorem modShep_groups (f : Shep → Shep) : (s.modShep f).groups = s.groups := rfl
@[simp] theorem modShep_flocks (f : Shep → Shep) : (s.modShep f).flocks = s.flocks := rfl
@[simp] theorem modShep_launches (f : Shep → Shep) : (s.modShep f).launches = s.launches := rfl
@[simp] theorem modShep_cores (f : Shep → Shep) : (s.modShep f).cores = s.cores := rfl
@[simp] theorem modShep_scratch (f : Shep → Shep) : (s.modShep f).scratch = s.scratch := rfl
@[simp] theorem modShep_mem (f : Shep → Shep) : (s.modShep f).mem = s.mem := rfl
@[simp] theorem modShep_tlb (f : Shep → Shep) : (s.modShep f).tlb = s.tlb := rfl
@[simp] theorem modShep_gaccs (f : Shep → Shep) : (s.modShep f).gaccs = s.gaccs := rfl
@[simp] theorem modShep_fnMem (f : Shep → Shep) : (s.modShep f).fnMem = s.fnMem := rfl
@[simp] theorem modShep_pfMem (f : Shep → Shep) : (s.modShep f).pfMem = s.pfMem := rfl
@[simp] theorem modShep_fnLog (f : Shep → Shep) : (s.modShep f).fnLog = s.fnLog := rfl
@[simp] theorem modShep_poison (f : Shep → Shep) : (s.modShep f).poison = s.poison := rfl
@[simp] theorem modShep_integrity (f : Shep → Shep) : (s.modShep f).integrity = s.integrity := rfl
@[simp] theorem modShep_latent (f : Shep → Shep) : (s.modShep f).latent = s.latent := rfl
@[simp] theorem modShep_retired (f : Shep → Shep) : (s.modShep f).retired = s.retired := rfl
@[simp] theorem modShep_cxlCount (f : Shep → Shep) : (s.modShep f).cxlCount = s.cxlCount := rfl
@[simp] theorem modShep_parts (f : Shep → Shep) : (s.modShep f).parts = s.parts := rfl
@[simp] theorem modShep_contexts (f : Shep → Shep) : (s.modShep f).contexts = s.contexts := rfl
@[simp] theorem modShep_joins (f : Shep → Shep) : (s.modShep f).joins = s.joins := rfl
@[simp] theorem modShep_arrays (f : Shep → Shep) : (s.modShep f).arrays = s.arrays := rfl
@[simp] theorem modShep_arraySaved (f : Shep → Shep) : (s.modShep f).arraySaved = s.arraySaved := rfl
@[simp] theorem modShep_domain (f : Shep → Shep) : (s.modShep f).domain = s.domain := rfl
@[simp] theorem modShep_shep (f : Shep → Shep) : (s.modShep f).shep = f s.shep := rfl
@[simp] theorem modShep_trace (f : Shep → Shep) : (s.modShep f).trace = s.trace := rfl
@[simp] theorem modShep_mgmt (f : Shep → Shep) : (s.modShep f).mgmt = s.mgmt := rfl
@[simp] theorem modShep_routines (f : Shep → Shep) : (s.modShep f).routines = s.routines := rfl
@[simp] theorem modShep_images (f : Shep → Shep) : (s.modShep f).images = s.images := rfl
@[simp] theorem modShep_nextUid (f : Shep → Shep) : (s.modShep f).nextUid = s.nextUid := rfl
@[simp] theorem modShep_issueSeq (f : Shep → Shep) : (s.modShep f).issueSeq = s.issueSeq := rfl
@[simp] theorem modShep_fresh (f : Shep → Shep) : (s.modShep f).fresh = s.fresh := rfl
@[simp] theorem modShep_inbox (f : Shep → Shep) : (s.modShep f).inbox = s.inbox := rfl
@[simp] theorem modShep_outbox (f : Shep → Shep) : (s.modShep f).outbox = s.outbox := rfl
@[simp] theorem modShep_cur (f : Shep → Shep) : (s.modShep f).cur = s.cur := rfl

/-! modQueue. -/

@[simp] theorem modQueue_tick (fn q : Nat) (f : QueueSt → QueueSt) : (s.modQueue fn q f).tick = s.tick := rfl
@[simp] theorem modQueue_dies (fn q : Nat) (f : QueueSt → QueueSt) : (s.modQueue fn q f).dies = s.dies := rfl
@[simp] theorem modQueue_groups (fn q : Nat) (f : QueueSt → QueueSt) : (s.modQueue fn q f).groups = s.groups := rfl
@[simp] theorem modQueue_flocks (fn q : Nat) (f : QueueSt → QueueSt) : (s.modQueue fn q f).flocks = s.flocks := rfl
@[simp] theorem modQueue_launches (fn q : Nat) (f : QueueSt → QueueSt) : (s.modQueue fn q f).launches = s.launches := rfl
@[simp] theorem modQueue_cores (fn q : Nat) (f : QueueSt → QueueSt) : (s.modQueue fn q f).cores = s.cores := rfl
@[simp] theorem modQueue_scratch (fn q : Nat) (f : QueueSt → QueueSt) : (s.modQueue fn q f).scratch = s.scratch := rfl
@[simp] theorem modQueue_mem (fn q : Nat) (f : QueueSt → QueueSt) : (s.modQueue fn q f).mem = s.mem := rfl
@[simp] theorem modQueue_tlb (fn q : Nat) (f : QueueSt → QueueSt) : (s.modQueue fn q f).tlb = s.tlb := rfl
@[simp] theorem modQueue_gaccs (fn q : Nat) (f : QueueSt → QueueSt) : (s.modQueue fn q f).gaccs = s.gaccs := rfl
@[simp] theorem modQueue_fnMem (fn q : Nat) (f : QueueSt → QueueSt) : (s.modQueue fn q f).fnMem = s.fnMem := rfl
@[simp] theorem modQueue_pfMem (fn q : Nat) (f : QueueSt → QueueSt) : (s.modQueue fn q f).pfMem = s.pfMem := rfl
@[simp] theorem modQueue_fnLog (fn q : Nat) (f : QueueSt → QueueSt) : (s.modQueue fn q f).fnLog = s.fnLog := rfl
@[simp] theorem modQueue_poison (fn q : Nat) (f : QueueSt → QueueSt) : (s.modQueue fn q f).poison = s.poison := rfl
@[simp] theorem modQueue_integrity (fn q : Nat) (f : QueueSt → QueueSt) : (s.modQueue fn q f).integrity = s.integrity := rfl
@[simp] theorem modQueue_latent (fn q : Nat) (f : QueueSt → QueueSt) : (s.modQueue fn q f).latent = s.latent := rfl
@[simp] theorem modQueue_retired (fn q : Nat) (f : QueueSt → QueueSt) : (s.modQueue fn q f).retired = s.retired := rfl
@[simp] theorem modQueue_cxlCount (fn q : Nat) (f : QueueSt → QueueSt) : (s.modQueue fn q f).cxlCount = s.cxlCount := rfl
@[simp] theorem modQueue_parts (fn q : Nat) (f : QueueSt → QueueSt) : (s.modQueue fn q f).parts = s.parts := rfl
@[simp] theorem modQueue_contexts (fn q : Nat) (f : QueueSt → QueueSt) : (s.modQueue fn q f).contexts = s.contexts := rfl
@[simp] theorem modQueue_joins (fn q : Nat) (f : QueueSt → QueueSt) : (s.modQueue fn q f).joins = s.joins := rfl
@[simp] theorem modQueue_arrays (fn q : Nat) (f : QueueSt → QueueSt) : (s.modQueue fn q f).arrays = s.arrays := rfl
@[simp] theorem modQueue_arraySaved (fn q : Nat) (f : QueueSt → QueueSt) : (s.modQueue fn q f).arraySaved = s.arraySaved := rfl
@[simp] theorem modQueue_domain (fn q : Nat) (f : QueueSt → QueueSt) : (s.modQueue fn q f).domain = s.domain := rfl
@[simp] theorem modQueue_trace (fn q : Nat) (f : QueueSt → QueueSt) : (s.modQueue fn q f).trace = s.trace := rfl
@[simp] theorem modQueue_mgmt (fn q : Nat) (f : QueueSt → QueueSt) : (s.modQueue fn q f).mgmt = s.mgmt := rfl
@[simp] theorem modQueue_routines (fn q : Nat) (f : QueueSt → QueueSt) : (s.modQueue fn q f).routines = s.routines := rfl
@[simp] theorem modQueue_images (fn q : Nat) (f : QueueSt → QueueSt) : (s.modQueue fn q f).images = s.images := rfl
@[simp] theorem modQueue_nextUid (fn q : Nat) (f : QueueSt → QueueSt) : (s.modQueue fn q f).nextUid = s.nextUid := rfl
@[simp] theorem modQueue_issueSeq (fn q : Nat) (f : QueueSt → QueueSt) : (s.modQueue fn q f).issueSeq = s.issueSeq := rfl
@[simp] theorem modQueue_fresh (fn q : Nat) (f : QueueSt → QueueSt) : (s.modQueue fn q f).fresh = s.fresh := rfl
@[simp] theorem modQueue_inbox (fn q : Nat) (f : QueueSt → QueueSt) : (s.modQueue fn q f).inbox = s.inbox := rfl
@[simp] theorem modQueue_outbox (fn q : Nat) (f : QueueSt → QueueSt) : (s.modQueue fn q f).outbox = s.outbox := rfl
@[simp] theorem modQueue_cur (fn q : Nat) (f : QueueSt → QueueSt) : (s.modQueue fn q f).cur = s.cur := rfl

/-! modUnits. -/

@[simp] theorem modUnits_tick (fn : Nat) (f : HartUnits → HartUnits) : (s.modUnits fn f).tick = s.tick := rfl
@[simp] theorem modUnits_dies (fn : Nat) (f : HartUnits → HartUnits) : (s.modUnits fn f).dies = s.dies := rfl
@[simp] theorem modUnits_groups (fn : Nat) (f : HartUnits → HartUnits) : (s.modUnits fn f).groups = s.groups := rfl
@[simp] theorem modUnits_flocks (fn : Nat) (f : HartUnits → HartUnits) : (s.modUnits fn f).flocks = s.flocks := rfl
@[simp] theorem modUnits_launches (fn : Nat) (f : HartUnits → HartUnits) : (s.modUnits fn f).launches = s.launches := rfl
@[simp] theorem modUnits_cores (fn : Nat) (f : HartUnits → HartUnits) : (s.modUnits fn f).cores = s.cores := rfl
@[simp] theorem modUnits_scratch (fn : Nat) (f : HartUnits → HartUnits) : (s.modUnits fn f).scratch = s.scratch := rfl
@[simp] theorem modUnits_mem (fn : Nat) (f : HartUnits → HartUnits) : (s.modUnits fn f).mem = s.mem := rfl
@[simp] theorem modUnits_tlb (fn : Nat) (f : HartUnits → HartUnits) : (s.modUnits fn f).tlb = s.tlb := rfl
@[simp] theorem modUnits_gaccs (fn : Nat) (f : HartUnits → HartUnits) : (s.modUnits fn f).gaccs = s.gaccs := rfl
@[simp] theorem modUnits_fnMem (fn : Nat) (f : HartUnits → HartUnits) : (s.modUnits fn f).fnMem = s.fnMem := rfl
@[simp] theorem modUnits_pfMem (fn : Nat) (f : HartUnits → HartUnits) : (s.modUnits fn f).pfMem = s.pfMem := rfl
@[simp] theorem modUnits_fnLog (fn : Nat) (f : HartUnits → HartUnits) : (s.modUnits fn f).fnLog = s.fnLog := rfl
@[simp] theorem modUnits_poison (fn : Nat) (f : HartUnits → HartUnits) : (s.modUnits fn f).poison = s.poison := rfl
@[simp] theorem modUnits_integrity (fn : Nat) (f : HartUnits → HartUnits) : (s.modUnits fn f).integrity = s.integrity := rfl
@[simp] theorem modUnits_latent (fn : Nat) (f : HartUnits → HartUnits) : (s.modUnits fn f).latent = s.latent := rfl
@[simp] theorem modUnits_retired (fn : Nat) (f : HartUnits → HartUnits) : (s.modUnits fn f).retired = s.retired := rfl
@[simp] theorem modUnits_cxlCount (fn : Nat) (f : HartUnits → HartUnits) : (s.modUnits fn f).cxlCount = s.cxlCount := rfl
@[simp] theorem modUnits_parts (fn : Nat) (f : HartUnits → HartUnits) : (s.modUnits fn f).parts = s.parts := rfl
@[simp] theorem modUnits_contexts (fn : Nat) (f : HartUnits → HartUnits) : (s.modUnits fn f).contexts = s.contexts := rfl
@[simp] theorem modUnits_joins (fn : Nat) (f : HartUnits → HartUnits) : (s.modUnits fn f).joins = s.joins := rfl
@[simp] theorem modUnits_arrays (fn : Nat) (f : HartUnits → HartUnits) : (s.modUnits fn f).arrays = s.arrays := rfl
@[simp] theorem modUnits_arraySaved (fn : Nat) (f : HartUnits → HartUnits) : (s.modUnits fn f).arraySaved = s.arraySaved := rfl
@[simp] theorem modUnits_domain (fn : Nat) (f : HartUnits → HartUnits) : (s.modUnits fn f).domain = s.domain := rfl
@[simp] theorem modUnits_trace (fn : Nat) (f : HartUnits → HartUnits) : (s.modUnits fn f).trace = s.trace := rfl
@[simp] theorem modUnits_mgmt (fn : Nat) (f : HartUnits → HartUnits) : (s.modUnits fn f).mgmt = s.mgmt := rfl
@[simp] theorem modUnits_routines (fn : Nat) (f : HartUnits → HartUnits) : (s.modUnits fn f).routines = s.routines := rfl
@[simp] theorem modUnits_images (fn : Nat) (f : HartUnits → HartUnits) : (s.modUnits fn f).images = s.images := rfl
@[simp] theorem modUnits_nextUid (fn : Nat) (f : HartUnits → HartUnits) : (s.modUnits fn f).nextUid = s.nextUid := rfl
@[simp] theorem modUnits_issueSeq (fn : Nat) (f : HartUnits → HartUnits) : (s.modUnits fn f).issueSeq = s.issueSeq := rfl
@[simp] theorem modUnits_fresh (fn : Nat) (f : HartUnits → HartUnits) : (s.modUnits fn f).fresh = s.fresh := rfl
@[simp] theorem modUnits_inbox (fn : Nat) (f : HartUnits → HartUnits) : (s.modUnits fn f).inbox = s.inbox := rfl
@[simp] theorem modUnits_outbox (fn : Nat) (f : HartUnits → HartUnits) : (s.modUnits fn f).outbox = s.outbox := rfl
@[simp] theorem modUnits_cur (fn : Nat) (f : HartUnits → HartUnits) : (s.modUnits fn f).cur = s.cur := rfl

/-! modPart. -/

@[simp] theorem modPart_tick (p : Nat) (f : Part → Part) : (s.modPart p f).tick = s.tick := rfl
@[simp] theorem modPart_dies (p : Nat) (f : Part → Part) : (s.modPart p f).dies = s.dies := rfl
@[simp] theorem modPart_groups (p : Nat) (f : Part → Part) : (s.modPart p f).groups = s.groups := rfl
@[simp] theorem modPart_flocks (p : Nat) (f : Part → Part) : (s.modPart p f).flocks = s.flocks := rfl
@[simp] theorem modPart_launches (p : Nat) (f : Part → Part) : (s.modPart p f).launches = s.launches := rfl
@[simp] theorem modPart_cores (p : Nat) (f : Part → Part) : (s.modPart p f).cores = s.cores := rfl
@[simp] theorem modPart_scratch (p : Nat) (f : Part → Part) : (s.modPart p f).scratch = s.scratch := rfl
@[simp] theorem modPart_mem (p : Nat) (f : Part → Part) : (s.modPart p f).mem = s.mem := rfl
@[simp] theorem modPart_tlb (p : Nat) (f : Part → Part) : (s.modPart p f).tlb = s.tlb := rfl
@[simp] theorem modPart_gaccs (p : Nat) (f : Part → Part) : (s.modPart p f).gaccs = s.gaccs := rfl
@[simp] theorem modPart_fnMem (p : Nat) (f : Part → Part) : (s.modPart p f).fnMem = s.fnMem := rfl
@[simp] theorem modPart_pfMem (p : Nat) (f : Part → Part) : (s.modPart p f).pfMem = s.pfMem := rfl
@[simp] theorem modPart_fnLog (p : Nat) (f : Part → Part) : (s.modPart p f).fnLog = s.fnLog := rfl
@[simp] theorem modPart_poison (p : Nat) (f : Part → Part) : (s.modPart p f).poison = s.poison := rfl
@[simp] theorem modPart_integrity (p : Nat) (f : Part → Part) : (s.modPart p f).integrity = s.integrity := rfl
@[simp] theorem modPart_latent (p : Nat) (f : Part → Part) : (s.modPart p f).latent = s.latent := rfl
@[simp] theorem modPart_retired (p : Nat) (f : Part → Part) : (s.modPart p f).retired = s.retired := rfl
@[simp] theorem modPart_cxlCount (p : Nat) (f : Part → Part) : (s.modPart p f).cxlCount = s.cxlCount := rfl
@[simp] theorem modPart_parts (p : Nat) (f : Part → Part) : (s.modPart p f).parts = AL.modify Part.fresh s.parts p f := rfl
@[simp] theorem modPart_contexts (p : Nat) (f : Part → Part) : (s.modPart p f).contexts = s.contexts := rfl
@[simp] theorem modPart_joins (p : Nat) (f : Part → Part) : (s.modPart p f).joins = s.joins := rfl
@[simp] theorem modPart_arrays (p : Nat) (f : Part → Part) : (s.modPart p f).arrays = s.arrays := rfl
@[simp] theorem modPart_arraySaved (p : Nat) (f : Part → Part) : (s.modPart p f).arraySaved = s.arraySaved := rfl
@[simp] theorem modPart_domain (p : Nat) (f : Part → Part) : (s.modPart p f).domain = s.domain := rfl
@[simp] theorem modPart_shep (p : Nat) (f : Part → Part) : (s.modPart p f).shep = s.shep := rfl
@[simp] theorem modPart_trace (p : Nat) (f : Part → Part) : (s.modPart p f).trace = s.trace := rfl
@[simp] theorem modPart_mgmt (p : Nat) (f : Part → Part) : (s.modPart p f).mgmt = s.mgmt := rfl
@[simp] theorem modPart_routines (p : Nat) (f : Part → Part) : (s.modPart p f).routines = s.routines := rfl
@[simp] theorem modPart_images (p : Nat) (f : Part → Part) : (s.modPart p f).images = s.images := rfl
@[simp] theorem modPart_nextUid (p : Nat) (f : Part → Part) : (s.modPart p f).nextUid = s.nextUid := rfl
@[simp] theorem modPart_issueSeq (p : Nat) (f : Part → Part) : (s.modPart p f).issueSeq = s.issueSeq := rfl
@[simp] theorem modPart_fresh (p : Nat) (f : Part → Part) : (s.modPart p f).fresh = s.fresh := rfl
@[simp] theorem modPart_inbox (p : Nat) (f : Part → Part) : (s.modPart p f).inbox = s.inbox := rfl
@[simp] theorem modPart_outbox (p : Nat) (f : Part → Part) : (s.modPart p f).outbox = s.outbox := rfl
@[simp] theorem modPart_cur (p : Nat) (f : Part → Part) : (s.modPart p f).cur = s.cur := rfl

/-! modMgmt. -/

@[simp] theorem modMgmt_tick (f : Mgmt → Mgmt) : (s.modMgmt f).tick = s.tick := rfl
@[simp] theorem modMgmt_dies (f : Mgmt → Mgmt) : (s.modMgmt f).dies = s.dies := rfl
@[simp] theorem modMgmt_groups (f : Mgmt → Mgmt) : (s.modMgmt f).groups = s.groups := rfl
@[simp] theorem modMgmt_flocks (f : Mgmt → Mgmt) : (s.modMgmt f).flocks = s.flocks := rfl
@[simp] theorem modMgmt_launches (f : Mgmt → Mgmt) : (s.modMgmt f).launches = s.launches := rfl
@[simp] theorem modMgmt_cores (f : Mgmt → Mgmt) : (s.modMgmt f).cores = s.cores := rfl
@[simp] theorem modMgmt_scratch (f : Mgmt → Mgmt) : (s.modMgmt f).scratch = s.scratch := rfl
@[simp] theorem modMgmt_mem (f : Mgmt → Mgmt) : (s.modMgmt f).mem = s.mem := rfl
@[simp] theorem modMgmt_tlb (f : Mgmt → Mgmt) : (s.modMgmt f).tlb = s.tlb := rfl
@[simp] theorem modMgmt_gaccs (f : Mgmt → Mgmt) : (s.modMgmt f).gaccs = s.gaccs := rfl
@[simp] theorem modMgmt_fnMem (f : Mgmt → Mgmt) : (s.modMgmt f).fnMem = s.fnMem := rfl
@[simp] theorem modMgmt_pfMem (f : Mgmt → Mgmt) : (s.modMgmt f).pfMem = s.pfMem := rfl
@[simp] theorem modMgmt_fnLog (f : Mgmt → Mgmt) : (s.modMgmt f).fnLog = s.fnLog := rfl
@[simp] theorem modMgmt_poison (f : Mgmt → Mgmt) : (s.modMgmt f).poison = s.poison := rfl
@[simp] theorem modMgmt_integrity (f : Mgmt → Mgmt) : (s.modMgmt f).integrity = s.integrity := rfl
@[simp] theorem modMgmt_latent (f : Mgmt → Mgmt) : (s.modMgmt f).latent = s.latent := rfl
@[simp] theorem modMgmt_retired (f : Mgmt → Mgmt) : (s.modMgmt f).retired = s.retired := rfl
@[simp] theorem modMgmt_cxlCount (f : Mgmt → Mgmt) : (s.modMgmt f).cxlCount = s.cxlCount := rfl
@[simp] theorem modMgmt_parts (f : Mgmt → Mgmt) : (s.modMgmt f).parts = s.parts := rfl
@[simp] theorem modMgmt_contexts (f : Mgmt → Mgmt) : (s.modMgmt f).contexts = s.contexts := rfl
@[simp] theorem modMgmt_joins (f : Mgmt → Mgmt) : (s.modMgmt f).joins = s.joins := rfl
@[simp] theorem modMgmt_arrays (f : Mgmt → Mgmt) : (s.modMgmt f).arrays = s.arrays := rfl
@[simp] theorem modMgmt_arraySaved (f : Mgmt → Mgmt) : (s.modMgmt f).arraySaved = s.arraySaved := rfl
@[simp] theorem modMgmt_domain (f : Mgmt → Mgmt) : (s.modMgmt f).domain = s.domain := rfl
@[simp] theorem modMgmt_shep (f : Mgmt → Mgmt) : (s.modMgmt f).shep = s.shep := rfl
@[simp] theorem modMgmt_trace (f : Mgmt → Mgmt) : (s.modMgmt f).trace = s.trace := rfl
@[simp] theorem modMgmt_mgmt (f : Mgmt → Mgmt) : (s.modMgmt f).mgmt = f s.mgmt := rfl
@[simp] theorem modMgmt_routines (f : Mgmt → Mgmt) : (s.modMgmt f).routines = s.routines := rfl
@[simp] theorem modMgmt_images (f : Mgmt → Mgmt) : (s.modMgmt f).images = s.images := rfl
@[simp] theorem modMgmt_nextUid (f : Mgmt → Mgmt) : (s.modMgmt f).nextUid = s.nextUid := rfl
@[simp] theorem modMgmt_issueSeq (f : Mgmt → Mgmt) : (s.modMgmt f).issueSeq = s.issueSeq := rfl
@[simp] theorem modMgmt_fresh (f : Mgmt → Mgmt) : (s.modMgmt f).fresh = s.fresh := rfl
@[simp] theorem modMgmt_inbox (f : Mgmt → Mgmt) : (s.modMgmt f).inbox = s.inbox := rfl
@[simp] theorem modMgmt_outbox (f : Mgmt → Mgmt) : (s.modMgmt f).outbox = s.outbox := rfl
@[simp] theorem modMgmt_cur (f : Mgmt → Mgmt) : (s.modMgmt f).cur = s.cur := rfl

/-! modLink. -/

@[simp] theorem modLink_tick (n : Nat) (f : LinkSt → LinkSt) : (s.modLink n f).tick = s.tick := rfl
@[simp] theorem modLink_dies (n : Nat) (f : LinkSt → LinkSt) : (s.modLink n f).dies = s.dies := rfl
@[simp] theorem modLink_groups (n : Nat) (f : LinkSt → LinkSt) : (s.modLink n f).groups = s.groups := rfl
@[simp] theorem modLink_flocks (n : Nat) (f : LinkSt → LinkSt) : (s.modLink n f).flocks = s.flocks := rfl
@[simp] theorem modLink_launches (n : Nat) (f : LinkSt → LinkSt) : (s.modLink n f).launches = s.launches := rfl
@[simp] theorem modLink_cores (n : Nat) (f : LinkSt → LinkSt) : (s.modLink n f).cores = s.cores := rfl
@[simp] theorem modLink_scratch (n : Nat) (f : LinkSt → LinkSt) : (s.modLink n f).scratch = s.scratch := rfl
@[simp] theorem modLink_mem (n : Nat) (f : LinkSt → LinkSt) : (s.modLink n f).mem = s.mem := rfl
@[simp] theorem modLink_tlb (n : Nat) (f : LinkSt → LinkSt) : (s.modLink n f).tlb = s.tlb := rfl
@[simp] theorem modLink_gaccs (n : Nat) (f : LinkSt → LinkSt) : (s.modLink n f).gaccs = s.gaccs := rfl
@[simp] theorem modLink_fnMem (n : Nat) (f : LinkSt → LinkSt) : (s.modLink n f).fnMem = s.fnMem := rfl
@[simp] theorem modLink_pfMem (n : Nat) (f : LinkSt → LinkSt) : (s.modLink n f).pfMem = s.pfMem := rfl
@[simp] theorem modLink_fnLog (n : Nat) (f : LinkSt → LinkSt) : (s.modLink n f).fnLog = s.fnLog := rfl
@[simp] theorem modLink_poison (n : Nat) (f : LinkSt → LinkSt) : (s.modLink n f).poison = s.poison := rfl
@[simp] theorem modLink_integrity (n : Nat) (f : LinkSt → LinkSt) : (s.modLink n f).integrity = s.integrity := rfl
@[simp] theorem modLink_latent (n : Nat) (f : LinkSt → LinkSt) : (s.modLink n f).latent = s.latent := rfl
@[simp] theorem modLink_retired (n : Nat) (f : LinkSt → LinkSt) : (s.modLink n f).retired = s.retired := rfl
@[simp] theorem modLink_cxlCount (n : Nat) (f : LinkSt → LinkSt) : (s.modLink n f).cxlCount = s.cxlCount := rfl
@[simp] theorem modLink_parts (n : Nat) (f : LinkSt → LinkSt) : (s.modLink n f).parts = s.parts := rfl
@[simp] theorem modLink_contexts (n : Nat) (f : LinkSt → LinkSt) : (s.modLink n f).contexts = s.contexts := rfl
@[simp] theorem modLink_joins (n : Nat) (f : LinkSt → LinkSt) : (s.modLink n f).joins = s.joins := rfl
@[simp] theorem modLink_arrays (n : Nat) (f : LinkSt → LinkSt) : (s.modLink n f).arrays = s.arrays := rfl
@[simp] theorem modLink_arraySaved (n : Nat) (f : LinkSt → LinkSt) : (s.modLink n f).arraySaved = s.arraySaved := rfl
@[simp] theorem modLink_domain (n : Nat) (f : LinkSt → LinkSt) : (s.modLink n f).domain = s.domain := rfl
@[simp] theorem modLink_shep (n : Nat) (f : LinkSt → LinkSt) : (s.modLink n f).shep = s.shep := rfl
@[simp] theorem modLink_trace (n : Nat) (f : LinkSt → LinkSt) : (s.modLink n f).trace = s.trace := rfl
@[simp] theorem modLink_routines (n : Nat) (f : LinkSt → LinkSt) : (s.modLink n f).routines = s.routines := rfl
@[simp] theorem modLink_images (n : Nat) (f : LinkSt → LinkSt) : (s.modLink n f).images = s.images := rfl
@[simp] theorem modLink_nextUid (n : Nat) (f : LinkSt → LinkSt) : (s.modLink n f).nextUid = s.nextUid := rfl
@[simp] theorem modLink_issueSeq (n : Nat) (f : LinkSt → LinkSt) : (s.modLink n f).issueSeq = s.issueSeq := rfl
@[simp] theorem modLink_fresh (n : Nat) (f : LinkSt → LinkSt) : (s.modLink n f).fresh = s.fresh := rfl
@[simp] theorem modLink_inbox (n : Nat) (f : LinkSt → LinkSt) : (s.modLink n f).inbox = s.inbox := rfl
@[simp] theorem modLink_outbox (n : Nat) (f : LinkSt → LinkSt) : (s.modLink n f).outbox = s.outbox := rfl
@[simp] theorem modLink_cur (n : Nat) (f : LinkSt → LinkSt) : (s.modLink n f).cur = s.cur := rfl

/-! modDie. -/

@[simp] theorem modDie_tick (d : Nat) (f : Die → Die) : (s.modDie d f).tick = s.tick := rfl
@[simp] theorem modDie_dies (d : Nat) (f : Die → Die) : (s.modDie d f).dies = AL.modify Die.fresh s.dies d f := rfl
@[simp] theorem modDie_groups (d : Nat) (f : Die → Die) : (s.modDie d f).groups = s.groups := rfl
@[simp] theorem modDie_flocks (d : Nat) (f : Die → Die) : (s.modDie d f).flocks = s.flocks := rfl
@[simp] theorem modDie_launches (d : Nat) (f : Die → Die) : (s.modDie d f).launches = s.launches := rfl
@[simp] theorem modDie_cores (d : Nat) (f : Die → Die) : (s.modDie d f).cores = s.cores := rfl
@[simp] theorem modDie_scratch (d : Nat) (f : Die → Die) : (s.modDie d f).scratch = s.scratch := rfl
@[simp] theorem modDie_mem (d : Nat) (f : Die → Die) : (s.modDie d f).mem = s.mem := rfl
@[simp] theorem modDie_tlb (d : Nat) (f : Die → Die) : (s.modDie d f).tlb = s.tlb := rfl
@[simp] theorem modDie_gaccs (d : Nat) (f : Die → Die) : (s.modDie d f).gaccs = s.gaccs := rfl
@[simp] theorem modDie_fnMem (d : Nat) (f : Die → Die) : (s.modDie d f).fnMem = s.fnMem := rfl
@[simp] theorem modDie_pfMem (d : Nat) (f : Die → Die) : (s.modDie d f).pfMem = s.pfMem := rfl
@[simp] theorem modDie_fnLog (d : Nat) (f : Die → Die) : (s.modDie d f).fnLog = s.fnLog := rfl
@[simp] theorem modDie_poison (d : Nat) (f : Die → Die) : (s.modDie d f).poison = s.poison := rfl
@[simp] theorem modDie_integrity (d : Nat) (f : Die → Die) : (s.modDie d f).integrity = s.integrity := rfl
@[simp] theorem modDie_latent (d : Nat) (f : Die → Die) : (s.modDie d f).latent = s.latent := rfl
@[simp] theorem modDie_retired (d : Nat) (f : Die → Die) : (s.modDie d f).retired = s.retired := rfl
@[simp] theorem modDie_cxlCount (d : Nat) (f : Die → Die) : (s.modDie d f).cxlCount = s.cxlCount := rfl
@[simp] theorem modDie_parts (d : Nat) (f : Die → Die) : (s.modDie d f).parts = s.parts := rfl
@[simp] theorem modDie_contexts (d : Nat) (f : Die → Die) : (s.modDie d f).contexts = s.contexts := rfl
@[simp] theorem modDie_joins (d : Nat) (f : Die → Die) : (s.modDie d f).joins = s.joins := rfl
@[simp] theorem modDie_arrays (d : Nat) (f : Die → Die) : (s.modDie d f).arrays = s.arrays := rfl
@[simp] theorem modDie_arraySaved (d : Nat) (f : Die → Die) : (s.modDie d f).arraySaved = s.arraySaved := rfl
@[simp] theorem modDie_domain (d : Nat) (f : Die → Die) : (s.modDie d f).domain = s.domain := rfl
@[simp] theorem modDie_shep (d : Nat) (f : Die → Die) : (s.modDie d f).shep = s.shep := rfl
@[simp] theorem modDie_trace (d : Nat) (f : Die → Die) : (s.modDie d f).trace = s.trace := rfl
@[simp] theorem modDie_mgmt (d : Nat) (f : Die → Die) : (s.modDie d f).mgmt = s.mgmt := rfl
@[simp] theorem modDie_routines (d : Nat) (f : Die → Die) : (s.modDie d f).routines = s.routines := rfl
@[simp] theorem modDie_images (d : Nat) (f : Die → Die) : (s.modDie d f).images = s.images := rfl
@[simp] theorem modDie_nextUid (d : Nat) (f : Die → Die) : (s.modDie d f).nextUid = s.nextUid := rfl
@[simp] theorem modDie_issueSeq (d : Nat) (f : Die → Die) : (s.modDie d f).issueSeq = s.issueSeq := rfl
@[simp] theorem modDie_fresh (d : Nat) (f : Die → Die) : (s.modDie d f).fresh = s.fresh := rfl
@[simp] theorem modDie_inbox (d : Nat) (f : Die → Die) : (s.modDie d f).inbox = s.inbox := rfl
@[simp] theorem modDie_outbox (d : Nat) (f : Die → Die) : (s.modDie d f).outbox = s.outbox := rfl
@[simp] theorem modDie_cur (d : Nat) (f : Die → Die) : (s.modDie d f).cur = s.cur := rfl

/-! modWindow. -/

@[simp] theorem modWindow_tick (f : TraceWindow → TraceWindow) : (s.modWindow f).tick = s.tick := rfl
@[simp] theorem modWindow_dies (f : TraceWindow → TraceWindow) : (s.modWindow f).dies = s.dies := rfl
@[simp] theorem modWindow_groups (f : TraceWindow → TraceWindow) : (s.modWindow f).groups = s.groups := rfl
@[simp] theorem modWindow_flocks (f : TraceWindow → TraceWindow) : (s.modWindow f).flocks = s.flocks := rfl
@[simp] theorem modWindow_launches (f : TraceWindow → TraceWindow) : (s.modWindow f).launches = s.launches := rfl
@[simp] theorem modWindow_cores (f : TraceWindow → TraceWindow) : (s.modWindow f).cores = s.cores := rfl
@[simp] theorem modWindow_scratch (f : TraceWindow → TraceWindow) : (s.modWindow f).scratch = s.scratch := rfl
@[simp] theorem modWindow_mem (f : TraceWindow → TraceWindow) : (s.modWindow f).mem = s.mem := rfl
@[simp] theorem modWindow_tlb (f : TraceWindow → TraceWindow) : (s.modWindow f).tlb = s.tlb := rfl
@[simp] theorem modWindow_gaccs (f : TraceWindow → TraceWindow) : (s.modWindow f).gaccs = s.gaccs := rfl
@[simp] theorem modWindow_fnMem (f : TraceWindow → TraceWindow) : (s.modWindow f).fnMem = s.fnMem := rfl
@[simp] theorem modWindow_pfMem (f : TraceWindow → TraceWindow) : (s.modWindow f).pfMem = s.pfMem := rfl
@[simp] theorem modWindow_fnLog (f : TraceWindow → TraceWindow) : (s.modWindow f).fnLog = s.fnLog := rfl
@[simp] theorem modWindow_poison (f : TraceWindow → TraceWindow) : (s.modWindow f).poison = s.poison := rfl
@[simp] theorem modWindow_integrity (f : TraceWindow → TraceWindow) : (s.modWindow f).integrity = s.integrity := rfl
@[simp] theorem modWindow_latent (f : TraceWindow → TraceWindow) : (s.modWindow f).latent = s.latent := rfl
@[simp] theorem modWindow_retired (f : TraceWindow → TraceWindow) : (s.modWindow f).retired = s.retired := rfl
@[simp] theorem modWindow_cxlCount (f : TraceWindow → TraceWindow) : (s.modWindow f).cxlCount = s.cxlCount := rfl
@[simp] theorem modWindow_parts (f : TraceWindow → TraceWindow) : (s.modWindow f).parts = s.parts := rfl
@[simp] theorem modWindow_contexts (f : TraceWindow → TraceWindow) : (s.modWindow f).contexts = s.contexts := rfl
@[simp] theorem modWindow_joins (f : TraceWindow → TraceWindow) : (s.modWindow f).joins = s.joins := rfl
@[simp] theorem modWindow_arrays (f : TraceWindow → TraceWindow) : (s.modWindow f).arrays = s.arrays := rfl
@[simp] theorem modWindow_arraySaved (f : TraceWindow → TraceWindow) : (s.modWindow f).arraySaved = s.arraySaved := rfl
@[simp] theorem modWindow_domain (f : TraceWindow → TraceWindow) : (s.modWindow f).domain = s.domain := rfl
@[simp] theorem modWindow_shep (f : TraceWindow → TraceWindow) : (s.modWindow f).shep = s.shep := rfl
@[simp] theorem modWindow_mgmt (f : TraceWindow → TraceWindow) : (s.modWindow f).mgmt = s.mgmt := rfl
@[simp] theorem modWindow_routines (f : TraceWindow → TraceWindow) : (s.modWindow f).routines = s.routines := rfl
@[simp] theorem modWindow_images (f : TraceWindow → TraceWindow) : (s.modWindow f).images = s.images := rfl
@[simp] theorem modWindow_nextUid (f : TraceWindow → TraceWindow) : (s.modWindow f).nextUid = s.nextUid := rfl
@[simp] theorem modWindow_issueSeq (f : TraceWindow → TraceWindow) : (s.modWindow f).issueSeq = s.issueSeq := rfl
@[simp] theorem modWindow_fresh (f : TraceWindow → TraceWindow) : (s.modWindow f).fresh = s.fresh := rfl
@[simp] theorem modWindow_inbox (f : TraceWindow → TraceWindow) : (s.modWindow f).inbox = s.inbox := rfl
@[simp] theorem modWindow_outbox (f : TraceWindow → TraceWindow) : (s.modWindow f).outbox = s.outbox := rfl
@[simp] theorem modWindow_cur (f : TraceWindow → TraceWindow) : (s.modWindow f).cur = s.cur := rfl

/-! modStream. -/

@[simp] theorem modStream_tick (i : Nat) (f : TraceStream → TraceStream) : (s.modStream i f).tick = s.tick := rfl
@[simp] theorem modStream_dies (i : Nat) (f : TraceStream → TraceStream) : (s.modStream i f).dies = s.dies := rfl
@[simp] theorem modStream_groups (i : Nat) (f : TraceStream → TraceStream) : (s.modStream i f).groups = s.groups := rfl
@[simp] theorem modStream_flocks (i : Nat) (f : TraceStream → TraceStream) : (s.modStream i f).flocks = s.flocks := rfl
@[simp] theorem modStream_launches (i : Nat) (f : TraceStream → TraceStream) : (s.modStream i f).launches = s.launches := rfl
@[simp] theorem modStream_cores (i : Nat) (f : TraceStream → TraceStream) : (s.modStream i f).cores = s.cores := rfl
@[simp] theorem modStream_scratch (i : Nat) (f : TraceStream → TraceStream) : (s.modStream i f).scratch = s.scratch := rfl
@[simp] theorem modStream_mem (i : Nat) (f : TraceStream → TraceStream) : (s.modStream i f).mem = s.mem := rfl
@[simp] theorem modStream_tlb (i : Nat) (f : TraceStream → TraceStream) : (s.modStream i f).tlb = s.tlb := rfl
@[simp] theorem modStream_gaccs (i : Nat) (f : TraceStream → TraceStream) : (s.modStream i f).gaccs = s.gaccs := rfl
@[simp] theorem modStream_fnMem (i : Nat) (f : TraceStream → TraceStream) : (s.modStream i f).fnMem = s.fnMem := rfl
@[simp] theorem modStream_pfMem (i : Nat) (f : TraceStream → TraceStream) : (s.modStream i f).pfMem = s.pfMem := rfl
@[simp] theorem modStream_fnLog (i : Nat) (f : TraceStream → TraceStream) : (s.modStream i f).fnLog = s.fnLog := rfl
@[simp] theorem modStream_poison (i : Nat) (f : TraceStream → TraceStream) : (s.modStream i f).poison = s.poison := rfl
@[simp] theorem modStream_integrity (i : Nat) (f : TraceStream → TraceStream) : (s.modStream i f).integrity = s.integrity := rfl
@[simp] theorem modStream_latent (i : Nat) (f : TraceStream → TraceStream) : (s.modStream i f).latent = s.latent := rfl
@[simp] theorem modStream_retired (i : Nat) (f : TraceStream → TraceStream) : (s.modStream i f).retired = s.retired := rfl
@[simp] theorem modStream_cxlCount (i : Nat) (f : TraceStream → TraceStream) : (s.modStream i f).cxlCount = s.cxlCount := rfl
@[simp] theorem modStream_parts (i : Nat) (f : TraceStream → TraceStream) : (s.modStream i f).parts = s.parts := rfl
@[simp] theorem modStream_contexts (i : Nat) (f : TraceStream → TraceStream) : (s.modStream i f).contexts = s.contexts := rfl
@[simp] theorem modStream_joins (i : Nat) (f : TraceStream → TraceStream) : (s.modStream i f).joins = s.joins := rfl
@[simp] theorem modStream_arrays (i : Nat) (f : TraceStream → TraceStream) : (s.modStream i f).arrays = s.arrays := rfl
@[simp] theorem modStream_arraySaved (i : Nat) (f : TraceStream → TraceStream) : (s.modStream i f).arraySaved = s.arraySaved := rfl
@[simp] theorem modStream_domain (i : Nat) (f : TraceStream → TraceStream) : (s.modStream i f).domain = s.domain := rfl
@[simp] theorem modStream_shep (i : Nat) (f : TraceStream → TraceStream) : (s.modStream i f).shep = s.shep := rfl
@[simp] theorem modStream_mgmt (i : Nat) (f : TraceStream → TraceStream) : (s.modStream i f).mgmt = s.mgmt := rfl
@[simp] theorem modStream_routines (i : Nat) (f : TraceStream → TraceStream) : (s.modStream i f).routines = s.routines := rfl
@[simp] theorem modStream_images (i : Nat) (f : TraceStream → TraceStream) : (s.modStream i f).images = s.images := rfl
@[simp] theorem modStream_nextUid (i : Nat) (f : TraceStream → TraceStream) : (s.modStream i f).nextUid = s.nextUid := rfl
@[simp] theorem modStream_issueSeq (i : Nat) (f : TraceStream → TraceStream) : (s.modStream i f).issueSeq = s.issueSeq := rfl
@[simp] theorem modStream_fresh (i : Nat) (f : TraceStream → TraceStream) : (s.modStream i f).fresh = s.fresh := rfl
@[simp] theorem modStream_inbox (i : Nat) (f : TraceStream → TraceStream) : (s.modStream i f).inbox = s.inbox := rfl
@[simp] theorem modStream_outbox (i : Nat) (f : TraceStream → TraceStream) : (s.modStream i f).outbox = s.outbox := rfl
@[simp] theorem modStream_cur (i : Nat) (f : TraceStream → TraceStream) : (s.modStream i f).cur = s.cur := rfl

end Sys2Proof.Machine.State
end

