-- ==== Sys2Proof/Laws/Threads.lean ====
section
/-!
SUPPORT. Groups and threads found again after an update.
-/
namespace Sys2Proof.Machine

theorem find?_updateWhere {α : Type} (p q : α → Bool) (f : α → α) (hq : ∀ x, q (f x) = q x) (l : List α) :
    (updateWhere p f l).find? q = (l.find? q).map fun x => if p x then f x else x := by
  induction l with
  | nil => rfl
  | cons x t ih =>
    have h : q (if p x then f x else x) = q x := by split <;> simp [hq]
    simp only [updateWhere, List.map_cons, List.find?_cons, h] at ih ⊢
    split
    · rfl
    · exact ih

@[simp] theorem length_updateAt {α : Type} (l : List α) (i : Nat) (f : α → α) : (updateAt l i f).length = l.length := by
  induction l generalizing i with
  | nil => rfl
  | cons x t ih => cases i <;> simp [updateAt, ih]

theorem getElem?_updateAt_same {α : Type} (l : List α) (i : Nat) (f : α → α) : (updateAt l i f)[i]? = (l[i]?).map f := by
  induction l generalizing i with
  | nil => rfl
  | cons x t ih => cases i <;> simp [updateAt, ih]

theorem getElem?_updateAt_other {α : Type} (l : List α) {i j : Nat} (f : α → α) (h : i ≠ j) :
    (updateAt l i f)[j]? = l[j]? := by
  induction l generalizing i j with
  | nil => rfl
  | cons x t ih =>
    cases i with
    | zero => cases j with
      | zero => exact absurd rfl h
      | succ j => simp [updateAt]
    | succ i => cases j with
      | zero => simp [updateAt]
      | succ j => simpa [updateAt] using ih (by omega)

namespace State

theorem group?_modGroup (s : State) (g h : Nat) (f : Group → Group) (hf : ∀ x, (f x).uid = x.uid) :
    (s.modGroup g f).group? h = (s.group? h).map fun x => if x.uid = g then f x else x := by
  simp only [group?, modGroup_groups]
  rw [find?_updateWhere _ _ _ (by simp [hf])]
  simp

theorem uid_of_group? {s : State} {g : Nat} {x : Group} (h : s.group? g = some x) : x.uid = g := by
  simpa using List.find?_some h

theorem group?_modGroup_same (s : State) (g : Nat) (f : Group → Group) (hf : ∀ x, (f x).uid = x.uid) :
    (s.modGroup g f).group? g = (s.group? g).map f := by
  rw [group?_modGroup s g g f hf]
  cases h : s.group? g with
  | none => rfl
  | some x => simp [uid_of_group? h]

theorem group?_modGroup_other (s : State) {g h : Nat} (f : Group → Group) (hf : ∀ x, (f x).uid = x.uid) (hn : g ≠ h) :
    (s.modGroup g f).group? h = s.group? h := by
  rw [group?_modGroup s g h f hf]
  cases e : s.group? h with
  | none => rfl
  | some x =>
    have := uid_of_group? e
    have hx : ¬ x.uid = g := by omega
    simp [hx]

/-- A change of groups that keeps their numbers and lanes changes no thread. -/
theorem thread?_modGroup_keep (s : State) (g : Nat) (f : Group → Group) (hf : ∀ x, (f x).uid = x.uid)
    (hl : ∀ x, (f x).lanes = x.lanes) (t : ThreadId) : (s.modGroup g f).thread? t = s.thread? t := by
  simp only [thread?]
  rw [group?_modGroup s g t.g f hf]
  cases s.group? t.g with
  | none => rfl
  | some x =>
    simp only [Option.map_some]
    split <;> simp [hl]

@[simp] theorem thread?_modThread_same (s : State) (t : ThreadId) (f : Thread → Thread) :
    (s.modThread t f).thread? t = (s.thread? t).map f := by
  simp only [thread?, modThread]
  rw [group?_modGroup_same s t.g (fun g => { g with lanes := updateAt g.lanes t.lane f }) (fun _ => rfl)]
  cases s.group? t.g with
  | none => rfl
  | some x => simp [getElem?_updateAt_same]

theorem thread?_modThread_other (s : State) {t u : ThreadId} (f : Thread → Thread) (h : t ≠ u) :
    (s.modThread t f).thread? u = s.thread? u := by
  simp only [thread?, modThread]
  rw [group?_modGroup s t.g u.g (fun g => { g with lanes := updateAt g.lanes t.lane f }) (fun _ => rfl)]
  cases e : s.group? u.g with
  | none => rfl
  | some x =>
    have hx := uid_of_group? e
    simp only [Option.map_some]
    split
    · have hl : t.lane ≠ u.lane := by
        intro hc
        apply h
        cases t; cases u
        simp_all
      simp [getElem?_updateAt_other _ _ hl]
    · rfl

@[simp] theorem thread?_modSys_same (s : State) (t : ThreadId) (f : SysRegs → SysRegs) :
    (s.modSys t f).thread? t = (s.thread? t).map fun x => { x with sys := f x.sys } := by
  simp [modSys]

theorem thread?_modSys_other (s : State) {t u : ThreadId} (f : SysRegs → SysRegs) (h : t ≠ u) :
    (s.modSys t f).thread? u = s.thread? u := by
  simp [modSys, thread?_modThread_other _ _ h]

/-- Updates that leave the groups alone leave every thread alone. -/
theorem thread?_of_groups {s s' : State} (h : s'.groups = s.groups) (t : ThreadId) : s'.thread? t = s.thread? t := by
  simp [thread?, group?, h]

theorem group?_of_groups {s s' : State} (h : s'.groups = s.groups) (g : Nat) : s'.group? g = s.group? g := by
  simp [group?, h]

end State
end Sys2Proof.Machine
end

