-- ==== Sys2Proof/Laws/Deliver.lean ====
section
/-!
SUPPORT. What delivering a lane's result does to the thread of that lane and to every other thread (R57, R58, R105): the
one law of the words that only write registers and predicates.
-/
namespace Sys2Proof.Machine.State

/-! Writes in flight. -/

theorem thread?_modRf_same (s : State) {l : LaneRef} (f : RegFile → RegFile) (h : l.helper = false) :
    (s.modRf l f).thread? l.tid = (s.thread? l.tid).map fun t => { t with rf := f t.rf } := by
  simp [modRf, h]

theorem thread?_modRf_other (s : State) {l : LaneRef} {u : ThreadId} (f : RegFile → RegFile)
    (h : l.helper = true ∨ l.tid ≠ u) : (s.modRf l f).thread? u = s.thread? u := by
  unfold modRf
  split
  · apply thread?_modGroup_keep
    · intro x
      split <;> simp [Group.setRegion] <;> split <;> rfl
    · intro x
      split <;> simp [Group.setRegion] <;> split <;> rfl
  · exact thread?_modThread_other s _ (by simp_all)

theorem thread?_predInFlight_other (s : State) (c : IssueCtx) {l : LaneRef} {u : ThreadId} (n : Nat) (k : BitVec 3) (b : Bool)
    (h : l.helper = true ∨ l.tid ≠ u) : (s.predInFlight c l n k b).thread? u = s.thread? u := by
  unfold predInFlight
  split
  · rfl
  · exact thread?_modRf_other s _ h

theorem thread?_predsInFlight_other (s : State) (c : IssueCtx) {l : LaneRef} {u : ThreadId} (n : Nat)
    (ks : List (BitVec 3 × Bool)) (h : l.helper = true ∨ l.tid ≠ u) :
    (ks.foldl (fun s p => s.predInFlight c l n p.1 p.2) s).thread? u = s.thread? u := by
  induction ks generalizing s with
  | nil => rfl
  | cons k ks ih => rw [List.foldl_cons, ih, thread?_predInFlight_other s c n k.1 k.2 h]

theorem thread?_predsInFlight_same (s : State) (c : IssueCtx) {l : LaneRef} {t : Thread} (n : Nat)
    (ks : List (BitVec 3 × Bool)) (h : l.helper = false) (ht : s.thread? l.tid = some t) :
    (ks.foldl (fun s p => s.predInFlight c l n p.1 p.2) s).thread? l.tid =
      some { t with rf := { t.rf with pend := t.rf.pend ++ predLandings (c.cycle + n) c.seq ks } } := by
  induction ks generalizing s t with
  | nil => simp [predLandings, ht]
  | cons k ks ih =>
    rw [List.foldl_cons]
    by_cases hk : k.1 = 0
    · have hs : s.predInFlight c l n k.1 k.2 = s := by simp [predInFlight, hk]
      rw [hs, ih s ht]
      simp [predLandings, hk]
    · have hs : (s.predInFlight c l n k.1 k.2).thread? l.tid = some { t with rf := { t.rf with pend := t.rf.pend ++
          [⟨c.cycle + n, c.seq, .pred k.1, some ⟨if k.2 then 1 else 0, 0⟩⟩] } } := by
        rw [predInFlight, if_neg hk, thread?_modRf_same _ _ h, ht]
        rfl
      rw [ih _ hs]
      simp only [predLandings, List.filter_cons, ne_eq, hk, not_false_eq_true, decide_true, if_true, List.map_cons,
        List.append_assoc, List.cons_append, List.nil_append]

theorem thread?_inFlight_other (s : State) (c : IssueCtx) {l : LaneRef} {u : ThreadId} (n : Nat) (b : Bool)
    (ws : List (Reg × TW)) (h : l.helper = true ∨ l.tid ≠ u) : (s.inFlight c l n b ws).thread? u = s.thread? u :=
  thread?_modRf_other s _ h

/-- The writes of a word's results: of a pair's two results last takes half B's (R35, R98). -/
theorem thread?_inFlight_own (s : State) {c : IssueCtx} {l : LaneRef} {t : Thread} (n : Nat) (b : Bool) (ws : List (Reg × TW))
    (h : l.helper = false) (ht : s.thread? l.tid = some t) :
    (s.inFlight c l n b ws).thread? l.tid =
      some { t with rf := { t.rf with
        pend := t.rf.pend ++ landings (c.cycle + n) c.seq (b && keepsLast c) ws } } := by
  rw [inFlight, thread?_modRf_same s _ h, ht]
  simp only [landings, keepsLast, h, Option.map_some, Bool.and_eq_true, decide_eq_true_eq, Bool.false_eq_true, if_false,
    List.append_assoc]
  all_goals (cases ws.getLast? <;> rfl)

theorem keepsLast_full {c : IssueCtx} (hc : c.half = .full) : keepsLast c = true := by simp [keepsLast, hc]

/-- The writes of a full instruction's results (R98). -/
theorem thread?_inFlight_same (s : State) {c : IssueCtx} {l : LaneRef} {t : Thread} (n : Nat) (ws : List (Reg × TW))
    (hc : c.half = .full) (h : l.helper = false) (ht : s.thread? l.tid = some t) :
    (s.inFlight c l n true ws).thread? l.tid =
      some { t with rf := { t.rf with pend := t.rf.pend ++ landings (c.cycle + n) c.seq true ws } } := by
  rw [thread?_inFlight_own s n true ws h ht, keepsLast_full hc]
  rfl

/-! Ports, traps and births leave other threads alone. -/

@[simp] theorem switchPort_groups (s : State) (core port launch : Nat) (y : List Nat) :
    (s.switchPort core port launch y).groups = s.groups := by
  unfold switchPort
  dsimp only
  repeat' (first | rfl | split)

@[simp] theorem switchPoint_groups (s : State) (g : Nat) (y : List Nat) : (s.switchPoint g y).groups = s.groups := by
  unfold switchPoint
  split
  · rfl
  · split <;> simp

@[simp] theorem cacheNum_groups (s : State) (core : Nat) (e : OriginEnt) : (s.cacheNum core e).groups = s.groups := rfl

@[simp] theorem starve_groups (s : State) (core launch : Nat) : (s.starve core launch).groups = s.groups := rfl

theorem thread?_closeRegion (s : State) (t u : ThreadId) : (s.closeRegion t).thread? u = s.thread? u := by
  unfold closeRegion
  apply thread?_modGroup_keep
  · intro x
    split
    · split
      · simp [Group.setRegion]; split <;> rfl
      · rfl
    · rfl
  · intro x
    split
    · split
      · simp [Group.setRegion]; split <;> rfl
      · rfl
    · rfl

theorem thread?_fatalStop_other (s : State) {t u : ThreadId} (ti : TrapInfo) (pc : W64) (code : Byte) (h : t ≠ u) :
    (s.fatalStop t ti pc code).thread? u = s.thread? u := by
  unfold fatalStop
  split
  · rw [thread?_of_groups (switchPoint_groups _ _ _), thread?_of_groups (modLaunch_groups _ _ _),
      thread?_modThread_other s _ h]
  · rfl

/-- A trap touches no other thread (R197). -/
theorem thread?_takeTrap_other (s : State) {t u : ThreadId} (ti : TrapInfo) (pc : W64) (ready : Nat) (h : t ≠ u) :
    (s.takeTrap t ti pc ready).thread? u = s.thread? u := by
  unfold takeTrap
  split
  · split
    · rfl
    · split
      · exact thread?_modThread_other s _ h
      · split
        · exact thread?_fatalStop_other s _ _ _ h
        · split
          · exact thread?_fatalStop_other s _ _ _ h
          · rw [thread?_of_groups (switchPoint_groups _ _ _), thread?_closeRegion, thread?_modThread_other s _ h]
  · rfl

theorem thread?_trapLane_other (s : State) (c : IssueCtx) {l : LaneRef} {u : ThreadId} (cause : Byte) (i j : W32)
    (tags : Tag × Tag × Tag) (d : W32) (h : l.helper = true ∨ l.tid ≠ u) :
    (s.trapLane c l cause i j tags d).thread? u = s.thread? u := by
  unfold trapLane
  split
  · rfl
  · exact thread?_takeTrap_other s _ _ _ (by simp_all)

@[simp] theorem queueOrigin_groups (s : State) (core launch off : Nat) (op : GOp) :
    (s.queueOrigin core launch off op).groups = s.groups := by
  unfold queueOrigin
  split <;> rfl

@[simp] theorem born_groups (s : State) (core launch g logical first : Nat) (st : Tag) :
    (s.born core launch g logical first st).2.groups = s.groups := by
  unfold born
  dsimp only
  repeat' (first | rfl | (simp; done) | split)

@[simp] theorem bornHere_groups (s : State) (c : IssueCtx) (l : LaneRef) : (s.bornHere c l).2.groups = s.groups := by
  unfold bornHere
  split
  · rfl
  · simp

@[simp] theorem resolveTag_groups (s : State) (c : IssueCtx) (l : LaneRef) (m : BitVec 2) (w : TagWant) :
    (s.resolveTag c l m w).2.groups = s.groups := by
  unfold resolveTag
  split
  · rfl
  · simp
  · split <;> simp

/-- A tag that is not born is the one the rules give. -/
theorem resolveTag_settled (s : State) (c : IssueCtx) (l : LaneRef) (m : BitVec 2) (w : TagWant) (g : Tag)
    (h : w.settled m = some g) : (s.resolveTag c l m w).1 = g := by
  unfold resolveTag
  cases w with
  | fixed t => simpa [TagWant.settled] using h
  | born => simp [TagWant.settled] at h
  | rule srcs doms raised =>
    simp only [TagWant.settled] at h
    simp [h]

@[simp] theorem resolveWrites_groups (s : State) (c : IssueCtx) (l : LaneRef) (ws : List (List (Reg × W32) × TagWant)) :
    (s.resolveWrites c l ws).2.groups = s.groups := by
  induction ws generalizing s with
  | nil => rfl
  | cons w ws ih =>
    obtain ⟨rs, want⟩ := w
    simp only [resolveWrites]
    rw [ih]
    split <;> simp

end Sys2Proof.Machine.State
namespace Sys2Proof.Machine

/-- The results of a lane, one by one. -/
def flatResults (ws : List (List (Reg × W32) × TagWant)) : List Result :=
  ws.flatMap fun w => w.1.map fun p => (p.1, p.2, w.2)

theorem tagged_map_const (rs : List (Reg × W32)) (w : TagWant) (t : Tag) :
    tagged (rs.map fun p => ((p.1, p.2, w) : Result)) (rs.map fun _ => t) = rs.map fun p => (p.1, ⟨p.2, t⟩) := by
  induction rs with
  | nil => rfl
  | cons p rs ih =>
    simp only [tagged, List.map_cons, List.zip_cons_cons] at ih ⊢
    rw [ih]

theorem tagsFor_map_const (m : BitVec 2) (rs : List (Reg × W32)) (w : TagWant) (t : Tag)
    (h : ∀ g, w.settled m = some g → t = g) :
    tagsFor m (rs.map fun p => ((p.1, p.2, w) : Result)) (rs.map fun _ => t) := by
  induction rs with
  | nil => exact List.Forall₂.nil
  | cons p rs ih => exact List.Forall₂.cons h ih

theorem tagged_append {a b : List Result} {x y : List Tag} (h : a.length = x.length) :
    tagged (a ++ b) (x ++ y) = tagged a x ++ tagged b y := by
  simp [tagged, List.zip_append h]

/-- The writes of a thread's results: their registers and values as computed, their tags as the rules give them. -/
theorem State.resolveWrites_tags (s : State) (c : IssueCtx) {l : LaneRef} {t : Thread}
    (ws : List (List (Reg × W32) × TagWant)) (h : l.helper = false) (ht : s.thread? l.tid = some t) :
    ∃ tags, tagsFor t.sys.tagmode (flatResults ws) tags ∧ (s.resolveWrites c l ws).1 = tagged (flatResults ws) tags := by
  induction ws generalizing s with
  | nil => exact ⟨[], List.Forall₂.nil, rfl⟩
  | cons w ws ih =>
    obtain ⟨rs, want⟩ := w
    have hm : s.tagModeOf l = t.sys.tagmode := by simp [tagModeOf, ht]
    simp only [resolveWrites, h, Bool.false_eq_true, if_false]
    obtain ⟨tags, h1, h2⟩ := ih (s.resolveTag c l (s.tagModeOf l) want).2
      (by rw [thread?_of_groups (resolveTag_groups _ _ _ _ _), ht])
    refine ⟨(rs.map fun _ => (s.resolveTag c l (s.tagModeOf l) want).1) ++ tags, ?_, ?_⟩
    · refine List.rel_append (tagsFor_map_const _ rs want _ fun g hg => ?_) h1
      rw [hm]
      exact resolveTag_settled s c l _ want g hg
    · rw [h2]
      have hf : flatResults ((rs, want) :: ws) = (rs.map fun p => (p.1, p.2, want)) ++ flatResults ws := by
        simp [flatResults]
      rw [hf, tagged_append (by simp), tagged_map_const]

namespace State

theorem thread?_armFlag_other (s : State) (c : IssueCtx) {l : LaneRef} {u : ThreadId} (f : Flag) (lo hi : Nat)
    (ds : List Reg) (vs : Option (List TW)) (acq : Bool) (o : Option Nat) (h : l.helper = true ∨ l.tid ≠ u) :
    (s.armFlag c l f lo hi ds vs acq o).thread? u = s.thread? u := by
  unfold armFlag
  split
  · split
    · exact thread?_inFlight_other s c _ _ _ h
    · rfl
  · exact thread?_modThread_other s _ (by simp_all)

theorem thread?_armFlag_same (s : State) (c : IssueCtx) {l : LaneRef} {t : Thread} (f : Flag) (lo hi : Nat)
    (ds : List Reg) (vs : Option (List TW)) (acq : Bool) (o : Option Nat) (h : l.helper = false)
    (ht : s.thread? l.tid = some t) :
    (s.armFlag c l f lo hi ds vs acq o).thread? l.tid = some { t with
      flags := (match f with
        | some n => t.flags ||| (1#12 <<< n.val)
        | none => t.flags),
      flagged := t.flagged ++ [⟨s.nextUid, f, c.seq, c.cycle + lo, c.cycle + hi, ds, vs, acq, o⟩] } := by
  have e : (s.armFlag c l f lo hi ds vs acq o).groups = (s.modThread l.tid fun t => { t with
      flags := (match f with
        | some n => t.flags ||| (1#12 <<< n.val)
        | none => t.flags),
      flagged := t.flagged ++ [⟨s.nextUid, f, c.seq, c.cycle + lo, c.cycle + hi, ds, vs, acq, o⟩] }).groups := by
    simp only [armFlag, h, Bool.false_eq_true, if_false]
    all_goals (cases f <;> rfl)
  rw [thread?_of_groups e, thread?_modThread_same, ht]
  rfl

/-- Delivering a lane's result touches no thread but that lane's. -/
theorem thread?_deliver_other (s : State) (c : IssueCtx) {l : LaneRef} {u : ThreadId} (d : Deliver) (r : LaneRes)
    (h : l.helper = true ∨ l.tid ≠ u) : (s.deliver c l d r).thread? u = s.thread? u := by
  unfold deliver
  dsimp only
  have h0 : (if l.helper = true then s else s.modSys l.tid fun y => { y with fsr := y.fsr ||| r.raised }).thread? u =
      s.thread? u := by
    split
    · rfl
    · exact thread?_modSys_other s _ (by simp_all)
  split
  · rw [thread?_trapLane_other _ _ _ _ _ _ _ h]
    split
    · rfl
    · exact h0
  · have h1 := (thread?_of_groups (resolveWrites_groups (if l.helper = true then s else
        s.modSys l.tid fun y => { y with fsr := y.fsr ||| r.raised }) c l r.writes) u).trans h0
    cases d with
    | lat n =>
      simp only
      rw [thread?_inFlight_other _ _ _ _ _ h, thread?_predsInFlight_other _ _ _ _ h, h1]
    | flag f lo hi =>
      simp only
      rw [thread?_armFlag_other _ _ _ _ _ _ _ _ _ h, h1]

/-- What a thread receives from a word of fixed latency when it takes no trap. -/
theorem thread?_deliver_own (s : State) {c : IssueCtx} {l : LaneRef} {t : Thread} (n : Nat) (r : LaneRes)
    (h : l.helper = false) (ht : s.thread? l.tid = some t) (hr : s.resTrap l r = none) :
    ∃ tags, tagsFor t.sys.tagmode (flatResults r.writes) tags ∧
      (s.deliver c l (.lat n) r).thread? l.tid = some { t with
        rf := { t.rf with
          pend := t.rf.pend ++ predLandings (c.cycle + n) c.seq r.preds ++
            landings (c.cycle + n) c.seq (keepsLast c) (tagged (flatResults r.writes) tags) },
        sys := { t.sys with fsr := t.sys.fsr ||| r.raised } } := by
  unfold deliver
  simp only [hr, h, Bool.false_eq_true, if_false]
  generalize e0 : (s.modSys l.tid fun y => { y with fsr := y.fsr ||| r.raised }) = s0
  have h0 : s0.thread? l.tid = some { t with sys := { t.sys with fsr := t.sys.fsr ||| r.raised } } := by
    rw [← e0, thread?_modSys_same, ht]
    rfl
  obtain ⟨tags, h1, h2⟩ := s0.resolveWrites_tags c r.writes h h0
  refine ⟨tags, h1, ?_⟩
  have h3 := (thread?_of_groups (resolveWrites_groups s0 c l r.writes) l.tid).trans h0
  rw [thread?_inFlight_own _ n true _ h (thread?_predsInFlight_same _ c n r.preds h h3), h2]
  rfl

theorem thread?_deliver_lat (s : State) {c : IssueCtx} {l : LaneRef} {t : Thread} (n : Nat) (r : LaneRes)
    (hc : c.half = .full) (h : l.helper = false) (ht : s.thread? l.tid = some t) (hr : s.resTrap l r = none) :
    ∃ tags, tagsFor t.sys.tagmode (flatResults r.writes) tags ∧
      (s.deliver c l (.lat n) r).thread? l.tid = some (t.given c n (tagged (flatResults r.writes) tags) r.preds r.raised) := by
  obtain ⟨tags, h1, h2⟩ := thread?_deliver_own s (c := c) n r h ht hr
  rw [keepsLast_full hc] at h2
  exact ⟨tags, h1, h2⟩

theorem thread?_deliver_flag (s : State) {c : IssueCtx} {l : LaneRef} {t : Thread} (f : Flag) (lo hi : Nat) (r : LaneRes)
    (h : l.helper = false) (ht : s.thread? l.tid = some t) (hr : s.resTrap l r = none) :
    ∃ tags id, tagsFor t.sys.tagmode (flatResults r.writes) tags ∧
      (s.deliver c l (.flag f lo hi) r).thread? l.tid =
        some (t.flaggedGiven c f lo hi id (tagged (flatResults r.writes) tags) r.raised) := by
  unfold deliver
  simp only [hr, h, Bool.false_eq_true, if_false]
  generalize e0 : (s.modSys l.tid fun y => { y with fsr := y.fsr ||| r.raised }) = s0
  have h0 : s0.thread? l.tid = some { t with sys := { t.sys with fsr := t.sys.fsr ||| r.raised } } := by
    rw [← e0, thread?_modSys_same, ht]
    rfl
  obtain ⟨tags, h1, h2⟩ := s0.resolveWrites_tags c r.writes h h0
  have h3 := (thread?_of_groups (resolveWrites_groups s0 c l r.writes) l.tid).trans h0
  refine ⟨tags, (s0.resolveWrites c l r.writes).2.nextUid, h1, ?_⟩
  rw [thread?_armFlag_same _ c f lo hi _ _ _ _ h h3, h2]
  rfl

end State

/-! The lanes of a word. -/

theorem tid_ne_of_ne {l m : LaneRef} (h : l ≠ m) (hl : l.helper = false) : m.helper = true ∨ m.tid ≠ l.tid := by
  by_cases hm : m.helper = true
  · exact Or.inl hm
  · right
    intro e
    apply h
    obtain ⟨g, n, b⟩ := l
    obtain ⟨g', n', b'⟩ := m
    simp [LaneRef.tid] at e
    simp_all

/-- Steps of other lanes change nothing of a thread. -/
theorem State.thread?_foldl_other (F : State → LaneRef → State) {l : LaneRef}
    (hF : ∀ s m, (m.helper = true ∨ m.tid ≠ l.tid) → (F s m).thread? l.tid = s.thread? l.tid)
    (hl : l.helper = false) (ms : List LaneRef) (h : l ∉ ms) (s : State) :
    (ms.foldl F s).thread? l.tid = s.thread? l.tid := by
  induction ms generalizing s with
  | nil => rfl
  | cons m ms ih =>
    simp only [List.mem_cons, not_or] at h
    rw [List.foldl_cons, ih h.2, hF s m (tid_ne_of_ne h.1 hl)]

/-- One lane's step among those of a word: the other lanes' steps come before and after it, and leave its thread alone. -/
theorem State.foldl_lane (F : State → LaneRef → State) {l : LaneRef} {s : State} {t : Thread}
    (hF : ∀ s m, (m.helper = true ∨ m.tid ≠ l.tid) → (F s m).thread? l.tid = s.thread? l.tid)
    (hl : l.helper = false) {ms : List LaneRef} (hm : l ∈ ms) (hn : ms.Nodup) (ht : s.thread? l.tid = some t) :
    ∃ s0, s0.thread? l.tid = some t ∧ (ms.foldl F s).thread? l.tid = (F s0 l).thread? l.tid := by
  obtain ⟨a, b, rfl⟩ := List.append_of_mem hm
  rw [List.nodup_append] at hn
  have hb : l ∉ b := (List.nodup_cons.mp hn.2.1).1
  have ha : l ∉ a := fun h => hn.2.2 l h l (by simp) rfl
  refine ⟨a.foldl F s, ?_, ?_⟩
  · rw [State.thread?_foldl_other F hF hl a ha, ht]
  · rw [List.foldl_append, List.foldl_cons, State.thread?_foldl_other F hF hl b hb]

/-- Words of fixed latency complete (R105): the thread has the results of its lane in flight. -/
theorem execLanes_gives {i : Instr} {s : State} {c : IssueCtx} {l : LaneRef} {t : Thread} {n : Nat}
    {f : IssueCtx → LaneRef → LaneRes} (hi : exec i s = execLanes s (.lat n) f) (hr : (f c l).trap = none) :
    Gives i s c l t n (flatResults (f c l).writes) (f c l).preds (f c l).raised := by
  intro h he
  have h1 : execLanes s (.lat n) f = .next (c.lanes.foldl (fun s' l => s'.deliver c l (.lat n) (f c l)) s) := by
    simp [execLanes, h.issuing]
  obtain ⟨s0, h2, h3⟩ := State.foldl_lane (fun s' l => s'.deliver c l (.lat n) (f c l)) (s := s)
    (fun s m hm => State.thread?_deliver_other s c _ _ hm) h.own h.lane h.once h.thread
  have hr0 : s0.resTrap l (f c l) = none := by simp [State.resTrap, h.own, hr, h2, he]
  obtain ⟨tags, h4, h5⟩ := State.thread?_deliver_lat s0 n (f c l) h.full h.own h2 hr0
  exact ⟨_, tags, hi.trans h1, h4, h3.trans h5⟩

/-- Words with a result under a flag complete (R102). -/
theorem execLanes_givesFlagged {i : Instr} {s : State} {c : IssueCtx} {l : LaneRef} {t : Thread} {g : Flag} {lo hi : Nat}
    {f : IssueCtx → LaneRef → LaneRes} (he : exec i s = execLanes s (.flag g lo hi) f) (hr : (f c l).trap = none) :
    GivesFlagged i s c l t g lo hi (flatResults (f c l).writes) (f c l).raised := by
  intro h hen
  have h1 : execLanes s (.flag g lo hi) f = .next (c.lanes.foldl (fun s' l => s'.deliver c l (.flag g lo hi) (f c l)) s) := by
    simp [execLanes, h.issuing]
  obtain ⟨s0, h2, h3⟩ := State.foldl_lane (fun s' l => s'.deliver c l (.flag g lo hi) (f c l)) (s := s)
    (fun s m hm => State.thread?_deliver_other s c _ _ hm) h.own h.lane h.once h.thread
  have hr0 : s0.resTrap l (f c l) = none := by simp [State.resTrap, h.own, hr, h2, hen]
  obtain ⟨tags, id, h4, h5⟩ := State.thread?_deliver_flag s0 g lo hi (f c l) h.own h2 hr0
  exact ⟨_, tags, id, he.trans h1, h4, h3.trans h5⟩

/-- A word of fixed latency completes with the results its lane's operation computes. -/
theorem gives_of {i : Instr} {s : State} {c : IssueCtx} {l : LaneRef} {t : Thread} {n : Nat}
    {f : IssueCtx → LaneRef → LaneRes} {rs : List Result} {ks : List (BitVec 3 × Bool)} {e : Exc}
    (hi : exec i s = execLanes s (.lat n) f) (hr : (f c l).trap = none) (hw : flatResults (f c l).writes = rs)
    (hp : (f c l).preds = ks) (he : (f c l).raised = e) : Gives i s c l t n rs ks e := by
  subst hw hp he
  exact execLanes_gives hi hr

theorem givesFlagged_of {i : Instr} {s : State} {c : IssueCtx} {l : LaneRef} {t : Thread} {g : Flag} {lo hi : Nat}
    {f : IssueCtx → LaneRef → LaneRes} {rs : List Result} {e : Exc}
    (hx : exec i s = execLanes s (.flag g lo hi) f) (hr : (f c l).trap = none) (hw : flatResults (f c l).writes = rs)
    (he : (f c l).raised = e) : GivesFlagged i s c l t g lo hi rs e := by
  subst hw he
  exact execLanes_givesFlagged hx hr

end Sys2Proof.Machine
end

