-- ==== Sys2Proof/Laws/Store.lean ====
section
/-!
SUPPORT. Laws of keyed lists and of byte memory: a read after a write, and the canonical form.
-/
namespace Sys2Proof

variable {α : Type}

theorem AL.find?_insert_same (l : AL α) (k : Nat) (v : α) : AL.find? (AL.insert l k v) k = some v := by
  induction l with
  | nil => simp [AL.insert, AL.find?]
  | cons x t ih =>
    obtain ⟨j, w⟩ := x
    by_cases h1 : k < j
    · simp [AL.insert, h1, AL.find?]
    · by_cases h2 : k = j
      · simp [AL.insert, h2, AL.find?]
      · have h3 : ¬ j = k := fun h => h2 h.symm
        simp [AL.insert, h1, h2, h3, AL.find?, ih]

theorem AL.find?_insert_other (l : AL α) {k a : Nat} (v : α) (h : a ≠ k) : AL.find? (AL.insert l k v) a = AL.find? l a := by
  have h' : ¬ k = a := fun e => h e.symm
  induction l with
  | nil => simp [AL.insert, AL.find?, h']
  | cons x t ih =>
    obtain ⟨j, w⟩ := x
    by_cases h1 : k < j
    · simp [AL.insert, h1, AL.find?, h']
    · by_cases h2 : k = j
      · subst h2
        simp [AL.insert, AL.find?, h']
      · simp [AL.insert, h1, h2, AL.find?, ih]

/-- An erased key is gone. -/
theorem AL.find?_erase_same (l : AL α) (k : Nat) : AL.find? (AL.erase l k) k = none := by
  induction l with
  | nil => rfl
  | cons x t ih =>
    obtain ⟨j, w⟩ := x
    by_cases h2 : k = j
    · simp [AL.erase, h2] at ih ⊢
      exact ih
    · have h3 : ¬ j = k := fun e => h2 e.symm
      simp [AL.erase, h2, AL.find?, h3, ih]

theorem AL.find?_erase_other (l : AL α) {k a : Nat} (h : a ≠ k) : AL.find? (AL.erase l k) a = AL.find? l a := by
  have h' : ¬ k = a := fun e => h e.symm
  induction l with
  | nil => rfl
  | cons x t ih =>
    obtain ⟨j, w⟩ := x
    by_cases h2 : k = j
    · subst h2
      simp [AL.erase, AL.find?, h', ih]
    · simp [AL.erase, h2, AL.find?, ih]

theorem AL.wfFrom_mono [DecidableEq α] (d : α) (l : AL α) {lo lo' : Nat} (h : AL.wfFrom d lo l = true) (hl : lo' ≤ lo) :
    AL.wfFrom d lo' l = true := by
  cases l with
  | nil => rfl
  | cons x t =>
    obtain ⟨j, w⟩ := x
    simp [AL.wfFrom] at h ⊢
    exact ⟨⟨by omega, h.1.2⟩, h.2⟩

theorem AL.wfFrom_insert [DecidableEq α] (d : α) (l : AL α) {lo k : Nat} (v : α) (h : AL.wfFrom d lo l = true) (hk : lo ≤ k)
    (hv : v ≠ d) : AL.wfFrom d lo (AL.insert l k v) = true := by
  induction l generalizing lo with
  | nil => simp [AL.insert, AL.wfFrom, hk, hv]
  | cons x t ih =>
    obtain ⟨j, w⟩ := x
    have hw := h
    simp [AL.wfFrom] at hw
    by_cases h1 : k < j
    · have h3 : k + 1 ≤ j := by omega
      simp [AL.insert, h1, AL.wfFrom, hk, hv, hw.1.2, hw.2, h3]
    · by_cases h2 : k = j
      · subst h2
        simp [AL.insert, AL.wfFrom, hk, hv, hw.2]
      · have h3 : j + 1 ≤ k := by omega
        simp [AL.insert, h1, h2, AL.wfFrom, hw.1.1, hw.1.2, ih hw.2 h3]

theorem AL.wfFrom_erase [DecidableEq α] (d : α) (l : AL α) {lo : Nat} (k : Nat) (h : AL.wfFrom d lo l = true) :
    AL.wfFrom d lo (AL.erase l k) = true := by
  induction l generalizing lo with
  | nil => rfl
  | cons x t ih =>
    obtain ⟨j, w⟩ := x
    have hw := h
    simp [AL.wfFrom] at hw
    by_cases h2 : k = j
    · simp only [AL.erase, h2, if_true]
      exact AL.wfFrom_mono d _ (h2 ▸ ih hw.2) (by omega)
    · simp [AL.erase, h2, AL.wfFrom, hw.1.1, hw.1.2, ih hw.2]

/-- Setting a key keeps the canonical form. -/
theorem AL.wf_set [DecidableEq α] (d : α) (l : AL α) (k : Nat) (v : α) (h : AL.wf d l = true) :
    AL.wf d (AL.set d l k v) = true := by
  unfold AL.set
  split
  · exact AL.wfFrom_erase d l k h
  · exact AL.wfFrom_insert d l v h (Nat.zero_le k) ‹_›

theorem AL.get_set_same [DecidableEq α] (d : α) (l : AL α) (k : Nat) (v : α) : AL.get d (AL.set d l k v) k = v := by
  unfold AL.set AL.get
  split
  · rw [AL.find?_erase_same l k]
    simp_all
  · rw [AL.find?_insert_same]
    rfl

theorem AL.get_set_other [DecidableEq α] (d : α) (l : AL α) {k a : Nat} (v : α) (h : a ≠ k) :
    AL.get d (AL.set d l k v) a = AL.get d l a := by
  unfold AL.set AL.get
  split
  · rw [AL.find?_erase_other l h]
  · rw [AL.find?_insert_other l v h]

@[simp] theorem AL.get_modify_same [DecidableEq α] (d : α) (l : AL α) (k : Nat) (f : α → α) :
    AL.get d (AL.modify d l k f) k = f (AL.get d l k) := AL.get_set_same d l k _

theorem AL.get_modify_other [DecidableEq α] (d : α) (l : AL α) {k a : Nat} (f : α → α) (h : a ≠ k) :
    AL.get d (AL.modify d l k f) a = AL.get d l a := AL.get_set_other d l _ h

namespace Machine

/-! Memory. -/

theorem Mem.wf_nil : Mem.wf [] = true := rfl

theorem Mem.wf_write (m : Mem) (a : Nat) (b : Byte) (h : m.wf = true) : (Mem.write m a b).wf = true :=
  AL.wf_set Mem.unlisted m a b h

theorem Mem.wf_writeBytes (m : Mem) (a : Nat) (bs : List Byte) (h : m.wf = true) : (Mem.writeBytes m a bs).wf = true := by
  induction bs generalizing m a with
  | nil => exact h
  | cons b bs ih => exact ih (Mem.write m a b) (a + 1) (Mem.wf_write m a b h)

theorem Mem.wf_writeNat (m : Mem) (a n v : Nat) (h : m.wf = true) : (Mem.writeNat m a n v).wf = true := by
  induction n generalizing m a v with
  | zero => exact h
  | succ n ih => exact ih _ _ _ (Mem.wf_write m a _ h)

theorem Mem.wf_write32 (m : Mem) (a : Nat) (v : W32) (h : m.wf = true) : (Mem.write32 m a v).wf = true :=
  Mem.wf_writeNat m a 4 v.toNat h

theorem Mem.wf_write64 (m : Mem) (a : Nat) (v : W64) (h : m.wf = true) : (Mem.write64 m a v).wf = true :=
  Mem.wf_writeNat m a 8 v.toNat h

/-- A byte reads as what was last written to it. -/
theorem Mem.read_write_same (m : Mem) (a : Nat) (b : Byte) : (Mem.write m a b).read a = b :=
  AL.get_set_same Mem.unlisted m a b

/-- A write leaves every other byte alone. -/
theorem Mem.read_write_other (m : Mem) {a x : Nat} (b : Byte) (hx : x ≠ a) : (Mem.write m a b).read x = m.read x :=
  AL.get_set_other Mem.unlisted m b hx

theorem Mem.read_writeBytes_outside (m : Mem) (a : Nat) (bs : List Byte) {x : Nat} (hx : x < a ∨ a + bs.length ≤ x) :
    (Mem.writeBytes m a bs).read x = m.read x := by
  induction bs generalizing m a with
  | nil => rfl
  | cons b bs ih =>
    simp only [List.length_cons] at hx
    have hne : x ≠ a := by omega
    rw [Mem.writeBytes, ih _ _ (by omega), Mem.read_write_other m b hne]

theorem Mem.read_writeBytes_inside (m : Mem) (a : Nat) (bs : List Byte) {i : Nat} (hi : i < bs.length) :
    (Mem.writeBytes m a bs).read (a + i) = bs[i] := by
  induction bs generalizing m a i with
  | nil => simp at hi
  | cons b bs ih =>
    rw [Mem.writeBytes]
    cases i with
    | zero =>
      rw [Mem.read_writeBytes_outside _ _ _ (by omega)]
      exact Mem.read_write_same m a b
    | succ i =>
      have e : a + (i + 1) = a + 1 + i := by omega
      rw [e, ih _ _ (by simpa using hi)]
      rfl

theorem Mem.read_writeNat_outside (m : Mem) (a n v : Nat) {x : Nat} (hx : x < a ∨ a + n ≤ x) :
    (Mem.writeNat m a n v).read x = m.read x := by
  induction n generalizing m a v with
  | zero => rfl
  | succ n ih =>
    have hne : x ≠ a := by omega
    rw [Mem.writeNat, ih _ _ _ (by omega), Mem.read_write_other m _ hne]

/-- Reading back the n bytes of a value gives the value. -/
theorem Mem.readNat_writeNat (m : Mem) (a n v : Nat) : (Mem.writeNat m a n v).readNat a n = v % 256 ^ n := by
  induction n generalizing m a v with
  | zero => simp [Mem.readNat, Nat.mod_one]
  | succ n ih =>
    rw [Mem.readNat, Mem.writeNat, Mem.read_writeNat_outside _ _ _ _ (by omega), Mem.read_write_same m a, ih]
    rw [Nat.pow_succ, Nat.mul_comm (256 ^ n) 256, Nat.mod_mul]
    simp

end Machine
end Sys2Proof
end

