-- ==== Sys2Proof/Laws/Memory.lean ====
section
/-!
SUPPORT. Global memory: every operation on it keeps its canonical form, and what a write at a physical address leaves alone.
-/
namespace Sys2Proof.Machine
namespace State

/-- What leaves memory alone keeps its form. -/
theorem memWf_of_mem {s s' : State} (h : s'.mem = s.mem) (hs : s.memWf) : s'.memWf := by
  unfold memWf at *
  rwa [h]

/-! Physical writes. -/

theorem physWrite_mem (s : State) (pa : Nat) (bs : List Byte) : (s.physWrite pa bs).mem = Mem.writeBytes s.mem pa bs := by
  unfold physWrite
  dsimp only
  split <;> split <;> rfl

theorem integrityFail_mem (s : State) (pa : Nat) : (s.integrityFail pa).mem = s.mem := rfl

theorem memWf_physWrite {s : State} (pa : Nat) (bs : List Byte) (h : s.memWf) : (s.physWrite pa bs).memWf := by
  unfold memWf at *
  rw [physWrite_mem]
  exact Mem.wf_writeBytes _ _ _ h

/-- A physical write either writes its bytes or, at a full CXL counter, writes none (R352). -/
theorem physPut_mem (s : State) (pa : Nat) (bs : List Byte) :
    (s.physPut pa bs).mem = if s.cxlFull pa then s.mem else Mem.writeBytes s.mem pa bs := by
  unfold physPut
  split
  · rfl
  · exact physWrite_mem s pa bs

theorem memWf_physPut {s : State} (pa : Nat) (bs : List Byte) (h : s.memWf) : (s.physPut pa bs).memWf := by
  unfold physPut
  split
  · exact h
  · exact memWf_physWrite pa bs h

/-- A physical write leaves every byte outside it alone. -/
theorem physPut_outside (s : State) (pa : Nat) (bs : List Byte) {a : Nat} (h : a < pa ∨ pa + bs.length ≤ a) :
    Mem.read (s.physPut pa bs).mem a = Mem.read s.mem a := by
  rw [physPut_mem]
  split
  · rfl
  · exact Mem.read_writeBytes_outside _ _ _ h

/-- A write of one line and its tags writes both or, at a full CXL counter, neither (R352). -/
theorem memWf_gBytes {s : State} (pa tier : Nat) (tagged : Bool) (bs : List Byte) (ts : List Tag) (h : s.memWf) :
    (s.gBytes pa tier tagged bs ts).memWf := by
  unfold gBytes
  dsimp only
  repeat' split
  · exact h
  · exact h
  · exact memWf_physWrite _ _ (memWf_physWrite _ _ h)
  · exact memWf_physWrite _ _ h

/-- What each step of a fold keeps, the fold keeps. -/
theorem memWf_foldl {β : Type} {F : State → β → State} (hF : ∀ s x, s.memWf → (F s x).memWf) (xs : List β) {s : State}
    (h : s.memWf) : (xs.foldl F s).memWf := by
  induction xs generalizing s with
  | nil => exact h
  | cons x xs ih => exact ih (hF s x h)

theorem memWf_gFill {s : State} (pa tier : Nat) (tagged : Bool) (bs : List Byte) (t : Tag) (h : s.memWf) :
    (s.gFill pa tier tagged bs t).memWf :=
  memWf_foldl (fun _ _ h => memWf_gBytes _ _ _ _ _ h) _ h

theorem memWf_gLine {s : State} (pa tier : Nat) (tagged : Bool) (ws : List TW) (h : s.memWf) :
    (s.gLine pa tier tagged ws).memWf :=
  memWf_gBytes _ _ _ _ _ h

theorem memWf_gPut {s : State} (pa tier : Nat) (tagged : Bool) (w : TW) (h : s.memWf) : (s.gPut pa tier tagged w).memWf :=
  memWf_gLine _ _ _ _ h

theorem memWf_gPuts {s : State} (pa tier : Nat) (tagged : Bool) (ws : List TW) (h : s.memWf) :
    (s.gPuts pa tier tagged ws).memWf :=
  memWf_foldl (fun _ _ h => memWf_gLine _ _ _ _ h) _ h

theorem memWf_gMerge {s : State} (pa tier : Nat) (tagged : Bool) (n : Nat) (w : TW) (h : s.memWf) :
    (s.gMerge pa tier tagged n w).memWf :=
  memWf_gBytes _ _ _ _ _ h

/-! Translation: a walk may set the A and D bits of an entry (R337), meets the errors of the lines it reads (R353), and keeps
translations. -/

theorem meetError_mem (s : State) (e : Nat × LineErr) : (s.meetError e).mem = s.mem := by
  unfold meetError
  dsimp only
  split
  · unfold countCorrected
    dsimp only [modPfMem]
    split <;> rfl
  · rfl
  · rfl

theorem meetErrors_mem (s : State) (pa n : Nat) : (s.meetErrors pa n).mem = s.mem := by
  unfold meetErrors
  generalize s.latent.filter _ = es
  induction es generalizing s with
  | nil => rfl
  | cons e es ih => rw [List.foldl_cons, ih, meetError_mem]

theorem walkErrors_mem (s : State) (fn : Nat) (va : W64) (level table : Nat) : (s.walkErrors fn va level table).mem = s.mem := by
  induction level generalizing s table with
  | zero =>
    unfold walkErrors
    split
    · exact meetErrors_mem _ _ _
    · rfl
  | succ n ih =>
    unfold walkErrors
    dsimp only
    split
    · split
      · rw [ih, meetErrors_mem]
      · exact meetErrors_mem _ _ _
    · rfl

theorem keepTlb_mem (s : State) (e : TlbEntry) : (s.keepTlb e).mem = s.mem := rfl

theorem memWf_keepTlb {s : State} (e : TlbEntry) (h : s.memWf) : (s.keepTlb e).memWf := h

theorem memWf_recordUse {s : State} (e : TlbEntry) (writes : Bool) (h : s.memWf) : (s.recordUse e writes).2.1.memWf := by
  unfold recordUse
  dsimp only
  generalize ((0x800 : W64) ||| if writes then 0x1000 else 0) = use
  have hm : (s.meetErrors (e.pteAddr % 2 ^ 52) 8).memWf := memWf_of_mem (meetErrors_mem _ _ _) h
  repeat' split
  · exact h
  · exact h
  · exact hm
  · exact memWf_physPut _ _ hm

theorem memWf_useLeaf {s : State} (e : TlbEntry) (kind : AccKind) (va : W64) (h : s.memWf) :
    (s.useLeaf e kind va).2.1.memWf := by
  unfold useLeaf
  dsimp only
  have hr := memWf_recordUse e kind.writes h
  repeat' split
  · exact h
  · exact h
  all_goals simp_all only

theorem memWf_translate {s : State} (loc fn : Nat) (va : W64) (kind : AccKind) (h : s.memWf) :
    (s.translate loc fn va kind).2.memWf := by
  unfold translate
  split
  · exact h
  · dsimp only
    split
    · have hu := memWf_useLeaf ‹TlbEntry› kind va h
      split <;> split
      · exact hu
      · exact hu
      · exact memWf_keepTlb _ hu
      · exact memWf_keepTlb _ hu
    · split
      · exact h
      · have he : (s.walkErrors fn va 3 (bits (s.fnMemOf fn).root 51 12 * 4096)).memWf :=
          memWf_of_mem (walkErrors_mem _ _ _ _ _) h
        split
        · exact he
        · exact he
        · split
          · exact memWf_foldl (fun _ _ h => memWf_keepTlb _ h) _ (memWf_useLeaf _ _ _ he)
          · exact memWf_useLeaf _ _ _ he

theorem physCheck_mem (s : State) (fn pa tier n : Nat) (tagged whole : Bool) :
    (s.physCheck fn pa tier n tagged whole).2.mem = s.mem := by
  unfold physCheck
  dsimp only
  split
  · rfl
  · split <;> split <;> split <;> simp only [meetErrors_mem]

theorem countSent_mem (s : State) (tier : Nat) : (s.countSent tier).mem = s.mem := by
  unfold countSent
  split
  · split <;> rfl
  · rfl

theorem memWf_accessPage {s : State} (loc fn : Nat) (va : W64) (n : Nat) (kind : AccKind) (h : s.memWf) :
    (s.accessPage loc fn va n kind).2.memWf := by
  have ht := memWf_translate loc fn va kind h
  unfold accessPage
  split
  · rename_i pa tier k tagged s1 hq
    rw [hq] at ht
    have hp := memWf_of_mem (physCheck_mem s1 fn pa tier n tagged
      (decide (kind = .write) && decide (pa % 64 = 0) && decide (n % 64 = 0))) ht
    split
    · rename_i hq2
      rw [hq2] at hp
      exact memWf_of_mem (countSent_mem _ _) hp
    · rename_i hq2
      rw [hq2] at hp
      exact hp
  · exact ht

/-! Service accesses. -/

theorem memWf_svcRead {s : State} (fn : Nat) (va : W64) (n : Nat) (h : s.memWf) : (s.svcRead fn va n).2.memWf := by
  induction n generalizing s va with
  | zero => exact h
  | succ n ih =>
    have ha := memWf_accessPage 8 fn va 4 .read h
    unfold svcRead
    split
    · rename_i hq
      rw [hq] at ha
      have hr := ih (va + 4) ha
      split
      · rename_i hq2
        rw [hq2] at hr
        exact hr
      · rename_i hq2
        rw [hq2] at hr
        exact hr
    · rename_i hq
      rw [hq] at ha
      exact ha

theorem memWf_svcWrite {s : State} (fn : Nat) (va : W64) (tag : Tag) (ws : List W32) (h : s.memWf) :
    (s.svcWrite fn va tag ws).2.memWf := by
  induction ws generalizing s va with
  | nil => exact h
  | cons w ws ih =>
    have ha := memWf_accessPage 8 fn va 4 .write h
    unfold svcWrite
    split
    · rename_i hq
      rw [hq] at ha
      exact ih _ (memWf_gPut _ _ _ _ ha)
    · rename_i hq
      rw [hq] at ha
      exact ha

theorem announce_mem (s : State) (b : Bool) (fn : Nat) (k : MsgKind) : (s.announce b fn k).mem = s.mem := by
  cases b <;> rfl

theorem memWf_writeFaults {s : State} (fn fuel : Nat) (h : s.memWf) : (s.writeFaults fn fuel).memWf := by
  induction fuel generalizing s with
  | zero => exact h
  | succ n ih =>
    unfold writeFaults
    dsimp only
    split
    · exact h
    · split
      · exact h
      · exact ih (memWf_of_mem (announce_mem _ _ _ _) (memWf_svcWrite _ _ _ _ h))

theorem memWf_raiseFault {s : State} (fn : Nat) (w : Waiter) (va : W64) (access reason unit cx cy : Nat) (h : s.memWf) :
    (s.raiseFault fn w va access reason unit cx cy).2.memWf := by
  unfold raiseFault
  dsimp only
  split
  · exact h
  · split
    · exact h
    · exact memWf_writeFaults _ _ h

theorem memWf_logAppend {s : State} (fn : Nat) (ws : List W32) (h : s.memWf) : (s.logAppend fn ws).memWf := by
  unfold logAppend
  dsimp only
  split
  · exact memWf_of_mem (announce_mem _ _ _ _) h
  · exact memWf_svcWrite _ _ _ _ h

theorem memWf_drec {s : State} (d : Drec) (h : s.memWf) : (s.drec d).memWf := by
  unfold drec
  dsimp only
  split
  · exact memWf_logAppend _ _ h
  · exact memWf_logAppend _ _ (memWf_logAppend _ _ h)

theorem memWf_faultDrec {s : State} (l r u : Nat) (d : W32) (h : s.memWf) : (s.faultDrec l r u d).memWf := by
  unfold faultDrec
  split
  · exact h
  · exact memWf_drec _ h

end State

/-! Scratchpads. -/

theorem Flock.setWord_wf {f : Flock} (a : Nat) (w : TW) (h : Mem.wf f.mem = true) : Mem.wf (f.setWord a w).mem = true :=
  Mem.wf_write32 _ _ _ h

theorem Flock.mergeSub_wf {f : Flock} (a n : Nat) (w : TW) (h : Mem.wf f.mem = true) : Mem.wf (f.mergeSub a n w).mem = true :=
  Mem.wf_writeNat _ _ _ _ h

theorem Flock.setWords_wf {f : Flock} (a : Nat) (ws : List TW) (h : Mem.wf f.mem = true) : Mem.wf (f.setWords a ws).mem = true := by
  induction ws generalizing f a with
  | nil => exact h
  | cons w ws ih => exact ih _ (Flock.setWord_wf a w h)

end Sys2Proof.Machine
end

