-- ==== Sys2Proof/Laws/PerInstr.lean ====
section
/-!
SUPPORT. The encoding read back, instruction by instruction: the family RoundTrip.
-/
namespace Sys2Proof.Laws

/-- A well-formed word's fields are read back, and so is a half's 24 bits. -/
structure RoundTrip.Statement (i : Instr) : Prop where
  word : ∀ (alloc : Nat) (f : Fields), i.reasons alloc = [] → i.fields = some f → FieldsRead i f
  half : ∀ (alloc : Nat) (h : BitVec 24), i.reasons alloc = [] → i.halfBits = some h → parseHalf alloc h = ([], i)

theorem parseHalf_nop (alloc : Nat) : parseHalf alloc 0 = ([], .nopHalf) := rfl

theorem RoundTrip.nop : RoundTrip.Statement (.nop) := by
  refine ⟨?_, nofun⟩
  intro alloc f hw hf
  cases hf
  clear hw
  exact read_of (n := .nop) rfl rfl rfl rfl rfl rfl rfl rfl
    rfl
theorem RoundTrip.bra (off : BitVec 24) : RoundTrip.Statement (.bra off) := by
  refine ⟨?_, nofun⟩
  intro alloc f hw hf
  cases hf
  clear hw
  exact read_of (n := .bra ((off.extractLsb' 16 8) ++ (off.extractLsb' 8 8) ++ (off.extractLsb' 0 8))) rfl rfl rfl rfl rfl rfl rfl rfl
    (by simp only [imm24_bytes])
theorem RoundTrip.call (off : BitVec 24) : RoundTrip.Statement (.call off) := by
  refine ⟨?_, nofun⟩
  intro alloc f hw hf
  cases hf
  clear hw
  exact read_of (n := .call ((off.extractLsb' 16 8) ++ (off.extractLsb' 8 8) ++ (off.extractLsb' 0 8))) rfl rfl rfl rfl rfl rfl rfl rfl
    (by simp only [imm24_bytes])
theorem RoundTrip.ret : RoundTrip.Statement (.ret) := by
  refine ⟨?_, nofun⟩
  intro alloc f hw hf
  cases hf
  clear hw
  exact read_of (n := .ret) rfl rfl rfl rfl rfl rfl rfl rfl
    rfl
theorem RoundTrip.jmpi (a : Reg) : RoundTrip.Statement (.jmpi a) := by
  refine ⟨?_, nofun⟩
  intro alloc f hw hf
  cases hf
  clear hw
  exact read_of (n := .jmpi (Reg.ofCode a.code)) rfl rfl rfl rfl (FieldKind.reg_code _) rfl rfl rfl
    (by simp only [Reg.ofCode_code])
theorem RoundTrip.calli (a : Reg) : RoundTrip.Statement (.calli a) := by
  refine ⟨?_, nofun⟩
  intro alloc f hw hf
  cases hf
  clear hw
  exact read_of (n := .calli (Reg.ofCode a.code)) rfl rfl rfl rfl (FieldKind.reg_code _) rfl rfl rfl
    (by simp only [Reg.ofCode_code])
theorem RoundTrip.exit : RoundTrip.Statement (.exit) := by
  refine ⟨?_, nofun⟩
  intro alloc f hw hf
  cases hf
  clear hw
  exact read_of (n := .exit) rfl rfl rfl rfl rfl rfl rfl rfl
    rfl
theorem RoundTrip.barf (n : BitVec 4) : RoundTrip.Statement (.barf n) := by
  refine ⟨?_, nofun⟩
  intro alloc f hw hf
  cases hf
  clear hw
  exact read_of (n := .barf ((n.setWidth 8).extractLsb' 0 4)) rfl rfl rfl rfl (FieldKind.lim_16 _) rfl rfl rfl
    (by simp only [low_four])
theorem RoundTrip.barp (n : BitVec 4) : RoundTrip.Statement (.barp n) := by
  refine ⟨?_, nofun⟩
  intro alloc f hw hf
  cases hf
  clear hw
  exact read_of (n := .barp ((n.setWidth 8).extractLsb' 0 4)) rfl rfl rfl rfl (FieldKind.lim_16 _) rfl rfl rfl
    (by simp only [low_four])
theorem RoundTrip.arrive (d : Reg) (n : BitVec 4) (pad : Bool) : RoundTrip.Statement (.arrive d n pad) := by
  refine ⟨?_, nofun⟩
  intro alloc f hw hf
  cases hf
  clear hw
  cases pad <;>
    exact read_of (n := .arrive (Reg.ofCode d.code) ((n.setWidth 8).extractLsb' 0 4) _) rfl rfl rfl (FieldKind.reg_code _) (FieldKind.lim_16 _) rfl rfl rfl
    (by simp only [Reg.ofCode_code, low_four]; rfl)
theorem RoundTrip.bwait (a : Reg) (n : BitVec 4) (pad : Bool) : RoundTrip.Statement (.bwait a n pad) := by
  refine ⟨?_, nofun⟩
  intro alloc f hw hf
  cases hf
  clear hw
  cases pad <;>
    exact read_of (n := .bwait (Reg.ofCode a.code) ((n.setWidth 8).extractLsb' 0 4) _) rfl rfl rfl rfl (FieldKind.reg_code _) (FieldKind.lim_16 _) rfl rfl
    (by simp only [Reg.ofCode_code, low_four]; rfl)
theorem RoundTrip.barrierWake (g : Nat) : RoundTrip.Statement (.barrierWake g) := ⟨nofun, nofun⟩
theorem RoundTrip.yield : RoundTrip.Statement (.yield) := by
  refine ⟨?_, nofun⟩
  intro alloc f hw hf
  cases hf
  clear hw
  exact read_of (n := .yield) rfl rfl rfl rfl rfl rfl rfl rfl
    rfl
theorem RoundTrip.safept (off : BitVec 16) : RoundTrip.Statement (.safept off) := by
  refine ⟨?_, nofun⟩
  intro alloc f hw hf
  cases hf
  clear hw
  exact read_of (n := .safept ((off.extractLsb' 8 8) ++ (off.extractLsb' 0 8))) rfl rfl rfl rfl rfl rfl rfl rfl
    (by simp only [imm16_bytes])
theorem RoundTrip.trap (imm : BitVec 16) : RoundTrip.Statement (.trap imm) := by
  refine ⟨?_, nofun⟩
  intro alloc f hw hf
  cases hf
  clear hw
  exact read_of (n := .trap ((imm.extractLsb' 8 8) ++ (imm.extractLsb' 0 8))) rfl rfl rfl rfl rfl rfl rfl rfl
    (by simp only [imm16_bytes])
theorem RoundTrip.tret : RoundTrip.Statement (.tret) := by
  refine ⟨?_, nofun⟩
  intro alloc f hw hf
  cases hf
  clear hw
  exact read_of (n := .tret) rfl rfl rfl rfl rfl rfl rfl rfl
    rfl
theorem RoundTrip.tren : RoundTrip.Statement (.tren) := by
  refine ⟨?_, nofun⟩
  intro alloc f hw hf
  cases hf
  clear hw
  exact read_of (n := .tren) rfl rfl rfl rfl rfl rfl rfl rfl
    rfl
theorem RoundTrip.brk (n : BitVec 8) : RoundTrip.Statement (.brk n) := by
  refine ⟨?_, nofun⟩
  intro alloc f hw hf
  cases hf
  clear hw
  exact read_of (n := .brk n) rfl rfl rfl rfl rfl rfl rfl rfl
    rfl
theorem RoundTrip.isync : RoundTrip.Statement (.isync) := by
  refine ⟨?_, nofun⟩
  intro alloc f hw hf
  cases hf
  clear hw
  exact read_of (n := .isync) rfl rfl rfl rfl rfl rfl rfl rfl
    rfl
theorem RoundTrip.tmark (a : Reg) (imm : BitVec 16) : RoundTrip.Statement (.tmark a imm) := by
  refine ⟨?_, nofun⟩
  intro alloc f hw hf
  cases hf
  clear hw
  exact read_of (n := .tmark (Reg.ofCode a.code) ((imm.extractLsb' 8 8) ++ (imm.extractLsb' 0 8))) rfl rfl rfl rfl (FieldKind.reg_code _) rfl rfl rfl
    (by simp only [Reg.ofCode_code, imm16_bytes])
theorem RoundTrip.mfs (d : Reg) (num : BitVec 12) : RoundTrip.Statement (.mfs d num) := by
  refine ⟨?_, nofun⟩
  intro alloc f hw hf
  cases hf
  clear hw
  exact read_of (n := .mfs (Reg.ofCode d.code) ((((num.extractLsb' 8 4).setWidth 8) ++ (num.extractLsb' 0 8)).extractLsb' 0 12)) rfl rfl rfl (FieldKind.reg_code _) rfl (FieldKind.mask_four _) rfl rfl
    (by simp only [Reg.ofCode_code, imm12_bytes])
theorem RoundTrip.mts (num : BitVec 12) (a : Reg) : RoundTrip.Statement (.mts num a) := by
  refine ⟨?_, nofun⟩
  intro alloc f hw hf
  cases hf
  clear hw
  exact read_of (n := .mts ((((num.extractLsb' 8 4).setWidth 8) ++ (num.extractLsb' 0 8)).extractLsb' 0 12) (Reg.ofCode a.code)) rfl rfl rfl rfl (FieldKind.reg_code _) (FieldKind.mask_four _) rfl rfl
    (by simp only [Reg.ofCode_code, imm12_bytes])
theorem RoundTrip.fence (kind : FenceKind) (scope : Scope) (mask : BitVec 5) : RoundTrip.Statement (.fence kind scope mask) := by
  refine ⟨?_, nofun⟩
  intro alloc f hw hf
  cases hf
  clear hw
  cases kind <;> cases scope <;>
    exact read_of (n := .fence _ _ ((mask.setWidth 8).extractLsb' 0 5)) rfl rfl rfl rfl rfl (FieldKind.mask_31 _) rfl rfl
    (by simp only [low_five]; rfl)
theorem RoundTrip.waitc (cls : EngClass) (n : BitVec 6) : RoundTrip.Statement (.waitc cls n) := by
  refine ⟨?_, nofun⟩
  intro alloc f hw hf
  cases hf
  clear hw
  cases cls <;>
    exact read_of (n := .waitc _ ((n.setWidth 8).extractLsb' 0 6)) rfl rfl rfl rfl rfl (FieldKind.lim_64 _) rfl rfl
    (by simp only [low_six]; rfl)
theorem RoundTrip.waita (ne : Bool) (d : Reg) (a : Reg) (b : Reg) : RoundTrip.Statement (.waita ne d a b) := by
  refine ⟨?_, nofun⟩
  intro alloc f hw hf
  cases hf
  clear hw
  cases ne <;>
    exact read_of (n := .waita _ (Reg.ofCode d.code) (Reg.ofCode a.code) (Reg.ofCode b.code)) rfl rfl rfl (FieldKind.reg_code _) (FieldKind.reg_code _) (FieldKind.reg_code _) rfl rfl
    (by simp only [Reg.ofCode_code]; rfl)
theorem RoundTrip.qenter : RoundTrip.Statement (.qenter) := by
  refine ⟨?_, nofun⟩
  intro alloc f hw hf
  cases hf
  clear hw
  exact read_of (n := .qenter) rfl rfl rfl rfl rfl rfl rfl rfl
    rfl
theorem RoundTrip.qleave : RoundTrip.Statement (.qleave) := by
  refine ⟨?_, nofun⟩
  intro alloc f hw hf
  cases hf
  clear hw
  exact read_of (n := .qleave) rfl rfl rfl rfl rfl rfl rfl rfl
    rfl
theorem RoundTrip.forcedIssue (core : Nat) (port : Nat) : RoundTrip.Statement (.forcedIssue core port) := ⟨nofun, nofun⟩
theorem RoundTrip.flaggedResultLand (g : Nat) (lane : Nat) (id : Nat) : RoundTrip.Statement (.flaggedResultLand g lane id) := ⟨nofun, nofun⟩
theorem RoundTrip.iadd (d : Reg) (a : Reg) (b : Reg) (ov : Bool) : RoundTrip.Statement (.iadd d a b ov) := by
  refine ⟨?_, nofun⟩
  intro alloc f hw hf
  cases hf
  clear hw
  cases ov <;>
    exact read_of (n := .iadd (Reg.ofCode d.code) (Reg.ofCode a.code) (Reg.ofCode b.code) _) rfl rfl rfl (FieldKind.reg_code _) (FieldKind.reg_code _) (FieldKind.reg_code _) rfl rfl
    (by simp only [Reg.ofCode_code]; rfl)
theorem RoundTrip.isub (d : Reg) (a : Reg) (b : Reg) (ov : Bool) : RoundTrip.Statement (.isub d a b ov) := by
  refine ⟨?_, nofun⟩
  intro alloc f hw hf
  cases hf
  clear hw
  cases ov <;>
    exact read_of (n := .isub (Reg.ofCode d.code) (Reg.ofCode a.code) (Reg.ofCode b.code) _) rfl rfl rfl (FieldKind.reg_code _) (FieldKind.reg_code _) (FieldKind.reg_code _) rfl rfl
    (by simp only [Reg.ofCode_code]; rfl)
theorem RoundTrip.imul (d : Reg) (a : Reg) (b : Reg) (ov : Bool) : RoundTrip.Statement (.imul d a b ov) := by
  refine ⟨?_, nofun⟩
  intro alloc f hw hf
  cases hf
  clear hw
  cases ov <;>
    exact read_of (n := .imul (Reg.ofCode d.code) (Reg.ofCode a.code) (Reg.ofCode b.code) _) rfl rfl rfl (FieldKind.reg_code _) (FieldKind.reg_code _) (FieldKind.reg_code _) rfl rfl
    (by simp only [Reg.ofCode_code]; rfl)
theorem RoundTrip.imulh (d : Reg) (a : Reg) (b : Reg) (u : Bool) : RoundTrip.Statement (.imulh d a b u) := by
  refine ⟨?_, nofun⟩
  intro alloc f hw hf
  cases hf
  clear hw
  cases u <;>
    exact read_of (n := .imulh (Reg.ofCode d.code) (Reg.ofCode a.code) (Reg.ofCode b.code) _) rfl rfl rfl (FieldKind.reg_code _) (FieldKind.reg_code _) (FieldKind.reg_code _) rfl rfl
    (by simp only [Reg.ofCode_code]; rfl)
theorem RoundTrip.iadds (d : Reg) (a : Reg) (b : Reg) (u : Bool) : RoundTrip.Statement (.iadds d a b u) := by
  refine ⟨?_, nofun⟩
  intro alloc f hw hf
  cases hf
  clear hw
  cases u <;>
    exact read_of (n := .iadds (Reg.ofCode d.code) (Reg.ofCode a.code) (Reg.ofCode b.code) _) rfl rfl rfl (FieldKind.reg_code _) (FieldKind.reg_code _) (FieldKind.reg_code _) rfl rfl
    (by simp only [Reg.ofCode_code]; rfl)
theorem RoundTrip.imin (d : Reg) (a : Reg) (b : Reg) (u : Bool) : RoundTrip.Statement (.imin d a b u) := by
  refine ⟨?_, nofun⟩
  intro alloc f hw hf
  cases hf
  clear hw
  cases u <;>
    exact read_of (n := .imin (Reg.ofCode d.code) (Reg.ofCode a.code) (Reg.ofCode b.code) _) rfl rfl rfl (FieldKind.reg_code _) (FieldKind.reg_code _) (FieldKind.reg_code _) rfl rfl
    (by simp only [Reg.ofCode_code]; rfl)
theorem RoundTrip.imax (d : Reg) (a : Reg) (b : Reg) (u : Bool) : RoundTrip.Statement (.imax d a b u) := by
  refine ⟨?_, nofun⟩
  intro alloc f hw hf
  cases hf
  clear hw
  cases u <;>
    exact read_of (n := .imax (Reg.ofCode d.code) (Reg.ofCode a.code) (Reg.ofCode b.code) _) rfl rfl rfl (FieldKind.reg_code _) (FieldKind.reg_code _) (FieldKind.reg_code _) rfl rfl
    (by simp only [Reg.ofCode_code]; rfl)
theorem RoundTrip.iabs (d : Reg) (a : Reg) (ov : Bool) : RoundTrip.Statement (.iabs d a ov) := by
  refine ⟨?_, nofun⟩
  intro alloc f hw hf
  cases hf
  clear hw
  cases ov <;>
    exact read_of (n := .iabs (Reg.ofCode d.code) (Reg.ofCode a.code) _) rfl rfl rfl (FieldKind.reg_code _) (FieldKind.reg_code _) rfl rfl rfl
    (by simp only [Reg.ofCode_code]; rfl)
theorem RoundTrip.ineg (d : Reg) (a : Reg) (ov : Bool) : RoundTrip.Statement (.ineg d a ov) := by
  refine ⟨?_, nofun⟩
  intro alloc f hw hf
  cases hf
  clear hw
  cases ov <;>
    exact read_of (n := .ineg (Reg.ofCode d.code) (Reg.ofCode a.code) _) rfl rfl rfl (FieldKind.reg_code _) (FieldKind.reg_code _) rfl rfl rfl
    (by simp only [Reg.ofCode_code]; rfl)
theorem RoundTrip.and (d : Reg) (a : Reg) (b : Reg) : RoundTrip.Statement (.and d a b) := by
  refine ⟨?_, nofun⟩
  intro alloc f hw hf
  cases hf
  clear hw
  exact read_of (n := .and (Reg.ofCode d.code) (Reg.ofCode a.code) (Reg.ofCode b.code)) rfl rfl rfl (FieldKind.reg_code _) (FieldKind.reg_code _) (FieldKind.reg_code _) rfl rfl
    (by simp only [Reg.ofCode_code])
theorem RoundTrip.or (d : Reg) (a : Reg) (b : Reg) : RoundTrip.Statement (.or d a b) := by
  refine ⟨?_, nofun⟩
  intro alloc f hw hf
  cases hf
  clear hw
  exact read_of (n := .or (Reg.ofCode d.code) (Reg.ofCode a.code) (Reg.ofCode b.code)) rfl rfl rfl (FieldKind.reg_code _) (FieldKind.reg_code _) (FieldKind.reg_code _) rfl rfl
    (by simp only [Reg.ofCode_code])
theorem RoundTrip.xor (d : Reg) (a : Reg) (b : Reg) : RoundTrip.Statement (.xor d a b) := by
  refine ⟨?_, nofun⟩
  intro alloc f hw hf
  cases hf
  clear hw
  exact read_of (n := .xor (Reg.ofCode d.code) (Reg.ofCode a.code) (Reg.ofCode b.code)) rfl rfl rfl (FieldKind.reg_code _) (FieldKind.reg_code _) (FieldKind.reg_code _) rfl rfl
    (by simp only [Reg.ofCode_code])
theorem RoundTrip.andn (d : Reg) (a : Reg) (b : Reg) : RoundTrip.Statement (.andn d a b) := by
  refine ⟨?_, nofun⟩
  intro alloc f hw hf
  cases hf
  clear hw
  exact read_of (n := .andn (Reg.ofCode d.code) (Reg.ofCode a.code) (Reg.ofCode b.code)) rfl rfl rfl (FieldKind.reg_code _) (FieldKind.reg_code _) (FieldKind.reg_code _) rfl rfl
    (by simp only [Reg.ofCode_code])
theorem RoundTrip.popc (d : Reg) (a : Reg) : RoundTrip.Statement (.popc d a) := by
  refine ⟨?_, nofun⟩
  intro alloc f hw hf
  cases hf
  clear hw
  exact read_of (n := .popc (Reg.ofCode d.code) (Reg.ofCode a.code)) rfl rfl rfl (FieldKind.reg_code _) (FieldKind.reg_code _) rfl rfl rfl
    (by simp only [Reg.ofCode_code])
theorem RoundTrip.clz (d : Reg) (a : Reg) : RoundTrip.Statement (.clz d a) := by
  refine ⟨?_, nofun⟩
  intro alloc f hw hf
  cases hf
  clear hw
  exact read_of (n := .clz (Reg.ofCode d.code) (Reg.ofCode a.code)) rfl rfl rfl (FieldKind.reg_code _) (FieldKind.reg_code _) rfl rfl rfl
    (by simp only [Reg.ofCode_code])
theorem RoundTrip.brev (d : Reg) (a : Reg) : RoundTrip.Statement (.brev d a) := by
  refine ⟨?_, nofun⟩
  intro alloc f hw hf
  cases hf
  clear hw
  exact read_of (n := .brev (Reg.ofCode d.code) (Reg.ofCode a.code)) rfl rfl rfl (FieldKind.reg_code _) (FieldKind.reg_code _) rfl rfl rfl
    (by simp only [Reg.ofCode_code])
theorem RoundTrip.shl (d : Reg) (a : Reg) (n : ShAmt) : RoundTrip.Statement (.shl d a n) := by
  refine ⟨?_, nofun⟩
  cases n with
  | reg y0 =>
    intro alloc f hw hf
    cases hf
    clear hw
    exact read_of (n := .shl (Reg.ofCode d.code) (Reg.ofCode a.code) (.reg (Reg.ofCode y0.code))) rfl rfl rfl (FieldKind.reg_code _) (FieldKind.reg_code _) (FieldKind.reg_code _) rfl rfl
      (by simp only [Reg.ofCode_code])
  | imm y0 =>
    intro alloc f hw hf
    cases hf
    clear hw
    exact read_of (n := .shl (Reg.ofCode d.code) (Reg.ofCode a.code) (.imm ((y0.setWidth 8).extractLsb' 0 5))) rfl rfl rfl (FieldKind.reg_code _) (FieldKind.reg_code _) (FieldKind.lim_32 _) rfl rfl
      (by simp only [Reg.ofCode_code, low_five])
theorem RoundTrip.shr (d : Reg) (a : Reg) (n : ShAmt) : RoundTrip.Statement (.shr d a n) := by
  refine ⟨?_, nofun⟩
  cases n with
  | reg y0 =>
    intro alloc f hw hf
    cases hf
    clear hw
    exact read_of (n := .shr (Reg.ofCode d.code) (Reg.ofCode a.code) (.reg (Reg.ofCode y0.code))) rfl rfl rfl (FieldKind.reg_code _) (FieldKind.reg_code _) (FieldKind.reg_code _) rfl rfl
      (by simp only [Reg.ofCode_code])
  | imm y0 =>
    intro alloc f hw hf
    cases hf
    clear hw
    exact read_of (n := .shr (Reg.ofCode d.code) (Reg.ofCode a.code) (.imm ((y0.setWidth 8).extractLsb' 0 5))) rfl rfl rfl (FieldKind.reg_code _) (FieldKind.reg_code _) (FieldKind.lim_32 _) rfl rfl
      (by simp only [Reg.ofCode_code, low_five])
theorem RoundTrip.sar (d : Reg) (a : Reg) (n : ShAmt) : RoundTrip.Statement (.sar d a n) := by
  refine ⟨?_, nofun⟩
  cases n with
  | reg y0 =>
    intro alloc f hw hf
    cases hf
    clear hw
    exact read_of (n := .sar (Reg.ofCode d.code) (Reg.ofCode a.code) (.reg (Reg.ofCode y0.code))) rfl rfl rfl (FieldKind.reg_code _) (FieldKind.reg_code _) (FieldKind.reg_code _) rfl rfl
      (by simp only [Reg.ofCode_code])
  | imm y0 =>
    intro alloc f hw hf
    cases hf
    clear hw
    exact read_of (n := .sar (Reg.ofCode d.code) (Reg.ofCode a.code) (.imm ((y0.setWidth 8).extractLsb' 0 5))) rfl rfl rfl (FieldKind.reg_code _) (FieldKind.reg_code _) (FieldKind.lim_32 _) rfl rfl
      (by simp only [Reg.ofCode_code, low_five])
theorem RoundTrip.rotl (d : Reg) (a : Reg) (n : ShAmt) : RoundTrip.Statement (.rotl d a n) := by
  refine ⟨?_, nofun⟩
  cases n with
  | reg y0 =>
    intro alloc f hw hf
    cases hf
    clear hw
    exact read_of (n := .rotl (Reg.ofCode d.code) (Reg.ofCode a.code) (.reg (Reg.ofCode y0.code))) rfl rfl rfl (FieldKind.reg_code _) (FieldKind.reg_code _) (FieldKind.reg_code _) rfl rfl
      (by simp only [Reg.ofCode_code])
  | imm y0 =>
    intro alloc f hw hf
    cases hf
    clear hw
    exact read_of (n := .rotl (Reg.ofCode d.code) (Reg.ofCode a.code) (.imm ((y0.setWidth 8).extractLsb' 0 5))) rfl rfl rfl (FieldKind.reg_code _) (FieldKind.reg_code _) (FieldKind.lim_32 _) rfl rfl
      (by simp only [Reg.ofCode_code, low_five])
theorem RoundTrip.imad (d : Reg) (a : Reg) (b : Reg) (c : Reg) (ov : Bool) : RoundTrip.Statement (.imad d a b c ov) := by
  refine ⟨?_, nofun⟩
  intro alloc f hw hf
  cases hf
  clear hw
  cases ov <;>
    exact read_of (n := .imad (Reg.ofCode d.code) (Reg.ofCode a.code) (Reg.ofCode b.code) (Reg.ofCode c.code) _) rfl rfl rfl (FieldKind.reg_code _) (FieldKind.reg_code _) (FieldKind.reg_code _) (FieldKind.reg_code _) rfl
    (by simp only [Reg.ofCode_code]; rfl)
theorem RoundTrip.iadd3 (d : Reg) (a : Reg) (b : Reg) (c : Reg) (ov : Bool) : RoundTrip.Statement (.iadd3 d a b c ov) := by
  refine ⟨?_, nofun⟩
  intro alloc f hw hf
  cases hf
  clear hw
  cases ov <;>
    exact read_of (n := .iadd3 (Reg.ofCode d.code) (Reg.ofCode a.code) (Reg.ofCode b.code) (Reg.ofCode c.code) _) rfl rfl rfl (FieldKind.reg_code _) (FieldKind.reg_code _) (FieldKind.reg_code _) (FieldKind.reg_code _) rfl
    (by simp only [Reg.ofCode_code]; rfl)
theorem RoundTrip.funnel (d : Reg) (a : Reg) (b : Reg) (c : Reg) (right : Bool) : RoundTrip.Statement (.funnel d a b c right) := by
  refine ⟨?_, nofun⟩
  intro alloc f hw hf
  cases hf
  clear hw
  cases right <;>
    exact read_of (n := .funnel (Reg.ofCode d.code) (Reg.ofCode a.code) (Reg.ofCode b.code) (Reg.ofCode c.code) _) rfl rfl rfl (FieldKind.reg_code _) (FieldKind.reg_code _) (FieldKind.reg_code _) (FieldKind.reg_code _) rfl
    (by simp only [Reg.ofCode_code]; rfl)
theorem RoundTrip.bfx (d : Reg) (a : Reg) (b : Reg) (u : Bool) : RoundTrip.Statement (.bfx d a b u) := by
  refine ⟨?_, nofun⟩
  intro alloc f hw hf
  cases hf
  clear hw
  cases u <;>
    exact read_of (n := .bfx (Reg.ofCode d.code) (Reg.ofCode a.code) (Reg.ofCode b.code) _) rfl rfl rfl (FieldKind.reg_code _) (FieldKind.reg_code _) (FieldKind.reg_code _) rfl rfl
    (by simp only [Reg.ofCode_code]; rfl)
theorem RoundTrip.bfi (d : Reg) (a : Reg) (b : Reg) (c : Reg) : RoundTrip.Statement (.bfi d a b c) := by
  refine ⟨?_, nofun⟩
  intro alloc f hw hf
  cases hf
  clear hw
  exact read_of (n := .bfi (Reg.ofCode d.code) (Reg.ofCode a.code) (Reg.ofCode b.code) (Reg.ofCode c.code)) rfl rfl rfl (FieldKind.reg_code _) (FieldKind.reg_code _) (FieldKind.reg_code _) (FieldKind.reg_code _) rfl
    (by simp only [Reg.ofCode_code])
theorem RoundTrip.isetp (cc : ICmp) (kd : BitVec 3) (a : Reg) (b : Reg) (kc : KSel) : RoundTrip.Statement (.isetp cc kd a b kc) := by
  refine ⟨?_, nofun⟩
  intro alloc f hw hf
  cases hf
  clear hw
  cases cc <;>
    exact read_of (n := .isetp _ ((kd.setWidth 8).extractLsb' 0 3) (Reg.ofCode a.code) (Reg.ofCode b.code) (KSel.ofCode kc.code)) rfl rfl rfl (FieldKind.mask_7 _) (FieldKind.reg_code _) (FieldKind.reg_code _) (FieldKind.ksel_code _) rfl
    (by simp only [Reg.ofCode_code, KSel.ofCode_code, low_three]; rfl)
theorem RoundTrip.sel (d : Reg) (a : Reg) (b : Reg) (kc : KSel) : RoundTrip.Statement (.sel d a b kc) := by
  refine ⟨?_, nofun⟩
  intro alloc f hw hf
  cases hf
  clear hw
  exact read_of (n := .sel (Reg.ofCode d.code) (Reg.ofCode a.code) (Reg.ofCode b.code) (KSel.ofCode kc.code)) rfl rfl rfl (FieldKind.reg_code _) (FieldKind.reg_code _) (FieldKind.reg_code _) (FieldKind.ksel_code _) rfl
    (by simp only [Reg.ofCode_code, KSel.ofCode_code])
theorem RoundTrip.mov (d : Reg) (a : Reg) : RoundTrip.Statement (.mov d a) := by
  refine ⟨?_, nofun⟩
  intro alloc f hw hf
  cases hf
  clear hw
  exact read_of (n := .mov (Reg.ofCode d.code) (Reg.ofCode a.code)) rfl rfl rfl (FieldKind.reg_code _) (FieldKind.reg_code _) rfl rfl rfl
    (by simp only [Reg.ofCode_code])
theorem RoundTrip.movi (d : Reg) (imm : BitVec 16) (s : Bool) : RoundTrip.Statement (.movi d imm s) := by
  refine ⟨?_, nofun⟩
  intro alloc f hw hf
  cases hf
  clear hw
  cases s <;>
    exact read_of (n := .movi (Reg.ofCode d.code) ((imm.extractLsb' 8 8) ++ (imm.extractLsb' 0 8)) _) rfl rfl rfl (FieldKind.reg_code _) rfl rfl rfl rfl
    (by simp only [Reg.ofCode_code, imm16_bytes]; rfl)
theorem RoundTrip.movhi (d : Reg) (a : Reg) (imm : BitVec 16) : RoundTrip.Statement (.movhi d a imm) := by
  refine ⟨?_, nofun⟩
  intro alloc f hw hf
  cases hf
  clear hw
  exact read_of (n := .movhi (Reg.ofCode d.code) (Reg.ofCode a.code) ((imm.extractLsb' 8 8) ++ (imm.extractLsb' 0 8))) rfl rfl rfl (FieldKind.reg_code _) (FieldKind.reg_code _) rfl rfl rfl
    (by simp only [Reg.ofCode_code, imm16_bytes])
theorem RoundTrip.ldk (d : Reg) (off : BitVec 16) (count : BitVec 8) : RoundTrip.Statement (.ldk d off count) := by
  refine ⟨?_, nofun⟩
  intro alloc f hw hf
  cases hf
  clear hw
  exact read_of (n := .ldk (Reg.ofCode d.code) ((off.extractLsb' 8 8) ++ (off.extractLsb' 0 8)) count) rfl rfl rfl (FieldKind.reg_code _) rfl rfl rfl rfl
    (by simp only [Reg.ofCode_code, imm16_bytes])
theorem RoundTrip.add64 (d : Reg) (a : Reg) (b : Reg) : RoundTrip.Statement (.add64 d a b) := by
  refine ⟨?_, nofun⟩
  intro alloc f hw hf
  cases hf
  clear hw
  exact read_of (n := .add64 (Reg.ofCode d.code) (Reg.ofCode a.code) (Reg.ofCode b.code)) rfl rfl rfl (FieldKind.reg_code _) (FieldKind.reg_code _) (FieldKind.reg_code _) rfl rfl
    (by simp only [Reg.ofCode_code])
theorem RoundTrip.sub64 (d : Reg) (a : Reg) (b : Reg) : RoundTrip.Statement (.sub64 d a b) := by
  refine ⟨?_, nofun⟩
  intro alloc f hw hf
  cases hf
  clear hw
  exact read_of (n := .sub64 (Reg.ofCode d.code) (Reg.ofCode a.code) (Reg.ofCode b.code)) rfl rfl rfl (FieldKind.reg_code _) (FieldKind.reg_code _) (FieldKind.reg_code _) rfl rfl
    (by simp only [Reg.ofCode_code])
theorem RoundTrip.mad64w (d : Reg) (a : Reg) (b : Reg) (c : Reg) (s : Bool) : RoundTrip.Statement (.mad64w d a b c s) := by
  refine ⟨?_, nofun⟩
  intro alloc f hw hf
  cases hf
  clear hw
  cases s <;>
    exact read_of (n := .mad64w (Reg.ofCode d.code) (Reg.ofCode a.code) (Reg.ofCode b.code) (Reg.ofCode c.code) _) rfl rfl rfl (FieldKind.reg_code _) (FieldKind.reg_code _) (FieldKind.reg_code _) (FieldKind.reg_code _) rfl
    (by simp only [Reg.ofCode_code]; rfl)
theorem RoundTrip.lea (d : Reg) (a : Reg) (b : Reg) (sh : BitVec 4) (s : Bool) : RoundTrip.Statement (.lea d a b sh s) := by
  refine ⟨?_, nofun⟩
  intro alloc f hw hf
  cases hf
  clear hw
  cases s <;>
    exact read_of (n := .lea (Reg.ofCode d.code) (Reg.ofCode a.code) (Reg.ofCode b.code) ((sh.setWidth 8).extractLsb' 0 4) _) rfl rfl rfl (FieldKind.reg_code _) (FieldKind.reg_code _) (FieldKind.reg_code _) (FieldKind.lim_16 _) rfl
    (by simp only [Reg.ofCode_code, low_four]; rfl)
theorem RoundTrip.iadd2 (d : Reg) (a : Reg) (b : Reg) : RoundTrip.Statement (.iadd2 d a b) := by
  refine ⟨?_, nofun⟩
  intro alloc f hw hf
  cases hf
  clear hw
  exact read_of (n := .iadd2 (Reg.ofCode d.code) (Reg.ofCode a.code) (Reg.ofCode b.code)) rfl rfl rfl (FieldKind.reg_code _) (FieldKind.reg_code _) (FieldKind.reg_code _) rfl rfl
    (by simp only [Reg.ofCode_code])
theorem RoundTrip.iadd2s (d : Reg) (a : Reg) (b : Reg) : RoundTrip.Statement (.iadd2s d a b) := by
  refine ⟨?_, nofun⟩
  intro alloc f hw hf
  cases hf
  clear hw
  exact read_of (n := .iadd2s (Reg.ofCode d.code) (Reg.ofCode a.code) (Reg.ofCode b.code)) rfl rfl rfl (FieldKind.reg_code _) (FieldKind.reg_code _) (FieldKind.reg_code _) rfl rfl
    (by simp only [Reg.ofCode_code])
theorem RoundTrip.imax2 (d : Reg) (a : Reg) (b : Reg) : RoundTrip.Statement (.imax2 d a b) := by
  refine ⟨?_, nofun⟩
  intro alloc f hw hf
  cases hf
  clear hw
  exact read_of (n := .imax2 (Reg.ofCode d.code) (Reg.ofCode a.code) (Reg.ofCode b.code)) rfl rfl rfl (FieldKind.reg_code _) (FieldKind.reg_code _) (FieldKind.reg_code _) rfl rfl
    (by simp only [Reg.ofCode_code])
theorem RoundTrip.idot4 (d : Reg) (a : Reg) (b : Reg) (c : Reg) (u : Bool) : RoundTrip.Statement (.idot4 d a b c u) := by
  refine ⟨?_, nofun⟩
  intro alloc f hw hf
  cases hf
  clear hw
  cases u <;>
    exact read_of (n := .idot4 (Reg.ofCode d.code) (Reg.ofCode a.code) (Reg.ofCode b.code) (Reg.ofCode c.code) _) rfl rfl rfl (FieldKind.reg_code _) (FieldKind.reg_code _) (FieldKind.reg_code _) (FieldKind.reg_code _) rfl
    (by simp only [Reg.ofCode_code]; rfl)
theorem RoundTrip.prmt (d : Reg) (a : Reg) (b : Reg) (c : Reg) : RoundTrip.Statement (.prmt d a b c) := by
  refine ⟨?_, nofun⟩
  intro alloc f hw hf
  cases hf
  clear hw
  exact read_of (n := .prmt (Reg.ofCode d.code) (Reg.ofCode a.code) (Reg.ofCode b.code) (Reg.ofCode c.code)) rfl rfl rfl (FieldKind.reg_code _) (FieldKind.reg_code _) (FieldKind.reg_code _) (FieldKind.reg_code _) rfl
    (by simp only [Reg.ofCode_code])
theorem RoundTrip.widen (d : Reg) (a : Reg) (op : WidenOp) : RoundTrip.Statement (.widen d a op) := by
  refine ⟨?_, nofun⟩
  intro alloc f hw hf
  cases hf
  clear hw
  cases op <;>
    exact read_of (n := .widen (Reg.ofCode d.code) (Reg.ofCode a.code) _) rfl rfl rfl (FieldKind.reg_code _) (FieldKind.reg_code _) rfl rfl rfl
    (by simp only [Reg.ofCode_code]; rfl)
theorem RoundTrip.wadd (d : Reg) (a : Reg) (b : Reg) (u : Bool) : RoundTrip.Statement (.wadd d a b u) := by
  refine ⟨?_, nofun⟩
  intro alloc f hw hf
  cases hf
  clear hw
  cases u <;>
    exact read_of (n := .wadd (Reg.ofCode d.code) (Reg.ofCode a.code) (Reg.ofCode b.code) _) rfl rfl rfl (FieldKind.reg_code _) (FieldKind.reg_code _) (FieldKind.reg_code _) rfl rfl
    (by simp only [Reg.ofCode_code]; rfl)
theorem RoundTrip.idiv (op : DivOp) (d : Reg) (a : Reg) (b : Reg) (f : Flag) : RoundTrip.Statement (.idiv op d a b f) := by
  refine ⟨?_, nofun⟩
  intro alloc f hw hf
  cases hf
  clear hw
  cases op <;>
    exact read_of (n := .idiv _ (Reg.ofCode d.code) (Reg.ofCode a.code) (Reg.ofCode b.code) (Flag.ofCode (Flag.code f))) rfl rfl rfl (FieldKind.reg_code _) (FieldKind.reg_code _) (FieldKind.reg_code _) (FieldKind.flag_code _) rfl
    (by simp only [Reg.ofCode_code, Flag.ofCode_code]; rfl)
theorem RoundTrip.fadd (d : Reg) (a : Reg) (b : Reg) : RoundTrip.Statement (.fadd d a b) := by
  refine ⟨?_, nofun⟩
  intro alloc f hw hf
  cases hf
  clear hw
  exact read_of (n := .fadd (Reg.ofCode d.code) (Reg.ofCode a.code) (Reg.ofCode b.code)) rfl rfl rfl (FieldKind.reg_code _) (FieldKind.reg_code _) (FieldKind.reg_code _) rfl rfl
    (by simp only [Reg.ofCode_code])
theorem RoundTrip.fsub (d : Reg) (a : Reg) (b : Reg) : RoundTrip.Statement (.fsub d a b) := by
  refine ⟨?_, nofun⟩
  intro alloc f hw hf
  cases hf
  clear hw
  exact read_of (n := .fsub (Reg.ofCode d.code) (Reg.ofCode a.code) (Reg.ofCode b.code)) rfl rfl rfl (FieldKind.reg_code _) (FieldKind.reg_code _) (FieldKind.reg_code _) rfl rfl
    (by simp only [Reg.ofCode_code])
theorem RoundTrip.fmul (d : Reg) (a : Reg) (b : Reg) : RoundTrip.Statement (.fmul d a b) := by
  refine ⟨?_, nofun⟩
  intro alloc f hw hf
  cases hf
  clear hw
  exact read_of (n := .fmul (Reg.ofCode d.code) (Reg.ofCode a.code) (Reg.ofCode b.code)) rfl rfl rfl (FieldKind.reg_code _) (FieldKind.reg_code _) (FieldKind.reg_code _) rfl rfl
    (by simp only [Reg.ofCode_code])
theorem RoundTrip.ffma (d : Reg) (a : Reg) (b : Reg) (c : Reg) : RoundTrip.Statement (.ffma d a b c) := by
  refine ⟨?_, nofun⟩
  intro alloc f hw hf
  cases hf
  clear hw
  exact read_of (n := .ffma (Reg.ofCode d.code) (Reg.ofCode a.code) (Reg.ofCode b.code) (Reg.ofCode c.code)) rfl rfl rfl (FieldKind.reg_code _) (FieldKind.reg_code _) (FieldKind.reg_code _) (FieldKind.reg_code _) rfl
    (by simp only [Reg.ofCode_code])
theorem RoundTrip.fmin (d : Reg) (a : Reg) (b : Reg) : RoundTrip.Statement (.fmin d a b) := by
  refine ⟨?_, nofun⟩
  intro alloc f hw hf
  cases hf
  clear hw
  exact read_of (n := .fmin (Reg.ofCode d.code) (Reg.ofCode a.code) (Reg.ofCode b.code)) rfl rfl rfl (FieldKind.reg_code _) (FieldKind.reg_code _) (FieldKind.reg_code _) rfl rfl
    (by simp only [Reg.ofCode_code])
theorem RoundTrip.fmax (d : Reg) (a : Reg) (b : Reg) : RoundTrip.Statement (.fmax d a b) := by
  refine ⟨?_, nofun⟩
  intro alloc f hw hf
  cases hf
  clear hw
  exact read_of (n := .fmax (Reg.ofCode d.code) (Reg.ofCode a.code) (Reg.ofCode b.code)) rfl rfl rfl (FieldKind.reg_code _) (FieldKind.reg_code _) (FieldKind.reg_code _) rfl rfl
    (by simp only [Reg.ofCode_code])
theorem RoundTrip.fsetp (cc : FCmp) (kd : BitVec 3) (a : Reg) (b : Reg) (kc : KSel) : RoundTrip.Statement (.fsetp cc kd a b kc) := by
  refine ⟨?_, nofun⟩
  intro alloc f hw hf
  cases hf
  clear hw
  cases cc <;>
    exact read_of (n := .fsetp _ ((kd.setWidth 8).extractLsb' 0 3) (Reg.ofCode a.code) (Reg.ofCode b.code) (KSel.ofCode kc.code)) rfl rfl rfl (FieldKind.mask_7 _) (FieldKind.reg_code _) (FieldKind.reg_code _) (FieldKind.ksel_code _) rfl
    (by simp only [Reg.ofCode_code, KSel.ofCode_code, low_three]; rfl)
theorem RoundTrip.fclass (d : Reg) (a : Reg) : RoundTrip.Statement (.fclass d a) := by
  refine ⟨?_, nofun⟩
  intro alloc f hw hf
  cases hf
  clear hw
  exact read_of (n := .fclass (Reg.ofCode d.code) (Reg.ofCode a.code)) rfl rfl rfl (FieldKind.reg_code _) (FieldKind.reg_code _) rfl rfl rfl
    (by simp only [Reg.ofCode_code])
theorem RoundTrip.frnd (dir : RndDir) (d : Reg) (a : Reg) : RoundTrip.Statement (.frnd dir d a) := by
  refine ⟨?_, nofun⟩
  intro alloc f hw hf
  cases hf
  clear hw
  cases dir <;>
    exact read_of (n := .frnd _ (Reg.ofCode d.code) (Reg.ofCode a.code)) rfl rfl rfl (FieldKind.reg_code _) (FieldKind.reg_code _) rfl rfl rfl
    (by simp only [Reg.ofCode_code]; rfl)
theorem RoundTrip.frcp (d : Reg) (a : Reg) (f : Flag) : RoundTrip.Statement (.frcp d a f) := by
  refine ⟨?_, nofun⟩
  intro alloc f hw hf
  cases hf
  clear hw
  exact read_of (n := .frcp (Reg.ofCode d.code) (Reg.ofCode a.code) (Flag.ofCode (Flag.code f))) rfl rfl rfl (FieldKind.reg_code _) (FieldKind.reg_code _) rfl (FieldKind.flag_code _) rfl
    (by simp only [Reg.ofCode_code, Flag.ofCode_code])
theorem RoundTrip.frsq (d : Reg) (a : Reg) (f : Flag) : RoundTrip.Statement (.frsq d a f) := by
  refine ⟨?_, nofun⟩
  intro alloc f hw hf
  cases hf
  clear hw
  exact read_of (n := .frsq (Reg.ofCode d.code) (Reg.ofCode a.code) (Flag.ofCode (Flag.code f))) rfl rfl rfl (FieldKind.reg_code _) (FieldKind.reg_code _) rfl (FieldKind.flag_code _) rfl
    (by simp only [Reg.ofCode_code, Flag.ofCode_code])
theorem RoundTrip.fsqrt (d : Reg) (a : Reg) (f : Flag) : RoundTrip.Statement (.fsqrt d a f) := by
  refine ⟨?_, nofun⟩
  intro alloc f hw hf
  cases hf
  clear hw
  exact read_of (n := .fsqrt (Reg.ofCode d.code) (Reg.ofCode a.code) (Flag.ofCode (Flag.code f))) rfl rfl rfl (FieldKind.reg_code _) (FieldKind.reg_code _) rfl (FieldKind.flag_code _) rfl
    (by simp only [Reg.ofCode_code, Flag.ofCode_code])
theorem RoundTrip.fdiv (d : Reg) (a : Reg) (b : Reg) (f : Flag) : RoundTrip.Statement (.fdiv d a b f) := by
  refine ⟨?_, nofun⟩
  intro alloc f hw hf
  cases hf
  clear hw
  exact read_of (n := .fdiv (Reg.ofCode d.code) (Reg.ofCode a.code) (Reg.ofCode b.code) (Flag.ofCode (Flag.code f))) rfl rfl rfl (FieldKind.reg_code _) (FieldKind.reg_code _) (FieldKind.reg_code _) (FieldKind.flag_code _) rfl
    (by simp only [Reg.ofCode_code, Flag.ofCode_code])
theorem RoundTrip.fexp2 (d : Reg) (a : Reg) (f : Flag) : RoundTrip.Statement (.fexp2 d a f) := by
  refine ⟨?_, nofun⟩
  intro alloc f hw hf
  cases hf
  clear hw
  exact read_of (n := .fexp2 (Reg.ofCode d.code) (Reg.ofCode a.code) (Flag.ofCode (Flag.code f))) rfl rfl rfl (FieldKind.reg_code _) (FieldKind.reg_code _) rfl (FieldKind.flag_code _) rfl
    (by simp only [Reg.ofCode_code, Flag.ofCode_code])
theorem RoundTrip.flog2 (d : Reg) (a : Reg) (f : Flag) : RoundTrip.Statement (.flog2 d a f) := by
  refine ⟨?_, nofun⟩
  intro alloc f hw hf
  cases hf
  clear hw
  exact read_of (n := .flog2 (Reg.ofCode d.code) (Reg.ofCode a.code) (Flag.ofCode (Flag.code f))) rfl rfl rfl (FieldKind.reg_code _) (FieldKind.reg_code _) rfl (FieldKind.flag_code _) rfl
    (by simp only [Reg.ofCode_code, Flag.ofCode_code])
theorem RoundTrip.fsin (d : Reg) (a : Reg) (f : Flag) : RoundTrip.Statement (.fsin d a f) := by
  refine ⟨?_, nofun⟩
  intro alloc f hw hf
  cases hf
  clear hw
  exact read_of (n := .fsin (Reg.ofCode d.code) (Reg.ofCode a.code) (Flag.ofCode (Flag.code f))) rfl rfl rfl (FieldKind.reg_code _) (FieldKind.reg_code _) rfl (FieldKind.flag_code _) rfl
    (by simp only [Reg.ofCode_code, Flag.ofCode_code])
theorem RoundTrip.fcos (d : Reg) (a : Reg) (f : Flag) : RoundTrip.Statement (.fcos d a f) := by
  refine ⟨?_, nofun⟩
  intro alloc f hw hf
  cases hf
  clear hw
  exact read_of (n := .fcos (Reg.ofCode d.code) (Reg.ofCode a.code) (Flag.ofCode (Flag.code f))) rfl rfl rfl (FieldKind.reg_code _) (FieldKind.reg_code _) rfl (FieldKind.flag_code _) rfl
    (by simp only [Reg.ofCode_code, Flag.ofCode_code])
theorem RoundTrip.ftanh (d : Reg) (a : Reg) (f : Flag) : RoundTrip.Statement (.ftanh d a f) := by
  refine ⟨?_, nofun⟩
  intro alloc f hw hf
  cases hf
  clear hw
  exact read_of (n := .ftanh (Reg.ofCode d.code) (Reg.ofCode a.code) (Flag.ofCode (Flag.code f))) rfl rfl rfl (FieldKind.reg_code _) (FieldKind.reg_code _) rfl (FieldKind.flag_code _) rfl
    (by simp only [Reg.ofCode_code, Flag.ofCode_code])
theorem RoundTrip.hadd2 (d : Reg) (a : Reg) (b : Reg) (bf : Bool) : RoundTrip.Statement (.hadd2 d a b bf) := by
  refine ⟨?_, nofun⟩
  intro alloc f hw hf
  cases hf
  clear hw
  cases bf <;>
    exact read_of (n := .hadd2 (Reg.ofCode d.code) (Reg.ofCode a.code) (Reg.ofCode b.code) _) rfl rfl rfl (FieldKind.reg_code _) (FieldKind.reg_code _) (FieldKind.reg_code _) rfl rfl
    (by simp only [Reg.ofCode_code]; rfl)
theorem RoundTrip.hsub2 (d : Reg) (a : Reg) (b : Reg) (bf : Bool) : RoundTrip.Statement (.hsub2 d a b bf) := by
  refine ⟨?_, nofun⟩
  intro alloc f hw hf
  cases hf
  clear hw
  cases bf <;>
    exact read_of (n := .hsub2 (Reg.ofCode d.code) (Reg.ofCode a.code) (Reg.ofCode b.code) _) rfl rfl rfl (FieldKind.reg_code _) (FieldKind.reg_code _) (FieldKind.reg_code _) rfl rfl
    (by simp only [Reg.ofCode_code]; rfl)
theorem RoundTrip.hmul2 (d : Reg) (a : Reg) (b : Reg) (bf : Bool) : RoundTrip.Statement (.hmul2 d a b bf) := by
  refine ⟨?_, nofun⟩
  intro alloc f hw hf
  cases hf
  clear hw
  cases bf <;>
    exact read_of (n := .hmul2 (Reg.ofCode d.code) (Reg.ofCode a.code) (Reg.ofCode b.code) _) rfl rfl rfl (FieldKind.reg_code _) (FieldKind.reg_code _) (FieldKind.reg_code _) rfl rfl
    (by simp only [Reg.ofCode_code]; rfl)
theorem RoundTrip.hfma2 (d : Reg) (a : Reg) (b : Reg) (c : Reg) (bf : Bool) : RoundTrip.Statement (.hfma2 d a b c bf) := by
  refine ⟨?_, nofun⟩
  intro alloc f hw hf
  cases hf
  clear hw
  cases bf <;>
    exact read_of (n := .hfma2 (Reg.ofCode d.code) (Reg.ofCode a.code) (Reg.ofCode b.code) (Reg.ofCode c.code) _) rfl rfl rfl (FieldKind.reg_code _) (FieldKind.reg_code _) (FieldKind.reg_code _) (FieldKind.reg_code _) rfl
    (by simp only [Reg.ofCode_code]; rfl)
theorem RoundTrip.hmin2 (d : Reg) (a : Reg) (b : Reg) (bf : Bool) : RoundTrip.Statement (.hmin2 d a b bf) := by
  refine ⟨?_, nofun⟩
  intro alloc f hw hf
  cases hf
  clear hw
  cases bf <;>
    exact read_of (n := .hmin2 (Reg.ofCode d.code) (Reg.ofCode a.code) (Reg.ofCode b.code) _) rfl rfl rfl (FieldKind.reg_code _) (FieldKind.reg_code _) (FieldKind.reg_code _) rfl rfl
    (by simp only [Reg.ofCode_code]; rfl)
theorem RoundTrip.hmax2 (d : Reg) (a : Reg) (b : Reg) (bf : Bool) : RoundTrip.Statement (.hmax2 d a b bf) := by
  refine ⟨?_, nofun⟩
  intro alloc f hw hf
  cases hf
  clear hw
  cases bf <;>
    exact read_of (n := .hmax2 (Reg.ofCode d.code) (Reg.ofCode a.code) (Reg.ofCode b.code) _) rfl rfl rfl (FieldKind.reg_code _) (FieldKind.reg_code _) (FieldKind.reg_code _) rfl rfl
    (by simp only [Reg.ofCode_code]; rfl)
theorem RoundTrip.hsetp2 (cc : FCmp) (kd0 : BitVec 3) (kd1 : BitVec 3) (a : Reg) (b : Reg) (kc : KSel) (bf : Bool) : RoundTrip.Statement (.hsetp2 cc kd0 kd1 a b kc bf) := by
  refine ⟨?_, nofun⟩
  intro alloc f hw hf
  cases hf
  clear hw
  cases cc <;>
    exact read_of (n := .hsetp2 _ ((kd0.setWidth 8 ||| (kd1.setWidth 8 <<< 4)).extractLsb' 0 3) ((kd0.setWidth 8 ||| (kd1.setWidth 8 <<< 4)).extractLsb' 4 3) (Reg.ofCode a.code) (Reg.ofCode b.code) (KSel.ofCode (kc.code ||| (if bf then 16 else 0))) ((kc.code ||| (if bf then 16 else 0)).getLsbD 4)) rfl rfl rfl (FieldKind.two_preds _ _) (FieldKind.reg_code _) (FieldKind.reg_code _) (FieldKind.ksel_bf _ _) rfl
    (by simp only [Reg.ofCode_code, (KSel.code_bf _ _).1, (KSel.code_bf _ _).2, (two_preds _ _).1, (two_preds _ _).2]; rfl)
theorem RoundTrip.hdot2 (d : Reg) (a : Reg) (b : Reg) (c : Reg) (bf : Bool) : RoundTrip.Statement (.hdot2 d a b c bf) := by
  refine ⟨?_, nofun⟩
  intro alloc f hw hf
  cases hf
  clear hw
  cases bf <;>
    exact read_of (n := .hdot2 (Reg.ofCode d.code) (Reg.ofCode a.code) (Reg.ofCode b.code) (Reg.ofCode c.code) _) rfl rfl rfl (FieldKind.reg_code _) (FieldKind.reg_code _) (FieldKind.reg_code _) (FieldKind.reg_code _) rfl
    (by simp only [Reg.ofCode_code]; rfl)
theorem RoundTrip.fdot4q (d : Reg) (a : Reg) (b : Reg) (slot : BitVec 3) : RoundTrip.Statement (.fdot4q d a b slot) := by
  refine ⟨?_, nofun⟩
  intro alloc f hw hf
  cases hf
  clear hw
  exact read_of (n := .fdot4q (Reg.ofCode d.code) (Reg.ofCode a.code) (Reg.ofCode b.code) ((slot.setWidth 8).extractLsb' 0 3)) rfl rfl rfl (FieldKind.reg_code _) (FieldKind.reg_code _) (FieldKind.reg_code _) (FieldKind.mask_7 _) rfl
    (by simp only [Reg.ofCode_code, low_three])
theorem RoundTrip.lutdot (d : Reg) (a : Reg) (b : Reg) (slot : BitVec 3) (bf : Bool) : RoundTrip.Statement (.lutdot d a b slot bf) := by
  refine ⟨?_, nofun⟩
  intro alloc f hw hf
  cases hf
  clear hw
  cases bf <;>
    exact read_of (n := .lutdot (Reg.ofCode d.code) (Reg.ofCode a.code) (Reg.ofCode b.code) ((slot.setWidth 8).extractLsb' 0 3) _) rfl rfl rfl (FieldKind.reg_code _) (FieldKind.reg_code _) (FieldKind.reg_code _) (FieldKind.mask_7 _) rfl
    (by simp only [Reg.ofCode_code, low_three]; rfl)
theorem RoundTrip.cvtf (op : CvtfOp) (d : Reg) (a : Reg) (h : Bool) : RoundTrip.Statement (.cvtf op d a h) := by
  refine ⟨?_, nofun⟩
  intro alloc f hw hf
  cases hf
  clear hw
  cases op <;>
    exact read_of (n := .cvtf _ (Reg.ofCode d.code) (Reg.ofCode a.code) ((if h then 1 else 0 : BitVec 8).getLsbD 0)) rfl rfl rfl (FieldKind.reg_code _) (FieldKind.reg_code _) rfl (FieldKind.half_bit _) rfl
    (by simp only [Reg.ofCode_code, half_bit]; rfl)
theorem RoundTrip.cvti (op : CvtiOp) (d : Reg) (a : Reg) : RoundTrip.Statement (.cvti op d a) := by
  refine ⟨?_, nofun⟩
  intro alloc f hw hf
  cases hf
  clear hw
  cases op <;>
    exact read_of (n := .cvti _ (Reg.ofCode d.code) (Reg.ofCode a.code)) rfl rfl rfl (FieldKind.reg_code _) (FieldKind.reg_code _) rfl rfl rfl
    (by simp only [Reg.ofCode_code]; rfl)
theorem RoundTrip.cvtfi (u : Bool) (d : Reg) (a : Reg) : RoundTrip.Statement (.cvtfi u d a) := by
  refine ⟨?_, nofun⟩
  intro alloc f hw hf
  cases hf
  clear hw
  cases u <;>
    exact read_of (n := .cvtfi _ (Reg.ofCode d.code) (Reg.ofCode a.code)) rfl rfl rfl (FieldKind.reg_code _) (FieldKind.reg_code _) rfl rfl rfl
    (by simp only [Reg.ofCode_code]; rfl)
theorem RoundTrip.pack (d : Reg) (a : Reg) (slot : BitVec 3) : RoundTrip.Statement (.pack d a slot) := by
  refine ⟨?_, nofun⟩
  intro alloc f hw hf
  cases hf
  clear hw
  exact read_of (n := .pack (Reg.ofCode d.code) (Reg.ofCode a.code) ((slot.setWidth 8).extractLsb' 0 3)) rfl rfl rfl (FieldKind.reg_code _) (FieldKind.reg_code _) rfl (FieldKind.mask_7 _) rfl
    (by simp only [Reg.ofCode_code, low_three])
theorem RoundTrip.unpack (d : Reg) (a : Reg) (slot : BitVec 3) : RoundTrip.Statement (.unpack d a slot) := by
  refine ⟨?_, nofun⟩
  intro alloc f hw hf
  cases hf
  clear hw
  exact read_of (n := .unpack (Reg.ofCode d.code) (Reg.ofCode a.code) ((slot.setWidth 8).extractLsb' 0 3)) rfl rfl rfl (FieldKind.reg_code _) (FieldKind.reg_code _) rfl (FieldKind.mask_7 _) rfl
    (by simp only [Reg.ofCode_code, low_three])
theorem RoundTrip.quant (d : Reg) (a : Reg) (b : Reg) (slot : BitVec 3) : RoundTrip.Statement (.quant d a b slot) := by
  refine ⟨?_, nofun⟩
  intro alloc f hw hf
  cases hf
  clear hw
  exact read_of (n := .quant (Reg.ofCode d.code) (Reg.ofCode a.code) (Reg.ofCode b.code) ((slot.setWidth 8).extractLsb' 0 3)) rfl rfl rfl (FieldKind.reg_code _) (FieldKind.reg_code _) (FieldKind.reg_code _) (FieldKind.mask_7 _) rfl
    (by simp only [Reg.ofCode_code, low_three])
theorem RoundTrip.dequant (d : Reg) (a : Reg) (b : Reg) (slot : BitVec 3) : RoundTrip.Statement (.dequant d a b slot) := by
  refine ⟨?_, nofun⟩
  intro alloc f hw hf
  cases hf
  clear hw
  exact read_of (n := .dequant (Reg.ofCode d.code) (Reg.ofCode a.code) (Reg.ofCode b.code) ((slot.setWidth 8).extractLsb' 0 3)) rfl rfl rfl (FieldKind.reg_code _) (FieldKind.reg_code _) (FieldKind.reg_code _) (FieldKind.mask_7 _) rfl
    (by simp only [Reg.ofCode_code, low_three])
theorem RoundTrip.cbdec (d : Reg) (a : Reg) (b : Reg) (c : Reg) (f16 : Bool) : RoundTrip.Statement (.cbdec d a b c f16) := by
  refine ⟨?_, nofun⟩
  intro alloc f hw hf
  cases hf
  clear hw
  cases f16 <;>
    exact read_of (n := .cbdec (Reg.ofCode d.code) (Reg.ofCode a.code) (Reg.ofCode b.code) (Reg.ofCode c.code) _) rfl rfl rfl (FieldKind.reg_code _) (FieldKind.reg_code _) (FieldKind.reg_code _) (FieldKind.reg_code _) rfl
    (by simp only [Reg.ofCode_code]; rfl)
theorem RoundTrip.tagget (d : Reg) (a : Reg) : RoundTrip.Statement (.tagget d a) := by
  refine ⟨?_, nofun⟩
  intro alloc f hw hf
  cases hf
  clear hw
  exact read_of (n := .tagget (Reg.ofCode d.code) (Reg.ofCode a.code)) rfl rfl rfl (FieldKind.reg_code _) (FieldKind.reg_code _) rfl rfl rfl
    (by simp only [Reg.ofCode_code])
theorem RoundTrip.tagset (op : TagsetOp) (d : Reg) (a : Reg) : RoundTrip.Statement (.tagset op d a) := by
  refine ⟨?_, nofun⟩
  cases op with
  | value y0 =>
    intro alloc f hw hf
    cases hf
    clear hw
    exact read_of (n := .tagset (.value (Reg.ofCode y0.code)) (Reg.ofCode d.code) (Reg.ofCode a.code)) rfl rfl rfl (FieldKind.reg_code _) (FieldKind.reg_code _) (FieldKind.reg_code _) rfl rfl
      (by simp only [Reg.ofCode_code])
  | null =>
    intro alloc f hw hf
    cases hf
    clear hw
    exact read_of (n := .tagset .null (Reg.ofCode d.code) (Reg.ofCode a.code)) rfl rfl rfl (FieldKind.reg_code _) (FieldKind.reg_code _) rfl rfl rfl
      (by simp only [Reg.ofCode_code])
  | copy y0 =>
    intro alloc f hw hf
    cases hf
    clear hw
    exact read_of (n := .tagset (.copy (Reg.ofCode y0.code)) (Reg.ofCode d.code) (Reg.ofCode a.code)) rfl rfl rfl (FieldKind.reg_code _) (FieldKind.reg_code _) (FieldKind.reg_code _) rfl rfl
      (by simp only [Reg.ofCode_code])
theorem RoundTrip.tagbirth (d : Reg) (a : Reg) : RoundTrip.Statement (.tagbirth d a) := by
  refine ⟨?_, nofun⟩
  intro alloc f hw hf
  cases hf
  clear hw
  exact read_of (n := .tagbirth (Reg.ofCode d.code) (Reg.ofCode a.code)) rfl rfl rfl (FieldKind.reg_code _) (FieldKind.reg_code _) rfl rfl rfl
    (by simp only [Reg.ofCode_code])
theorem RoundTrip.originRefillDone (core : Nat) : RoundTrip.Statement (.originRefillDone core) := ⟨nofun, nofun⟩
theorem RoundTrip.origin (d : Reg) (a : Reg) (f : Flag) : RoundTrip.Statement (.origin d a f) := by
  refine ⟨?_, nofun⟩
  intro alloc f hw hf
  cases hf
  clear hw
  exact read_of (n := .origin (Reg.ofCode d.code) (Reg.ofCode a.code) (Flag.ofCode (Flag.code f))) rfl rfl rfl (FieldKind.reg_code _) (FieldKind.reg_code _) rfl (FieldKind.flag_code _) rfl
    (by simp only [Reg.ofCode_code, Flag.ofCode_code])
theorem RoundTrip.shfl (mode : ShflMode) (d : Reg) (a : Reg) (b : Reg) (w : SegWidth) : RoundTrip.Statement (.shfl mode d a b w) := by
  refine ⟨?_, nofun⟩
  intro alloc f hw hf
  cases hf
  clear hw
  cases mode <;> cases w <;>
    exact read_of (n := .shfl _ (Reg.ofCode d.code) (Reg.ofCode a.code) (Reg.ofCode b.code) _) rfl rfl rfl (FieldKind.reg_code _) (FieldKind.reg_code _) (FieldKind.reg_code _) rfl rfl
    (by simp only [Reg.ofCode_code]; rfl)
theorem RoundTrip.qswap (mode : QswapMode) (d : Reg) (a : Reg) : RoundTrip.Statement (.qswap mode d a) := by
  refine ⟨?_, nofun⟩
  intro alloc f hw hf
  cases hf
  clear hw
  cases mode <;>
    exact read_of (n := .qswap _ (Reg.ofCode d.code) (Reg.ofCode a.code)) rfl rfl rfl (FieldKind.reg_code _) (FieldKind.reg_code _) rfl rfl rfl
    (by simp only [Reg.ofCode_code]; rfl)
theorem RoundTrip.qbcast (d : Reg) (a : Reg) (n : BitVec 2) : RoundTrip.Statement (.qbcast d a n) := by
  refine ⟨?_, nofun⟩
  intro alloc f hw hf
  cases hf
  clear hw
  exact read_of (n := .qbcast (Reg.ofCode d.code) (Reg.ofCode a.code) ((n.setWidth 8).extractLsb' 0 2)) rfl rfl rfl (FieldKind.reg_code _) (FieldKind.reg_code _) (FieldKind.lim_4 _) rfl rfl
    (by simp only [Reg.ofCode_code, low_two])
theorem RoundTrip.gred (op : GredOp) (d : Reg) (a : Reg) : RoundTrip.Statement (.gred op d a) := by
  refine ⟨?_, nofun⟩
  intro alloc f hw hf
  cases hf
  clear hw
  cases op <;>
    exact read_of (n := .gred _ (Reg.ofCode d.code) (Reg.ofCode a.code)) rfl rfl rfl (FieldKind.reg_code _) (FieldKind.reg_code _) rfl rfl rfl
    (by simp only [Reg.ofCode_code]; rfl)
theorem RoundTrip.gscan (op : GscanOp) (d : Reg) (a : Reg) : RoundTrip.Statement (.gscan op d a) := by
  refine ⟨?_, nofun⟩
  intro alloc f hw hf
  cases hf
  clear hw
  cases op <;>
    exact read_of (n := .gscan _ (Reg.ofCode d.code) (Reg.ofCode a.code)) rfl rfl rfl (FieldKind.reg_code _) (FieldKind.reg_code _) rfl rfl rfl
    (by simp only [Reg.ofCode_code]; rfl)
theorem RoundTrip.vote (all : Bool) (kd : BitVec 3) (ka : KSel) : RoundTrip.Statement (.vote all kd ka) := by
  refine ⟨?_, nofun⟩
  intro alloc f hw hf
  cases hf
  clear hw
  cases all <;>
    exact read_of (n := .vote _ ((kd.setWidth 8).extractLsb' 0 3) (KSel.ofCode ka.code)) rfl rfl rfl (FieldKind.mask_7 _) (FieldKind.ksel_code _) rfl rfl rfl
    (by simp only [KSel.ofCode_code, low_three]; rfl)
theorem RoundTrip.voteBallot (d : Reg) (ka : KSel) : RoundTrip.Statement (.voteBallot d ka) := by
  refine ⟨?_, nofun⟩
  intro alloc f hw hf
  cases hf
  clear hw
  exact read_of (n := .voteBallot (Reg.ofCode d.code) (KSel.ofCode ka.code)) rfl rfl rfl (FieldKind.reg_code _) (FieldKind.ksel_code _) rfl rfl rfl
    (by simp only [Reg.ofCode_code, KSel.ofCode_code])
theorem RoundTrip.kop (op : KopOp) (kd : BitVec 3) (ka : KSel) (kb : KSel) : RoundTrip.Statement (.kop op kd ka kb) := by
  refine ⟨?_, nofun⟩
  intro alloc f hw hf
  cases hf
  clear hw
  cases op <;>
    exact read_of (n := .kop _ ((kd.setWidth 8).extractLsb' 0 3) (KSel.ofCode ka.code) (KSel.ofCode kb.code)) rfl rfl rfl (FieldKind.mask_7 _) (FieldKind.ksel_code _) (FieldKind.ksel_code _) rfl rfl
    (by simp only [KSel.ofCode_code, low_three]; rfl)
theorem RoundTrip.kmovGet (d : Reg) : RoundTrip.Statement (.kmovGet d) := by
  refine ⟨?_, nofun⟩
  intro alloc f hw hf
  cases hf
  clear hw
  exact read_of (n := .kmovGet (Reg.ofCode d.code)) rfl rfl rfl (FieldKind.reg_code _) rfl rfl rfl rfl
    (by simp only [Reg.ofCode_code])
theorem RoundTrip.kmovSet (a : Reg) : RoundTrip.Statement (.kmovSet a) := by
  refine ⟨?_, nofun⟩
  intro alloc f hw hf
  cases hf
  clear hw
  exact read_of (n := .kmovSet (Reg.ofCode a.code)) rfl rfl rfl rfl (FieldKind.reg_code _) rfl rfl rfl
    (by simp only [Reg.ofCode_code])
theorem RoundTrip.elect (kd : BitVec 3) : RoundTrip.Statement (.elect kd) := by
  refine ⟨?_, nofun⟩
  intro alloc f hw hf
  cases hf
  clear hw
  exact read_of (n := .elect ((kd.setWidth 8).extractLsb' 0 3)) rfl rfl rfl (FieldKind.mask_7 _) rfl rfl rfl rfl
    (by simp only [low_three])
theorem RoundTrip.matchLanes (d : Reg) (a : Reg) : RoundTrip.Statement (.matchLanes d a) := by
  refine ⟨?_, nofun⟩
  intro alloc f hw hf
  cases hf
  clear hw
  exact read_of (n := .matchLanes (Reg.ofCode d.code) (Reg.ofCode a.code)) rfl rfl rfl (FieldKind.reg_code _) (FieldKind.reg_code _) rfl rfl rfl
    (by simp only [Reg.ofCode_code])
theorem RoundTrip.ld (w : Width) (d : Reg) (a : Reg) (off : BitVec 16) : RoundTrip.Statement (.ld w d a off) := by
  refine ⟨?_, nofun⟩
  intro alloc f hw hf
  cases hf
  clear hw
  cases w <;>
    exact read_of (n := .ld _ (Reg.ofCode d.code) (Reg.ofCode a.code) ((off.extractLsb' 8 8) ++ (off.extractLsb' 0 8))) rfl rfl rfl (FieldKind.reg_code _) (FieldKind.reg_code _) rfl rfl rfl
    (by simp only [Reg.ofCode_code, imm16_bytes]; rfl)
theorem RoundTrip.st (w : Width) (d : Reg) (a : Reg) (off : BitVec 16) : RoundTrip.Statement (.st w d a off) := by
  refine ⟨?_, nofun⟩
  intro alloc f hw hf
  cases hf
  clear hw
  cases w <;>
    exact read_of (n := .st _ (Reg.ofCode d.code) (Reg.ofCode a.code) ((off.extractLsb' 8 8) ++ (off.extractLsb' 0 8))) rfl rfl rfl (FieldKind.reg_code _) (FieldKind.reg_code _) rfl rfl rfl
    (by simp only [Reg.ofCode_code, imm16_bytes]; rfl)
theorem RoundTrip.ldp (w : Width) (d : Reg) (a : Reg) (off : BitVec 8) (f : Flag) : RoundTrip.Statement (.ldp w d a off f) := by
  refine ⟨?_, nofun⟩
  intro alloc f hw hf
  cases hf
  clear hw
  cases w <;>
    exact read_of (n := .ldp _ (Reg.ofCode d.code) (Reg.ofCode a.code) off (Flag.ofCode (Flag.code f))) rfl rfl rfl (FieldKind.reg_code _) (FieldKind.reg_code _) rfl (FieldKind.flag_code _) rfl
    (by simp only [Reg.ofCode_code, Flag.ofCode_code]; rfl)
theorem RoundTrip.stp (w : Width) (d : Reg) (a : Reg) (off : BitVec 16) : RoundTrip.Statement (.stp w d a off) := by
  refine ⟨?_, nofun⟩
  intro alloc f hw hf
  cases hf
  clear hw
  cases w <;>
    exact read_of (n := .stp _ (Reg.ofCode d.code) (Reg.ofCode a.code) ((off.extractLsb' 8 8) ++ (off.extractLsb' 0 8))) rfl rfl rfl (FieldKind.reg_code _) (FieldKind.reg_code _) rfl rfl rfl
    (by simp only [Reg.ofCode_code, imm16_bytes]; rfl)
theorem RoundTrip.ldt (d : Reg) (a : Reg) (off : BitVec 16) : RoundTrip.Statement (.ldt d a off) := by
  refine ⟨?_, nofun⟩
  intro alloc f hw hf
  cases hf
  clear hw
  exact read_of (n := .ldt (Reg.ofCode d.code) (Reg.ofCode a.code) ((off.extractLsb' 8 8) ++ (off.extractLsb' 0 8))) rfl rfl rfl (FieldKind.reg_code _) (FieldKind.reg_code _) rfl rfl rfl
    (by simp only [Reg.ofCode_code, imm16_bytes])
theorem RoundTrip.atom (op : AtomOp) (d : Reg) (a : Reg) (b : Reg) (c : Reg) : RoundTrip.Statement (.atom op d a b c) := by
  refine ⟨?_, nofun⟩
  intro alloc f hw hf
  cases hf
  have hz : op ≠ .cas → c = .v 0 := by
    intro h0
    have h1 : (if c = .v 0 then [] else [0x04]) = ([] : List Nat) := by
      cases op <;> first | exact absurd rfl h0 | exact (List.append_eq_nil_iff.mp (List.append_eq_nil_iff.mp hw).1).2
    by_contra h
    simp [h] at h1
  have ha : op ≠ .amax := by
    rintro rfl
    have h1 : [0x03] = ([] : List Nat) := (List.append_eq_nil_iff.mp (List.append_eq_nil_iff.mp hw).1).1
    exact absurd h1 (by simp)
  clear hw
  cases op
  case cas =>
    exact read_of (n := .atom _ (Reg.ofCode d.code) (Reg.ofCode a.code) (Reg.ofCode b.code) (Reg.ofCode c.code)) rfl rfl rfl
      (FieldKind.reg_code _) (FieldKind.reg_code _) (FieldKind.reg_code _) (FieldKind.reg_code _) rfl
      (by simp only [Reg.ofCode_code]; rfl)
  case amax => exact absurd rfl ha
  all_goals
    obtain rfl := hz (by decide)
    exact read_of (n := .atom _ (Reg.ofCode d.code) (Reg.ofCode a.code) (Reg.ofCode b.code) (.v 0)) rfl rfl rfl
      (FieldKind.reg_code _) (FieldKind.reg_code _) (FieldKind.reg_code _) rfl rfl (by simp only [Reg.ofCode_code]; rfl)
theorem RoundTrip.atomp (op : AtomOp) (d : Reg) (a : Reg) (b : Reg) (f : Flag) : RoundTrip.Statement (.atomp op d a b f) := by
  refine ⟨?_, nofun⟩
  intro alloc x hw hf
  cases hf
  have ha : op ≠ .amax := by
    rintro rfl
    have h1 : [0x03] = ([] : List Nat) := (List.append_eq_nil_iff.mp hw).1
    exact absurd h1 (by simp)
  clear hw
  cases op
  case amax => exact absurd rfl ha
  all_goals
    exact read_of (n := .atomp _ (Reg.ofCode d.code) (Reg.ofCode a.code) (Reg.ofCode b.code) (Flag.ofCode (Flag.code f))) rfl
      rfl rfl (FieldKind.reg_code _) (FieldKind.reg_code _) (FieldKind.reg_code _) (FieldKind.flag_code _) rfl
      (by simp only [Reg.ofCode_code, Flag.ofCode_code]; rfl)
theorem RoundTrip.celladd (a : Reg) (b : Reg) (l : BitVec 8) : RoundTrip.Statement (.celladd a b l) := by
  refine ⟨?_, nofun⟩
  intro alloc f hw hf
  cases hf
  have hl : weightOk l = true := by
    have h1 : (if weightOk l then [] else [0x06]) = ([] : List Nat) := (List.append_eq_nil_iff.mp hw).1
    by_contra h
    simp [h] at h1
  clear hw
  exact read_of (n := .celladd (Reg.ofCode a.code) (Reg.ofCode b.code) l) rfl rfl rfl rfl (FieldKind.reg_code _) (FieldKind.reg_code _) (FieldKind.weight_ok hl) rfl
    (by simp only [Reg.ofCode_code])
theorem RoundTrip.cellrdF32 (d : Reg) (a : Reg) (l : BitVec 8) : RoundTrip.Statement (.cellrdF32 d a l) := by
  refine ⟨?_, nofun⟩
  intro alloc f hw hf
  cases hf
  have hl : weightOk l = true := by
    have h1 : (if weightOk l then [] else [0x06]) = ([] : List Nat) := (List.append_eq_nil_iff.mp hw).1
    by_contra h
    simp [h] at h1
  clear hw
  exact read_of (n := .cellrdF32 (Reg.ofCode d.code) (Reg.ofCode a.code) l) rfl rfl rfl (FieldKind.reg_code _) (FieldKind.reg_code _) rfl (FieldKind.weight_ok hl) rfl
    (by simp only [Reg.ofCode_code])
theorem RoundTrip.cellrdRaw (d : Reg) (a : Reg) : RoundTrip.Statement (.cellrdRaw d a) := by
  refine ⟨?_, nofun⟩
  intro alloc f hw hf
  cases hf
  clear hw
  exact read_of (n := .cellrdRaw (Reg.ofCode d.code) (Reg.ofCode a.code)) rfl rfl rfl (FieldKind.reg_code _) (FieldKind.reg_code _) rfl rfl rfl
    (by simp only [Reg.ofCode_code])
theorem RoundTrip.cellclr (a : Reg) : RoundTrip.Statement (.cellclr a) := by
  refine ⟨?_, nofun⟩
  intro alloc f hw hf
  cases hf
  clear hw
  exact read_of (n := .cellclr (Reg.ofCode a.code)) rfl rfl rfl rfl (FieldKind.reg_code _) rfl rfl rfl
    (by simp only [Reg.ofCode_code])
theorem RoundTrip.gld (w : GWidth) (d : Reg) (a : Reg) (f : Flag) : RoundTrip.Statement (.gld w d a f) := by
  refine ⟨?_, nofun⟩
  intro alloc f hw hf
  cases hf
  clear hw
  cases w <;>
    exact read_of (n := .gld _ (Reg.ofCode d.code) (Reg.ofCode a.code) (Flag.ofCode (Flag.code f))) rfl rfl rfl (FieldKind.reg_code _) (FieldKind.reg_code _) rfl (FieldKind.flag_code _) rfl
    (by simp only [Reg.ofCode_code, Flag.ofCode_code]; rfl)
theorem RoundTrip.gst (w : GWidth) (a : Reg) (b : Reg) : RoundTrip.Statement (.gst w a b) := by
  refine ⟨?_, nofun⟩
  intro alloc f hw hf
  cases hf
  clear hw
  cases w <;>
    exact read_of (n := .gst _ (Reg.ofCode a.code) (Reg.ofCode b.code)) rfl rfl rfl rfl (FieldKind.reg_code _) (FieldKind.reg_code _) rfl rfl
    (by simp only [Reg.ofCode_code]; rfl)
theorem RoundTrip.gatom (op : AtomOp) (d : Reg) (a : Reg) (b : Reg) (f : Flag) : RoundTrip.Statement (.gatom op d a b f) := by
  refine ⟨?_, nofun⟩
  intro alloc f hw hf
  cases hf
  clear hw
  cases op <;>
    exact read_of (n := .gatom _ (Reg.ofCode d.code) (Reg.ofCode a.code) (Reg.ofCode b.code) (Flag.ofCode (Flag.code f))) rfl rfl rfl (FieldKind.reg_code _) (FieldKind.reg_code _) (FieldKind.reg_code _) (FieldKind.flag_code _) rfl
    (by simp only [Reg.ofCode_code, Flag.ofCode_code]; rfl)
theorem RoundTrip.gcelladd (a : Reg) (b : Reg) (l : BitVec 8) : RoundTrip.Statement (.gcelladd a b l) := by
  refine ⟨?_, nofun⟩
  intro alloc f hw hf
  cases hf
  have hl : weightOk l = true := by
    have h1 : (if weightOk l then [] else [0x06]) = ([] : List Nat) := (List.append_eq_nil_iff.mp hw).1
    by_contra h
    simp [h] at h1
  clear hw
  exact read_of (n := .gcelladd (Reg.ofCode a.code) (Reg.ofCode b.code) l) rfl rfl rfl rfl (FieldKind.reg_code _) (FieldKind.reg_code _) (FieldKind.weight_ok hl) rfl
    (by simp only [Reg.ofCode_code])
theorem RoundTrip.globalAccessPerform (id : Nat) (how : PerformHow) : RoundTrip.Statement (.globalAccessPerform id how) := ⟨nofun, nofun⟩
theorem RoundTrip.hostPortAcknowledge (id : Nat) : RoundTrip.Statement (.hostPortAcknowledge id) := ⟨nofun, nofun⟩
theorem RoundTrip.cpy (a : Reg) (scope : Scope) : RoundTrip.Statement (.cpy a scope) := by
  refine ⟨?_, nofun⟩
  intro alloc f hw hf
  cases hf
  clear hw
  cases scope <;>
    exact read_of (n := .cpy (Reg.ofCode a.code) _) rfl rfl rfl rfl (FieldKind.reg_code _) rfl rfl rfl
    (by simp only [Reg.ofCode_code]; rfl)
theorem RoundTrip.cpyx (a : Reg) (scope : Scope) : RoundTrip.Statement (.cpyx a scope) := by
  refine ⟨?_, nofun⟩
  intro alloc f hw hf
  cases hf
  clear hw
  cases scope <;>
    exact read_of (n := .cpyx (Reg.ofCode a.code) _) rfl rfl rfl rfl (FieldKind.reg_code _) rfl rfl rfl
    (by simp only [Reg.ofCode_code]; rfl)
theorem RoundTrip.cpyi (d : Reg) (a : Reg) (b : Reg) (scope : Scope) : RoundTrip.Statement (.cpyi d a b scope) := by
  refine ⟨?_, nofun⟩
  intro alloc f hw hf
  cases hf
  clear hw
  cases scope <;>
    exact read_of (n := .cpyi (Reg.ofCode d.code) (Reg.ofCode a.code) (Reg.ofCode b.code) _) rfl rfl rfl (FieldKind.reg_code _) (FieldKind.reg_code _) (FieldKind.reg_code _) rfl rfl
    (by simp only [Reg.ofCode_code]; rfl)
theorem RoundTrip.seal : RoundTrip.Statement (.seal) := by
  refine ⟨?_, nofun⟩
  intro alloc f hw hf
  cases hf
  clear hw
  exact read_of (n := .seal) rfl rfl rfl rfl rfl rfl rfl rfl
    rfl
theorem RoundTrip.autoSeal (g : Nat) (lane : Nat) : RoundTrip.Statement (.autoSeal g lane) := ⟨nofun, nofun⟩
theorem RoundTrip.cbcast (d : Reg) (a : Reg) (b : Reg) (c : Reg) : RoundTrip.Statement (.cbcast d a b c) := by
  refine ⟨?_, nofun⟩
  intro alloc f hw hf
  cases hf
  clear hw
  exact read_of (n := .cbcast (Reg.ofCode d.code) (Reg.ofCode a.code) (Reg.ofCode b.code) (Reg.ofCode c.code)) rfl rfl rfl (FieldKind.reg_code _) (FieldKind.reg_code _) (FieldKind.reg_code _) (FieldKind.reg_code _) rfl
    (by simp only [Reg.ofCode_code])
theorem RoundTrip.ccoll (op : CcollOp) (a : Reg) (scope : Scope) : RoundTrip.Statement (.ccoll op a scope) := by
  refine ⟨?_, nofun⟩
  intro alloc f hw hf
  cases hf
  clear hw
  cases op <;> cases scope <;>
    exact read_of (n := .ccoll _ (Reg.ofCode a.code) _) rfl rfl rfl rfl (FieldKind.reg_code _) rfl rfl rfl
    (by simp only [Reg.ofCode_code]; rfl)
theorem RoundTrip.cpyq (d : Reg) (sel : BitVec 1) (f : Flag) : RoundTrip.Statement (.cpyq d sel f) := by
  refine ⟨?_, nofun⟩
  intro alloc f hw hf
  cases hf
  clear hw
  exact read_of (n := .cpyq (Reg.ofCode d.code) ((sel.setWidth 8).extractLsb' 0 1) (Flag.ofCode (Flag.code f))) rfl rfl rfl (FieldKind.reg_code _) (FieldKind.lim_2 _) rfl (FieldKind.flag_code _) rfl
    (by simp only [Reg.ofCode_code, Flag.ofCode_code, low_one])
theorem RoundTrip.copyCommandStart (core : Nat) : RoundTrip.Statement (.copyCommandStart core) := ⟨nofun, nofun⟩
theorem RoundTrip.copyCommandFinish (core : Nat) (id : Nat) : RoundTrip.Statement (.copyCommandFinish core id) := ⟨nofun, nofun⟩
theorem RoundTrip.collectiveTimeout (core : Nat) (id : Nat) : RoundTrip.Statement (.collectiveTimeout core id) := ⟨nofun, nofun⟩
theorem RoundTrip.routineRestartPoint (core : Nat) (id : Nat) : RoundTrip.Statement (.routineRestartPoint core id) := ⟨nofun, nofun⟩
theorem RoundTrip.routineSleep (core : Nat) (id : Nat) : RoundTrip.Statement (.routineSleep core id) := ⟨nofun, nofun⟩
theorem RoundTrip.routineReturn (core : Nat) (id : Nat) (status : W64) (out : List (Byte × Tag)) : RoundTrip.Statement (.routineReturn core id status out) := ⟨nofun, nofun⟩
theorem RoundTrip.routineWatchdog (core : Nat) (id : Nat) : RoundTrip.Statement (.routineWatchdog core id) := ⟨nofun, nofun⟩
theorem RoundTrip.trsv (kd : BitVec 3) (wait : Bool) : RoundTrip.Statement (.trsv kd wait) := by
  refine ⟨?_, nofun⟩
  intro alloc f hw hf
  cases hf
  clear hw
  cases wait <;>
    exact read_of (n := .trsv ((kd.setWidth 8).extractLsb' 0 3) _) rfl rfl rfl (FieldKind.mask_7 _) rfl rfl rfl rfl
    (by simp only [low_three]; rfl)
theorem RoundTrip.trel : RoundTrip.Statement (.trel) := by
  refine ⟨?_, nofun⟩
  intro alloc f hw hf
  cases hf
  clear hw
  exact read_of (n := .trel) rfl rfl rfl rfl rfl rfl rfl rfl
    rfl
theorem RoundTrip.tmma (td : BitVec 6) (a : Reg) (b : Reg) (sa : BitVec 3) (sb : BitVec 3) (z : Bool) : RoundTrip.Statement (.tmma td a b sa sb z) := by
  refine ⟨?_, nofun⟩
  intro alloc f hw hf
  cases hf
  clear hw
  cases z <;>
    exact read_of (n := .tmma ((td.setWidth 8).extractLsb' 0 6) (Reg.ofCode a.code) (Reg.ofCode b.code) ((sa.setWidth 8 ||| (sb.setWidth 8 <<< 3)).extractLsb' 0 3) ((sa.setWidth 8 ||| (sb.setWidth 8 <<< 3)).extractLsb' 3 3) _) rfl rfl rfl (FieldKind.lim_64 _) (FieldKind.reg_code _) (FieldKind.reg_code _) (FieldKind.two_fields _ _) rfl
    (by simp only [Reg.ofCode_code, (two_fields_plain _ _).1, (two_fields_plain _ _).2, low_six]; rfl)
theorem RoundTrip.tmmas (td : BitVec 6) (a : Reg) (b : Reg) (sa : BitVec 3) (sb : BitVec 3) (z : Bool) : RoundTrip.Statement (.tmmas td a b sa sb z) := by
  refine ⟨?_, nofun⟩
  intro alloc f hw hf
  cases hf
  clear hw
  cases z <;>
    exact read_of (n := .tmmas ((td.setWidth 8).extractLsb' 0 6) (Reg.ofCode a.code) (Reg.ofCode b.code) ((sa.setWidth 8 ||| (sb.setWidth 8 <<< 3)).extractLsb' 0 3) ((sa.setWidth 8 ||| (sb.setWidth 8 <<< 3)).extractLsb' 3 3) _) rfl rfl rfl (FieldKind.lim_64 _) (FieldKind.reg_code _) (FieldKind.reg_code _) (FieldKind.two_fields _ _) rfl
    (by simp only [Reg.ofCode_code, (two_fields_plain _ _).1, (two_fields_plain _ _).2, low_six]; rfl)
theorem RoundTrip.tmmal (td : BitVec 6) (a : Reg) (tt : BitVec 6) (slot : BitVec 3) (z : Bool) : RoundTrip.Statement (.tmmal td a tt slot z) := by
  refine ⟨?_, nofun⟩
  intro alloc f hw hf
  cases hf
  clear hw
  cases z <;>
    exact read_of (n := .tmmal ((td.setWidth 8).extractLsb' 0 6) (Reg.ofCode a.code) ((tt.setWidth 8).extractLsb' 0 6) ((slot.setWidth 8).extractLsb' 0 3) _) rfl rfl rfl (FieldKind.lim_64 _) (FieldKind.reg_code _) (FieldKind.lim_64 _) (FieldKind.mask_7 _) rfl
    (by simp only [Reg.ofCode_code, low_three, low_six]; rfl)
theorem RoundTrip.tlutb (tt : BitVec 6) (a : Reg) (h : BitVec 1) (slot : BitVec 3) (bf : Bool) : RoundTrip.Statement (.tlutb tt a h slot bf) := by
  refine ⟨?_, nofun⟩
  intro alloc f hw hf
  cases hf
  clear hw
  cases bf <;>
    exact read_of (n := .tlutb ((tt.setWidth 8).extractLsb' 0 6) (Reg.ofCode a.code) ((h.setWidth 8).extractLsb' 0 1) ((slot.setWidth 8).extractLsb' 0 3) _) rfl rfl rfl (FieldKind.lim_64 _) (FieldKind.reg_code _) (FieldKind.lim_2 _) (FieldKind.mask_7 _) rfl
    (by simp only [Reg.ofCode_code, low_one, low_three, low_six]; rfl)
theorem RoundTrip.tzero (td : BitVec 6) : RoundTrip.Statement (.tzero td) := by
  refine ⟨?_, nofun⟩
  intro alloc f hw hf
  cases hf
  clear hw
  exact read_of (n := .tzero ((td.setWidth 8).extractLsb' 0 6)) rfl rfl rfl (FieldKind.lim_64 _) rfl rfl rfl rfl
    (by simp only [low_six])
theorem RoundTrip.taccld (td : BitVec 6) (a : Reg) (t : Bool) : RoundTrip.Statement (.taccld td a t) := by
  refine ⟨?_, nofun⟩
  intro alloc f hw hf
  cases hf
  clear hw
  cases t <;>
    exact read_of (n := .taccld ((td.setWidth 8).extractLsb' 0 6) (Reg.ofCode a.code) _) rfl rfl rfl (FieldKind.lim_64 _) (FieldKind.reg_code _) rfl rfl rfl
    (by simp only [Reg.ofCode_code, low_six]; rfl)
theorem RoundTrip.taccst (op : TaccstOp) (td : BitVec 6) (a : Reg) (slot : BitVec 3) : RoundTrip.Statement (.taccst op td a slot) := by
  refine ⟨?_, nofun⟩
  cases op with
  | plain =>
    intro alloc f hw hf
    cases hf
    clear hw
    exact read_of (n := .taccst .plain ((td.setWidth 8).extractLsb' 0 6) (Reg.ofCode a.code) ((slot.setWidth 8).extractLsb' 0 3)) rfl rfl rfl (FieldKind.lim_64 _) (FieldKind.reg_code _) rfl (FieldKind.mask_7 _) rfl
      (by simp only [Reg.ofCode_code, low_three, low_six])
  | scale y0 y1 =>
    intro alloc f hw hf
    cases hf
    clear hw
    exact read_of (n := .taccst (.scale ((slot.setWidth 8 ||| (y0.setWidth 8 <<< 3) ||| (if y1 then 64 else 0)).extractLsb' 3 3) ((slot.setWidth 8 ||| (y0.setWidth 8 <<< 3) ||| (if y1 then 64 else 0)).getLsbD 6)) ((td.setWidth 8).extractLsb' 0 6) (Reg.ofCode a.code) ((slot.setWidth 8 ||| (y0.setWidth 8 <<< 3) ||| (if y1 then 64 else 0)).extractLsb' 0 3)) rfl rfl rfl (FieldKind.lim_64 _) (FieldKind.reg_code _) rfl (FieldKind.two_fields_bit _ _ _) rfl
      (by simp only [Reg.ofCode_code, (two_fields _ _ _).1, (two_fields _ _ _).2.1, (two_fields _ _ _).2.2, low_six])
  | scalemax y0 y1 y2 =>
    intro alloc f hw hf
    cases hf
    clear hw
    exact read_of (n := .taccst (.scalemax ((slot.setWidth 8 ||| (y0.setWidth 8 <<< 3) ||| (if y1 then 64 else 0)).extractLsb' 3 3) ((slot.setWidth 8 ||| (y0.setWidth 8 <<< 3) ||| (if y1 then 64 else 0)).getLsbD 6) (Reg.ofCode y2.code)) ((td.setWidth 8).extractLsb' 0 6) (Reg.ofCode a.code) ((slot.setWidth 8 ||| (y0.setWidth 8 <<< 3) ||| (if y1 then 64 else 0)).extractLsb' 0 3)) rfl rfl rfl (FieldKind.lim_64 _) (FieldKind.reg_code _) (FieldKind.reg_code _) (FieldKind.two_fields_bit _ _ _) rfl
      (by simp only [Reg.ofCode_code, (two_fields _ _ _).1, (two_fields _ _ _).2.1, (two_fields _ _ _).2.2, low_six])
theorem RoundTrip.ttrn (a : Reg) (b : Reg) (slot : BitVec 3) : RoundTrip.Statement (.ttrn a b slot) := by
  refine ⟨?_, nofun⟩
  intro alloc f hw hf
  cases hf
  clear hw
  exact read_of (n := .ttrn (Reg.ofCode a.code) (Reg.ofCode b.code) ((slot.setWidth 8).extractLsb' 0 3)) rfl rfl rfl rfl (FieldKind.reg_code _) (FieldKind.reg_code _) (FieldKind.mask_7 _) rfl
    (by simp only [Reg.ofCode_code, low_three])
theorem RoundTrip.taddw (td : BitVec 6) (a : Reg) (slot : BitVec 3) : RoundTrip.Statement (.taddw td a slot) := by
  refine ⟨?_, nofun⟩
  intro alloc f hw hf
  cases hf
  clear hw
  exact read_of (n := .taddw ((td.setWidth 8).extractLsb' 0 6) (Reg.ofCode a.code) ((slot.setWidth 8).extractLsb' 0 3)) rfl rfl rfl (FieldKind.lim_64 _) (FieldKind.reg_code _) rfl (FieldKind.mask_7 _) rfl
    (by simp only [Reg.ofCode_code, low_three, low_six])
theorem RoundTrip.tscan (f32 : Bool) (td : BitVec 6) : RoundTrip.Statement (.tscan f32 td) := by
  refine ⟨?_, nofun⟩
  intro alloc f hw hf
  cases hf
  clear hw
  cases f32 <;>
    exact read_of (n := .tscan _ ((td.setWidth 8).extractLsb' 0 6)) rfl rfl rfl (FieldKind.lim_64 _) rfl rfl rfl rfl
    (by simp only [low_six]; rfl)
theorem RoundTrip.tscld (sc : BitVec 3) (a : Reg) : RoundTrip.Statement (.tscld sc a) := by
  refine ⟨?_, nofun⟩
  intro alloc f hw hf
  cases hf
  clear hw
  exact read_of (n := .tscld ((sc.setWidth 8).extractLsb' 0 3) (Reg.ofCode a.code)) rfl rfl rfl (FieldKind.lim_8 _) (FieldKind.reg_code _) rfl rfl rfl
    (by simp only [Reg.ofCode_code, low_three])
theorem RoundTrip.tstat (a : Reg) : RoundTrip.Statement (.tstat a) := by
  refine ⟨?_, nofun⟩
  intro alloc f hw hf
  cases hf
  clear hw
  exact read_of (n := .tstat (Reg.ofCode a.code)) rfl rfl rfl rfl (FieldKind.reg_code _) rfl rfl rfl
    (by simp only [Reg.ofCode_code])
theorem RoundTrip.tileOpStart (core : Nat) : RoundTrip.Statement (.tileOpStart core) := ⟨nofun, nofun⟩
theorem RoundTrip.tileOpComplete (core : Nat) : RoundTrip.Statement (.tileOpComplete core) := ⟨nofun, nofun⟩
theorem RoundTrip.tileFold (core : Nat) : RoundTrip.Statement (.tileFold core) := ⟨nofun, nofun⟩
theorem RoundTrip.pencfg (p : BitVec 4) (a : Reg) : RoundTrip.Statement (.pencfg p a) := by
  refine ⟨?_, nofun⟩
  intro alloc f hw hf
  cases hf
  clear hw
  exact read_of (n := .pencfg ((p.setWidth 8).extractLsb' 0 4) (Reg.ofCode a.code)) rfl rfl rfl (FieldKind.lim_16 _) (FieldKind.reg_code _) rfl rfl rfl
    (by simp only [Reg.ofCode_code, low_four])
theorem RoundTrip.suspend (wait : Bool) (p : BitVec 4) (a : Reg) (off : BitVec 16) : RoundTrip.Statement (.suspend wait p a off) := by
  refine ⟨?_, nofun⟩
  intro alloc f hw hf
  cases hf
  clear hw
  cases wait <;>
    exact read_of (n := .suspend _ ((p.setWidth 8).extractLsb' 0 4) (Reg.ofCode a.code) ((off.extractLsb' 8 8) ++ (off.extractLsb' 0 8))) rfl rfl rfl (FieldKind.lim_16 _) (FieldKind.reg_code _) rfl rfl rfl
    (by simp only [Reg.ofCode_code, low_four, imm16_bytes]; rfl)
theorem RoundTrip.penwakeMask (a : Reg) (b : Reg) : RoundTrip.Statement (.penwakeMask a b) := by
  refine ⟨?_, nofun⟩
  intro alloc f hw hf
  cases hf
  clear hw
  exact read_of (n := .penwakeMask (Reg.ofCode a.code) (Reg.ofCode b.code)) rfl rfl rfl rfl (FieldKind.reg_code _) (FieldKind.reg_code _) rfl rfl
    (by simp only [Reg.ofCode_code])
theorem RoundTrip.penwakeWord (p : BitVec 4) (a : Reg) : RoundTrip.Statement (.penwakeWord p a) := by
  refine ⟨?_, nofun⟩
  intro alloc f hw hf
  cases hf
  clear hw
  exact read_of (n := .penwakeWord ((p.setWidth 8).extractLsb' 0 4) (Reg.ofCode a.code)) rfl rfl rfl (FieldKind.lim_16 _) (FieldKind.reg_code _) rfl rfl rfl
    (by simp only [Reg.ofCode_code, low_four])
theorem RoundTrip.penflush (p : BitVec 4) (bin : Option Reg) : RoundTrip.Statement (.penflush p bin) := by
  refine ⟨?_, nofun⟩
  cases bin with
  | some y0 =>
    intro alloc f hw hf
    cases hf
    clear hw
    exact read_of (n := .penflush ((p.setWidth 8).extractLsb' 0 4) (some (Reg.ofCode y0.code))) rfl rfl rfl (FieldKind.lim_16 _) (FieldKind.reg_code _) rfl rfl rfl
      (by simp only [Reg.ofCode_code, low_four])
  | none =>
    intro alloc f hw hf
    cases hf
    clear hw
    exact read_of (n := .penflush ((p.setWidth 8).extractLsb' 0 4) none) rfl rfl rfl (FieldKind.lim_16 _) rfl rfl rfl rfl
      (by simp only [low_four])
theorem RoundTrip.penhold (rel : Bool) (p : BitVec 4) (a : Reg) : RoundTrip.Statement (.penhold rel p a) := by
  refine ⟨?_, nofun⟩
  intro alloc f hw hf
  cases hf
  clear hw
  cases rel <;>
    exact read_of (n := .penhold _ ((p.setWidth 8).extractLsb' 0 4) (Reg.ofCode a.code)) rfl rfl rfl (FieldKind.lim_16 _) (FieldKind.reg_code _) rfl rfl rfl
    (by simp only [Reg.ofCode_code, low_four]; rfl)
theorem RoundTrip.penstat (p : BitVec 4) (a : Reg) : RoundTrip.Statement (.penstat p a) := by
  refine ⟨?_, nofun⟩
  intro alloc f hw hf
  cases hf
  clear hw
  exact read_of (n := .penstat ((p.setWidth 8).extractLsb' 0 4) (Reg.ofCode a.code)) rfl rfl rfl (FieldKind.lim_16 _) (FieldKind.reg_code _) rfl rfl rfl
    (by simp only [Reg.ofCode_code, low_four])
theorem RoundTrip.pentile (p : BitVec 4) (a : Reg) (b : Reg) : RoundTrip.Statement (.pentile p a b) := by
  refine ⟨?_, nofun⟩
  intro alloc f hw hf
  cases hf
  clear hw
  exact read_of (n := .pentile ((p.setWidth 8).extractLsb' 0 4) (Reg.ofCode a.code) (Reg.ofCode b.code)) rfl rfl rfl (FieldKind.lim_16 _) (FieldKind.reg_code _) (FieldKind.reg_code _) rfl rfl
    (by simp only [Reg.ofCode_code, low_four])
theorem RoundTrip.penResume (core : Nat) : RoundTrip.Statement (.penResume core) := ⟨nofun, nofun⟩
theorem RoundTrip.aacfg (a : Reg) : RoundTrip.Statement (.aacfg a) := by
  refine ⟨?_, nofun⟩
  intro alloc f hw hf
  cases hf
  clear hw
  exact read_of (n := .aacfg (Reg.ofCode a.code)) rfl rfl rfl rfl (FieldKind.reg_code _) rfl rfl rfl
    (by simp only [Reg.ofCode_code])
theorem RoundTrip.aainf (op : AainfOp) (a : Reg) (b : Reg) : RoundTrip.Statement (.aainf op a b) := by
  refine ⟨?_, nofun⟩
  intro alloc f hw hf
  cases hf
  clear hw
  cases op <;>
    exact read_of (n := .aainf _ (Reg.ofCode a.code) (Reg.ofCode b.code)) rfl rfl rfl rfl (FieldKind.reg_code _) (FieldKind.reg_code _) rfl rfl
    (by simp only [Reg.ofCode_code]; rfl)
theorem RoundTrip.aatrn (op : AatrnOp) (a : Reg) (b : Reg) : RoundTrip.Statement (.aatrn op a b) := by
  refine ⟨?_, nofun⟩
  intro alloc f hw hf
  cases hf
  clear hw
  cases op <;>
    exact read_of (n := .aatrn _ (Reg.ofCode a.code) (Reg.ofCode b.code)) rfl rfl rfl rfl (FieldKind.reg_code _) (FieldKind.reg_code _) rfl rfl
    (by simp only [Reg.ofCode_code]; rfl)
theorem RoundTrip.aald (a : Reg) (b : Reg) : RoundTrip.Statement (.aald a b) := by
  refine ⟨?_, nofun⟩
  intro alloc f hw hf
  cases hf
  clear hw
  exact read_of (n := .aald (Reg.ofCode a.code) (Reg.ofCode b.code)) rfl rfl rfl rfl (FieldKind.reg_code _) (FieldKind.reg_code _) rfl rfl
    (by simp only [Reg.ofCode_code])
theorem RoundTrip.aast (a : Reg) (b : Reg) : RoundTrip.Statement (.aast a b) := by
  refine ⟨?_, nofun⟩
  intro alloc f hw hf
  cases hf
  clear hw
  exact read_of (n := .aast (Reg.ofCode a.code) (Reg.ofCode b.code)) rfl rfl rfl rfl (FieldKind.reg_code _) (FieldKind.reg_code _) rfl rfl
    (by simp only [Reg.ofCode_code])
theorem RoundTrip.aaq (d : Reg) (f : Flag) : RoundTrip.Statement (.aaq d f) := by
  refine ⟨?_, nofun⟩
  intro alloc f hw hf
  cases hf
  clear hw
  exact read_of (n := .aaq (Reg.ofCode d.code) (Flag.ofCode (Flag.code f))) rfl rfl rfl (FieldKind.reg_code _) rfl rfl (FieldKind.flag_code _) rfl
    (by simp only [Reg.ofCode_code, Flag.ofCode_code])
theorem RoundTrip.aaServe (pad : Nat) : RoundTrip.Statement (.aaServe pad) := ⟨nofun, nofun⟩
theorem RoundTrip.aaCommandComplete (pad : Nat) (id : Nat) : RoundTrip.Statement (.aaCommandComplete pad id) := ⟨nofun, nofun⟩
theorem RoundTrip.nopHalf : RoundTrip.Statement (.nopHalf) := by
  refine ⟨nofun, ?_⟩
  intro alloc h hw hh
  cases hh
  exact parseHalf_nop alloc
theorem RoundTrip.iaddHalf (d : Reg) (a : Reg) : RoundTrip.Statement (.iaddHalf d a) := by
  refine ⟨nofun, ?_⟩
  intro alloc h hw hh
  cases hh
  exact parseHalf_of 0x20 _ _ (by decide) rfl hw
theorem RoundTrip.isubHalf (d : Reg) (a : Reg) : RoundTrip.Statement (.isubHalf d a) := by
  refine ⟨nofun, ?_⟩
  intro alloc h hw hh
  cases hh
  exact parseHalf_of 0x21 _ _ (by decide) rfl hw
theorem RoundTrip.imulHalf (d : Reg) (a : Reg) : RoundTrip.Statement (.imulHalf d a) := by
  refine ⟨nofun, ?_⟩
  intro alloc h hw hh
  cases hh
  exact parseHalf_of 0x22 _ _ (by decide) rfl hw
theorem RoundTrip.iminHalf (d : Reg) (a : Reg) : RoundTrip.Statement (.iminHalf d a) := by
  refine ⟨nofun, ?_⟩
  intro alloc h hw hh
  cases hh
  exact parseHalf_of 0x27 _ _ (by decide) rfl hw
theorem RoundTrip.imaxHalf (d : Reg) (a : Reg) : RoundTrip.Statement (.imaxHalf d a) := by
  refine ⟨nofun, ?_⟩
  intro alloc h hw hh
  cases hh
  exact parseHalf_of 0x28 _ _ (by decide) rfl hw
theorem RoundTrip.andHalf (d : Reg) (a : Reg) : RoundTrip.Statement (.andHalf d a) := by
  refine ⟨nofun, ?_⟩
  intro alloc h hw hh
  cases hh
  exact parseHalf_of 0x2B _ _ (by decide) rfl hw
theorem RoundTrip.orHalf (d : Reg) (a : Reg) : RoundTrip.Statement (.orHalf d a) := by
  refine ⟨nofun, ?_⟩
  intro alloc h hw hh
  cases hh
  exact parseHalf_of 0x2C _ _ (by decide) rfl hw
theorem RoundTrip.xorHalf (d : Reg) (a : Reg) : RoundTrip.Statement (.xorHalf d a) := by
  refine ⟨nofun, ?_⟩
  intro alloc h hw hh
  cases hh
  exact parseHalf_of 0x2D _ _ (by decide) rfl hw
theorem RoundTrip.shlHalf (d : Reg) (a : Reg) : RoundTrip.Statement (.shlHalf d a) := by
  refine ⟨nofun, ?_⟩
  intro alloc h hw hh
  cases hh
  exact parseHalf_of 0x2F _ _ (by decide) rfl hw
theorem RoundTrip.shrHalf (d : Reg) (a : Reg) : RoundTrip.Statement (.shrHalf d a) := by
  refine ⟨nofun, ?_⟩
  intro alloc h hw hh
  cases hh
  exact parseHalf_of 0x30 _ _ (by decide) rfl hw
theorem RoundTrip.sarHalf (d : Reg) (a : Reg) : RoundTrip.Statement (.sarHalf d a) := by
  refine ⟨nofun, ?_⟩
  intro alloc h hw hh
  cases hh
  exact parseHalf_of 0x31 _ _ (by decide) rfl hw
theorem RoundTrip.movHalf (d : Reg) (a : Reg) : RoundTrip.Statement (.movHalf d a) := by
  refine ⟨nofun, ?_⟩
  intro alloc h hw hh
  cases hh
  exact parseHalf_of 0x3B _ _ (by decide) rfl hw
theorem RoundTrip.faddHalf (d : Reg) (a : Reg) : RoundTrip.Statement (.faddHalf d a) := by
  refine ⟨nofun, ?_⟩
  intro alloc h hw hh
  cases hh
  exact parseHalf_of 0x50 _ _ (by decide) rfl hw
theorem RoundTrip.fsubHalf (d : Reg) (a : Reg) : RoundTrip.Statement (.fsubHalf d a) := by
  refine ⟨nofun, ?_⟩
  intro alloc h hw hh
  cases hh
  exact parseHalf_of 0x51 _ _ (by decide) rfl hw
theorem RoundTrip.fmulHalf (d : Reg) (a : Reg) : RoundTrip.Statement (.fmulHalf d a) := by
  refine ⟨nofun, ?_⟩
  intro alloc h hw hh
  cases hh
  exact parseHalf_of 0x52 _ _ (by decide) rfl hw
theorem RoundTrip.fminHalf (d : Reg) (a : Reg) : RoundTrip.Statement (.fminHalf d a) := by
  refine ⟨nofun, ?_⟩
  intro alloc h hw hh
  cases hh
  exact parseHalf_of 0x54 _ _ (by decide) rfl hw
theorem RoundTrip.fmaxHalf (d : Reg) (a : Reg) : RoundTrip.Statement (.fmaxHalf d a) := by
  refine ⟨nofun, ?_⟩
  intro alloc h hw hh
  cases hh
  exact parseHalf_of 0x55 _ _ (by decide) rfl hw
theorem RoundTrip.hadd2Half (d : Reg) (a : Reg) : RoundTrip.Statement (.hadd2Half d a) := by
  refine ⟨nofun, ?_⟩
  intro alloc h hw hh
  cases hh
  exact parseHalf_of 0x62 _ _ (by decide) rfl hw
theorem RoundTrip.hmul2Half (d : Reg) (a : Reg) : RoundTrip.Statement (.hmul2Half d a) := by
  refine ⟨nofun, ?_⟩
  intro alloc h hw hh
  cases hh
  exact parseHalf_of 0x64 _ _ (by decide) rfl hw
theorem RoundTrip.doorbellKick (fn : BitVec 4) (q : BitVec 5) : RoundTrip.Statement (.doorbellKick fn q) := ⟨nofun, nofun⟩
theorem RoundTrip.doorbellResume (fn : BitVec 4) (q : BitVec 5) : RoundTrip.Statement (.doorbellResume fn q) := ⟨nofun, nofun⟩
theorem RoundTrip.doorbellAbort (fn : BitVec 4) (q : BitVec 5) : RoundTrip.Statement (.doorbellAbort fn q) := ⟨nofun, nofun⟩
theorem RoundTrip.packetNop (fn : BitVec 4) (q : BitVec 5) : RoundTrip.Statement (.packetNop fn q) := ⟨nofun, nofun⟩
theorem RoundTrip.packetLaunch (fn : BitVec 4) (q : BitVec 5) : RoundTrip.Statement (.packetLaunch fn q) := ⟨nofun, nofun⟩
theorem RoundTrip.packetCopy (fn : BitVec 4) (q : BitVec 5) : RoundTrip.Statement (.packetCopy fn q) := ⟨nofun, nofun⟩
theorem RoundTrip.packetBarrier (fn : BitVec 4) (q : BitVec 5) : RoundTrip.Statement (.packetBarrier fn q) := ⟨nofun, nofun⟩
theorem RoundTrip.packetSignal (fn : BitVec 4) (q : BitVec 5) : RoundTrip.Statement (.packetSignal fn q) := ⟨nofun, nofun⟩
theorem RoundTrip.packetWaitsig (fn : BitVec 4) (q : BitVec 5) : RoundTrip.Statement (.packetWaitsig fn q) := ⟨nofun, nofun⟩
theorem RoundTrip.waitsigPoll (fn : BitVec 4) (q : BitVec 5) : RoundTrip.Statement (.waitsigPoll fn q) := ⟨nofun, nofun⟩
theorem RoundTrip.packetTraceStart (fn : BitVec 4) (q : BitVec 5) : RoundTrip.Statement (.packetTraceStart fn q) := ⟨nofun, nofun⟩
theorem RoundTrip.packetTraceStop (fn : BitVec 4) (q : BitVec 5) : RoundTrip.Statement (.packetTraceStop fn q) := ⟨nofun, nofun⟩
theorem RoundTrip.packetCodesync (fn : BitVec 4) (q : BitVec 5) : RoundTrip.Statement (.packetCodesync fn q) := ⟨nofun, nofun⟩
theorem RoundTrip.packetComplete (fn : BitVec 4) (q : BitVec 5) (seq : Nat) : RoundTrip.Statement (.packetComplete fn q seq) := ⟨nofun, nofun⟩
theorem RoundTrip.launchPlace (wid : Nat) : RoundTrip.Statement (.launchPlace wid) := ⟨nofun, nofun⟩
theorem RoundTrip.routingCheckTimeout (wid : Nat) : RoundTrip.Statement (.routingCheckTimeout wid) := ⟨nofun, nofun⟩
theorem RoundTrip.launchEnd (lid : Nat) : RoundTrip.Statement (.launchEnd lid) := ⟨nofun, nofun⟩
theorem RoundTrip.launchStranded (lid : Nat) : RoundTrip.Statement (.launchStranded lid) := ⟨nofun, nofun⟩
theorem RoundTrip.sliceEnd (p : BitVec 2) : RoundTrip.Statement (.sliceEnd p) := ⟨nofun, nofun⟩
theorem RoundTrip.priorityCut (p : BitVec 2) : RoundTrip.Statement (.priorityCut p) := ⟨nofun, nofun⟩
theorem RoundTrip.stopDeadline (p : BitVec 2) : RoundTrip.Statement (.stopDeadline p) := ⟨nofun, nofun⟩
theorem RoundTrip.partitionSwap (p : BitVec 2) : RoundTrip.Statement (.partitionSwap p) := ⟨nofun, nofun⟩
theorem RoundTrip.saveEngineDone (p : BitVec 2) : RoundTrip.Statement (.saveEngineDone p) := ⟨nofun, nofun⟩
theorem RoundTrip.contextRestore (p : BitVec 2) (dx : Nat) (dy : Nat) : RoundTrip.Statement (.contextRestore p dx dy) := ⟨nofun, nofun⟩
theorem RoundTrip.imageLoadDone (rt : Bool) : RoundTrip.Statement (.imageLoadDone rt) := ⟨nofun, nofun⟩
theorem RoundTrip.invalidationDone (fn : BitVec 4) : RoundTrip.Statement (.invalidationDone fn) := ⟨nofun, nofun⟩
theorem RoundTrip.replayGateTimeout (lid : Nat) (station : Nat) : RoundTrip.Statement (.replayGateTimeout lid station) := ⟨nofun, nofun⟩
theorem RoundTrip.traceTick (n : Nat) : RoundTrip.Statement (.traceTick n) := ⟨nofun, nofun⟩
theorem RoundTrip.qpendRead : RoundTrip.Statement (.qpendRead) := ⟨nofun, nofun⟩
theorem RoundTrip.hartFetch (fn : BitVec 4) (addr : W64) (len : Nat) : RoundTrip.Statement (.hartFetch fn addr len) := ⟨nofun, nofun⟩
theorem RoundTrip.hartCheck (fn : BitVec 4) : RoundTrip.Statement (.hartCheck fn) := ⟨nofun, nofun⟩
theorem RoundTrip.hartClaim (fn : BitVec 4) (wid : Nat) (x : Nat) (y : Nat) (release : Bool) : RoundTrip.Statement (.hartClaim fn wid x y release) := ⟨nofun, nofun⟩
theorem RoundTrip.hartStart (fn : BitVec 4) (wid : Nat) : RoundTrip.Statement (.hartStart fn wid) := ⟨nofun, nofun⟩
theorem RoundTrip.hartStop (fn : BitVec 4) (p : StopChoice) : RoundTrip.Statement (.hartStop fn p) := ⟨nofun, nofun⟩
theorem RoundTrip.hartSwap (fn : BitVec 4) (p : BitVec 2) : RoundTrip.Statement (.hartSwap fn p) := ⟨nofun, nofun⟩
theorem RoundTrip.hartDrec (fn : BitVec 4) (kind : Byte) (reason : Byte) (rule : BitVec 16) (detail : W32) : RoundTrip.Statement (.hartDrec fn kind reason rule detail) := ⟨nofun, nofun⟩
theorem RoundTrip.qcbWrite (fn : BitVec 4) (q : BitVec 5) (hi : Bool) (v : W32) : RoundTrip.Statement (.qcbWrite fn q hi v) := ⟨nofun, nofun⟩
theorem RoundTrip.partWrite (p : BitVec 2) (hi : Bool) (v : W32) : RoundTrip.Statement (.partWrite p hi v) := ⟨nofun, nofun⟩
theorem RoundTrip.mcctlLoad (v : W32) : RoundTrip.Statement (.mcctlLoad v) := ⟨nofun, nofun⟩
theorem RoundTrip.rtctlLoad (v : W32) : RoundTrip.Statement (.rtctlLoad v) := ⟨nofun, nofun⟩
theorem RoundTrip.registerWrite (fn : BitVec 4) (off : BitVec 24) (v : W32) : RoundTrip.Statement (.registerWrite fn off v) := ⟨nofun, nofun⟩
theorem RoundTrip.invctl (fn : BitVec 4) (v : W32) : RoundTrip.Statement (.invctl fn v) := ⟨nofun, nofun⟩
theorem RoundTrip.fqrespGrant (fn : BitVec 4) (seq : BitVec 63) : RoundTrip.Statement (.fqrespGrant fn seq) := ⟨nofun, nofun⟩
theorem RoundTrip.fqrespRefuse (fn : BitVec 4) (seq : BitVec 63) : RoundTrip.Statement (.fqrespRefuse fn seq) := ⟨nofun, nofun⟩
theorem RoundTrip.fqtailWrite (fn : BitVec 4) (v : W32) : RoundTrip.Statement (.fqtailWrite fn v) := ⟨nofun, nofun⟩
theorem RoundTrip.retire (v : W64) : RoundTrip.Statement (.retire v) := ⟨nofun, nofun⟩
theorem RoundTrip.rangeFilterWrite (f : BitVec 5) (n : BitVec 4) (limit : Bool) (hi : Bool) (v : W32) : RoundTrip.Statement (.rangeFilterWrite f n limit hi v) := ⟨nofun, nofun⟩
theorem RoundTrip.hostBar2Read (fn : BitVec 4) (off : BitVec 36) (len : Nat) : RoundTrip.Statement (.hostBar2Read fn off len) := ⟨nofun, nofun⟩
theorem RoundTrip.hostBar2Write (fn : BitVec 4) (off : BitVec 36) (data : List Byte) : RoundTrip.Statement (.hostBar2Write fn off data) := ⟨nofun, nofun⟩
theorem RoundTrip.scrubSweep (region : Nat) (unit : Nat) (corrected : W32) (bad : List (W64 × Bool)) : RoundTrip.Statement (.scrubSweep region unit corrected bad) := ⟨nofun, nofun⟩
theorem RoundTrip.traceRetry (stream : Nat) : RoundTrip.Statement (.traceRetry stream) := ⟨nofun, nofun⟩
theorem RoundTrip.skewMeasure (die : Nat) (offset : W32) : RoundTrip.Statement (.skewMeasure die offset) := ⟨nofun, nofun⟩
theorem RoundTrip.coldReset (input : StartInput) : RoundTrip.Statement (.coldReset input) := ⟨nofun, nofun⟩
theorem RoundTrip.startTimeout : RoundTrip.Statement (.startTimeout) := ⟨nofun, nofun⟩
theorem RoundTrip.mgctlClrfail (v : W32) : RoundTrip.Statement (.mgctlClrfail v) := ⟨nofun, nofun⟩
theorem RoundTrip.getVersion (port : Bool) : RoundTrip.Statement (.getVersion port) := ⟨nofun, nofun⟩
theorem RoundTrip.getCapabilities (port : Bool) (body : SpdmBody) : RoundTrip.Statement (.getCapabilities port body) := ⟨nofun, nofun⟩
theorem RoundTrip.negotiateAlgorithms (port : Bool) (body : SpdmBody) : RoundTrip.Statement (.negotiateAlgorithms port body) := ⟨nofun, nofun⟩
theorem RoundTrip.getDigests (port : Bool) : RoundTrip.Statement (.getDigests port) := ⟨nofun, nofun⟩
theorem RoundTrip.getCertificate (port : Bool) (body : SpdmBody) : RoundTrip.Statement (.getCertificate port body) := ⟨nofun, nofun⟩
theorem RoundTrip.challenge (port : Bool) (body : SpdmBody) : RoundTrip.Statement (.challenge port body) := ⟨nofun, nofun⟩
theorem RoundTrip.getMeasurements (port : Bool) (block : Byte) (body : SpdmBody) : RoundTrip.Statement (.getMeasurements port block body) := ⟨nofun, nofun⟩
theorem RoundTrip.keyExchange (port : Bool) (body : SpdmBody) : RoundTrip.Statement (.keyExchange port body) := ⟨nofun, nofun⟩
theorem RoundTrip.finish (port : Bool) (body : SpdmBody) : RoundTrip.Statement (.finish port body) := ⟨nofun, nofun⟩
theorem RoundTrip.endSession (port : Bool) : RoundTrip.Statement (.endSession port) := ⟨nofun, nofun⟩
theorem RoundTrip.ideKm (port : Bool) (stream : BitVec 4) (key : SpdmBody) : RoundTrip.Statement (.ideKm port stream key) := ⟨nofun, nofun⟩
theorem RoundTrip.ideIntegrityFail (port : Bool) (stream : BitVec 4) : RoundTrip.Statement (.ideIntegrityFail port stream) := ⟨nofun, nofun⟩
theorem RoundTrip.soistlinkAuthFail (link : BitVec 4) : RoundTrip.Statement (.soistlinkAuthFail link) := ⟨nofun, nofun⟩
theorem RoundTrip.soistlinkRekey (link : BitVec 4) (key : SpdmBody) : RoundTrip.Statement (.soistlinkRekey link key) := ⟨nofun, nofun⟩
theorem RoundTrip.semRead (port : Bool) (n : BitVec 5) : RoundTrip.Statement (.semRead port n) := ⟨nofun, nofun⟩
theorem RoundTrip.semWrite (port : Bool) (n : BitVec 5) (v : W32) : RoundTrip.Statement (.semWrite port n v) := ⟨nofun, nofun⟩
theorem RoundTrip.portmapWrite (v : W32) : RoundTrip.Statement (.portmapWrite v) := ⟨nofun, nofun⟩
theorem RoundTrip.functionLevelReset (fn : BitVec 4) : RoundTrip.Statement (.functionLevelReset fn) := ⟨nofun, nofun⟩
theorem RoundTrip.portLinkReset (port : Bool) : RoundTrip.Statement (.portLinkReset port) := ⟨nofun, nofun⟩
theorem RoundTrip.supplyDroop (die : Nat) (k : BitVec 3) : RoundTrip.Statement (.supplyDroop die k) := ⟨nofun, nofun⟩
theorem RoundTrip.thermalThrottle (tj : Byte) : RoundTrip.Statement (.thermalThrottle tj) := ⟨nofun, nofun⟩
theorem RoundTrip.thermalTrip (tj : Byte) : RoundTrip.Statement (.thermalTrip tj) := ⟨nofun, nofun⟩
theorem RoundTrip.soistlinkInboundAccess (pa : W64) (write : Option (List Byte)) (len : Nat) : RoundTrip.Statement (.soistlinkInboundAccess pa write len) := ⟨nofun, nofun⟩
theorem RoundTrip.soistlinkLinkFailure (link : BitVec 4) : RoundTrip.Statement (.soistlinkLinkFailure link) := ⟨nofun, nofun⟩
theorem RoundTrip.supplyRecovery (die : Nat) : RoundTrip.Statement (.supplyRecovery die) := ⟨nofun, nofun⟩
theorem RoundTrip.thermalThrottleEnd (tj : Byte) : RoundTrip.Statement (.thermalThrottleEnd tj) := ⟨nofun, nofun⟩

end Sys2Proof.Laws
end

