-- ==== Sys2Proof/Laws/Services.lean ====
section
/-!
SUPPORT. What the shared operations of the save engine, the clock, the words that move STKP and open values can do: the bytes
that the save engine writes and those it leaves (R204, R349), a tick of a halted device (R372), the writes of STKP that are
overwritten (R80, R159), and what an open value depends on (R316).
-/
namespace Sys2Proof.Machine
namespace State

/-- The save engine's write keeps memory in its form. -/
theorem memWf_putLines {s : State} (fn pa : Nat) (bs : List Byte) (h : s.memWf) : (s.putLines fn pa bs).memWf := by
  refine memWf_foldl (fun s i hs => ?_) _ h
  dsimp only
  split
  · next e => exact memWf_physPut _ _ (memWf_of_mem (congrArg (·.2.mem) e ▸ physCheck_mem ..) hs)
  · next e => exact memWf_of_mem (congrArg (·.2.mem) e ▸ physCheck_mem ..) hs

theorem memWf_saveArea {s : State} (slot fn : Nat) (h : s.memWf) : (s.saveArea slot fn).memWf := memWf_putLines _ _ _ h

/-- The save engine's write leaves every byte outside it alone. -/
theorem putLines_outside (s : State) (fn pa : Nat) (bs : List Byte) {a : Nat} (h : a < pa ∨ pa + bs.length ≤ a) :
    Mem.read (s.putLines fn pa bs).mem a = Mem.read s.mem a := by
  unfold putLines
  generalize List.range ((pa % 64 + bs.length + 63) / 64) = is
  induction is generalizing s with
  | nil => rfl
  | cons i is ih =>
    rw [List.foldl_cons, ih]
    dsimp only
    have out : ∀ n, a < max pa (64 * (pa / 64 + i)) ∨ max pa (64 * (pa / 64 + i)) +
        ((bs.drop (max pa (64 * (pa / 64 + i)) - pa)).take n).length ≤ a := by
      intro n
      simp only [List.length_take, List.length_drop]
      omega
    split
    · next e => rw [physPut_outside _ _ _ (out _), ← congrArg (·.2.mem) e, physCheck_mem]
    · next e => rw [← congrArg (·.2.mem) e, physCheck_mem]

/-- A tick of a device that a trip has halted moves time alone (R372). -/
theorem tickNow_dead {s : State} (h : s.mgmt.dead = true) : s.tickNow = { s with tick := s.tick + 1 } := by
  simp [tickNow, h]

theorem tickNow_alive {s : State} (h : s.mgmt.dead = false) : s.tickNow = s.tickRun := by simp [tickNow, h]

/-- A word that moves STKP drops its thread's writes of STKP to come, and nothing else (assumption log 75). -/
@[simp] theorem thread?_ownStkp_same (s : State) (l : LaneRef) : (s.ownStkp l).thread? l.tid = (s.thread? l.tid).map fun t =>
    { t with mts := t.mts.filter fun m => !decide (m.num = 0x030) } := thread?_modThread_same ..

theorem thread?_ownStkp_other (s : State) {l : LaneRef} {u : ThreadId} (h : l.tid ≠ u) :
    (s.ownStkp l).thread? u = s.thread? u := thread?_modThread_other s _ h

/-- An open value of a deterministic launch depends on its code, its source and their count alone (R316). -/
theorem openWord_det {s : State} {u : Nat} {l : Launch} (n : Nat) (h : s.launch? u = some l) (d : l.rec_.det = true) :
    s.openWord u n = (Config.openWord l.rec_.code n (AL.get 0 l.drawn n),
      s.modLaunch u fun l => { l with drawn := AL.modify 0 l.drawn n (· + 1) }) := by
  simp [openWord, h, d]

/-- An open value moves nothing but the counters of open values. -/
theorem openWord_frame (s : State) (u n : Nat) :
    (s.openWord u n).2 = { s with fresh := (s.openWord u n).2.fresh, launches := (s.openWord u n).2.launches } := by
  unfold openWord
  split
  · split <;> rfl
  · rfl

theorem openWords_frame (s : State) (u n k : Nat) :
    (s.openWords u n k).2 = { s with fresh := (s.openWords u n k).2.fresh, launches := (s.openWords u n k).2.launches } := by
  induction k generalizing s with
  | zero => rfl
  | succ k ih =>
    simp only [openWords]
    rw [ih, openWord_frame]

/-- With no thread that waits to be placed there is nothing to try. -/
theorem drainSuspends_nil {s : State} {core : Nat} (held : SuspendReq → Bool) (h : (s.core core).suspends = []) :
    s.drainSuspends core held = s.modCore core fun k => { k with suspends := [] } := by
  simp [drainSuspends, h]

end State
end Sys2Proof.Machine
end

