-- ==== Sys2Proof/Laws/Words.lean ====
section
/-!
SUPPORT. What each shared operation behind a family of words gives a thread (R105 to R138): one law for each, from which the
words that use it are read off.
-/
namespace Sys2Proof.Machine

/-- The same results said in other words. -/
theorem Gives.cast {i : Instr} {s : State} {c : IssueCtx} {l : LaneRef} {t : Thread} {n : Nat} {rs rs' : List Result}
    {ks ks' : List (BitVec 3 × Bool)} {e e' : Exc} (h : Gives i s c l t n rs ks e) (h1 : rs = rs') (h2 : ks = ks')
    (h3 : e = e') : Gives i s c l t n rs' ks' e' := by
  subst h1 h2 h3
  exact h

theorem GivesFlagged.cast {i : Instr} {s : State} {c : IssueCtx} {l : LaneRef} {t : Thread} {f : Flag} {lo hi : Nat}
    {rs rs' : List Result} {e e' : Exc} (h : GivesFlagged i s c l t f lo hi rs e) (h1 : rs = rs') (h2 : e = e') :
    GivesFlagged i s c l t f lo hi rs' e' := by
  subst h1 h2
  exact h

section
variable {i : Instr} {s : State} {c : IssueCtx} {l : LaneRef} {t : Thread} {n lo hi : Nat} {g : Flag} {d a b e : Reg}

theorem int1_gives {f : W32 → W32 × Exc} (h : exec i s = execLanes s (.lat n) fun _ l => int1 s l d a f) :
    let x := s.operand l a
    Gives i s c l t n [(d, (f x.val).1, .rule [⟨x.tag, false⟩] none (decide ((f x.val).2 ≠ 0)))] [] (f x.val).2 :=
  gives_of h rfl rfl rfl rfl

theorem int2_gives {dom : Bool} {f : W32 → W32 → W32 × Exc}
    (h : exec i s = execLanes s (.lat n) fun _ l => int2 s l d a b dom f) :
    let x := s.operand l a
    let y := s.operand l b
    let r := f x.val y.val
    Gives i s c l t n [(d, r.1, .rule [⟨x.tag, false⟩, ⟨y.tag, false⟩]
      (if dom then some [intMag x, intMag y] else none) (decide (r.2 ≠ 0)))] [] r.2 :=
  gives_of h rfl rfl rfl rfl

theorem int2_givesFlagged {dom : Bool} {f : W32 → W32 → W32 × Exc}
    (h : exec i s = execLanes s (.flag g lo hi) fun _ l => int2 s l d a b dom f) :
    let x := s.operand l a
    let y := s.operand l b
    let r := f x.val y.val
    GivesFlagged i s c l t g lo hi [(d, r.1, .rule [⟨x.tag, false⟩, ⟨y.tag, false⟩]
      (if dom then some [intMag x, intMag y] else none) (decide (r.2 ≠ 0)))] r.2 :=
  givesFlagged_of h rfl rfl rfl

theorem int3_gives {doms : TW → TW → TW → Option (List TDom)} {f : W32 → W32 → W32 → W32 × Exc}
    (h : exec i s = execLanes s (.lat n) fun _ l => int3 s l d a b e doms f) :
    let x := s.operand l a
    let y := s.operand l b
    let z := s.operand l e
    let r := f x.val y.val z.val
    Gives i s c l t n [(d, r.1, .rule [⟨x.tag, false⟩, ⟨y.tag, false⟩, ⟨z.tag, false⟩] (doms x y z)
      (decide (r.2 ≠ 0)))] [] r.2 :=
  gives_of h rfl rfl rfl rfl

theorem packed2_gives {dom : Bool} {f : Int → Int → Int}
    (h : exec i s = execLanes s (.lat n) fun _ l => packed2Res s l d a b dom f) :
    let x := s.operand l a
    let y := s.operand l b
    Gives i s c l t n [(d, packed2 x.val y.val f, .rule [⟨x.tag, false⟩, ⟨y.tag, false⟩]
      (if dom then some [i16Mag x, i16Mag y] else none) false)] [] 0 :=
  gives_of h rfl rfl rfl rfl

theorem f1_gives {f : Num → Num × Exc} (h : exec i s = execLanes s (.lat n) fun _ l => f1 s l d a f) :
    let x := s.operand l a
    let v := f (f32 x.val)
    let r := v.2 ||| (toF32 v.1).2
    Gives i s c l t n [(d, (toF32 v.1).1, .rule [f32Src x] none (decide (r ≠ 0)))] [] r :=
  gives_of h rfl rfl rfl rfl

theorem f1_givesFlagged {f : Num → Num × Exc} (h : exec i s = execLanes s (.flag g lo hi) fun _ l => f1 s l d a f) :
    let x := s.operand l a
    let v := f (f32 x.val)
    let r := v.2 ||| (toF32 v.1).2
    GivesFlagged i s c l t g lo hi [(d, (toF32 v.1).1, .rule [f32Src x] none (decide (r ≠ 0)))] r :=
  givesFlagged_of h rfl rfl rfl

theorem f2_gives {dom : Bool} {f : Num → Num → Num × Exc}
    (h : exec i s = execLanes s (.lat n) fun _ l => f2 s l d a b dom f) :
    let x := s.operand l a
    let y := s.operand l b
    let v := f (f32 x.val) (f32 y.val)
    let r := v.2 ||| (toF32 v.1).2
    Gives i s c l t n [(d, (toF32 v.1).1, .rule [f32Src x, f32Src y]
      (if dom then some [f32Mag x, f32Mag y] else none) (decide (r ≠ 0)))] [] r :=
  gives_of h rfl rfl rfl rfl

theorem f2_givesFlagged {dom : Bool} {f : Num → Num → Num × Exc}
    (h : exec i s = execLanes s (.flag g lo hi) fun _ l => f2 s l d a b dom f) :
    let x := s.operand l a
    let y := s.operand l b
    let v := f (f32 x.val) (f32 y.val)
    let r := v.2 ||| (toF32 v.1).2
    GivesFlagged i s c l t g lo hi [(d, (toF32 v.1).1, .rule [f32Src x, f32Src y]
      (if dom then some [f32Mag x, f32Mag y] else none) (decide (r ≠ 0)))] r :=
  givesFlagged_of h rfl rfl rfl

theorem h2_gives {bf dom : Bool} {f : Num → Num → Num × Exc}
    (h : exec i s = execLanes s (.lat n) fun _ l => h2 s l d a b bf dom f) :
    let x := s.operand l a
    let y := s.operand l b
    let v (j : Nat) := f (hnum bf x.val j) (hnum bf y.val j)
    let w (j : Nat) := encodeF (hfmt bf) false (v j).1
    let r := ((v 0).2 ||| (w 0).2) ||| ((v 1).2 ||| (w 1).2)
    Gives i s c l t n [(d, pack16 (w 0).1 (w 1).1, .rule [h2Src bf x, h2Src bf y]
      (if dom then some [h2Mag bf x, h2Mag bf y] else none) (decide (r ≠ 0)))] [] r :=
  gives_of h rfl rfl rfl rfl

end

/-! Words that act for one lane after another on the state the lanes before have left. -/

/-- A word that acts lane by lane, of whose steps the other lanes' leave a lane's thread alone, does for that thread what its own
step does. -/
theorem eachLane_lane {i : Instr} {s : State} {c : IssueCtx} {l : LaneRef} {t : Thread} {f : IssueCtx → State → LaneRef → State}
    (hi : exec i s = eachLane s f) (h : Executes s c l t)
    (hF : ∀ s m, (m.helper = true ∨ m.tid ≠ l.tid) → (f c s m).thread? l.tid = s.thread? l.tid) :
    ∃ s' s0, exec i s = .next s' ∧ s0.thread? l.tid = some t ∧ s'.thread? l.tid = (f c s0 l).thread? l.tid := by
  obtain ⟨s0, h1, h2⟩ := State.foldl_lane (f c) (s := s) hF h.own h.lane h.once h.thread
  exact ⟨_, s0, by rw [hi, eachLane, h.issuing], h1, h2⟩

/-! Halves (R33 to R35). -/

theorem half_gives {i j : Instr} {s : State} {c : IssueCtx} {l : LaneRef} {t : Thread} {n : Nat}
    {rs : List Result} {e : Exc} (hi : exec i s = execHalf j n s) (hr : (halfRes j s l).trap = none)
    (hp : (halfRes j s l).preds = []) (hw : flatResults (halfRes j s l).writes = rs) (he : (halfRes j s l).raised = e) :
    HalfGives i s c l t n rs e := by
  subst hw he
  intro h hq hen
  obtain ⟨s0, h2, h3⟩ := State.foldl_lane (fun s' l =>
      if s.partnerTraps c l && !(decide (c.half = .a) && (s.resTrap l (halfRes j s l)).isSome) then s'
      else s'.deliver c l (.lat n) (halfRes j s l)) (s := s)
    (fun s1 m hm => by
      split
      · rfl
      · exact State.thread?_deliver_other s1 c _ _ hm) h.own h.lane h.once h.thread
  have hr0 : s0.resTrap l (halfRes j s l) = none := by simp [State.resTrap, h.own, hr, h2, hen]
  obtain ⟨tags, h4, h5⟩ := State.thread?_deliver_own s0 (c := c) n (halfRes j s l) h.own h2 hr0
  refine ⟨_, tags, by rw [hi, execHalf, h.issuing], h4, h3.trans ?_⟩
  simp only [hq, Bool.false_and, Bool.false_eq_true, if_false]
  rw [h5, hp]
  simp [predLandings]

/-! Reductions (R93, R174). -/

namespace State

@[simp] theorem combineTags_groups (s : State) (c : IssueCtx) (l : LaneRef) (op : GredOp) (x y : Option TW) :
    (s.combineTags c l op x y).2.groups = s.groups := by
  unfold combineTags
  split
  · dsimp only
    split <;> simp
  · rfl
  · rfl

theorem treeLevel_groups (c : IssueCtx) (l : LaneRef) (op : GredOp) :
    ∀ (xs : List (Option TW)) (s : State), (s.treeLevel c l op xs).2.groups = s.groups
  | [], s => rfl
  | [x], s => rfl
  | x :: y :: rest, s => by
    simp only [treeLevel]
    rw [treeLevel_groups c l op rest, combineTags_groups]

theorem treeReduce_groups (s : State) (c : IssueCtx) (l : LaneRef) (op : GredOp) (xs : List (Option TW)) :
    (s.treeReduce c l op xs).2.groups = s.groups := by
  simp only [treeReduce]
  rw [treeLevel_groups, treeLevel_groups, treeLevel_groups]

/-- A reduction touches no thread but its own lane's. -/
theorem thread?_reduceLane_other (s : State) (c : IssueCtx) {l : LaneRef} {u : ThreadId} (op : GredOp) (d : Reg) (g : Tag)
    (xs : List (Option TW)) (h : l.helper = true ∨ l.tid ≠ u) : (s.reduceLane c l op d g xs).thread? u = s.thread? u := by
  unfold reduceLane
  dsimp only
  rw [thread?_deliver_other _ _ _ _ h, thread?_of_groups (treeReduce_groups s c l op xs)]

end State

/-- The value and the exceptions of combining two values without their tags. -/
def pureVal (op : GredOp) (x y : Option W32) : Option W32 :=
  match x, y with
  | some u, some v => some (combine op ⟨u, 0⟩ ⟨v, 0⟩).val
  | some u, none => some u
  | none, v => v
def pureExc (op : GredOp) (x y : Option W32) : Exc :=
  match x, y with
  | some u, some v => (combine op ⟨u, 0⟩ ⟨v, 0⟩).raised
  | _, _ => 0

/-- What a combine gives does not depend on tags. -/
theorem combine_untagged (op : GredOp) (x y : TW) :
    (combine op x y).val = (combine op ⟨x.val, 0⟩ ⟨y.val, 0⟩).val ∧
      (combine op x y).raised = (combine op ⟨x.val, 0⟩ ⟨y.val, 0⟩).raised := by
  cases op <;> exact ⟨rfl, rfl⟩

theorem combineTags_val (s : State) (c : IssueCtx) (l : LaneRef) (op : GredOp) (x y : Option TW) :
    (s.combineTags c l op x y).1.1.map (·.val) = pureVal op (x.map (·.val)) (y.map (·.val)) := by
  unfold State.combineTags pureVal
  cases x <;> cases y <;> simp [(combine_untagged op _ _).1]

theorem combineTags_exc (s : State) (c : IssueCtx) (l : LaneRef) (op : GredOp) (x y : Option TW) :
    (s.combineTags c l op x y).1.2 = pureExc op (x.map (·.val)) (y.map (·.val)) := by
  unfold State.combineTags pureExc
  cases x <;> cases y <;> simp [(combine_untagged op _ _).2]

theorem val_getD (z : Option TW) (v : W32) : (z.getD ⟨v, 0⟩).val = (z.map (·.val)).getD v := by
  cases z <;> rfl

/-- The reduction of eight partials, in value (R93). -/
theorem treeReduce_pure (s : State) (c : IssueCtx) (l : LaneRef) (op : GredOp) (f : Nat → Option TW) :
    let v (j : Nat) : Option W32 := (f j).map (·.val)
    let p (j : Nat) := pureVal op (v (2 * j)) (v (2 * j + 1))
    let e (j : Nat) := pureExc op (v (2 * j)) (v (2 * j + 1))
    let q (j : Nat) := pureVal op (p (2 * j)) (p (2 * j + 1))
    (s.treeReduce c l op ((List.range 8).map f)).1.1.val = (pureVal op (q 0) (q 1)).getD (gredIdentity op) ∧
      (s.treeReduce c l op ((List.range 8).map f)).1.2 =
        (e 0 ||| (e 1 ||| (e 2 ||| (e 3 ||| 0)))) |||
          (pureExc op (p 0) (p 1) ||| (pureExc op (p 2) (p 3) ||| 0)) ||| (pureExc op (q 0) (q 1) ||| 0) := by
  intro v p e q
  have hl : (List.range 8).map f = [f 0, f 1, f 2, f 3, f 4, f 5, f 6, f 7] := rfl
  constructor
  · simp only [hl, State.treeReduce, State.treeLevel, List.headD_cons, val_getD, combineTags_val]
    rfl
  · simp only [hl, State.treeReduce, State.treeLevel, combineTags_exc, combineTags_val]
    rfl

/-- A reduction completes (R174): the tree's value, in a lane whose thread traps on none of its exceptions. -/
theorem reduce_gives {i : Instr} {s : State} {c : IssueCtx} {l : LaneRef} {t : Thread} {op : GredOp} {d : Reg}
    {g : LaneRef → Tag} {limit : LaneRef → Nat} {a : Reg}
    (hi : exec i s = eachLane s fun c s' l => s'.reduceLane c l op d (g l) (s.partials c l.g a (limit l))) :
    let f (j : Nat) : Option TW :=
      if j < limit l then ((State.contributors c l.g).find? fun x => decide (x.lane = j)).map fun x => s.operand x a
      else none
    let v (j : Nat) : Option W32 := (f j).map (·.val)
    let p (j : Nat) := pureVal op (v (2 * j)) (v (2 * j + 1))
    let e (j : Nat) := pureExc op (v (2 * j)) (v (2 * j + 1))
    let q (j : Nat) := pureVal op (p (2 * j)) (p (2 * j + 1))
    ∃ g, Gives i s c l t 6 [(d, (pureVal op (q 0) (q 1)).getD (gredIdentity op), .fixed g)] []
      ((e 0 ||| (e 1 ||| (e 2 ||| (e 3 ||| 0)))) |||
        (pureExc op (p 0) (p 1) ||| (pureExc op (p 2) (p 3) ||| 0)) ||| (pureExc op (q 0) (q 1) ||| 0)) := by
  intro f v p e q
  by_cases hx : Executes s c l t
  · obtain ⟨s', s0, h1, h2, h3⟩ := eachLane_lane hi hx
      (fun s1 m hm => State.thread?_reduceLane_other s1 c op d _ _ hm)
    have hf : s.partials c l.g a (limit l) = (List.range 8).map f := rfl
    have hp := treeReduce_pure s0 c l op f
    refine ⟨(s0.treeReduce c l op ((List.range 8).map f)).1.1.tag, fun _ hen => ?_⟩
    have hr : (s0.treeReduce c l op ((List.range 8).map f)).2.thread? l.tid = some t :=
      (State.thread?_of_groups (State.treeReduce_groups s0 c l op _) _).trans h2
    rw [hf, State.reduceLane] at h3
    have he := hp.2
    have hv := hp.1
    generalize s0.treeReduce c l op ((List.range 8).map f) = r at *
    obtain ⟨⟨w, ex⟩, s1⟩ := r
    simp only at he hv hr h3 ⊢
    subst he
    have hr0 : s1.resTrap l (.one d w.val (.fixed w.tag)
        ((e 0 ||| (e 1 ||| (e 2 ||| (e 3 ||| 0)))) |||
          (pureExc op (p 0) (p 1) ||| (pureExc op (p 2) (p 3) ||| 0)) ||| (pureExc op (q 0) (q 1) ||| 0)) (g l, 0, 0)) =
        none := by
      simp only [State.resTrap, hx.own, LaneRes.one, hr, Bool.false_eq_true, if_false]
      exact if_pos hen
    obtain ⟨tags, h4, h5⟩ := State.thread?_deliver_lat s1 6 _ hx.full hx.own hr hr0
    refine ⟨s', tags, h1, ?_, h3.trans (h5.trans ?_)⟩
    · rw [hv] at h4
      exact h4
    · rw [hv]
      rfl
  · exact ⟨0, fun h => absurd h hx⟩

end Sys2Proof.Machine
end

