-- ==== Sys2Proof/Tests/Slice0.lean ====
section
/-! SUPPORT. Tests: states and operands that meet the hypotheses of the statements (`witness_…`), the decoding of a word of every
operation, ill-formed terms, and values of the manual's tables and examples (`test_…`). -/
open Sys2Proof Sys2Proof.Machine
namespace Sys2Proof.Tests

set_option Elab.async false

/-! A small machine: one launch on core 0 with one flock of one group, whose thread in lane 0 executes the word being issued. -/

/-- Eight format slots: one of each format that the slots of this machine name. -/
def slots0 : List W64 := [3, 4, 5, 6, 7, 8, 11, 0]

def rec0 : LaunchRec :=
  { LaunchRec.oneWord with size := 64, handler := 8, pad := true, pens := 2, tmark := true, slots := slots0 }

def launch0 : Launch :=
  { uid := 1, id := 0, fn := 0, q := 0, seq := 0, part := 0, rec_ := rec0, x0 := 0, y0 := 0, running := true, ending := none,
    fatal := none, started := 0, strandedAt := none, padBars := [], logs := [], replayTime := 0, drawn := [] }

def flock0 : Flock :=
  { uid := 2, launch := 1, core := 0, slot := 0, idx := 0, size := 4096, mem := [], tags := [], barriers := [], pens := [],
    resumed := 0 }

def lane0 : LaneRef := ⟨3, 0, false⟩

def thread0 : Thread := Thread.created rec0 7 0

def ctx0 : IssueCtx :=
  { core := 0, port := 0, launch := 1, pc := 0x20000, word := 0x0123456789ABCDEF, cycle := 0, seq := 1, half := .full,
    partner := none, lanes := [lane0], off := [] }

def group0 (t : Thread) : Group :=
  { uid := 3, launch := 1, core := 0, port := 0, slot := 0, gidx := 0, logical := 0,
    lanes := t :: List.replicate 7 Thread.absent, q0 := none, q1 := none }

/-- The machine with a thread in lane 0, and page tables that map the pages of function 0. -/
def world (t : Thread) : State :=
  { State.reset.withFetchWord 64 0 with launches := [launch0], flocks := [flock0], groups := [group0 t], cur := some ctx0 }

theorem world_thread (t : Thread) : (world t).thread? lane0.tid = some t := rfl

theorem world_executes (t : Thread) : Executes (world t) ctx0 lane0 t := by
  refine ⟨rfl, rfl, ?_, ?_, rfl, rfl⟩ <;> simp [ctx0]

theorem world_alone (t : Thread) : ExecutesAlone (world t) ctx0 lane0 t := ⟨rfl, rfl, rfl, rfl, rfl⟩

theorem world_handled (ti : TrapInfo) : Handled (world thread0) lane0.tid thread0 (group0 thread0) launch0 ti :=
  ⟨rfl, rfl, rfl, by decide, by decide, by decide, fun _ _ => rfl⟩

/-! Witnesses: for each statement with hypotheses, states and operands that meet them, clause by clause. -/

/-- What the result statements ask for: an executing thread, and no enabled exception. -/
abbrev ResultsWitness (e : Exc) : Prop := Executes (world thread0) ctx0 lane0 thread0 ∧ e &&& thread0.sys.fcr = 0

theorem results (e : Exc) : ResultsWitness e := ⟨world_executes _, BitVec.and_zero⟩

theorem witness_IntegerArithmetic (e : Exc) : ResultsWitness e := results e
theorem witness_BitsAndShifts (e : Exc) : ResultsWitness e := results e
theorem witness_FieldsAndSums (e : Exc) : ResultsWitness e := results e
theorem witness_ComparesSelectsMoves (e : Exc) : ResultsWitness e := results e
theorem witness_PairWords (e : Exc) : ResultsWitness e := results e
theorem witness_PackedIntegers (e : Exc) : ResultsWitness e := results e
theorem witness_Divisions (e : Exc) : ResultsWitness e := results e
theorem witness_Fp32Words (e : Exc) : ResultsWitness e := results e
theorem witness_Fp32Functions (e : Exc) : ResultsWitness e := results e
theorem witness_Fp32Functions_values : (0xFFFFFF : Nat) ≠ 0 ∧ (1 : Nat) ≠ 0 ∧ 511 * 2 ^ 0 < 512 ∧ 1 * 2 ^ 8 < 512 := by decide
theorem witness_PackedHalves (e : Exc) : ResultsWitness e := results e
theorem witness_Conversions (e : Exc) : ResultsWitness e := results e
theorem witness_LaneReductions (e : Exc) : ResultsWitness e := results e

theorem witness_DotProducts : Executes (world thread0) ctx0 lane0 thread0 ∧ (world thread0).slotOf ctx0 0 = 3 ∧
    Slot.fmt 3 = 3 ∧ (world thread0).slotOf ctx0 1 = 4 ∧ (world thread0).slotOf ctx0 3 = 6 ∧
    (world thread0).slotOf ctx0 2 = 5 ∧ (world thread0).slotOf ctx0 6 = 11 ∧ Slot.fmt 11 = 11 ∧
    ExecutesAlone (world thread0) ctx0 lane0 thread0 ∧
    Handled (world thread0) lane0.tid thread0 (group0 thread0) launch0 ⟨0x01, 0x0E, 0x01234567, 0, 0, 0, 0⟩ :=
  ⟨world_executes _, rfl, rfl, rfl, rfl, rfl, rfl, rfl, world_alone _, world_handled _⟩

theorem witness_PackingAndCodebook : Executes (world thread0) ctx0 lane0 thread0 ∧
    packCount (Slot.fmt ((world thread0).slotOf ctx0 0)) = some 4 ∧ Elem.ofCode 3 = some (.flt .e4m3) ∧
    slotRangeOk ((world thread0).allocOf ctx0) (.v 236) 4 = true ∧
    packCount (Slot.fmt ((world thread0).slotOf ctx0 2)) = some 8 ∧
    slotRangeOk ((world thread0).allocOf ctx0) (.v 232) 8 = true := by
  refine ⟨world_executes _, ?_⟩
  decide +kernel

theorem witness_LiteralsAndTags : Executes (world thread0) ctx0 lane0 thread0 ∧ (world thread0).recOf ctx0 = some rec0 ∧
    ((world thread0).codeWords 0 1 (rec0.addrOf (rec0.idxOf 0x20000 + 1 + (0 : BitVec 16).signExtend 32)) 2).1 = ([0, 0], none) :=
  ⟨world_executes _, rfl, by decide +kernel⟩

/-- The same machine with the first two lanes executing. -/
def world2 (t u : Thread) : State :=
  { world t with
    groups := [{ group0 t with lanes := t :: u :: List.replicate 6 Thread.absent }],
    cur := some { ctx0 with lanes := [lane0, ⟨3, 1, false⟩] } }

theorem witness_LanesAndPredicates :
    Executes (world2 thread0 thread0) { ctx0 with lanes := [lane0, ⟨3, 1, false⟩] } lane0 thread0 ∧
    (∃ p : LaneRef, p ∈ [lane0, ⟨3, 1, false⟩] ∧ p.g = lane0.g ∧ p.lane = lane0.lane ^^^ 1) ∧
    -- a source lane that no participant stands in, and sources outside the segment on both sides
    (∀ p ∈ [lane0, (⟨3, 1, false⟩ : LaneRef)], p.lane ≠ lane0.lane ^^^ 2) ∧ lane0.lane < 0 + 1 ∧ 0 + 2 ≤ lane0.lane + 2 ∧
    (((world2 thread0 thread0).rf lane0).ksel ⟨0, false⟩ = true) := by
  refine ⟨⟨rfl, rfl, ?_, ?_, rfl, rfl⟩, ?_, ?_, ?_, ?_, ?_⟩ <;> decide +kernel

/-- A pair's half A, and half B after it. -/
def half0 (h : HalfPos) (other : Instr) : State :=
  { world thread0 with cur := some { ctx0 with half := h, partner := some other } }

theorem witness_HalfWords :
    ExecutesHalf (half0 .a .nopHalf) { ctx0 with half := .a, partner := some .nopHalf } lane0 thread0 ∧
    (half0 .a .nopHalf).partnerTraps { ctx0 with half := .a, partner := some .nopHalf } lane0 = false ∧
    ExecutesHalf (half0 .b (.faddHalf (.v 0) (.v 1))) { ctx0 with half := .b, partner := some (.faddHalf (.v 0) (.v 1)) } lane0
      thread0 ∧
    (half0 .b (.faddHalf (.v 0) (.v 1))).partnerTraps { ctx0 with half := .b, partner := some (.faddHalf (.v 0) (.v 1)) } lane0 =
      false := by
  refine ⟨⟨rfl, ?_, ?_, ?_, rfl, rfl⟩, ?_, ⟨rfl, ?_, ?_, ?_, rfl, rfl⟩, ?_⟩ <;> decide +kernel

/-! Witnesses of the control statements. -/

/-- A thread whose stack pointer stands at the last word of the window, and one with a full nest below it. -/
def atTop : Thread := { thread0 with sys := { thread0.sys with stkp := 4092 } }
def nested (depth : BitVec 4) (re : Bool) : Thread :=
  { thread0 with sys := { thread0.sys with stkp := 4064, depth := depth, re := re } }

theorem witness_BranchesAndCalls : Executes (world thread0) ctx0 lane0 thread0 ∧ ExecutesAlone (world atTop) ctx0 lane0 atTop ∧
    (world thread0).recOf ctx0 = some rec0 ∧ LocalOk (world atTop) lane0 flock0 (atTop.sys.stkp - 4) 4 ∧
    LocalOk (world atTop) lane0 flock0 atTop.sys.stkp 4 ∧ (world atTop).launch? flock0.launch = some launch0 ∧
    (world atTop).flock? 2 = some flock0 ∧ (world atTop).thread? lane0.tid = some atTop := by
  refine ⟨world_executes _, world_alone _, rfl, ⟨rfl, ?_, ?_⟩, ⟨rfl, ?_, ?_⟩, rfl, rfl, rfl⟩ <;> decide

theorem witness_SoftwareTraps : ctx0.half = .full ∧ thread0.sys.depth = 0 ∧ (world thread0).sysValue lane0 0x003 = none ∧
    sysWritable thread0.sys 0x010 = false ∧ sysWritable thread0.sys 0xFFF = false ∧
    ExecutesAlone (world thread0) ctx0 lane0 thread0 ∧
    Handled (world thread0) lane0.tid thread0 (group0 thread0) launch0 ⟨0x0B, 0xFFFF, 0, 0, 0, 0, 0⟩ :=
  ⟨rfl, rfl, rfl, rfl, rfl, world_alone _, world_handled _⟩

theorem witness_TrapNestingAndReturn :
    (Executes (world (nested 1 false)) ctx0 lane0 (nested 1 false) ∧ (nested 1 false).sys.depth = 1) ∧
    (ExecutesAlone (world (nested 2 true)) ctx0 lane0 (nested 2 true) ∧ 2 ≤ (nested 2 true).sys.depth.toNat ∧
      LocalOk (world (nested 2 true)) lane0 flock0 4064 4 ∧ (4064 : W32).toNat + 32 ≤ flock0.size) ∧
    (let u := { nested 2 true with sleep := .deciding }
     (world u).flock? 2 = some flock0 ∧ (world u).thread? lane0.tid = some u ∧ u.sleep = .deciding ∧ lane0.helper = false) ∧
    (ExecutesAlone (world (nested 15 false)) ctx0 lane0 (nested 15 false) ∧ (nested 15 false).sys.depth ≠ 0 ∧
      LocalOk (world (nested 15 false)) lane0 flock0 4032 4 ∧ (4032 : W32).toNat + 32 ≤ flock0.size) := by
  refine ⟨⟨world_executes _, rfl⟩, ⟨world_alone _, ?_, ⟨rfl, ?_, ?_⟩, ?_⟩, ⟨rfl, rfl, rfl, rfl⟩, world_alone _, ?_, ⟨rfl, ?_, ?_⟩, ?_⟩ <;>
    decide

/-- The machine whose launch has no handler. -/
def unhandled : State :=
  { world thread0 with launches := [{ launch0 with rec_ := { rec0 with handler := 0xFFFFFFFF } }] }

theorem witness_TrapEntry : (∀ ti, Handled (world thread0) lane0.tid thread0 (group0 thread0) launch0 ti) ∧
    (unhandled.group? 3 = some (group0 thread0) ∧ unhandled.thread? lane0.tid = some thread0 ∧
      unhandled.launch? 1 = some { launch0 with rec_ := { rec0 with handler := 0xFFFFFFFF } } ∧
      (∀ x, unhandled.recordPending 1 x = false)) ∧
    -- out of room: at depth 15, and where re-entry is not allowed
    ((world (nested 15 true)).thread? lane0.tid = some (nested 15 true) ∧ (nested 15 true).sys.depth = 15) ∧
    ((world (nested 1 false)).thread? lane0.tid = some (nested 1 false) ∧ (nested 1 false).sys.depth ≠ 0 ∧
      (nested 1 false).sys.re = false) ∧
    -- a member of a region
    (let g := (group0 thread0).setRegion 0 (some ⟨[0], []⟩)
     g.region 0 = some ⟨[0], []⟩ ∧ Handled { world thread0 with groups := [g] } lane0.tid thread0 g launch0
       ⟨0x0B, 0, 0, 0, 0, 0, 0⟩) := by
  refine ⟨world_handled, ⟨rfl, rfl, rfl, fun _ => rfl⟩, ⟨rfl, rfl⟩, ⟨rfl, by decide, rfl⟩, rfl, ?_⟩
  exact ⟨rfl, rfl, rfl, by decide, by decide, by decide, fun _ _ => rfl⟩

/-- A thread whose v0 is +Inf and v1 −Inf, and in which every exception is enabled. -/
def alert : Thread :=
  { thread0 with rf := { RegFile.fresh with v := [(0, ⟨0x7F800000, 0⟩), (1, ⟨0xFF800000, 0⟩)] }, sys := { thread0.sys with fcr := 0x3F } }
/-- The same at one half of a pair word. -/
def alertHalf (h : HalfPos) (other : Instr) : State := { world alert with cur := some { ctx0 with half := h, partner := some other } }

theorem witness_TrapEntry_exceptions :
    ExecutesAlone (world alert) ctx0 lane0 alert ∧
    (∀ ti, Handled (world alert) lane0.tid alert (group0 alert) launch0 ti) ∧
    -- the sum, the quotient by zero and a NaN's exponent are invalid, a division by zero is another
    (let raised (v : Machine.Num × Exc) : Exc := v.2 ||| (toF32 v.1).2
     raised (Machine.Num.add (f32 0x7F800000) (f32 0xFF800000)) &&& alert.sys.fcr = Exc.iv ∧
       raised (divNum (f32 0x3F800000) (f32 0)) &&& alert.sys.fcr = Exc.dz ∧ Exc.iv ≠ 0 ∧ Exc.dz ≠ 0) ∧
    -- half A traps; half B traps with half A or alone; half A's partner traps
    ((alertHalf .a .nopHalf).cur = some { ctx0 with half := .a, partner := some .nopHalf } ∧
      (alertHalf .b (.iaddHalf (.v 2) (.v 3))).partnerTraps { ctx0 with half := .b, partner := some (.iaddHalf (.v 2) (.v 3)) } lane0 =
        false ∧
      (alertHalf .a (.faddHalf (.v 0) (.v 1))).partnerTraps { ctx0 with half := .a, partner := some (.faddHalf (.v 0) (.v 1)) } lane0 =
        true ∧
      (0 : Exc) &&& alert.sys.fcr = 0 ∧ ∀ h o ti, Handled (alertHalf h o) lane0.tid alert (group0 alert) launch0 ti) := by
  refine ⟨world_alone _, fun _ => ⟨rfl, rfl, rfl, by decide, by decide, by decide, fun _ _ => rfl⟩, ?_, rfl, ?_, ?_, rfl,
    fun _ _ _ => ⟨rfl, rfl, rfl, by decide, by decide, by decide, fun _ _ => rfl⟩⟩ <;> decide +kernel

/-- A thread asleep at a barrier whose wake cycle is now. -/
def woken (pad : Bool) : Thread := { thread0 with sleep := .barrier pad 3 0 (some 0) }

theorem witness_Barriers : ExecutesAlone (world thread0) ctx0 lane0 thread0 ∧
    (world thread0).group? 3 = some (group0 thread0) ∧ (world thread0).padSet ctx0 = true ∧
    (world thread0).launch? 1 = some launch0 ∧ (world thread0).flockAt? 1 0 0 = some flock0 ∧ thread0.sleep = .awake ∧
    -- the phase is 1 past the named one, the same as it, and 2^31 past it
    (let passed (b v : W32) : Bool := decide (1 ≤ (b - v).toNat ∧ (b - v).toNat < 2 ^ 31)
     passed 0 0xFFFFFFFF = true ∧ passed 0 0 = false ∧ passed 0 0x80000000 = false) ∧
    (∀ pad, (world (woken pad)).thread? lane0.tid = some (woken pad) ∧ (woken pad).sleep = .barrier pad 3 0 (some 0)) := by
  refine ⟨world_alone _, rfl, rfl, rfl, rfl, rfl, ?_, fun _ => ⟨rfl, rfl⟩⟩
  decide

theorem witness_SystemRegisters : Executes (world thread0) ctx0 lane0 thread0 ∧
    (world thread0).group? 3 = some (group0 thread0) ∧ (world thread0).launch? 1 = some launch0 ∧
    (0x104 : BitVec 12) ∈ ([0x000, 0x001, 0x002, 0x020, 0x030, 0x102, 0x104] : List (BitVec 12)) ∧
    ((0x011 : BitVec 12) ∈ ([0x010, 0x011] : List (BitVec 12)) ∧ (nested 1 false).sys.depth ≠ 0) ∧
    Executes (world (nested 1 false)) ctx0 lane0 (nested 1 false) := by
  refine ⟨world_executes _, rfl, rfl, ?_, ⟨?_, ?_⟩, world_executes _⟩ <;> decide

/-- A thread with one tile operation not complete, and one with the class's error bit set. -/
def waiting : Thread := { thread0 with outs := [⟨9, .tile, false, false⟩] }
def failedTile : Thread := { thread0 with sys := { thread0.sys with engerr := 1#5 <<< EngClass.tile.toNat } }

theorem witness_WaitingWords :
    (Executes (world thread0) ctx0 lane0 thread0 ∧ thread0.sys.engerr.getLsbD EngClass.tile.toNat = false) ∧
    ((waiting.outs.filter fun o => decide (o.cls = .tile)).length = 1 ∧ (0 : BitVec 6).toNat < 1) ∧
    (failedTile.sys.engerr.getLsbD EngClass.tile.toNat = true ∧ ExecutesAlone (world failedTile) ctx0 lane0 failedTile ∧
      Handled (world failedTile) lane0.tid failedTile (group0 failedTile) launch0
        ⟨0x14, BitVec.ofNat 32 EngClass.tile.toNat, 0, 0, 0, 0, 0⟩) ∧
    (ExecutesAlone (world thread0) ctx0 lane0 thread0 ∧ LocalOk (world thread0) lane0 flock0 4092 4) :=
  ⟨⟨world_executes _, rfl⟩, ⟨rfl, by decide⟩,
    ⟨by decide, world_alone _, rfl, rfl, rfl, by decide, by decide, by decide, fun _ _ => rfl⟩, world_alone _, rfl, by decide,
    by decide⟩

/-- A thread asleep at WAITA on the window's last word, its own check to come or passed, and one whose wake cycle is 5. -/
def watching (toCheck : Bool) (w : Option Nat) : Thread := { thread0 with sleep := .waita 4092 false 0 (.v 4) toCheck [] w }

theorem witness_WaitingWords_wakes :
    (∀ c, (world (watching c none)).flock? 2 = some flock0 ∧ (world (watching c none)).thread? lane0.tid = some (watching c none) ∧
      (watching c none).sleep = .waita 4092 false 0 (.v 4) c [] none ∧ (watching c none).present = true ∧
      (world (watching c none)).group? 3 = some (group0 (watching c none)) ∧
      (∀ h ∈ (world (watching c none)).groups, h.uid = 3 → h = group0 (watching c none))) ∧
    (group0 thread0).launch = flock0.launch ∧ (group0 thread0).core = flock0.core ∧ (group0 thread0).slot = flock0.slot ∧
    4092 % 4 = 0 ∧ (watching false (some 5)).sleep = .waita 4092 false 0 (.v 4) false [] (some (5 : BitVec 6).toNat) := by
  refine ⟨fun _ => ⟨rfl, rfl, rfl, rfl, rfl, fun h m _ => List.mem_singleton.1 m⟩, rfl, rfl, rfl, ?_, rfl⟩
  decide

/-- A launch whose partition is being stopped, and an open trace window with marks. -/
def stopping0 : State := { world thread0 with parts := [(0, { Part.whole with stop := some ⟨0, 0x10, 1, [], true⟩ })] }
def window0 : TraceWindow :=
  ⟨0, 0, 0x30000, 65536, 0, false, true, true, true, List.replicate 9 { TraceStream.fresh with opened := some 0 }, none⟩
def traced0 : State := { world thread0 with trace := { TraceSt.fresh with window := some window0 } }
/-- A machine in which a thread has been ready without issue for 4,096 cycles. -/
def starved : State :=
  { world { thread0 with readySince := some 0 } with cur := none, dies := [(0, { Die.fresh with cycle := 4096 })] }

/-- Lane 1 stands at the word too, with its predicate false. -/
def withOff : IssueCtx := { ctx0 with off := [⟨3, 1, false⟩] }

theorem witness_RegionsAndLeaving :
    (ExecutesAlone (world thread0) ctx0 lane0 thread0 ∧ (group0 thread0).region 0 = none) ∧
    (ExecutesAlone { world thread0 with cur := some withOff } withOff lane0 thread0 ∧
      (∀ n, n ∈ [0, 1] ↔ n = lane0.lane ∨
        ∃ x ∈ withOff.off, x.helper = false ∧ x.g = lane0.g ∧ x.lane / 4 = lane0.lane / 4 ∧ x.lane = n) ∧
      [0, 1].Pairwise (· < ·) ∧ [0, 1].head? = some 0 ∧ withOff.off.Nodup ∧ lane0 ∉ withOff.off) ∧
    (let g := (group0 thread0).setRegion 0 (some ⟨[0], []⟩)
     (({ world thread0 with groups := [g] } : State).group? 3 = some g ∧ g.region 0 = some ⟨[0], []⟩ ∧ [0].contains 0 = true)) ∧
    (∃ i u, i ≠ 0 ∧ ({ group0 thread0 with lanes := thread0 :: thread0 :: List.replicate 6 Thread.absent } : Group).lanes[i]? =
      some u ∧ u.present = true) ∧
    (¬ ∃ i u, i ≠ 0 ∧ (group0 thread0).lanes[i]? = some u ∧ u.present = true) ∧
    (world thread0).stopping 1 = false ∧ (stopping0.stopping 1 = true ∧ stopping0.recOf ctx0 = some rec0 ∧
      stopping0.flockOf? 3 = some flock0) ∧
    traced0.trace.window = some window0 ∧ (world thread0).trace.window = none ∧
    (starved.toForce 0 0).isSome = true := by
  refine ⟨⟨world_alone _, rfl⟩, ⟨⟨rfl, rfl, rfl, rfl, rfl⟩, ?_, by decide, rfl, by decide, by decide⟩, ⟨rfl, rfl, rfl⟩,
    ⟨1, thread0, by decide, rfl, rfl⟩, ?_, rfl, ⟨rfl, rfl, rfl⟩, rfl, rfl, ?_⟩
  · intro n
    simp [withOff, lane0]
    omega
  · rintro ⟨i, u, hi, hu, hp⟩
    match i, hi with
    | i + 1, _ =>
      have : u = Thread.absent := by
        simp only [group0, List.getElem?_cons_succ, List.getElem?_replicate] at hu
        split at hu <;> simp_all
      rw [this] at hp
      exact absurd hp (by decide)
  · decide +kernel

/-! Witnesses of the statements about scratchpad and global memory. -/

/-- A thread whose pair v0, v1 holds a value. -/
def holding (w : W64) : Thread :=
  { thread0 with rf := { RegFile.fresh with v := [(0, ⟨w.setWidth 32, 0⟩), (1, ⟨(w >>> 32).setWidth 32, 0⟩)] } }

/-- The same machine with other parts of its launch record. -/
def worldOf (t : Thread) (r : LaunchRec) : State := { world t with launches := [{ launch0 with rec_ := r }] }

theorem witness_ScratchpadLoadsAndStores :
    ExecutesAlone (world (holding 4080)) ctx0 lane0 (holding 4080) ∧
    -- the last place of each width, and a paddock address of the flock's own core
    LocalOk (world (holding 4080)) lane0 flock0 4080 16 ∧ LocalOk (world (holding 4080)) lane0 flock0 4092 4 ∧
    LocalOk (world (holding 4080)) lane0 flock0 4095 1 ∧ PadOk (world (holding 4080)) ctx0 lane0 flock0 4080 4080 16 := by
  refine ⟨world_alone _, ⟨rfl, ?_, ?_⟩, ⟨rfl, ?_, ?_⟩, ⟨rfl, ?_, ?_⟩, ⟨rfl, rfl, ?_, ?_⟩⟩ <;> decide

theorem witness_AtomicAndCellWords : ExecutesAlone (world (holding 4064)) ctx0 lane0 (holding 4064) ∧
    LocalOk (world (holding 4092)) lane0 flock0 4092 4 ∧ LocalOk (world (holding 4064)) lane0 flock0 4064 32 ∧
    PadOk (world (holding 4092)) ctx0 lane0 flock0 4092 4092 4 ∧ ((world (holding 4092)).isDet ctx0 = true → flock0.core = ctx0.core) := by
  refine ⟨world_alone _, ⟨rfl, ?_, ?_⟩, ⟨rfl, ?_, ?_⟩, ⟨rfl, rfl, ?_, ?_⟩, fun _ => rfl⟩ <;> decide

/-- Memory in which the second GiB of function 0 is host memory. -/
def hostMapped (s : State) : State :=
  { s with
    mem := Mem.write64 s.mem 0x11008 0x800000000021F,
    pfMem := { s.pfMem with filters := [(0, (1, 0x4000000000)), (1, (0x8000000000001, 0x8000040000000))] } }

/-- The machine whose function 0 has its second GiB at a root entry of its own. -/
def mapped (pte : W64) (fqsize : W32) : State :=
  let s := hostMapped (world thread0)
  { s with mem := Mem.write64 s.mem 0x11008 pte, fnMem := s.fnMem.map fun e => (e.1, { e.2 with fqsize := fqsize }) }

/-- A launch in deterministic mode with the word at 0x30000 its flock's, the next shared by all and the one after another flock's. -/
def ranged0 : LaunchRec :=
  { rec0 with mode := 1, ranges := [⟨0x30000, 4, 0⟩, ⟨0x30004, 4, 0xFFFFFFFF⟩, ⟨0x30008, 4, 1⟩] }

theorem witness_AccessTraps : ctx0.half = .full ∧ ExecutesAlone (world thread0) ctx0 lane0 thread0 ∧
    (∀ ti, Handled (world thread0) lane0.tid thread0 (group0 thread0) launch0 ti) ∧
    (world thread0).flockOf? 3 = some flock0 ∧
    -- one byte past the window and one byte off, of a word, a cell and a halfword
    (∀ n ∈ [2, 4, 32], flock0.size < (4097 - n) + n ∧ 4095 - n + n ≤ flock0.size ∧ (4095 - n) % n ≠ 0) ∧
    -- no paddocks, no such core, and the last word of the flock's own window
    (worldOf thread0 { rec0 with pad := false }).padSet ctx0 = false ∧
    ((world thread0).padSet ctx0 = true ∧ (world thread0).padTarget lane0 0x800000 = none ∧
      (world thread0).padTarget lane0 4093 = some (flock0, 4093) ∧ flock0.size < 4093 + 4 ∧ 4091 + 4 ≤ flock0.size ∧ 4091 % 4 ≠ 0) ∧
    -- another core's window in deterministic mode
    (let s := { worldOf thread0 { rec0 with mode := 1 } with flocks := [flock0, { flock0 with uid := 9, core := 1 }] }
     PadOk s ctx0 lane0 { flock0 with uid := 9, core := 1 } 0x200000 0 4 ∧ s.isDet ctx0 = true ∧ (1 : Nat) ≠ ctx0.core) := by
  refine ⟨rfl, world_alone _, world_handled, rfl, ?_, rfl, ?_, ⟨rfl, ?_, ?_, ?_⟩, rfl, ?_⟩ <;> decide +kernel

theorem witness_AccessTraps_global :
    (world thread0).launch? 1 = some launch0 ∧ (0x30001 : W64).toNat % 4 ≠ 0 ∧
    ((world thread0).accessPage 16 0 0x1000000000000 4 .read).1 = .access false ∧
    ((world thread0).accessPage 16 0 0x1000000000000 32 .atomic).1 = .access false ∧
    ((hostMapped (world thread0)).accessPage 16 0 0x40000000 4 .atomic).1 = .ok 0x8000000000000 2 1 false ∧
    -- a page that may not be written, one that is not present, one that is the host's, and a fault queue with room or none
    ((mapped 0x3 0).accessPage 16 0 0x40000000 4 .write).1 = .access true ∧
    ((mapped 0 4).accessPage 16 0 0x40000000 16 .read).1 = .notPresent ∧ ((mapped 0x8F 4).accessPage 16 0 0x40000000 4 .read).1 = .hostOwned ∧
    ((mapped 0 4).fnMemOf 0).fqsize ≠ 0 ∧ ((mapped 0 0).fnMemOf 0).fqsize = 0 ∧
    ExecutesAlone (mapped 0 4) ctx0 lane0 thread0 ∧
    -- ranges of another flock, of none and shared
    (let s := worldOf (holding 0x30000) ranged0
     (s.accessPage 16 0 0x30000 4 .write).1 = .ok 0x30000 0 1 false ∧ ranged0.det = true ∧ s.laneOwner ctx0 lane0 0x30000 4 = .own ∧
       s.laneOwner ctx0 lane0 0x30004 4 = .shared ∧ s.laneOwner ctx0 lane0 0x30008 4 = .other ∧
       s.laneOwner ctx0 lane0 0x3000C 4 = .outside) := by
  refine ⟨rfl, ?_, ?_, ?_, ?_, ?_, ?_, ?_, ?_, ?_, ⟨rfl, rfl, rfl, rfl, rfl⟩, ?_⟩ <;> decide +kernel

theorem witness_ScratchpadPoints : (world thread0).flock? 2 = some flock0 ∧ 4080 % Width.w4.bytes = 0 ∧
    [TW.zero, TW.zero, TW.zero, TW.zero].length = Width.w4.regs ∧ 4094 % Width.h.bytes = 0 ∧ Width.h.bytes < 4 ∧
    (2 ^ 144 - 1 < 2 ^ 144) := by
  refine ⟨rfl, ?_, ?_, ?_, ?_, ?_⟩ <;> decide

/-- A thread whose results of a word are reserved, and the flock of a cell slot whose sticky bits hold +Inf and −Inf. -/
def pendingOf (ds : List Reg) : Thread :=
  let ws := (ds.filter fun r => decide (r ≠ .zero)).map fun r => (⟨6, 1, .reg r, none⟩ : Landing)
  { thread0 with rf := { RegFile.fresh with pend := ws ++ [⟨6, 1, .reg .last, none⟩] } }
def infinite : Flock := { flock0 with mem := Mem.write flock0.mem (4064 + 18) 6 }
def celled (t : Thread) : State := { world t with flocks := [infinite] }

theorem witness_ScratchpadPoints_cells :
    -- a unit and half of one; a NaN and both infinities
    (f32 0x3F800000 = .fin false 0x800000 (-23) ∧ (-24 : Byte).toInt ≤ -23 ∧ (-23 : Int) < (0 : Byte).toInt ∧
      (f32 0x7FC00000).isNan = true ∧ f32 0x7F800000 = .inf false ∧ f32 0xFF800000 = .inf true) ∧
    (7 < 8 ∧ 7 % 2 = 1 ∧ 6 / 2 = 3) ∧
    -- the last cell and the last word of the window
    4064 % 32 = 0 ∧ 4092 % 4 = 0 ∧ (celled thread0).flock? 2 = some infinite ∧ lane0.helper = false ∧
    (∀ d ∈ [.v 4, .zero], (world (pendingOf [d])).thread? lane0.tid = some (pendingOf [d])) ∧ (pendingOf [.v 4]).sleep = .awake ∧
    (regRange (.v 235) 5).Nodup ∧ .last ∉ regRange (.v 235) 5 ∧
    -- an invalid read, with its exception enabled and not
    (let got := cellRead (Mem.readNat infinite.mem 4064 18) ((Mem.read infinite.mem (4064 + 18)).toNat % 8) 0
     got.2 &&& 0 = 0 ∧ got.2 &&& 1 ≠ 0) ∧
    (let t := { pendingOf [.v 4] with sleep := .deciding }
     (celled t).thread? lane0.tid = some t ∧ ∀ ti, Handled (celled t) lane0.tid t (group0 t) launch0 ti) := by
  refine ⟨?_, ?_, ?_, ?_, rfl, rfl, fun _ _ => rfl, rfl, ?_, ?_, ?_, rfl,
    fun _ => ⟨rfl, rfl, rfl, by decide, by decide, by decide, fun _ _ => rfl⟩⟩ <;> decide +kernel

theorem global_ok (n : Nat) (kind : AccKind) (gatom : Bool) (hn : (0x30000 : W64).toNat % n = 0)
    (hp : ((world (holding 0x30000)).accessPage 16 0 0x30000 n kind).1 = .ok 0x30000 0 1 false) :
    GlobalOk (world (holding 0x30000)) ctx0 lane0 0x30000 n kind gatom launch0 (group0 (holding 0x30000)) 0x30000 0 1 false :=
  ⟨rfl, rfl, hn, hp, fun _ => by decide, .inr (.inl rfl)⟩

theorem witness_GlobalWords : ExecutesAlone (world (holding 0x30000)) ctx0 lane0 (holding 0x30000) ∧
    (let s := world (holding 0x30000)
     (s.operand lane0 (regPlus (.v 0) 1)).val ++ (s.operand lane0 (.v 0)).val = (0x30000 : W64)) ∧
    GlobalOk (world (holding 0x30000)) ctx0 lane0 0x30000 16 .read false launch0 (group0 (holding 0x30000)) 0x30000 0 1 false ∧
    GlobalOk (world (holding 0x30000)) ctx0 lane0 0x30000 16 .write false launch0 (group0 (holding 0x30000)) 0x30000 0 1 false ∧
    GlobalOk (world (holding 0x30000)) ctx0 lane0 0x30000 4 .atomic true launch0 (group0 (holding 0x30000)) 0x30000 0 1 false ∧
    GlobalOk (world (holding 0x30000)) ctx0 lane0 0x30000 32 .atomic false launch0 (group0 (holding 0x30000)) 0x30000 0 1 false := by
  refine ⟨world_alone _, ?_, global_ok _ _ _ ?_ ?_, global_ok _ _ _ ?_ ?_, global_ok _ _ _ ?_ ?_, global_ok _ _ _ ?_ ?_⟩ <;>
    decide +kernel

/-- An access in flight that may be performed now, and the machine it is in. -/
def access0 (op : GOp) : GAcc :=
  { id := 9, lane := lane0, unit := false, launch := 1, core := 0, logical := 0, fn := 0, va := 0x30000, pa := 0x30000, tier := 0,
    kind := 1, tagged := false, issued := 0, earliest := 0, seq := 0, op := op, pc := 0x20000, tags := (0, 0, 0), flagId := some 8,
    site := 0x8000, first := 0, mode := 0, after := [], merged := [], performed := false }
def inFlight0 (op : GOp) (t : Thread) : State := { world t with gaccs := [access0 op] }
def awaiting : Thread := { thread0 with flagged := [⟨8, some 3, 0, 0, 0, [.v 4], none, true, none⟩] }

/-- A host store, one to a tagged page whose tags stand at 0x50000, and a line that has gone bad. -/
def taggedPages (s : State) : State := { s with pfMem := { s.pfMem with tsbase0 := 0x38000 } }
def spoiled (s : State) : State := { s with poison := [0x30000 / 64] }

theorem witness_GlobalPerformed :
    (let g := access0 (.store [⟨1, 0⟩])
     let s := inFlight0 (.store [⟨1, 0⟩]) thread0
     s.gaccs.find? (fun x => decide (x.id = 9)) = some g ∧ s.accReady g = true ∧ g.unit = false ∧ g.tagged = false ∧
       s.atLine g = (.ok, s) ∧ g.pa % 64 + 4 * 1 ≤ 64 ∧ s.cxlFull g.pa = false) ∧
    (let g := { access0 (.store [⟨1, 0⟩]) with tagged := true, pa := 0x3003C }
     let s := taggedPages { world thread0 with gaccs := [g] }
     s.accReady g = true ∧ s.atLine g = (.ok, s) ∧ s.tagAddr 0 g.pa = 0x5001E ∧ s.cxlFull 0x5001E = false ∧ tierBase 0 ≤ g.pa ∧
       g.pa + 4 ≤ 0x5001E ∧ g.pa % 64 + 4 * 1 ≤ 64) ∧
    (let g := { access0 (.store [⟨1, 0⟩]) with flagId := none }
     let s := spoiled { world thread0 with gaccs := [g] }
     s.accReady g = true ∧ s.atLine g = (.poisoned, s) ∧ State.PhysCheck.poisoned ≠ .ok ∧ (∀ cls k, thread0.sleep ≠ .waitc cls k) ∧
       ∀ ti, Handled s lane0.tid thread0 (group0 thread0) launch0 ti) ∧
    (∀ op ∈ [GOp.load 1, GOp.atom .add ⟨1, 0⟩ 0, GOp.cellAdd ⟨0x3F800000, 0⟩ 0],
      let g := access0 op
      let s := inFlight0 op awaiting
      s.gaccs.find? (fun x => decide (x.id = 9)) = some g ∧ s.accReady g = true ∧ s.thread? g.lane.tid = some awaiting ∧
        g.unit = false ∧ g.lane.helper = false ∧ awaiting.flagged.map (·.id) = [8] ∧ g.flagId = some 8 ∧ launch0.rec_.record = false ∧
        launch0.rec_.replay = false ∧ s.atLine g = (.ok, s) ∧ g.tier < 2 ∧ s.cxlFull g.pa = false) ∧
    ({ access0 (.store []) with performed := true } : GAcc).performed = true := by
  refine ⟨⟨rfl, ?_, rfl, rfl, ?_, ?_, ?_⟩, ?_, ⟨?_, ?_, ?_, fun _ _ => nofun,
    fun _ => ⟨rfl, rfl, rfl, by decide, by decide, by decide, fun _ _ => rfl⟩⟩, ?_, rfl⟩ <;> decide +kernel

/-- A launch with an origin table of four records. -/
def tagged0 : LaunchRec := { rec0 with mode := 8, orign := 5, origbase := 0x40000 }
def refilling : OriginUnit := { OriginUnit.fresh with refill := true }
def originWorld (t : Thread) : State :=
  { worldOf t tagged0 with cores := [(0, { CoreSt.fresh with origin := [(1, refilling)] })] }

/-- The same launch where core 0's reserve holds numbers 3 and 2, where it is empty at the table's end, where the unit has
stopped, and where the cache knows the key of the word at 0x20000. -/
def reserveWorld (u : OriginUnit) (cache : List OriginEnt) : State :=
  { worldOf thread0 tagged0 with cores := [(0, { CoreSt.fresh with origin := [(1, u)], originCache := cache })] }
def stocked : State := reserveWorld { OriginUnit.fresh with reserve := [3, 2] } []
def spent : State := reserveWorld { OriginUnit.fresh with full := true } []
def stoppedUnit : State := reserveWorld { OriginUnit.fresh with stopped := true } []
def known : State := reserveWorld { OriginUnit.fresh with reserve := [3, 2] } [⟨1, 0x8000, 0, 1⟩]

theorem witness_TagBirths :
    (ExecutesAlone (world thread0) ctx0 lane0 thread0 ∧ rec0.tags = false ∧ tagged0.tags = true) ∧
    (ExecutesAlone known ctx0 lane0 thread0 ∧ known.group? 3 = some (group0 thread0) ∧
      known.launch? 1 = some { launch0 with rec_ := tagged0 } ∧
      (known.core 0).originCache.find? (fun e => decide (e.launch = 1 ∧ e.site = 0x8000 ∧ e.logical = 0)) = some ⟨1, 0x8000, 0, 1⟩) ∧
    (ExecutesAlone stoppedUnit ctx0 lane0 thread0 ∧ (stoppedUnit.core 0).originCache = [] ∧ (stoppedUnit.originUnit 0 1).stopped = true) ∧
    (ExecutesAlone spent ctx0 lane0 thread0 ∧ (spent.originUnit 0 1).stopped = false ∧ (spent.originUnit 0 1).reserve = [] ∧
      (spent.originUnit 0 1).full = true) ∧
    (ExecutesAlone stocked ctx0 lane0 thread0 ∧ (stocked.originUnit 0 1).stopped = false ∧
      2 ∈ (stocked.originUnit 0 1).reserve ∧ (∀ m ∈ (stocked.originUnit 0 1).reserve, 2 ≤ m) ∧
      (stocked.pledged 0 1).length < (stocked.originUnit 0 1).reserve.length) := by
  refine ⟨⟨world_alone _, rfl, rfl⟩, ⟨⟨rfl, rfl, rfl, rfl, rfl⟩, rfl, rfl, rfl⟩, ⟨⟨rfl, rfl, rfl, rfl, rfl⟩, rfl, rfl⟩,
    ⟨⟨rfl, rfl, rfl, rfl, rfl⟩, rfl, rfl, rfl⟩, ⟨rfl, rfl, rfl, rfl, rfl⟩, rfl, ?_, ?_, ?_⟩ <;> decide +kernel

theorem witness_Origins : ExecutesAlone (worldOf thread0 tagged0) ctx0 lane0 thread0 ∧
    (worldOf thread0 tagged0).launch? 1 = some { launch0 with rec_ := tagged0 } ∧
    -- the highest record the table can have, and the tag after it
    ((4 : Tag) ≠ 0 ∧ (4 : Tag).toNat < 0x8000 ∧ tagged0.tags = true ∧ (4 : Tag).toNat ≤ tagged0.orign - 1 ∧ 1 ≤ tagged0.orign) ∧
    ¬ ((5 : Tag).toNat ≤ tagged0.orign - 1) ∧
    ((worldOf thread0 tagged0).accessPage 16 0 (0x40000 + 16 * 4) 16 .read).1 = .ok 0x40040 0 1 false ∧
    (((originWorld thread0).core 0).origin = [(1, refilling)] ∧ refilling.refill = true ∧ refilling.stopped = false ∧
      (originWorld thread0).waits 0 (.origin 0 1) = false ∧
      ((originWorld thread0).accessPage 16 0 0x40000 4 .atomic).1 = .ok 0x40000 0 1 false) := by
  refine ⟨⟨rfl, rfl, rfl, rfl, rfl⟩, rfl, ?_, ?_, ?_, rfl, rfl, rfl, rfl, ?_⟩ <;> decide +kernel

theorem witness_RegisterReadsAndLandings :
    (world thread0).group? 3 = some (group0 thread0) ∧ (world thread0).flockOf? 3 = some flock0 ∧
    -- two writes of one cycle to one register: the later of them is the last to land
    (let w : Landing := ⟨5, 2, .reg (.v 239), some ⟨7, 0⟩⟩
     let u : Landing := ⟨5, 1, .reg (.v 239), some ⟨6, 0⟩⟩
     let r : RegFile := { RegFile.fresh with pend := [w, u] }
     w ∈ r.pend ∧ w.cyc ≤ 5 ∧ ∀ x ∈ r.pend, x.cyc ≤ 5 → x.dst = .reg (.v 239) →
       x = w ∨ x.cyc < w.cyc ∨ (x.cyc = w.cyc ∧ x.seq < w.seq)) ∧
    (let w : Landing := ⟨5, 2, .reg .last, some ⟨7, 0⟩⟩
     let p : Landing := ⟨5, 2, .pred 7, some ⟨1, 0⟩⟩
     let r : RegFile := { RegFile.fresh with pend := [w, p] }
     w ∈ r.pend ∧ r.lastSeq ≤ w.seq ∧ (∀ x ∈ r.pend, x.dst = .reg .last → x = w) ∧ (∀ x ∈ r.pend, x.dst = .pred 7 → x = p)) ∧
    (let t : Thread := { thread0 with flags := 8, flagged := [⟨8, some 3, 0, 0, 9, [.v 4], some [⟨1, 0⟩], false, none⟩] }
     (world t).group? 3 = some (group0 t) ∧ (world t).thread? ⟨3, 0⟩ = some t ∧
       (t.flagged.find? fun x => decide (x.id = 8)).isSome = true ∧ 0 ≤ (world t).cycle 0 ∧ t.rf.landed = [] ∧ [Reg.v 4].Nodup) ∧
    -- a word issued later has landed in the register already
    (let t : Thread := { thread0 with
       rf := { RegFile.fresh with landed := [(.v 4, 5)] }, flagged := [⟨8, some 3, 0, 0, 9, [.v 4], some [⟨1, 0⟩], false, none⟩] }
     ∃ q, (.v 4, q) ∈ t.rf.landed ∧ 0 < q) := by
  refine ⟨rfl, rfl, ?_, ?_, ⟨rfl, rfl, rfl, Nat.zero_le _, rfl, by decide⟩, 5, ?_⟩ <;> decide

/-! Witnesses of the statements about engines. -/

/-- A command of the copy engine's queue, of core 0's thread. -/
def command0 (kind : CopyKind) (args : List W32) : CopyCmd :=
  { id := 9, kind := kind, tid := lane0.tid, launch := 1, fn := 0, flock := 2, scope := .flk, batch := some 8, tagmode := 0, site := 0x8000,
    logical := 0, first := 0, pc := 0x20000, args := some args, after := [], prior := [], earliest := 0, started := none, next := 0,
    ahead := [], parts := [], xcore := 0, input := [], restart := (0, 0), output := none, status := 0, sent := 0, policy := false, asleep := false,
    own := none, code := none }

def copying (t : Thread) (k : CopyCmd) : State := { world t with cores := [(0, { CoreSt.fresh with copy := [k] })] }

/-- One word, from the start of the window to global memory; the completion word is the window's last. -/
def block0 : List W32 := [0, 0x80000000, 0x30000, 0, 0x10001, 1, 0, 0, 0, 0, 0x200, 4092, 7, 0, 0, 0]

/-- A thread with an open batch of 254 commands. -/
def batched (t : Thread) : Thread := { t with batch := ⟨8, 254, false, 5⟩ }

/-- The machine whose code is one word, with no word being issued. -/
def worldAt (w : Nat) (t : Thread) : State :=
  { State.reset.withFetchWord 64 w with launches := [launch0], flocks := [flock0], groups := [group0 t] }

theorem witness_CopyIssue :
    ExecutesAlone (world (batched (holding 4032))) ctx0 lane0 (batched (holding 4032)) ∧
    (group0 (batched (holding 4032))).gidx = launch0.rec_.bell ∧ (batched thread0).batch.count < 255 ∧
    LocalOk (world (batched (holding 4032))) lane0 flock0 4032 64 ∧
    ¬ ({ group0 thread0 with gidx := 1 } : Group).gidx = launch0.rec_.bell ∧
    -- a batch with a member in the queue, sealed by SEAL and at EXIT
    ((batched thread0).batch.count ≠ 0 ∧
      (((copying (batched thread0) (command0 .cpy block0)).core 0).copy.any fun k => decide (k.batch = some 8)) = true) ∧
    ((encode (.full 0 0 0 false .exit)).map fun w => (worldAt w.toNat (batched thread0)).atLeave (group0 (batched thread0)) 0
      (batched thread0)) = some true ∧ (batched thread0).count .copy < 63 := by
  refine ⟨world_alone _, ?_, ?_, ⟨rfl, ?_, ?_⟩, ?_, ⟨?_, ?_⟩, ?_, ?_⟩ <;> decide +kernel

/-- A routine's command that has started and not returned, its input of one element. -/
def routine0 : CopyCmd :=
  { command0 .cpyx ((block0.take 13) ++ [6, 0, 0]) with started := some 0 }
/-- The same with its element's bytes handed over, of a loaded routine (6) and of a shipped one (1). -/
def given0 (r : Nat) : CopyCmd :=
  { command0 .cpyx ((block0.take 13) ++ [BitVec.ofNat 32 r, 0, 0]) with started := some 0, next := 1, input := [(1, 0), (2, 0), (3, 0), (4, 0)] }
/-- The machine whose transform core 0 has entered that routine. -/
def transforming (r : Nat) : State :=
  { world thread0 with cores := [(0, { CoreSt.fresh with copy := [given0 r], xcores := [(0, XCore.enter [] 0 false 0)] })] }
/-- A collective whose other contributors are missing, 10 ms after its start. -/
def gathering : State :=
  { copying thread0 { command0 (.ccoll .allgather) [] with started := some 0 } with tick := 33000000 }
def finished0 (code : Nat) : CopyCmd := { command0 .cpy block0 with started := some 0, code := some code }

theorem witness_CopyEvents :
    ((copying thread0 (command0 .cpy block0)).startable 0 = some (command0 .cpy block0) ∧
      (copying thread0 (command0 .cpy block0)).flock? 2 = some flock0) ∧
    (routine0.kind = .cpyx ∧ routine0.started.isSome = true ∧ routine0.code = none ∧ routine0.output = none ∧
      routine0.next < routine0.desc.total ∧ routine0.mayRun (copying thread0 routine0) = true ∧ routine0.asleep = false ∧
      (copying thread0 routine0).copyCmd? 0 9 = some routine0) ∧
    (∀ r ∈ [1, 6], (transforming r).copyCmd? 0 9 = some (given0 r) ∧ (given0 r).kind = .cpyx ∧
      (given0 r).code = none ∧ (given0 r).output = none ∧ (given0 r).mayRun (transforming r) = true ∧
      (given0 r).desc.rid = r ∧ (given0 r).next ≠ 0 ∧ (given0 r).desc.total ≤ (given0 r).next ∧
      ((transforming r).xcoreOf 0 (given0 r)).roomFor xOut 4 = true ∧
      (transforming r).routineHeld 0 (given0 r) = false ∧ (transforming r).outputCheck (given0 r) 4 = 0) ∧
    (∃ k, gathering.copyCmd? 0 9 = some k ∧ k.code = none ∧ gathering.collParts k = none ∧
      0 + 10000000 ≤ gathering.timestamp (dieOf 0)) ∧
    (∀ code ∈ [0, 7], (copying thread0 (finished0 code)).copyCmd? 0 9 = some (finished0 code) ∧ (finished0 code).cw = (4092, 7) ∧
      (finished0 code).mayRun (copying thread0 (finished0 code)) = true) ∧
    (4092 : W32) ≠ 0 ∧ (4092 : W32).toNat % 4 = 0 ∧ (4092 : W32).toNat + 4 ≤ flock0.size := by
  refine ⟨?_, ?_, ?_, ⟨_, rfl, rfl, ?_, ?_⟩, ?_, ?_, ?_, ?_⟩ <;> decide +kernel

/-- The machine with its tile engine in a given state. -/
def tiled (t : Thread) (u : TileUnit) : State := { world t with cores := [(0, { CoreSt.fresh with tile := u })] }
def held : TileUnit := { TileUnit.fresh with holder := some 2, lastLaunch := some 1 }
def tileOp0 (i : Instr) : TileOp :=
  { id := 9, instr := i, tid := lane0.tid, launch := 1, fn := 0, flock := 2, a := 0, b := 0x30000, tagmode := 0, site := 0x8000,
    logical := 0, first := 0, pc := 0x20000, ready := 0, until_ := none, done := false, raised := 0, fold := none, code := 0 }

theorem witness_TileReservation : (∀ u, ExecutesAlone (tiled thread0 u) ctx0 lane0 thread0 ∧
      (tiled thread0 u).flockOf? 3 = some flock0 ∧ (tiled thread0 u).tileUnit 0 = u) ∧
    held.holder = some 2 ∧ (TileUnit.fresh.holder = none ∧ (∀ x ∈ TileUnit.fresh.waiting, x = 2) ∧ thread0.sleep = .awake) ∧
    -- held by another flock
    (({ held with holder := some 4 } : TileUnit).holder ≠ some 2 ∧ ({ held with holder := some 4 } : TileUnit).holder ≠ none ∧
      (tiled thread0 { held with holder := some 4 }).isDet ctx0 = false) ∧
    (∃ o ∈ ({ held with queue := [tileOp0 (.tzero 0)] } : TileUnit).queue, o.flock = 2) ∧
    (∀ o ∈ held.queue, o.flock ≠ 2) ∧ held.waiting = [] := by
  refine ⟨fun _ => ⟨⟨rfl, rfl, rfl, rfl, rfl⟩, rfl, rfl⟩, rfl, ?_, ?_, ?_, ?_, rfl⟩ <;> decide

/-- Slots of tile formats: E4M3 dense, FP16, I8, E2M1 with a block scale, I4, I32, E4M3 sparse and I8 sparse. -/
def tileSlots : List W64 := [3, 1, 0xA0007, 0x25, 11, 10, 0x1003, 0xA1007]

theorem witness_TileWords :
    (let s := { tiled thread0 held with launches := [{ launch0 with rec_ := { rec0 with slots := tileSlots } }] }
     ExecutesAlone s ctx0 lane0 thread0 ∧ s.hasTile 0 flock0 = true ∧
     tmmaPair false (s.slotOf ctx0 0) (s.slotOf ctx0 1) = true ∧ tmmaPair true (s.slotOf ctx0 6) (s.slotOf ctx0 0) = true ∧
     tileBytes (s.slotOf ctx0 0) = some 1024 ∧ tileBytes (s.slotOf ctx0 1) = some 2048 ∧
     Slot.fmt (s.slotOf ctx0 4) = 11 ∧ Slot.acc (s.slotOf ctx0 4) = 0 ∧ storeWidth (Slot.fmt (s.slotOf ctx0 5)) = 4 ∧
     storeWidth (Slot.fmt (s.slotOf ctx0 2)) = 1 ∧ Slot.fmt (s.slotOf ctx0 2) ∈ [7, 8, 9, 12]) ∧
    (0 : W32).toNat + 4096 ≤ flock0.size ∧ (0 : W32).toNat % 32 = 0 ∧ (4080 : W32).toNat + 16 ≤ flock0.size ∧
    (0xFFFFFFFFFFFC : W64).toNat % 4 = 0 ∧ (0xFFFFFFFFFFFC : W64).toNat < 2 ^ 48 ∧
    (tiled thread0 TileUnit.fresh).hasTile 0 flock0 = false ∧
    (∀ ti, Handled (tiled thread0 TileUnit.fresh) lane0.tid thread0 (group0 thread0) launch0 ti) := by
  refine ⟨⟨⟨rfl, rfl, rfl, rfl, rfl⟩, ?_⟩, ?_, ?_, ?_, ?_, ?_, rfl, fun ti =>
    ⟨rfl, rfl, rfl, by decide, by decide, by decide, fun _ _ => rfl⟩⟩ <;> decide +kernel

def running0 (o : TileOp) : State :=
  { tiled thread0 { held with queue := [o] } with launches := [{ launch0 with rec_ := { rec0 with slots := tileSlots } }] }

theorem witness_TileEvents :
    (running0 (tileOp0 (.tzero 63))).tileStartable 0 = some (tileOp0 (.tzero 63)) ∧
    (∀ i ∈ ([.tzero 63, .taccld 0 (.v 0) false, .taccld 0 (.v 0) true, .tscld 7 (.v 0), .tmma 0 (.v 0) (.v 1) 2 2 true] :
        List Instr),
      let o := { tileOp0 i with until_ := some 0 }
      (running0 o).tileDue 0 = some o ∧ (running0 o).tileHeld 0 o = false ∧ o.fold = none ∧ (running0 o).flock? 2 = some flock0 ∧
        ((running0 o).tileUnit 0).waiting = []) ∧
    (let d := (running0 (tileOp0 (.tzero 63))).launchSlot 1 2
     Slot.fmt d ∈ [7, 8] ∧ Slot.acc d = 10 ∧ Slot.sparse d = 0 ∧ Slot.scale d ≤ 1) ∧
    (let o := { tileOp0 (.taccst (.scalemax 0 false (.v 2)) 0 (.v 0) 5) with until_ := some 0, done := true, fold := some ⟨1, 0⟩ }
     (running0 o).tileFolding 0 = some o ∧ (running0 o).detRanges 1 = none ∧
       ((running0 o).engineAccess (coreLoc 0) 0 0x30000 4 .atomic).1 = .ok 0x30000 0 false ∧ (running0 o).gateOpen 1 (stationOf 0 0x30000) 0 = true) := by
  refine ⟨?_, ?_, ?_, ?_⟩ <;> decide +kernel

theorem witness_TileResults :
    (∀ i ∈ ([.tmma 0 (.v 0) (.v 1) 0 1 true, .tmmas 0 (.v 0) (.v 1) 6 0 true, .tmmas 0 (.v 0) (.v 1) 7 2 false,
        .tlutb 63 (.v 0) 1 3 true, .tlutb 63 (.v 0) 0 4 false, .tmmal 0 (.v 0) 63 4 true, .taddw 0 (.v 0) 2, .tscan true 0,
        .tscan false 0, .taccst .plain 0 (.v 0) 0, .taccst (.scale 7 true) 0 (.v 0) 2, .taccst (.scalemax 0 false (.v 2)) 0 (.v 0) 0,
        .ttrn (.v 0) (.v 1) 1, .tstat (.v 0)] : List Instr),
      let o := { tileOp0 i with until_ := some 0 }
      (running0 o).tileDue 0 = some o ∧ (running0 o).tileHeld 0 o = false ∧ o.fold = none ∧ (running0 o).flock? 2 = some flock0 ∧
        ((running0 o).tileUnit 0).waiting = []) ∧
    (let s := running0 (tileOp0 (.tzero 0))
     let d (n : BitVec 3) := s.launchSlot 1 n
     -- the slots of the products, dense and sparse, of FP32 and of INT32
     (Slot.fmt (d 0) = 3 ∧ Slot.fmt (d 1) = 1 ∧ Slot.acc (d 0) = 0 ∧ Slot.sparse (d 0) = 0 ∧ Slot.sparse (d 1) = 0) ∧
     (Slot.sparse (d 6) = 1 ∧ Slot.fmt (d 6) = 3 ∧ Slot.acc (d 6) = 0) ∧
     (Slot.sparse (d 7) = 1 ∧ Slot.fmt (d 7) = 7 ∧ Slot.acc (d 7) = 10 ∧ Slot.scale (d 7) ≤ 1 ∧ Slot.fmt (d 2) = 7 ∧
       Slot.sparse (d 2) = 0 ∧ Slot.scale (d 2) ≤ 1) ∧
     -- those of the tables, and of what is stored
     Slot.fmt (d 3) = 5 ∧ Slot.fmt (d 4) = 11 ∧ (Elem.ofCode (Slot.fmt (d 0))).isSome = true ∧ storeWidth (Slot.fmt (d 0)) = 1 ∧
     (Elem.ofCode (Slot.fmt (d 2))).isSome = true ∧ storeWidth (Slot.fmt (d 2)) = 1 ∧ storeWidth (Slot.fmt (d 1)) = 2) ∧
    (0 : W32).toNat % 32 = 0 ∧ 0x30000 % 32 = 0 ∧ 0 + 1024 * 2 ≤ 0x30000 := by
  refine ⟨?_, ?_, ?_, ?_, ?_⟩ <;> decide +kernel

/-- A pen of one frame of eight registers, configured on the flock. -/
def pen0 : Pen :=
  { fbase := 64, w := 8, nt := 1, obase := 0, ocap := 0, word := none, live := [], hold := 0, ages := [], spilled := [], nextAge := 0,
    spill := none, reload := none }

def penned (t : Thread) (mem : Mem) : State :=
  { world t with flocks := [{ flock0 with pens := [(1, pen0)], mem := mem }] }

/-- A header of one asleep row whose wake bit is set. -/
def header0 : Mem := Mem.write64 (Mem.writeNat [] 64 4 0x02000101) 68 0x700000000

theorem witness_PenWords :
    (ExecutesAlone (world (holding 4064)) ctx0 lane0 (holding 4064) ∧ (1 : BitVec 4).toNat < launch0.rec_.pens ∧
      LocalOk (world (holding 4064)) lane0 flock0 4064 32) ∧
    (let f := { flock0 with pens := [(1, pen0)], mem := header0 }
     AL.find? f.pens 1 = some pen0 ∧ State.tileAt f launch0.rec_.pens 64 ≠ none ∧
     LocalOk (penned (holding 64) header0) lane0 f 64 64) ∧ thread0.sys.depth = 0 ∧
    (4033 : W32).toNat % 64 ≠ 0 ∧ (∀ ti, Handled (penned thread0 header0) lane0.tid thread0 (group0 thread0) launch0 ti) ∧
    ((penned thread0 []).codeWords 0 1 (rec0.addrOf (rec0.idxOf 0x20000 + 1 + (0 : BitVec 16).signExtend 32)) 4).1 =
      ([0, 0, 0, 0], none) ∧
    (let ws : List W64 := [0, 0, 0, 0x800000000000]
     let live := (List.range 240).filter fun n => (ws.getD (n / 64) 0).getLsbD (n % 64)
     live = [239] ∧ (∀ i < 16, (ws.getD ((240 + i) / 64) 0).getLsbD ((240 + i) % 64) = false) ∧
       (∀ n ∈ live, n < launch0.rec_.regs) ∧ live.length ≤ pen0.w) := by
  refine ⟨⟨world_alone _, ?_, ⟨rfl, ?_, ?_⟩⟩, ⟨rfl, ?_, ⟨rfl, ?_, ?_⟩⟩, rfl, ?_,
    fun _ => ⟨rfl, rfl, rfl, by decide, by decide, by decide, fun _ _ => rfl⟩, ?_, ?_⟩ <;> decide +kernel

theorem witness_PenEvents :
    -- a block of one frame of eight registers at the top of the window
    (let w0 : W32 := 3776
     let w1 : W32 := 8 * 256 + 1
     w0.toNat % 64 = 0 ∧ w1.toNat < 65536 ∧ w1.toNat / 256 % 256 = 8 ∧ w1.toNat % 256 = 1 ∧
       w0.toNat + 1 * (64 + 32 * 8) ≤ flock0.size ∧ (0 : W64).toNat % 64 = 0) ∧
    AL.find? flock0.pens 1 = none ∧
    (({ penned thread0 header0 with groups := [] } : State).nextResume 0).map (fun r => (r.flock, r.pen, r.frame)) = some (2, 1, some 0) ∧
    Flock.frameAddr pen0 0 % 64 = 0 := by
  refine ⟨?_, rfl, ?_, ?_⟩ <;> decide +kernel

/-- The configuration of an array of 64 clauses of 64 literals, and arrays in a given state. -/
def geometry0 : ArrayCfg := { nc := 64, nl := 64, k := 2, t := 10, seed := 1, step := 0, image := 0, nudge := [] }
def arrayed (t : Thread) (u : ArrayUnit) : State := { world t with arrays := [(0, u)] }
def owned0 : ArrayUnit := { ArrayUnit.fresh with owner := some 1, cfg := some geometry0, latest := some (geometry0, 0, 2) }
def arrayCmd0 (i : Instr) : ArrayCmd :=
  { id := 9, instr := i, tid := lane0.tid, core := 0, launch := 1, fn := 0, flock := 2, a := 0, b := 0, tagmode := 0, site := 0x8000,
    logical := 0, first := 0, ready := 0, cfg := some geometry0, after := [] }

theorem witness_ArrayWords : ExecutesAlone (arrayed (holding 4032) owned0) ctx0 lane0 (holding 4032) ∧ launch0.rec_.pad = true ∧
    (arrayed thread0 owned0).admitArray (padOf 0) 0 = arrayed thread0 owned0 ∧ ((arrayed thread0 owned0).array (padOf 0)) = owned0 ∧
    owned0.owner = some 1 ∧ owned0.latest = some (geometry0, 0, 2) ∧ (arrayed thread0 owned0).isDet ctx0 = false ∧
    LocalOk (arrayed (holding 4032) owned0) lane0 flock0 4032 64 ∧ (4092 : W32).toNat + geometry0.nl / 16 ≤ flock0.size ∧
    -- the last sixteen rows of the geometry, in the window and in global memory
    (let y : W32 := 16 * 65536 + 48
     y.toNat % 65536 % 16 = 0 ∧ y.toNat / 65536 % 16 = 0 ∧ y.toNat / 65536 ≠ 0 ∧ y.toNat % 65536 + y.toNat / 65536 ≤ geometry0.nc ∧
       (3072 : W32).toNat + y.toNat / 65536 * geometry0.nl ≤ flock0.size ∧ (0x800000000C00 : W64).getLsbD 63 = false) ∧
    (1 : W32).toNat % 64 < geometry0.k ∧ ({ rec0 with pad := false } : LaunchRec).pad = false := by
  refine ⟨⟨rfl, rfl, rfl, rfl, rfl⟩, rfl, ?_, rfl, rfl, rfl, rfl, ⟨rfl, ?_, ?_⟩, ?_, ?_, ?_, rfl⟩
  · rfl
  all_goals decide

/-- A block of that configuration at the last place of the window, with a number of clauses. -/
def blockOf (nc : W32) : Mem := Mem.writeBytes [] 4032 ([0x400000 + nc, 0xA0002, 1, 0].flatMap fun w => valueBytes 4 w.toNat)
def configuring (t : Thread) (nc : W32) : State :=
  { arrayed t { ArrayUnit.fresh with queue := [{ arrayCmd0 (.aacfg (.v 0)) with cfg := none }] } with flocks := [{ flock0 with mem := blockOf nc }] }

theorem witness_ArrayWords_traps :
    -- an array of another launch, with a configuration to come and without; one of the launch, a class too high, a range too long
    (let u := { owned0 with owner := some 7 }
     (arrayed thread0 u).admitArray (padOf 0) 0 = arrayed thread0 u ∧ u.owner ≠ some 1 ∧ u.queue = [] ∧
       u.latest = some (geometry0, 0, 2)) ∧
    (geometry0.k ≤ (63 : W32).toNat % 64 ∧ (16 * 65536 + 64 : W32).toNat % 65536 % 16 = 0 ∧
      geometry0.nc < (16 * 65536 + 64 : W32).toNat % 65536 + (16 * 65536 + 64 : W32).toNat / 65536) ∧
    -- in deterministic mode, a configuration that another flock brought
    (let s := { arrayed thread0 { owned0 with latest := some (geometry0, 0, 4) } with launches := [{ launch0 with rec_ := { rec0 with mode := 1 } }] }
     s.isDet ctx0 = true ∧ (4 : Nat) ≠ flock0.uid) ∧
    (∀ ti, Handled (arrayed thread0 owned0) lane0.tid thread0 (group0 thread0) launch0 ti) ∧
    -- the point of AACFG, its block as it should be and with a clause too many
    (∀ nc, let t := { thread0 with sleep := .deciding }
      (configuring t nc).flock? 2 = some { flock0 with mem := blockOf nc } ∧ (configuring t nc).thread? lane0.tid = some t ∧
        ((configuring t nc).array (padOf 0)).queue = [{ arrayCmd0 (.aacfg (.v 0)) with cfg := none }] ∧
        ∀ ti, Handled (configuring t nc) lane0.tid t (group0 t) launch0 ti) ∧
    4032 % 4 = 0 ∧ Mem.read32 (blockOf 64) 4032 = 0x400040 ∧ Mem.read32 (blockOf 65) 4032 = 0x400041 := by
  refine ⟨⟨rfl, ?_, rfl, rfl⟩, ?_, ⟨rfl, ?_⟩, fun _ => ⟨rfl, rfl, rfl, by decide, by decide, by decide, fun _ _ => rfl⟩,
    fun _ => ⟨rfl, rfl, rfl, fun _ => ⟨rfl, rfl, rfl, by decide, by decide, by decide, fun _ _ => rfl⟩⟩, ?_, ?_, ?_⟩ <;> decide +kernel

theorem witness_ArrayEvents_results : 0 < geometry0.k ∧ geometry0.k ≤ 64 ∧ 0 < geometry0.nc ∧ geometry0.nc % geometry0.k = 0 ∧
    0 < geometry0.t ∧ geometry0.nl ≤ 1024 ∧ 1 < geometry0.k ∧ 63 < geometry0.nc ∧ 63 < geometry0.nl := by decide

theorem witness_ArrayEvents :
    (∀ i ∈ ([.aacfg (.v 0), .aainf .sums (.v 0) (.v 1), .aatrn .auto (.v 0) (.v 1)] : List Instr),
      let u := { owned0 with queue := [arrayCmd0 i] }
      (arrayed thread0 u).arrayNext 0 = some (arrayCmd0 i) ∧ (arrayed thread0 u).serveHeld 0 (arrayCmd0 i) = false ∧ (∀ x ∈ u.queue, x.launch = 1) ∧ u.cfg = some geometry0 ∧
        u.owner = some 1) ∧
    geometry0.nl % 64 = 0 ∧ (0 : W64).toNat + geometry0.nl / 16 ≤ flock0.size ∧
    (∀ i ∈ ([.aatrn .auto (.v 0) (.v 1), .aainf .argmax (.v 0) (.v 1)] : List Instr),
      let r : ArrayRun := ⟨arrayCmd0 i, 0, [⟨1, 0⟩], [(0, 128)], 0⟩
      (arrayed thread0 { owned0 with run := some r }).arrayDue 0 = some r) ∧
    (4092 : W32).toNat + 4 * 1 ≤ flock0.size := by
  refine ⟨?_, ?_, ?_, ?_, ?_⟩ <;> decide +kernel

/-! Witnesses of the statements about the shepherd and the device. -/

/-- The started device with one queue of function 0 whose control block stands at 0x40000 with a given HEAD and TAIL, and one
packet at its HEAD in the ring at 0x50000, and the record of a launch of one word at 0x61000. -/
def device (head tail : Nat) (packet : List W32) : State :=
  let s := State.reset.withFetchWord 64 0
  let record : List W32 := [0x20000, 0, 1, 0xFFFFFFFF, 0x01010000, 0xF0010001, 4096]
  let put (m : Mem) (a : Nat) (ws : List W32) : Mem := Mem.writeBytes m a (ws.flatMap fun w => valueBytes 4 w.toNat)
  { s with
    launches := [], flocks := [], groups := [], nextUid := 10, mgmt := { s.mgmt with state := 3 },
    parts := [(0, { Part.whole with cur := some 0, rot := 0, table := [(0, 0x80000A), (1, 0x81000A)] })],
    shep := { Shep.fresh with queues := [(1, { QueueSt.fresh with qcb := 0x40000, head := head, tail := tail, lastdone := head })] },
    mem := put (put (put s.mem 0x61000 record) 0x40000 [0x50000, 0, 16, 0, BitVec.ofNat 32 head, 0, BitVec.ofNat 32 tail, 0, BitVec.ofNat 32 head])
      (0x50000 + 64 * (head % 16)) packet }

/-- The control block of the device's queue may be kicked. -/
def kickable (s : State) : Bool :=
  s.bellOk 0 1 && !(s.queue 0 1).halted && (match s.wakePolls.readQcb 0 1 with
    | (some b, s1) => !b.bad && decide (b.vf = 0 ∧ (s1.queue 0 1).head ≤ b.tail ∧ b.tail ≤ (s1.queue 0 1).head + b.size)
    | (none, _) => false)

/-- TAIL at HEAD, and a whole ring beyond it; a halted queue. -/
theorem witness_Doorbells : kickable (device 3 3 []) = true ∧ kickable (device 3 19 []) = true ∧
    (let s := { device 3 3 [] with shep := { Shep.fresh with queues := [(1, { QueueSt.fresh with qcb := 0x40000, halted := true })] } }
     s.bellOk 0 1 = true ∧ (s.queue 0 1).halted = true) := by
  decide +kernel

/-- What Begins asks, as a Bool: the head is a well-formed packet that may start. -/
def begins (s : State) (type : Nat) : Bool :=
  match s.headOf 0 1 with
  | (.packet p part _, s1) => decide (p.type = type ∧ part = 0) && !p.bad && (!p.waits || s1.prevDone 0 1)
  | _ => false

theorem witness_Packets :
    begins (device 0 1 [0]) 0 = true ∧ begins (device 0 1 [3]) 3 = true ∧ begins (device 0 1 [8, 0, 0x20000, 0, 1, 0]) 8 = true ∧
    begins (device 0 1 [6, 0, 0x60000, 0]) 6 = true ∧ begins (device 0 1 [7]) 7 = true ∧
    -- a copy of one word, a signal and a wait whose memory answers, and a launch
    (begins (device 0 1 [2, 0, 0x60000, 0, 0x60100, 0, 4, 0]) 2 = true ∧
      ((device 0 1 []).svcCopy 0 0x60000 0x60100 1).1 = true) ∧
    (begins (device 0 1 [4, 0, 0x60000, 0, 1, 0, 1]) 4 = true ∧ (((device 0 1 []).svcRead64 0 0x60000).1 = some 0) ∧
      ((device 0 1 []).svcWrite 0 0x60000 0xFFFE [1, 0]).1 = true) ∧
    (begins (device 0 1 [5, 0, 0x60000, 0, 0, 0, 2]) 5 = true ∧ ((device 0 1 []).queue 0 1).polled = none) ∧
    begins (device 0 1 [1, 0, 0x61000, 0]) 1 = true ∧
    -- a copy under way
    (let s := device 0 1 []
     let s := s.modQueue 0 1 fun x => { x with work := [(0, .copy)] }
     s.ready = true ∧ (s.queue 0 1).work.find? (fun w => decide (w.1 = 0)) = some (0, .copy) ∧ (s.queue 0 1).done = [] ∧
       (s.queue 0 1).lastdone = 0) ∧
    -- a trace window that opens at once, one that waits for its streams, and none
    (let s := device 0 1 []
     let w (base : W32) := State.parseTrace [base, 0, 65536, 0, 0] 1 0
     s.windowMoves = false ∧ s.trace.window = none ∧ ((w 0x30000).map fun w => (s.openWindow w).windowMoves) = some false ∧
       ((w 0x80000000).map fun w => (s.openWindow w).windowMoves) = some true) := by
  decide +kernel

/-- A launch that waits for its place, its record at 0x61000, or 0x60000 where it is all zeros. -/
def wait0 (addr : W64) (claim : Option (LaunchRec × Nat × Nat)) : WaitLaunch := ⟨7, 0, addr, 0, claim, false⟩
def waiting0 (w : WaitLaunch) : State :=
  let s := device 0 1 [1, 0, 0x61000, 0]
  { s with
    shep := { s.shep with
      custom := true,
      queues := [(1, { QueueSt.fresh with qcb := 0x40000, tail := 1, wait := some w })] } }

/-- What the claim of launch 7 asks, as a Bool: its record passes, the launch has a place, and the order logs have room. -/
def claims (s : State) : Bool :=
  match s.readLaunch 0 0x61000 with
  | (some (ws, r), s1) => decide (checkLaunch (s1.part 0) 0 ws r = (0, 0)) &&
    decide (s1.placeAt 0 r = some (0, 0)) && s1.claimable 0 0 r && s1.logRoom r && decide (r = LaunchRec.oneWord)
  | (none, _) => false

/-- A launch with no thread left, and one whose threads sleep in a pen that does not resume. -/
def over0 : State := { device 0 0 [] with launches := [launch0], flocks := [flock0] }
def asleep0 : Mem := Mem.write64 (Mem.writeNat [] 64 4 0x01000001) 68 0x700000000
def stranded0 : State :=
  { device 0 0 [] with
    tick := 33000, launches := [{ launch0 with strandedAt := some 0 }],
    flocks := [{ flock0 with pens := [(1, pen0)], mem := asleep0 }] }
/-- A replaying launch whose station 5 has held an access for a second. -/
def gated0 : State :=
  { device 0 0 [] with
    launches := [{ launch0 with rec_ := { rec0 with mode := 4 }, logs := [(5, { StationLog.fresh with heldSince := some 0 })],
                                replayTime := 3300000 }] }

theorem witness_LaunchEvents :
    -- without a claim, with one, and with a record that does not pass
    ((waiting0 (wait0 0x61000 none)).placeable 7 = some (0, 1, wait0 0x61000 none) ∧
      claims (waiting0 (wait0 0x61000 none)) = true ∧ LaunchRec.oneWord.arglen = 0 ∧ LaunchRec.oneWord.tags = false) ∧
    (let w := wait0 0x61000 (some (LaunchRec.oneWord, 0, 0))
     (waiting0 w).placeable 7 = some (0, 1, w) ∧ ((waiting0 w).takeClaim 7).1 = some (0, 1, w, LaunchRec.oneWord, 0, 0)) ∧
    (let w := wait0 0x60000 none
     (waiting0 w).placeable 7 = some (0, 1, w) ∧ ((waiting0 w).readLaunch 0 0x60000).1.map (fun x =>
       (checkLaunch ((waiting0 w).part 0) 0 x.1 x.2).1) = some 1) ∧
    (over0.launch? 1 = some launch0 ∧ over0.endable launch0 = true ∧ launch0.rec_.record = false ∧ launch0.rec_.replay = false) ∧
    ((stranded0.launch? 1).map (fun la => (la.strandedAt, stranded0.strandable la)) = some (some 0, true) ∧
      0 + 10000 ≤ stranded0.timestamp 8) ∧
    (gated0.gateExpired 1 5 = true ∧ (gated0.launch? 1).isSome = true) := by
  refine ⟨?_, ?_, ?_, ?_, ?_, ?_⟩ <;> decide +kernel

/-- A launch that a fatal trap has ended, with a fault record at 0x60000 and a signal at 0x60100, and one that has neither. -/
def fatal0 : FatalInfo := ⟨⟨0x0B, 7, 0, 0, 0, 0, 0⟩, 0x20008, 7, 0x0B, 0, 33⟩
def dying (ending : Option Nat) (r : LaunchRec) : Launch := { launch0 with rec_ := r, ending := ending, fatal := ending.map fun _ => fatal0 }
def signalled : LaunchRec := { rec0 with faultrec := 0x60000, sigaddr := 0x60100, sigval := 5 }
def overOf (l : Launch) : State := { device 0 0 [] with launches := [l], flocks := [flock0] }

theorem witness_LaunchEvents_finish :
    (∀ l ∈ [dying none rec0, dying (some 1) signalled], (overOf l).launch? 1 = some l ∧ (overOf l).endable l = true ∧
      l.rec_.record = false ∧ l.rec_.replay = false ∧ (l.ending = none ∨ (l.ending = some 1 ∧ l.fatal = some fatal0))) ∧
    signalled.faultrec ≠ 0 ∧ signalled.sigaddr ≠ 0 ∧ rec0.sigaddr = 0 ∧
    ((overOf (dying (some 1) signalled)).svcWrite 0 0x60000 0xFFFE (List.replicate 16 0)).1 = true ∧
    (((overOf (dying none rec0)).queue 0 1).done = [] ∧ ((overOf (dying none rec0)).queue 0 1).lastdone = 0) := by
  decide +kernel

/-- A partition that runs entry 0 while a launch of function 1 waits, its slice at its end. -/
def slicing (table : AL W32) (p : Part → Part) : State :=
  { over0 with
    tick := 66000, launches := [launch0, { launch0 with uid := 5, fn := 1 }],
    parts := [(0, p { Part.whole with cur := some 0, rot := 0, table := table })] }

/-- The same with a claimed launch of function 0 that waits. -/
def claiming (s : State) : State := { s with shep := (waiting0 (wait0 0x61000 (some (LaunchRec.oneWord, 0, 0)))).shep }

def context0 : Context := ⟨0, 0, [group0 thread0], [flock0], [], [], []⟩

theorem witness_PartitionEvents :
    -- the next entry is of the same function, or of another
    ((slicing [(0, 0x80000A), (2, 0x80000A)] id).sliceOver 0 = true ∧ (slicing [(0, 0x80000A), (2, 0x80000A)] id).nextEntry 0 = some 2 ∧
      (slicing [(0, 0x80000A), (2, 0x80000A)] id).partFn 0 = 0) ∧
    ((slicing [(0, 0x80000A), (1, 0x81000A)] id).sliceOver 0 = true ∧ (slicing [(0, 0x80000A), (1, 0x81000A)] id).nextEntry 0 = some 1 ∧
      State.entryFn ((slicing [(0, 0x80000A), (1, 0x81000A)] id).part 0) 1 = 1) ∧
    -- one that is not sent before a claim has started, and one that is
    ((claiming (slicing [(0, 0x80000A), (1, 0x81000A)] id)).claimsIn 0 0 = true ∧
      (claiming (slicing [(0, 0x80000A), (1, 0x81000A)] id)).sliceOver 0 = true ∧
      (slicing [(0, 0x80000A), (1, 0x81000A)] id).claimsIn 0 0 = false) ∧
    ((slicing [(0, 0x80000A), (1, 0x91000A)] fun p => { p with cut := some 1 }).cutDue 0 = some 1) ∧
    (let s := slicing [(0, 0x80000A), (2, 0x90000A)] fun p => { p with cut := some 2 }
     s.cutDue 0 = some 2 ∧ State.entryFn (s.part 0) 2 = s.partFn 0) ∧
    ((slicing [] fun p => { p with stop := some ⟨0, 0x10, 1, [], true⟩ }).deadlineDue 0 = true) ∧
    (∀ saving ∈ [false, true],
      (slicing [] fun p =>
        { p with stop := some ⟨0, 0x10, 1, [], true⟩, haltedAt := some 0, saving := saving }).swapDue 0 = true) ∧
    (let s := { slicing [] id with contexts := [context0] }
     (s.contexts.filter fun k => decide (k.part = 0)).getLast? = some context0) ∧
    (let s := { slicing [(0, 0x80000A)] id with contexts := [context0] }
     s.toRestore 0 = some context0 ∧ s.restorable 0 context0 0 0 = true ∧ s.restorable 0 context0 6 38 = true) := by
  decide +kernel

theorem witness_HartUnitEvents :
    ((device 0 1 []).svcRead 0 0x60000 4).1 = some (List.replicate 4 TW.zero) ∧
    ((device 0 1 []).svcRead 0 0x1000000000000 4).1 = none ∧
    (let w := wait0 0x61000 none
     (waiting0 w).waiting? 7 = some (0, 1, w) ∧ (waiting0 w).shep.custom = true ∧ ((waiting0 w).queue 0 1).wait = some w ∧
       (waiting0 w).partRuns 0 0 = true ∧ claims (waiting0 w) = true) ∧
    (let w := wait0 0x61000 (some (LaunchRec.oneWord, 0, 0))
     (waiting0 w).placeable 7 = some (0, 1, w)) ∧
    -- an entry of the same function, and one of another
    (let s := claiming (slicing [(0, 0x80000A), (1, 0x81000A)] id)
     s.partRuns 0 0 = true ∧ s.shep.custom = true ∧ (s.part 0).cur.isSome = true ∧ State.entryFn (s.part 0) 0 = 0 ∧
       State.entryFn (s.part 0) 1 = 1 ∧ (AL.get 0 (s.part 0).table 0).getLsbD 23 = true ∧ (AL.get 0 (s.part 0).table 1).getLsbD 23 = true) ∧
    State.reset.ready = false ∧ (device 0 1 []).ready = true ∧ ((0x20 : BitVec 16) < 0x21 ∧ (0x8000 : BitVec 16) ≤ 0x8000) ∧
    (let s := claiming (slicing [] fun p => { p with stop := some ⟨0, 0x10, 1, [], true⟩, haltedAt := some 0 })
     s.partFn 0 = 0 ∧ s.swapDue 0 = true ∧ (s.part 0).saving = false) := by
  refine ⟨?_, ?_, ?_, ?_, ?_, ?_, ?_, ?_, ?_⟩ <;> decide +kernel

theorem witness_RegisterWrites :
    (device 0 1 []).ready = true ∧ ((device 0 1 []).readQcb 0 1).1.isSome = true ∧
    -- a partition of the whole grid; a busy one, an odd one, one past the grid, one that overlaps
    ((device 0 1 []).partBusy 0 = false ∧ State.partShape 0x128080000 = true ∧ State.partShape 0x128080001 = false ∧
      State.partShape 0x12A080000 = false ∧ over0.partBusy 0 = true ∧ State.partOverlap 0x128080000 0x128080000 = true ∧
      State.partOverlap 0x102020000 0x102020002 = false) ∧
    (device 0 1 []).shep.mcstat ≠ .busy ∧ ((0x1FE : W32).getLsbD 8 = true ∧ 6 ≤ (0x1FE : W32).toNat % 256 ∧ (0x1FE : W32).toNat % 256 ≠ 0xFF ∧
      (device 0 1 []).shep.rtstat ≠ .busy) ∧
    ((device 0 1 []).fnMemOf 0).faults = [] ∧ (device 0 1 []).anyLink = false ∧ (device 0 1 []).fnBusy 15 = false ∧
    over0.fnBusy 0 = true ∧ (16 : BitVec 5).toNat ≤ 16 := by
  decide +kernel

/-- A fault of a sleeping thread, whose trap a refusal makes it take. -/
def faulted : TrapInfo := ⟨0x0D, 0x30000, 0, 0, 0, 0, 0x12⟩
def sleeper : Thread := { thread0 with sleep := .fault 3 faulted }
def faulting : State :=
  { world sleeper with
    fnMem := [(0, { FnMem.fresh with
      root := 0x10001, faults := [⟨some 4, 3, 0x30000, 0, 1, 0, 0, 0, [.thread lane0.tid]⟩], inval := [(0x30000, 1)] })],
    mgmt := { Mgmt.fresh with state := 3, links := [(0, ⟨true, 1, 0, 0⟩)] },
    pfMem := { PfMem.fresh with filters := [(0, (1, 0x4000000000)), (256, (1, 0x4000000000))] },
    -- the third GiB of function 0 is the host's
    mem := Mem.write64 (world sleeper).mem 0x11010 0x8F }

theorem witness_HostAccess :
    ((faulting.invalReady 0) = true ∧ (faulting.fnMemOf 0).inval = [(0x30000, 1)]) ∧
    (faulting.faultNamed 0 4).map (fun f => (f.waiters, f.page)) = some ([.thread lane0.tid], 3) ∧
    faulting.thread? lane0.tid = some sleeper ∧ sleeper.sleep = .fault 3 faulted ∧
    faulting.ready = true ∧ faulting.anyLink = true ∧
    -- the last byte of a line of a host page, read and written, and a page that is not the host's
    (faulting.hostPage 0 0x8000003F 1 false).1 = some (0x3F, 0, false) ∧ (faulting.hostPage 0 0x8000003F 1 true).1 = some (0x3F, 0, false) ∧
    (faulting.hostPage 0 0x3F 1 false).1 = none ∧ faulting.latent = [] ∧ faulting.lineBad 0x3F 1 = false ∧ faulting.filterOk 16 0x3F 1 = true := by
  decide +kernel

theorem witness_Handled_HostAccess : Handled faulting lane0.tid sleeper (group0 sleeper) launch0 faulted :=
  ⟨rfl, rfl, rfl, by decide, by decide, by decide, fun _ _ => rfl⟩

/-- A device with both image loads under way, of images too long for their place. -/
def loading (len : W32) : State :=
  { device 0 0 [] with shep := { Shep.fresh with mcstat := .busy, rtstat := .busy, rtid := 6, mclen := len, rtlen := len } }

theorem witness_ServiceEvents :
    (loading 0).shep.mcstat = .busy ∧ (loading 0).shep.rtstat = .busy ∧ (loading 0).ready = true ∧
    -- an image whose signature holds is loaded, and one of 262,145 bytes is refused
    (Config.signatureOk (State.stageKey false 4) (Config.shake256 []) [] = true →
      (loading 0).loadImage 0 0 65536 ((loading 0).rtBusy 6) = (.ok (Config.shake256 [], []), loading 0) ∧
      (loading 0).loadImage 0 0 262144 (loading 0).mcBusy = (.ok (Config.shake256 [], []), loading 0)) ∧
    ((loading 262145).loadImage 0 262145 262144 (loading 262145).mcBusy = (.error 2, loading 262145)) ∧
    -- a sweep that starts now, one under way, and none
    (let s := { device 0 0 [] with pfMem := { PfMem.fresh with scrsize := 4, scrhead := 3 } }
     s.ready = true ∧ s.latent = [] ∧ (s.scrub 0 0).start = none ∧ s.sweepStarts 0 0 = true ∧
       (let u := s.setScrub 0 0 { s.scrub 0 0 with start := some 5 }
        (u.scrub 0 0).start = some 5 ∧ u.receiptSlot = true ∧ { u with pfMem := { u.pfMem with scrsize := 0 } }.receiptSlot = false) ∧
       (device 0 0 []).sweepStarts 0 0 = false ∧ ((device 0 0 []).scrub 0 0).start = none) ∧
    -- the second tick of every 1,024 units
    (let z := { TraceStream.fresh with opened := some 0, tick := 1 }
     let w := { window0 with k := 10, streams := List.replicate 9 z }
     let s := { device 0 0 [] with tick := 3380, trace := { TraceSt.fresh with window := some w } }
     s.tickDue = some 1 ∧ s.dieTick 0 = some (w, 1)) ∧
    traced0.trace.window = some window0 ∧ window0.k = 0 ∧ window0.closing = none ∧
    (window0.streams[8]?).map (·.stopped) = some none ∧ ({ TraceStream.fresh with stopped := some 1 } : TraceStream).stopped = some 1 := by
  refine ⟨rfl, rfl, rfl, fun h => ?_, ?_, ?_, ?_, rfl, rfl, rfl, ?_, rfl⟩
  · have k : (loading 0#32).mgmt.ownerKey = false := rfl
    have a : (loading 0#32).rtBusy 6 = false := rfl
    have b : (loading 0#32).mcBusy = false := rfl
    simp [State.loadImage, State.svcRead, a, b, k, h]
  all_goals decide +kernel

/-- A start in its first stage, from a tick on, that itself began at another. -/
def staging (now stageAt since : Nat) : State :=
  { State.reset with
    tick := now,
    mgmt := { Mgmt.fresh with
      starting := some (⟨[], false, false, false, false, 0, 0, [], false⟩, 1), stageAt := stageAt, since := since } }

/-- Whether a stage's signature holds is outside the manual (`Config.signatureOk`): one of the two cases of a first stage is so. -/
theorem witness_StartAndPorts :
    State.reset.mgmt.fails < 3 ∧ (∀ k, 3 ≤ ({ Mgmt.fresh with fails := 3 + k } : Mgmt).fails) ∧
    -- a start that is late, one at the end of its first stage, and one a tick before it
    (let s := staging 6600000000 0 0
     s.mgmt.starting.isSome = true ∧ s.mgmt.state < 3 ∧ s.mgmt.since + 6600000000 ≤ s.tick) ∧
    (let n := Config.stageTicks 1
     let s := staging n 0 n
     s.mgmt.starting.map (·.2) = some 1 ∧ ¬ (s.mgmt.state < 3 ∧ s.mgmt.since + 6600000000 ≤ s.tick) ∧
       s.mgmt.stageAt + Config.stageTicks 1 ≤ s.tick) ∧
    (let n := Config.stageTicks 1
     let s := staging n 1 n
     s.mgmt.starting.map (·.2) = some 1 ∧ ¬ (s.mgmt.state < 3 ∧ s.mgmt.since + 6600000000 ≤ s.tick) ∧
       s.tick < s.mgmt.stageAt + Config.stageTicks 1) ∧
    State.reset.mgmt.starting = none ∧
    ({ Mgmt.fresh with state := 4 } : Mgmt).state = 4 ∧ (1 : W32).getLsbD 0 = true ∧ State.reset.mgmt.state ≠ 4 ∧
    (∀ port, (device 0 0 []).portUp port = true) ∧ (device 0 0 []).semOwner 31 = 0 ∧
    (15 : BitVec 4) ≠ 0 := by
  have early (n : Nat) : ¬ ((0 : Nat) < 3 ∧ n + 6600000000 ≤ n) := by omega
  refine ⟨?_, fun k => Nat.le_add_right 3 k, ?_, ⟨rfl, early _, Nat.le_of_eq (Nat.zero_add _)⟩,
    ⟨rfl, early _, Nat.lt_add_of_pos_left (by decide : 0 < 1)⟩, rfl, rfl, ?_, ?_, ?_, ?_, ?_⟩ <;> decide +kernel

theorem witness_SpdmAndLinks :
    (∀ port, (device 0 0 []).mailbox port = true) ∧ State.reset.mailbox false = false ∧ State.reset.mailbox true = false ∧
    (8 : BitVec 4).toNat ≤ 8 ∧ AL.get .none_ ([(0, .established)] : AL SessionSt) 0 = .established ∧
    (AL.get IdeSt.fresh ([(8, ⟨true, false⟩)] : AL IdeSt) 8).keyed = true ∧
    (device 0 0 []).mgmt.state = 3 ∧ (11 : BitVec 4).toNat < 12 ∧ (faulting.link 0).up = true := by
  decide +kernel

theorem witness_SupplyAndHeat :
    (9 : Nat) < 10 ∧ (7 : BitVec 3) ≠ 0 ∧ 105 ≤ (105 : Byte).toNat ∧ (114 : Byte).toNat < 115 ∧ (104 : Byte).toNat < 105 ∧
    115 ≤ (115 : Byte).toNat ∧ (device 0 0 []).mgmt.thr = false ∧ (device 0 0 []).mgmt.trip = false ∧ (device 0 0 []).mgmt.starting = none ∧
    (staging 0 0 0).mgmt.trip = false ∧ (staging 0 0 0).mgmt.starting.isSome = true ∧ ({ Mgmt.fresh with thr := true, trip := true } : Mgmt).trip = true := by
  refine ⟨?_, ?_, ?_, ?_, ?_, ?_, rfl, rfl, rfl, rfl, rfl, rfl⟩ <;> decide

theorem witness_EncodedWordsDecode :
    Instr.wf 240 (.iadd (.v 1) (.v 2) (.v 3) false) = true ∧
    encode (.full 0 0 0 false (.iadd (.v 1) (.v 2) (.v 3) false)) = some 0x0000200102030000 ∧
    Instr.wf 8 (.iaddHalf (.v 1) (.v 7)) = true ∧ Instr.wf 8 (.faddHalf (.v 5) (.v 0)) = true ∧
    pairReasons (.iaddHalf (.v 1) (.v 7)) (.faddHalf (.v 5) (.v 0)) = [] ∧
    (encode (.pair 0 0 (.iaddHalf (.v 1) (.v 7)) (.faddHalf (.v 5) (.v 0)))).isSome = true := by
  decide +kernel

theorem witness_LegalWordsEncode :
    decode 240 0x0000200102030000 = .ok (.full 0 0 0 false (.iadd (.v 1) (.v 2) (.v 3) false)) := by
  decide +kernel

/-- A machine that has `IADD v1, v2, v3` before its eight threads, and one that has a word of a reserved primary. -/
def placed : State := State.reset.withFetchWord 64 0x0000200102030000
def placedBad : State := State.reset.withFetchWord 64 0x00001A0000000000

/-- The state in which port 0 of core 0 issues its packet, and the threads of the packet. -/
def dueOf (s : State) : List Due := s.holdBirths exec 0 0 (s.holdRoom 0 (s.dueLanes 0 0))
def servedOf (s : State) : State := ((s.stopHeld (dueOf s)).markReady 0 0 (State.readyOf (dueOf s))).fillCurrent 0 0
def packetOf (s : State) : List (Option Nat × List Due) :=
  (servedOf s).candidates 0 0
    ((State.readyOf (dueOf s)).map fun x => { x with t := ((servedOf s).thread? ⟨x.g.uid, x.lane⟩).getD x.t })
/-- The IADD under predicate `k`: a created thread holds k0 alone. -/
def iaddUnder (k : BitVec 3) : Decoded := .full 0 0 k false (.iadd (.v 1) (.v 2) (.v 3) false)
/-- A thread at the IADD. -/
def due0 : Due := { g := group0 thread0, lane := 0, t := thread0, f := .word 0x0000200102030000 (iaddUnder 0), holds := [] }

theorem witness_StepRunsDecodedWords_sources :
    ({ placed with inbox := [.event (.portmapWrite 5)] } : State).inbox = [.event (.portmapWrite 5)] ∧ placed.mgmt.dead = false ∧
    ({ Mgmt.fresh with dead := true } : Mgmt).dead = true ∧ State.outlivesTrip (.portmapWrite 5) = true ∧
    State.outlivesTrip (.copyCommandStart 0) = false ∧
    (let s := { State.reset with shep := { Shep.fresh with mcstat := .busy } }
     s.inbox = [] ∧ s.nextAuto = some (.imageLoadDone false)) ∧
    placed.inbox = [] ∧ placed.nextAuto = none ∧ placed.nextPort = some (0, 0) ∧
    State.reset.inbox = [] ∧ State.reset.nextAuto = none ∧ State.reset.nextPort = none := by
  decide +kernel

theorem witness_StepRunsDecodedWords_fetch :
    (placed.launch? 1).map (·.rec_) = some LaunchRec.oneWord ∧
    ((0x20000 : W64) - LaunchRec.oneWord.code).toNat % 8 = 0 ∧ ((0x20000 : W64) - LaunchRec.oneWord.code).toNat / 8 < 1 ∧
    (∀ e ∈ (placed.core 0).icache, e.1 = 1 → e.2.1 ≠ 0x20000) ∧
    (placed.accessPage (coreLoc 0) 0 0x20000 8 .fetch).1 = .ok 0x20000 0 1 false ∧
    decode 240 (Mem.read64 (placed.accessPage (coreLoc 0) 0 0x20000 8 .fetch).2.mem 0x20000) = .ok (iaddUnder 0) := by
  decide +kernel

theorem witness_StepRunsDecodedWords_packet :
    (packetOf placed).map (fun c => (c.1, c.2.map fun d => (d.g.launch, d.lane, d.t.pc))) =
      [(none, (List.range 8).map fun i => (1, i, 0x20000))] ∧
    (placed.fetch 0 1 240 0x20000).1 = .word 0x0000200102030000 (iaddUnder 0) ∧
    ((packetOf placed).map fun c => ((placed.fetch 0 1 240 0x20000).2.limitBirths exec 0 0 1 0x20000 0x0000200102030000 (iaddUnder 0)
      ((placed.fetch 0 1 240 0x20000).2.limitRoom 0 (State.dropShadowed c.2) (iaddUnder 0))).length) = [8] ∧
    (packetOf placedBad).length = 1 ∧
    (placedBad.fetch 0 1 240 0x20000).1 = .illegal 0x00001A0000000000 .reservedPrimary := by
  decide +kernel

theorem witness_StepRunsDecodedWords_issue :
    (∀ x ∈ [due0], (world thread0).earlyTrap x (iaddUnder 0) = none) ∧
    execsFor ((world thread0).rf lane0) (iaddUnder 0) = true ∧ execsFor ((world thread0).rf lane0) (iaddUnder 1) = false ∧
    execsFor ((world thread0).rf lane0) (.pair 0 0 (.iaddHalf (.v 1) (.v 2)) (.faddHalf (.v 5) (.v 3))) = true := by
  decide +kernel

theorem witness_MemoryStaysCanonical : State.reset.memWf ∧ step State.reset = .next State.reset.tickNow ∧
    placed.memWf := by
  refine ⟨?_, rfl, ?_⟩ <;> (unfold State.memWf; decide +kernel)

theorem witness_RegisterWordsFrame : Instr.registersOnly (.iadd (.v 1) (.v 2) (.v 3) false) = true ∧
    exec (.nop) (world thread0) = .next (world thread0) ∧ (∃ c, (world thread0).cur = some c) := by
  refine ⟨rfl, ?_, ctx0, rfl⟩
  rfl

/-! Decoding: a word of every operation, written from Tables 2.3 to 2.10 and the field tables of chapters 5, 6, 10, 12, 14 and 16
(the worked encodings among them), and the instruction it stands for. -/

/-- A word without stall, wait mask and predicate stands for an instruction. -/
abbrev Reads (w : W64) (i : Instr) : Prop := decode 240 w = .ok (.full 0 0 0 false i)

/-- The same under predicate k. -/
abbrev ReadsIf (k : BitVec 3) (w : W64) (i : Instr) : Prop := decode 240 w = .ok (.full 0 0 k false i)

theorem test_decode_control :
    Reads 0x0000000000000000 .nop ∧ Reads 0x000001FFFFFB0000 (.bra 0xFFFFFB) ∧ Reads 0x0000020000100000 (.call 0x10) ∧
    Reads 0x0000030000000000 .ret ∧ Reads 0x0000040005000000 (.jmpi (.v 5)) ∧ Reads 0x0000050006000000 (.calli (.v 6)) ∧
    Reads 0x0000060000000000 .exit ∧ Reads 0x0000070003000000 (.barf 3) ∧ Reads 0x0000080002000000 (.barp 2) ∧
    Reads 0x0000090403000010 (.arrive (.v 4) 3 true) ∧ Reads 0x00000A0004030000 (.bwait (.v 4) 3 false) ∧
    Reads 0x00000B0000000000 .yield ∧ Reads 0x00000C0000001200 (.safept 0x12) ∧ Reads 0x00000D0000012300 (.trap 0x123) ∧
    Reads 0x00000E0000000000 .tret ∧ Reads 0x00000F0000000000 .tren := by
  decide +kernel

theorem test_decode_system :
    ReadsIf 3 0x0000101400004006 (.mfs (.v 20) 0x040) ∧ Reads 0x0000110007010400 (.mts 0x104 (.v 7)) ∧
    Reads 0x0000120000020510 (.fence .rel .dev 2) ∧ Reads 0x0000130001020000 (.waitc .gather 2) ∧
    Reads 0x0000140504060010 (.waita true (.v 5) (.v 4) (.v 6)) ∧ Reads 0x0000150000000000 .qenter ∧
    Reads 0x0000160000000000 .qleave ∧ Reads 0x00001700FF000000 (.brk 255) ∧ Reads 0x0000180000000000 .isync ∧
    Reads 0x0000190009000700 (.tmark (.v 9) 7) := by
  decide +kernel

theorem test_decode_integer :
    Reads 0x0000200200010000 (.iadd (.v 2) (.v 0) (.v 1) false) ∧ Reads 0x0000200200010010 (.iadd (.v 2) (.v 0) (.v 1) true) ∧
    Reads 0x0000210102030000 (.isub (.v 1) (.v 2) (.v 3) false) ∧ Reads 0x0000220707000000 (.imul (.v 7) (.v 7) (.v 0) false) ∧
    Reads 0x0000230102030010 (.imulh (.v 1) (.v 2) (.v 3) true) ∧
    Reads 0x0000240102030410 (.imad (.v 1) (.v 2) (.v 3) (.v 4) true) ∧
    Reads 0x0000250102030400 (.iadd3 (.v 1) (.v 2) (.v 3) (.v 4) false) ∧ Reads 0x0000260102030000 (.iadds (.v 1) (.v 2) (.v 3) false) ∧
    Reads 0x0000270102030010 (.imin (.v 1) (.v 2) (.v 3) true) ∧ Reads 0x0000280102030000 (.imax (.v 1) (.v 2) (.v 3) false) ∧
    Reads 0x0000290102000000 (.iabs (.v 1) (.v 2) false) ∧ Reads 0x00002A0102000010 (.ineg (.v 1) (.v 2) true) ∧
    Reads 0x00002B0102030000 (.and (.v 1) (.v 2) (.v 3)) ∧ Reads 0x00002C0102030000 (.or (.v 1) (.v 2) (.v 3)) ∧
    Reads 0x00002D0102030000 (.xor (.v 1) (.v 2) (.v 3)) ∧ Reads 0x00002E0102030000 (.andn (.v 1) (.v 2) (.v 3)) ∧
    Reads 0x00002F0503040010 (.shl (.v 5) (.v 3) (.imm 4)) ∧ Reads 0x0000300503040000 (.shr (.v 5) (.v 3) (.reg (.v 4))) ∧
    Reads 0x00003105031F0010 (.sar (.v 5) (.v 3) (.imm 31)) ∧ Reads 0x0000320503F00000 (.rotl (.v 5) (.v 3) (.reg (.o 0))) ∧
    Reads 0x0000330102030410 (.funnel (.v 1) (.v 2) (.v 3) (.v 4) true) ∧ Reads 0x0000340102030000 (.bfx (.v 1) (.v 2) (.v 3) false) ∧
    Reads 0x0000350102030400 (.bfi (.v 1) (.v 2) (.v 3) (.v 4)) ∧ Reads 0x0000360102000000 (.popc (.v 1) (.v 2)) ∧
    Reads 0x0000370102000000 (.clz (.v 1) (.v 2)) ∧ Reads 0x0000380102000000 (.brev (.v 1) (.v 2)) := by
  decide +kernel

theorem test_decode_select :
    Reads 0x0000390304050A20 (.isetp .lt 3 (.v 4) (.v 5) ⟨2, true⟩) ∧ Reads 0x00003A0102030900 (.sel (.v 1) (.v 2) (.v 3) ⟨1, true⟩) ∧
    Reads 0x00003B01F6000000 (.mov (.v 1) .last) ∧ Reads 0x00003C0600123400 (.movi (.v 6) 0x1234 false) ∧
    Reads 0x00003D0607123400 (.movhi (.v 6) (.v 7) 0x1234) ∧ Reads 0x00003E08000C0200 (.ldk (.v 8) 12 2) ∧
    Reads 0x00003F0204060000 (.add64 (.v 2) (.v 4) (.v 6)) ∧ Reads 0x0000400204060000 (.sub64 (.v 2) (.v 4) (.v 6)) ∧
    Reads 0x0000410203050610 (.mad64w (.v 2) (.v 3) (.v 5) (.v 6) true) ∧ Reads 0x0000420204050310 (.lea (.v 2) (.v 4) (.v 5) 3 true) ∧
    Reads 0x0000430102030000 (.iadd2 (.v 1) (.v 2) (.v 3)) ∧ Reads 0x0000440102030000 (.iadd2s (.v 1) (.v 2) (.v 3)) ∧
    Reads 0x0000450102030000 (.imax2 (.v 1) (.v 2) (.v 3)) ∧ Reads 0x0000460102030400 (.prmt (.v 1) (.v 2) (.v 3) (.v 4)) ∧
    Reads 0x0000470102030410 (.idot4 (.v 1) (.v 2) (.v 3) (.v 4) true) ∧ Reads 0x0000480108000020 (.widen (.v 1) (.v 8) .sh) ∧
    Reads 0x0000490204030010 (.wadd (.v 2) (.v 4) (.v 3) true) ∧ Reads 0x00004A0102030F30 (.idiv .remu (.v 1) (.v 2) (.v 3) none) := by
  decide +kernel

theorem test_decode_fp32 :
    Reads 0x0000500403010000 (.fadd (.v 4) (.v 3) (.v 1)) ∧ Reads 0x0000510102030000 (.fsub (.v 1) (.v 2) (.v 3)) ∧
    decode 240 0x3000520302020000 = .ok (.full 3 0 0 false (.fmul (.v 3) (.v 2) (.v 2))) ∧
    Reads 0x0000530801020300 (.ffma (.v 8) (.v 1) (.v 2) (.v 3)) ∧
    Reads 0x0000540102030000 (.fmin (.v 1) (.v 2) (.v 3)) ∧ Reads 0x0000550102030000 (.fmax (.v 1) (.v 2) (.v 3)) ∧
    Reads 0x0000560302010070 (.fsetp .nan 3 (.v 2) (.v 1) ⟨0, false⟩) ∧ Reads 0x0000570102000000 (.fclass (.v 1) (.v 2)) ∧
    Reads 0x0000580102000020 (.frnd .ceil (.v 1) (.v 2)) ∧ Reads 0x0000590504000300 (.frcp (.v 5) (.v 4) (some 3)) ∧
    Reads 0x00005A0504000B00 (.frsq (.v 5) (.v 4) (some 11)) ∧ Reads 0x00005B0504000F00 (.fsqrt (.v 5) (.v 4) none) ∧
    Reads 0x00005C0901020400 (.fdiv (.v 9) (.v 1) (.v 2) (some 4)) ∧ Reads 0x00005D0504000000 (.fexp2 (.v 5) (.v 4) (some 0)) ∧
    Reads 0x00005E0504000100 (.flog2 (.v 5) (.v 4) (some 1)) ∧ Reads 0x00005F0504000200 (.fsin (.v 5) (.v 4) (some 2)) ∧
    Reads 0x0000600504000500 (.fcos (.v 5) (.v 4) (some 5)) ∧ Reads 0x0000610504000600 (.ftanh (.v 5) (.v 4) (some 6)) := by
  decide +kernel

theorem test_decode_packed :
    Reads 0x0000620A0B0C0010 (.hadd2 (.v 10) (.v 11) (.v 12) true) ∧ Reads 0x0000630102030000 (.hsub2 (.v 1) (.v 2) (.v 3) false) ∧
    Reads 0x0000640102030000 (.hmul2 (.v 1) (.v 2) (.v 3) false) ∧
    Reads 0x0000650102030410 (.hfma2 (.v 1) (.v 2) (.v 3) (.v 4) true) ∧ Reads 0x0000660102030000 (.hmin2 (.v 1) (.v 2) (.v 3) false) ∧
    Reads 0x0000670102030010 (.hmax2 (.v 1) (.v 2) (.v 3) true) ∧
    Reads 0x0000682102031360 (.hsetp2 .num 1 2 (.v 2) (.v 3) ⟨3, false⟩ true) ∧
    Reads 0x0000690102030400 (.hdot2 (.v 1) (.v 2) (.v 3) (.v 4) false) ∧ Reads 0x00006A0102030500 (.fdot4q (.v 1) (.v 2) (.v 3) 5) ∧
    Reads 0x0000730102040610 (.lutdot (.v 1) (.v 2) (.v 4) 6 true) := by
  decide +kernel

theorem test_decode_conversion :
    Reads 0x00006B0102000120 (.cvtf .f32F16 (.v 1) (.v 2) true) ∧ Reads 0x00006C0102000030 (.cvti .i8 (.v 1) (.v 2)) ∧
    Reads 0x00006D0102000010 (.cvtfi true (.v 1) (.v 2)) ∧ ReadsIf 1 0x00006E1410000202 (.pack (.v 20) (.v 16) 2) ∧
    Reads 0x00006F1014000200 (.unpack (.v 16) (.v 20) 2) ∧ Reads 0x0000701410030700 (.quant (.v 20) (.v 16) (.v 3) 7) ∧
    Reads 0x0000711014030000 (.dequant (.v 16) (.v 20) (.v 3) 0) ∧
    Reads 0x0000720801020310 (.cbdec (.v 8) (.v 1) (.v 2) (.v 3) true) ∧
    Reads 0x0000A00102000000 (.tagget (.v 1) (.v 2)) ∧ Reads 0x0000A10303070020 (.tagset (.copy (.v 7)) (.v 3) (.v 3)) ∧
    Reads 0x0000A10304070000 (.tagset (.value (.v 7)) (.v 3) (.v 4)) ∧ Reads 0x0000A10304000010 (.tagset .null (.v 3) (.v 4)) ∧
    Reads 0x0000A20102000000 (.tagbirth (.v 1) (.v 2)) ∧ Reads 0x0000A32802000500 (.origin (.v 40) (.v 2) (some 5)) := by
  decide +kernel

theorem test_decode_cross_lane :
    Reads 0x0000800908010010 (.shfl .xor (.v 9) (.v 8) (.v 1) .w8) ∧ Reads 0x0000810102000020 (.qswap .d (.v 1) (.v 2)) ∧
    Reads 0x0000820102030000 (.qbcast (.v 1) (.v 2) 3) ∧ Reads 0x0000830100000000 (.gred .addF32 (.v 1) (.v 0)) ∧
    Reads 0x00008301000000A0 (.gred .maxU32 (.v 1) (.v 0)) ∧ Reads 0x0000840302000010 (.gscan .excAddI32 (.v 3) (.v 2)) ∧
    Reads 0x0000850309000010 (.vote true 3 ⟨1, true⟩) ∧ Reads 0x0000851409000020 (.voteBallot (.v 20) ⟨1, true⟩) ∧
    Reads 0x0000860209030030 (.kop .andn 2 ⟨1, true⟩ ⟨3, false⟩) ∧ Reads 0x0000870500000000 (.kmovGet (.v 5)) ∧
    Reads 0x0000870005000010 (.kmovSet (.v 5)) ∧ Reads 0x0000880700000000 (.elect 7) ∧
    Reads 0x0000890102000000 (.matchLanes (.v 1) (.v 2)) := by
  decide +kernel

theorem test_decode_memory :
    Reads 0x0000900504001040 (.ld .word (.v 5) (.v 4) 16) ∧ ReadsIf 2 0x0000900904001044 (.ld .word (.v 9) (.v 4) 16) ∧
    Reads 0x0000910704000620 (.st .h (.v 7) (.v 4) 6) ∧ Reads 0x0000920A02080140 (.ldp .word (.v 10) (.v 2) 8 (some 1)) ∧
    Reads 0x0000930704FFF050 (.stp .w2 (.v 7) (.v 4) 0xFFF0) ∧ Reads 0x0000940504000400 (.ldt (.v 5) (.v 4) 4) ∧
    Reads 0x0000950102030490 (.atom .cas (.v 1) (.v 2) (.v 3) (.v 4)) ∧
    Reads 0x0000960102040380 (.atomp .exch (.v 1) (.v 2) (.v 4) (some 3)) ∧ Reads 0x000097000205D800 (.celladd (.v 2) (.v 5) 0xD8) ∧
    Reads 0x0000980102008200 (.cellrdF32 (.v 1) (.v 2) 0x82) ∧ Reads 0x0000980102000010 (.cellrdRaw (.v 1) (.v 2)) ∧
    Reads 0x0000990002000000 (.cellclr (.v 2)) ∧ Reads 0x00009A0C06000210 (.gld .w2 (.v 12) (.v 6) (some 2)) ∧
    Reads 0x00009B0006080020 (.gst .w4 (.v 6) (.v 8)) ∧ Reads 0x00009C0306040090 (.gatom .cas (.v 3) (.v 6) (.v 4) (some 0)) ∧
    Reads 0x00009D0006040000 (.gcelladd (.v 6) (.v 4) 0) := by
  decide +kernel

theorem test_decode_copy :
    Reads 0x0000A80004000500 (.cpy (.v 4) .dev) ∧ Reads 0x0000A90306080500 (.cpyi (.v 3) (.v 6) (.v 8) .dev) ∧
    Reads 0x0000AA0004000600 (.cpyx (.v 4) .sys) ∧ Reads 0x0000AB0000000000 .seal ∧
    ReadsIf 2 0x0000AC0A0B0C0D04 (.cbcast (.v 10) (.v 11) (.v 12) (.v 13)) ∧
    Reads 0x0000AD0004000610 (.ccoll .redscatter (.v 4) .sys) ∧ Reads 0x0000AE1400000200 (.cpyq (.v 20) 0 (some 2)) := by
  decide +kernel

theorem test_decode_tile :
    Reads 0x0000B00100000010 (.trsv 1 true) ∧ Reads 0x0000B10000000000 .trel ∧
    Reads 0x0000B20504080800 (.tmma 5 (.v 4) (.v 8) 0 1 false) ∧ Reads 0x0000B3020A0C1310 (.tmmas 2 (.v 10) (.v 12) 3 2 true) ∧
    Reads 0x0000B50906010400 (.tlutb 9 (.v 6) 1 4 false) ∧ Reads 0x0000B40007090410 (.tmmal 0 (.v 7) 9 4 true) ∧
    Reads 0x0000B63F00000000 (.tzero 63) ∧ Reads 0x0000B70714000010 (.taccld 7 (.v 20) true) ∧
    Reads 0x0000B80304065120 (.taccst (.scalemax 2 true (.v 6)) 3 (.v 4) 1) ∧
    Reads 0x0000B80304000100 (.taccst .plain 3 (.v 4) 1) ∧ Reads 0x0000B80304001110 (.taccst (.scale 2 false) 3 (.v 4) 1) ∧
    Reads 0x0000BA0004000200 (.taddw 0 (.v 4) 2) ∧ Reads 0x0000BB0100000000 (.tscan false 1) ∧
    Reads 0x0000B90004050300 (.ttrn (.v 4) (.v 5) 3) ∧ Reads 0x0000BC0704000000 (.tscld 7 (.v 4)) ∧
    ReadsIf 1 0x0000BD001E000002 (.tstat (.v 30)) := by
  decide +kernel

theorem test_decode_pens_and_array :
    Reads 0x0000C00004000000 (.pencfg 0 (.v 4)) ∧ Reads 0x0000C10003000C10 (.suspend true 0 (.v 3) 12) ∧
    Reads 0x0000C20008090000 (.penwakeMask (.v 8) (.v 9)) ∧ Reads 0x0000C20205000010 (.penwakeWord 2 (.v 5)) ∧
    Reads 0x0000C30000000010 (.penflush 0 none) ∧ Reads 0x0000C3000A000000 (.penflush 0 (some (.v 10))) ∧
    Reads 0x0000C40106000000 (.penstat 1 (.v 6)) ∧ ReadsIf 1 0x0000C50006070002 (.pentile 0 (.v 6) (.v 7)) ∧
    Reads 0x0000C60002000010 (.penhold true 0 (.v 2)) ∧ Reads 0x0000C80004000000 (.aacfg (.v 4)) ∧
    Reads 0x0000C90004050020 (.aainf .argmax (.v 4) (.v 5)) ∧ Reads 0x0000CA0004060000 (.aatrn .auto (.v 4) (.v 6)) ∧
    ReadsIf 2 0x0000CA0004070024 (.aatrn .suppress (.v 4) (.v 7)) ∧ Reads 0x0000CB00080A0000 (.aald (.v 8) (.v 10)) ∧
    Reads 0x0000CC00080A0000 (.aast (.v 8) (.v 10)) ∧ Reads 0x0000CD1400000300 (.aaq (.v 20) (some 3)) := by
  decide +kernel

/-- Two halves in one word (Tables 2.6 and 2.7; the first is the manual's worked pair). -/
theorem test_decode_halves :
    let pair (w : W64) (a b : Instr) : Prop := decode 240 w = .ok (.pair 0 0 a b)
    pair 0x8000200C0D52100E (.iaddHalf (.v 12) (.v 13)) (.fmulHalf (.v 16) (.v 14)) ∧
    pair 0x8000210102220506 (.isubHalf (.v 1) (.v 2)) (.imulHalf (.v 5) (.v 6)) ∧
    pair 0x8000270102280506 (.iminHalf (.v 1) (.v 2)) (.imaxHalf (.v 5) (.v 6)) ∧
    pair 0x80002B01022C0506 (.andHalf (.v 1) (.v 2)) (.orHalf (.v 5) (.v 6)) ∧
    pair 0x80002D01022F0506 (.xorHalf (.v 1) (.v 2)) (.shlHalf (.v 5) (.v 6)) ∧
    pair 0x8000300102310506 (.shrHalf (.v 1) (.v 2)) (.sarHalf (.v 5) (.v 6)) ∧
    pair 0x80003B01F6500506 (.movHalf (.v 1) .last) (.faddHalf (.v 5) (.v 6)) ∧
    pair 0x8000510102540506 (.fsubHalf (.v 1) (.v 2)) (.fminHalf (.v 5) (.v 6)) ∧
    pair 0x8000550102620506 (.fmaxHalf (.v 1) (.v 2)) (.hadd2Half (.v 5) (.v 6)) ∧
    pair 0x8000640102000000 (.hmul2Half (.v 1) (.v 2)) .nopHalf := by
  decide +kernel

/-! Words that the manual makes illegal, one for each reason that decoding can give (Table 2.8). -/
theorem test_illegal_words :
    decode 240 0x00001A0000000000 = .error .reservedPrimary ∧
    decode 240 0x8000230102200506 = .error .halfNotCapable ∧
    decode 240 0x00009C03060400B0 = .error .badFunction ∧ decode 240 0x00003E08000C0210 = .error .badFunction ∧
    decode 240 0x0000200200010100 = .error .unusedNonzero ∧
    decode 240 0x0000590504000C00 = .error .badFlag ∧
    decode 240 0x0000590504001300 = .error .badOperand ∧ decode 240 0x0000200200FC0000 = .error .badOperand ∧
    decode 240 0x000020F600010000 = .error .badDestination ∧
    decode 8 0x0000200208010000 = .error .badRegister ∧
    decode 240 0x00003F0305060000 = .error .badPair ∧
    decode 240 0x00003E08000C0500 = .error .badLdk ∧ decode 240 0x00003EEE000C0300 = .error .badLdk ∧
    decode 240 0x8000200408500C01 = .error .bankReads ∧
    decode 240 0x8000200102500106 = .error .pairDestinations ∧
    decode 240 0x8000200102500601 = .error .pairForwards := by
  decide +kernel

/-! Values: one word issued for the thread of the small machine, or for eight lanes of it. The expected numbers are those of the
manual's tables and examples, named at each test, or are computed by hand from the word's description. -/

/-- A thread of the small machine that holds values in its main registers. -/
def threadWith (l : List (Fin 240 × W32)) : Thread :=
  { thread0 with rf := l.foldl (fun r p => r.put (.v p.1) ⟨p.2, 0⟩) thread0.rf }

/-- The writes that a word leaves to land in a thread, with their values. -/
def pendOf (o : Host.Outcome State Fault Refusal) (lane : Nat) : List (Dest × Option W32) :=
  match o with
  | .next s => ((s.thread? ⟨3, lane⟩).map fun t => t.rf.pend.map fun p => (p.dst, p.val.map (·.val))).getD []
  | _ => []

/-- The values that a flagged word leaves to land. -/
def flaggedOf (o : Host.Outcome State Fault Refusal) : List (Option (List W32)) :=
  match o with
  | .next s => ((s.thread? ⟨3, 0⟩).map fun t => t.flagged.map fun f => f.vals.map fun vs => vs.map (·.val)).getD []
  | _ => []

/-- The FSR of the thread after a word. -/
def fsrOf (o : Host.Outcome State Fault Refusal) : Exc :=
  match o with
  | .next s => ((s.thread? ⟨3, 0⟩).map fun t => t.sys.fsr).getD 0
  | _ => 0

/-- A word writes v1 with a value, for the operands v2, v3 and v4. -/
def Gives (i : Instr) (a b c v : W32) : Bool :=
  (pendOf (exec i (world (threadWith [(2, a), (3, b), (4, c)]))) 0).head? == some (.reg (.v 1), some v)

/-- A word writes predicate k1. -/
def GivesK (i : Instr) (a b : W32) (v : Bool) : Bool :=
  (pendOf (exec i (world (threadWith [(2, a), (3, b)]))) 0).map (fun p => (p.1, p.2.map fun x => x.getLsbD 0)) == [(.pred 1, some v)]

/-- A flagged word leaves its result to land. -/
def GivesF (i : Instr) (a b v : W32) : Bool := flaggedOf (exec i (world (threadWith [(2, a), (3, b)]))) == [some [v]]

theorem test_integer_arithmetic :
    Gives (.iadd (.v 1) (.v 2) (.v 3) false) 0xFFFFFFFF 1 0 0 ∧ Gives (.isub (.v 1) (.v 2) (.v 3) false) 0 1 0 0xFFFFFFFF ∧
    Gives (.imul (.v 1) (.v 2) (.v 3) false) 0x10001 0x10001 0 0x20001 ∧
    Gives (.imulh (.v 1) (.v 2) (.v 3) true) 0xFFFFFFFF 0xFFFFFFFF 0 0xFFFFFFFE ∧
    Gives (.imulh (.v 1) (.v 2) (.v 3) false) 0xFFFFFFFF 0xFFFFFFFF 0 0 ∧
    Gives (.iadds (.v 1) (.v 2) (.v 3) false) 0x7FFFFFFF 1 0 0x7FFFFFFF ∧ Gives (.iadds (.v 1) (.v 2) (.v 3) true) 0xFFFFFFFF 1 0 0xFFFFFFFF ∧
    Gives (.imin (.v 1) (.v 2) (.v 3) false) 0xFFFFFFFF 1 0 0xFFFFFFFF ∧ Gives (.imax (.v 1) (.v 2) (.v 3) true) 0xFFFFFFFF 1 0 0xFFFFFFFF ∧
    Gives (.iabs (.v 1) (.v 2) false) 0x80000000 0 0 0x80000000 ∧ Gives (.ineg (.v 1) (.v 2) false) 1 0 0 0xFFFFFFFF ∧
    Gives (.imad (.v 1) (.v 2) (.v 3) (.v 4) false) 3 5 0xFFFFFFFF 14 ∧ Gives (.iadd3 (.v 1) (.v 2) (.v 3) (.v 4) false) 3 5 7 15 := by
  decide +kernel

theorem test_integer_bits :
    Gives (.and (.v 1) (.v 2) (.v 3)) 0xFF00 0x0FF0 0 0x0F00 ∧ Gives (.or (.v 1) (.v 2) (.v 3)) 0xFF00 0x0FF0 0 0xFFF0 ∧
    Gives (.xor (.v 1) (.v 2) (.v 3)) 0xFF00 0x0FF0 0 0xF0F0 ∧ Gives (.andn (.v 1) (.v 2) (.v 3)) 0xFF00 0x0FF0 0 0xF000 ∧
    Gives (.popc (.v 1) (.v 2)) 0x80000101 0 0 3 ∧ Gives (.clz (.v 1) (.v 2)) 0 0 0 32 ∧ Gives (.brev (.v 1) (.v 2)) 1 0 0 0x80000000 ∧
    Gives (.shl (.v 1) (.v 2) (.reg (.v 3))) 1 32 0 0 ∧ Gives (.shr (.v 1) (.v 2) (.imm 31)) 0x80000000 0 0 1 ∧
    Gives (.sar (.v 1) (.v 2) (.reg (.v 3))) 0x80000000 40 0 0xFFFFFFFF ∧ Gives (.rotl (.v 1) (.v 2) (.reg (.v 3))) 0x80000000 33 0 1 ∧
    Gives (.funnel (.v 1) (.v 2) (.v 3) (.v 4) false) 0x80000000 1 4 0x18 ∧
    Gives (.funnel (.v 1) (.v 2) (.v 3) (.v 4) true) 0x80000000 1 4 0x18000000 ∧
    Gives (.bfx (.v 1) (.v 2) (.v 3) false) 0xABCD 0x0404 0 0xFFFFFFFC ∧ Gives (.bfi (.v 1) (.v 2) (.v 3) (.v 4)) 0 0xFF 0x041E 0xC0000000 := by
  decide +kernel

theorem test_selects_and_moves :
    GivesK (.isetp .lt 1 (.v 2) (.v 3) ⟨0, false⟩) 0xFFFFFFFF 1 true ∧ GivesK (.isetp .ltu 1 (.v 2) (.v 3) ⟨0, false⟩) 0xFFFFFFFF 1 false ∧
    GivesK (.isetp .lt 1 (.v 2) (.v 3) ⟨0, true⟩) 0xFFFFFFFF 1 false ∧
    Gives (.sel (.v 1) (.v 2) (.v 3) ⟨2, false⟩) 5 6 0 6 ∧ Gives (.mov (.v 1) (.v 2)) 5 0 0 5 ∧
    Gives (.movi (.v 1) 0x8000 true) 0 0 0 0xFFFF8000 ∧ Gives (.movhi (.v 1) (.v 2) 0x1234) 0x89ABCDEF 0 0 0x1234CDEF ∧
    Gives (.iadd2 (.v 1) (.v 2) (.v 3)) 0x0001FFFF 0x00010001 0 0x00020000 ∧ Gives (.iadd2s (.v 1) (.v 2) (.v 3)) 0x80007FFF 0xFFFF0001 0 0x80007FFF ∧
    Gives (.imax2 (.v 1) (.v 2) (.v 3)) 0x8000FFFF 0x00010001 0 0x00010001 ∧
    Gives (.prmt (.v 1) (.v 2) (.v 3) (.v 4)) 0x33221100 0x77665544 0x8470 0x00447700 ∧
    Gives (.idot4 (.v 1) (.v 2) (.v 3) (.v 4) false) 0xFF020304 0x01010101 10 18 ∧
    Gives (.kmovGet (.v 1)) 0 0 0 1 := by
  decide +kernel

theorem test_pairs :
    pendOf (exec (.add64 (.v 6) (.v 2) (.v 4)) (world (threadWith [(2, 0xFFFFFFFF), (3, 0), (4, 1), (5, 2)]))) 0 =
      [(.reg (.v 6), some 0), (.reg (.v 7), some 3), (.reg .last, some 3)] ∧
    (pendOf (exec (.sub64 (.v 6) (.v 2) (.v 4)) (world (threadWith [(2, 0), (3, 1), (4, 1), (5, 0)]))) 0).take 2 =
      [(.reg (.v 6), some 0xFFFFFFFF), (.reg (.v 7), some 0)] ∧
    (pendOf (exec (.mad64w (.v 6) (.v 2) (.v 3) (.v 4) true) (world (threadWith [(2, 0xFFFFFFFF), (3, 2), (4, 1), (5, 0)]))) 0).take 2 =
      [(.reg (.v 6), some 0xFFFFFFFF), (.reg (.v 7), some 0xFFFFFFFF)] ∧
    (pendOf (exec (.lea (.v 6) (.v 2) (.v 4) 4 true) (world (threadWith [(2, 0x20), (3, 0), (4, 0xFFFFFFFE)]))) 0).take 2 =
      [(.reg (.v 6), some 0), (.reg (.v 7), some 0)] ∧
    (pendOf (exec (.wadd (.v 6) (.v 2) (.v 4) false) (world (threadWith [(2, 0), (3, 1), (4, 0xFFFFFFFF)]))) 0).take 2 =
      [(.reg (.v 6), some 0xFFFFFFFF), (.reg (.v 7), some 0)] ∧
    (pendOf (exec (.widen (.v 6) (.v 2) .sh) (world (threadWith [(2, 0x80007FFF)]))) 0).take 2 =
      [(.reg (.v 6), some 0x7FFF), (.reg (.v 7), some 0xFFFF8000)] := by
  decide +kernel

/-- Table 5.4. -/
theorem test_idiv :
    GivesF (.idiv .divs (.v 1) (.v 2) (.v 3) none) 5 0 0xFFFFFFFF ∧ GivesF (.idiv .rems (.v 1) (.v 2) (.v 3) none) 5 0 5 ∧
    GivesF (.idiv .divs (.v 1) (.v 2) (.v 3) none) 0x80000000 0xFFFFFFFF 0x80000000 ∧
    GivesF (.idiv .rems (.v 1) (.v 2) (.v 3) none) 0x80000000 0xFFFFFFFF 0 ∧
    GivesF (.idiv .divs (.v 1) (.v 2) (.v 3) none) 0xFFFFFFF9 2 0xFFFFFFFD ∧
    GivesF (.idiv .divu (.v 1) (.v 2) (.v 3) none) 0xFFFFFFF9 2 0x7FFFFFFC ∧
    GivesF (.idiv .rems (.v 1) (.v 2) (.v 3) none) 0xFFFFFFF9 2 0xFFFFFFFF ∧
    GivesF (.idiv .remu (.v 1) (.v 2) (.v 3) none) 0xFFFFFFF9 2 1 ∧
    fsrOf (exec (.idiv .rems (.v 1) (.v 2) (.v 3) none) (world (threadWith [(2, 0x80000000), (3, 0xFFFFFFFF)]))) = 0 ∧
    fsrOf (exec (.idiv .divu (.v 1) (.v 2) (.v 3) none) (world (threadWith [(2, 1), (3, 0)]))) = Exc.io := by
  decide +kernel

theorem test_fp32 :
    Gives (.fadd (.v 1) (.v 2) (.v 3)) 0x3F800000 0x3F800000 0 0x40000000 ∧ Gives (.fsub (.v 1) (.v 2) (.v 3)) 0x3F800000 0x3F800000 0 0 ∧
    Gives (.fmul (.v 1) (.v 2) (.v 3)) 0x40000000 0xC0400000 0 0xC0C00000 ∧
    Gives (.ffma (.v 1) (.v 2) (.v 3) (.v 4)) 0x3F800001 0x3F800001 0xBF800002 0x28800000 ∧
    Gives (.fmin (.v 1) (.v 2) (.v 3)) 0x00000000 0x80000000 0 0x80000000 ∧ Gives (.fmax (.v 1) (.v 2) (.v 3)) 0x3F800000 0xC0000000 0 0x3F800000 ∧
    GivesK (.fsetp .eq 1 (.v 2) (.v 3) ⟨0, false⟩) 0x80000000 0 true ∧ GivesK (.fsetp .nan 1 (.v 2) (.v 3) ⟨0, false⟩) 0x7FC00000 0 true ∧
    Gives (.fclass (.v 1) (.v 2)) 0x80000001 0 0 4 ∧ Gives (.frnd .ceil (.v 1) (.v 2)) 0xBF000000 0 0 0x80000000 ∧
    Gives (.frnd .rn (.v 1) (.v 2)) 0x40200000 0 0 0x40000000 := by
  decide +kernel

/-- Table 5.6, and results rounded by hand. -/
theorem test_fp32_functions :
    GivesF (.frcp (.v 1) (.v 2) none) 0x80000000 0 0xFF800000 ∧ GivesF (.frsq (.v 1) (.v 2) none) 0x40800000 0 0x3F000000 ∧
    GivesF (.fsqrt (.v 1) (.v 2) none) 0x40000000 0 0x3FB504F3 ∧ GivesF (.fsqrt (.v 1) (.v 2) none) 0x80000000 0 0x80000000 ∧
    GivesF (.fdiv (.v 1) (.v 2) (.v 3) none) 0x3F800000 0x40400000 0x3EAAAAAB ∧
    GivesF (.fexp2 (.v 1) (.v 2) none) 0x40400000 0 0x41000000 ∧ GivesF (.flog2 (.v 1) (.v 2) none) 0x41000000 0 0x40400000 ∧
    GivesF (.fsin (.v 1) (.v 2) none) 0x80000000 0 0x80000000 ∧ GivesF (.fcos (.v 1) (.v 2) none) 0 0 0x3F800000 ∧
    GivesF (.ftanh (.v 1) (.v 2) none) 0xFF800000 0 0xBF800000 ∧
    fsrOf (exec (.fdiv (.v 1) (.v 2) (.v 3) none) (world (threadWith [(2, 0x3F800000), (3, 0)]))) = Exc.dz ∧
    fsrOf (exec (.flog2 (.v 1) (.v 2) none) (world (threadWith [(2, 0xBF800000)]))) = Exc.iv := by
  decide +kernel

/-- The last is the example of R60 in FP16: 2^24 + 1 − 2^24 is exactly 1. -/
theorem test_packed_halves :
    Gives (.hadd2 (.v 1) (.v 2) (.v 3) false) 0x3C003C00 0xBC003C00 0 0x00004000 ∧ Gives (.hsub2 (.v 1) (.v 2) (.v 3) true) 0x3F804000 0x3F803F80 0 0x00003F80 ∧
    Gives (.hmul2 (.v 1) (.v 2) (.v 3) false) 0x7BFF3C00 0x40004000 0 0x7C004000 ∧
    Gives (.hfma2 (.v 1) (.v 2) (.v 3) (.v 4) false) 0x3C003C00 0x40004000 0xC0003C00 0x00004200 ∧
    Gives (.hmin2 (.v 1) (.v 2) (.v 3) false) 0x80003C00 0x00004000 0 0x80003C00 ∧ Gives (.hmax2 (.v 1) (.v 2) (.v 3) false) 0x80003C00 0x00004000 0 0x00004000 ∧
    GivesK (.hsetp2 .lt 1 1 (.v 2) (.v 3) ⟨0, false⟩ false) 0x3C003C00 0x40003C00 false ∧
    Gives (.hdot2 (.v 1) (.v 2) (.v 3) (.v 4) false) 0x6C003C00 0xEC003C00 0x4B800000 0x3F800000 := by
  decide +kernel

/-- Packing is Table 5.8, with the saturation in FSR, and CBDEC the example of R55. -/
theorem test_conversions :
    Gives (.cvtf .f16F32 (.v 1) (.v 2) false) 0x477FF000 0 0 0x7C00 ∧ Gives (.cvti .i8 (.v 1) (.v 2)) 0x43480000 0 0 127 ∧
    Gives (.cvtfi true (.v 1) (.v 2)) 0xFFFFFFFF 0 0 0x4F800000 ∧
    (pendOf (exec (.pack (.v 1) (.v 4) 0) (world (threadWith [(4, 0x3FC00000), (5, 0x43FA0000), (6, 0xBDCCCCCD), (7, 0x40400000)]))) 0).take 1 =
      [(.reg (.v 1), some 0x449D7E3C)] ∧
    fsrOf (exec (.pack (.v 1) (.v 4) 0) (world (threadWith [(4, 0x3FC00000), (5, 0x43FA0000), (6, 0xBDCCCCCD), (7, 0x40400000)]))) = Exc.ns ∧
    (pendOf (exec (.unpack (.v 8) (.v 2) 0) (world (threadWith [(2, 0x449D7E3C)]))) 0).take 4 =
      [(.reg (.v 8), some 0x3FC00000), (.reg (.v 9), some 0x43E00000), (.reg (.v 10), some 0xBDD00000), (.reg (.v 11), some 0x40400000)] ∧
    (pendOf (exec (.quant (.v 1) (.v 4) (.v 3) 0) (world (threadWith [(4, 0x3F400000), (5, 0x437A0000), (3, 0x40000000)]))) 0).take 1 =
      [(.reg (.v 1), some 0x00007E3C)] ∧
    (pendOf (exec (.dequant (.v 8) (.v 2) (.v 3) 0) (world (threadWith [(2, 0x449D7E3C), (3, 0x40000000)]))) 0).take 2 =
      [(.reg (.v 8), some 0x40400000), (.reg (.v 9), some 0x44600000)] ∧
    (pendOf (exec (.cbdec (.v 8) (.v 2) (.v 3) (.v 4) false) (world (threadWith [(2, 0xF7B), (3, 64), (4, 0x3C800000)]))) 0).take 3 =
      [(.reg (.v 8), some 0x3EB60000), (.reg (.v 9), some 0), (.reg (.v 10), some 0x3F800000)] := by
  decide +kernel

/-- Eight lanes of the small machine, v2 threadWith 10 · (lane + 1), and k1 false in lanes 2 and 5. -/
def eight (contributors : List Nat) : State :=
  let lane (i : Nat) : Thread := { threadWith [(2, BitVec.ofNat 32 (10 * (i + 1)))] with rf :=
    (threadWith [(2, BitVec.ofNat 32 (10 * (i + 1))), (3, BitVec.ofNat 32 (7 - i))]).rf.setPred 1 (i != 2 && i != 5) }
  let on := (List.range 8).filter fun i => contributors.contains i
  let off := (List.range 8).filter fun i => !contributors.contains i
  { world thread0 with
    groups := [{ group0 thread0 with lanes := (List.range 8).map lane }],
    cur := some { ctx0 with lanes := on.map fun i => ⟨3, i, false⟩, off := off.map fun i => ⟨3, i, false⟩ } }

/-- The value a cross-lane word gives each lane, none where it writes nothing. -/
def across (i : Instr) (contributors : List Nat) : List (Option W32) :=
  (List.range 8).map fun n => ((pendOf (exec i (eight contributors)) n).head?).bind (·.2)

/-- Table 6.8, and ELECT and VOTE.BALLOT after it. -/
theorem test_cross_lane_example :
    across (.gscan .excAddI32 (.v 3) (.v 2)) [0, 1, 3, 4, 6, 7] = [some 0, some 10, none, some 30, some 70, none, some 120, some 190] ∧
    across (.elect 2) [0, 1, 3, 4, 6, 7] = [some 1, some 0, none, some 0, some 0, none, some 0, some 0] ∧
    across (.voteBallot (.v 4) ⟨1, false⟩) [0, 1, 2, 3, 4, 5, 6, 7] = List.replicate 8 (some 0xDB) := by
  decide +kernel

theorem test_cross_lane :
    across (.shfl .idx (.v 4) (.v 2) (.v 3) .w8) [0, 1, 2, 3, 4, 5, 6, 7] =
      [some 80, some 70, some 60, some 50, some 40, some 30, some 20, some 10] ∧
    across (.shfl .up (.v 4) (.v 2) .zero .w8) [0, 1, 2, 3, 4, 5, 6, 7] =
      [some 10, some 20, some 30, some 40, some 50, some 60, some 70, some 80] ∧
    across (.qswap .y (.v 4) (.v 2)) [0, 1, 2, 3, 4, 5, 6, 7] =
      [some 30, some 40, some 10, some 20, some 70, some 80, some 50, some 60] ∧
    across (.qbcast (.v 4) (.v 2) 1) [0, 1, 2, 3, 4, 5, 6, 7] =
      [some 20, some 20, some 20, some 20, some 60, some 60, some 60, some 60] ∧
    across (.gred .maxI32 (.v 4) (.v 2)) [0, 1] = [some 20, some 20, none, none, none, none, none, none] ∧
    across (.vote true 2 ⟨1, false⟩) [0, 1] = [some 1, some 1, none, none, none, none, none, none] ∧
    across (.matchLanes (.v 4) .zero) [1, 3] = [none, some 0x0A, none, some 0x0A, none, none, none, none] ∧
    across (.kop .andn 2 ⟨0, false⟩ ⟨1, false⟩) [1, 2] = [none, some 0, some 1, none, none, none, none, none] := by
  decide +kernel

/-- Table 16.3: mix and the draw of cell (0, 0) at step 1 with SEED 0. -/
theorem test_random_stream : aaMix 0x9E3779B9 = 0x01FCE552 ∧
    aaDraw ({ nc := 16, nl := 64, k := 1, t := 1, seed := 0, step := 0, image := 0, nudge := [] } : ArrayCfg) 0 0 1 = 82 := by
  decide +kernel

/-- Table 10.13, and the stream with a match that reaches back too far. -/
theorem test_vbz :
    let plain (l : List Byte) : List ByteTag := l.map fun b => (b, 0)
    let head : List Byte := [0x26, 0x00, 0x02, 0x00, 0x23, 0x01, 0x02, 0x03]
    let tail : List Byte := [0x00, 0x01, 0x07, 0x0D, 0x40, 0x00, 0x00, 0x00, 0x00, 0x00, 0x00, 0x03, 0x00, 0x00, 0x00]
    (vbz 0 (plain (head ++ [0x03] ++ tail))).status = 0 ∧
    (vbz 0 (plain (head ++ [0x03] ++ tail))).words.flatMap (·.1) = [1, 2, 3, 1, 2, 3, 1, 2, 3, 7, 0, 0, 0, 0] ∧
    (vbz 0 (plain (head ++ [0x04] ++ tail))).status = 1 ∧ ((vbz 0 (plain (head ++ [0x04] ++ tail))).words.flatMap (·.1)).length = 3 := by
  decide +kernel

/-- The block of R52: 6.0, −3.0, 20.0 and 1.0, then zeros. -/
theorem test_e2m1x_block :
    let f : Flock := { flock0 with mem := [(0x40, 0xB5), (0x41, 0x18), (0x50, 0x80), (0x55, 0x4D)] }
    ((e2m1Row f true 0x40).1.map fun t => (toF32 t.num).1).take 5 = [0x40C00000, 0xC0400000, 0x41A00000, 0x3F800000, 0] ∧
    (e2m1Row f true 0x40).2 = 0 := by
  decide +kernel

/-- The mark record after R364, in both of its forms. -/
theorem test_mark_record :
    let payload : List Byte := [7, 0, 0, 0, 0x78, 0x56, 0x34, 0x12, 0xF5, 0, 0, 0]
    traceRecord false 1000000 1000300 .mark payload = [0x43, 0x2C, 0x01] ++ payload ∧
    (traceRecord false 1000000 5001000000 .mark payload).length = 21 ∧ (traceRecord false 1000000 5001000000 .mark payload).head? = some 0xC3 := by
  decide +kernel

/-- R60: the window sum of 2^24, 1 and −2^24 is 1. -/
theorem test_fp32_corners :
    (toF32 (rcpNum (f32 0x00000000)).1).1 = 0x7F800000 ∧ (rcpNum (f32 0x00000000)).2 = Exc.dz ∧
    (sqrtNum (f32 0xBF800000)).2 = Exc.iv ∧ Machine.Num.cmp .lt (f32 0x7FC00000) (f32 0x00000000) = false := by
  decide +kernel

/-- The state after an outcome; the machine at reset where there is none. -/
def after (o : Host.Outcome State Fault Refusal) : State :=
  match o with
  | .next s => s
  | _ => State.reset

/-- The machine fetches, decodes and issues the word placed by `withFetchWord`: the eight threads are past it and their results land
two cycles later; a reserved word traps every thread of the packet, which without a handler ends the launch (R36, R197). -/
theorem test_step_runs_placed_word :
    ((after (step placed)).groups.flatMap fun g => g.lanes.map fun t => (t.pc, t.rf.pend.map fun p => (p.dst, p.cyc))) =
      List.replicate 8 (0x20008, [(.reg (.v 1), 2), (.reg .last, 2)]) ∧
    ((after (step placedBad)).launches.map fun l => (l.ending, l.fatal.map (·.code))) = [(some 1, some 1)] := by
  decide +kernel

/-! Ill-formed terms, one for each check of `Instr.wf` and `pairReasons`. -/
theorem test_wf_refuses :
    Instr.wf 240 (.gatom .amax (.v 1) (.v 2) (.v 4) none) = true ∧ Instr.wf 240 (.atom .amax (.v 1) (.v 2) (.v 3) (.v 0)) = false ∧
    Instr.wf 240 (.atomp .amax (.v 1) (.v 2) (.v 4) none) = false ∧ Instr.wf 240 (.atom .add (.v 1) (.v 2) (.v 3) (.v 4)) = false ∧
    Instr.wf 240 (.celladd (.v 2) (.v 5) 1) = false ∧ Instr.wf 240 (.cellrdF32 (.v 1) (.v 2) 0x81) = false ∧
    Instr.wf 240 (.mov .last (.v 1)) = false ∧ Instr.wf 240 (.mov .lane (.v 1)) = false ∧
    Instr.wf 8 (.mov (.v 1) (.v 8)) = false ∧ Instr.wf 240 (.ld .w4 (.v 237) (.v 1) 0) = false ∧
    Instr.wf 240 (.ld .w2 (.o 0) (.v 1) 0) = false ∧ Instr.wf 240 (.add64 (.v 2) (.v 3) (.v 4)) = false ∧
    Instr.wf 240 (.add64 (.v 2) .zero (.v 4)) = false ∧ Instr.wf 240 (.ldk (.v 1) 0 0) = false ∧
    Instr.wf 240 (.ldk (.v 1) 0 5) = false ∧ Instr.wf 8 (.ldk (.v 6) 0 3) = false ∧ Instr.wf 240 (.ldk .last 0 1) = false := by
  decide +kernel

theorem test_pairs_refused :
    pairReasons (.iaddHalf (.v 4) (.v 8)) (.faddHalf (.v 12) (.v 1)) = [0x0B] ∧
    pairReasons (.movHalf (.v 1) (.v 2)) (.movHalf (.v 1) (.v 3)) = [0x0C] ∧
    pairReasons (.iaddHalf (.v 1) (.v 2)) (.movHalf (.v 6) (.v 1)) = [0x0D] ∧
    pairReasons (.movHalf .zero (.v 2)) (.movHalf .zero .zero) = [] := by
  decide +kernel

/-- R55 and R56: the scale of a block whose quotient is no number is 0, one above 255 is clamped, and both raise. -/
theorem test_cb4_scale : cb4Scale (.inf false) (.inf false) = (0, true) ∧ cb4Scale (Num.ofNat 300) (Num.ofNat 1) = (255, true) ∧
    cb4Scale (Num.ofNat 200) (Num.ofNat 1) = (200, false) := by
  decide +kernel

/-- R263: the row of another pen does not wait behind one that spills. -/
theorem test_other_pens_do_not_wait : ∀ q r : SuspendReq, q.pen ≠ r.pen → State.samePen q r = false := by
  intro q r h
  simp [State.samePen, h]

end Sys2Proof.Tests
end

section
/-!
SUPPORT and CLAIMS of spec 05: fields and packed elements as bit vectors, what the words of R112 to R119, R32 and R139 to R141
give a thread, and the obligations O4, O6 and O14.
-/
namespace Sys2Proof.Machine

/-! Integers in fields. -/

theorem intOfBits_signed {w : Nat} (hw : 0 < w) (b : BitVec w) : intOfBits w true b.toNat = b.toInt := by
  have h2 := Nat.two_pow_pred_mul_two hw
  simp only [intOfBits, Nat.mod_eq_of_lt b.isLt, true_and, BitVec.toInt_eq_toNat_cond]
  by_cases hb : 2 * b.toNat < 2 ^ w
  · rw [if_neg (by omega), if_pos hb]
  · rw [if_pos (by omega), if_neg hb]
    push_cast
    rfl

theorem intOfBits_unsigned {w : Nat} (b : BitVec w) : intOfBits w false b.toNat = (b.toNat : Int) := by
  simp [intOfBits, Nat.mod_eq_of_lt b.isLt]

theorem bitsOfInt_eq (w : Nat) (i : Int) : bitsOfInt w i = (BitVec.ofInt w i).toNat := by
  simp [bitsOfInt, BitVec.toNat_ofInt]

/-- Saturation to a signed 16-bit element (R117). -/
theorem clampInt_signed (i : Int) : (clampInt 16 true i).1 = max (-(2 ^ 15)) (min i (2 ^ 15 - 1)) := by
  simp only [clampInt, if_true]
  split
  · omega
  · split <;> omega

/-- A concatenation's number is a sum. -/
theorem toNat_append_eq_add {v w : Nat} (hi : BitVec v) (lo : BitVec w) :
    (hi ++ lo).toNat = hi.toNat * 2 ^ w + lo.toNat := by
  rw [BitVec.toNat_append, ← Nat.shiftLeft_add_eq_or_of_lt lo.isLt, Nat.shiftLeft_eq]

/-! Elements of a word (R117): half-words and bytes as bit vectors, in place of the model's remainders. -/

/-- The 16-bit element i of a word. -/
def elem16 (w : W32) (i : Nat) : BitVec 16 := (w >>> (16 * i)).setWidth 16

/-- Byte i of a word. -/
def elem8 (w : W32) (i : Nat) : BitVec 8 := (w >>> (8 * i)).setWidth 8

theorem toNat_elem16 (w : W32) (i : Nat) : (elem16 w i).toNat = half16 w i := by
  simp [elem16, half16, Nat.shiftRight_eq_div_pow]

theorem toNat_elem8 (w : W32) (i : Nat) : (elem8 w i).toNat = w.toNat / 2 ^ (8 * i) % 256 := by
  simp [elem8, Nat.shiftRight_eq_div_pow]

theorem ofInt_half16 (w : W32) (i : Nat) :
    BitVec.ofInt 32 (intOfBits 16 true (half16 w i)) = (elem16 w i).signExtend 32 := by
  rw [← toNat_elem16, intOfBits_signed (by decide)]
  rfl

theorem ofNat_half16 (w : W32) (i : Nat) : BitVec.ofNat 32 (half16 w i) = (elem16 w i).setWidth 32 := by
  rw [← toNat_elem16, BitVec.ofNat_toNat]

theorem byteInt_signed (w : W32) (i : Nat) : byteInt false w i = (elem8 w i).toInt := by
  rw [byteInt, ← toNat_elem8]
  exact intOfBits_signed (by decide) _

theorem byteInt_unsigned (w : W32) (i : Nat) : byteInt true w i = ((elem8 w i).toNat : Int) := by
  rw [byteInt, ← toNat_elem8]
  exact intOfBits_unsigned _

theorem ofInt_byteInt (u : Bool) (w : W32) (i : Nat) :
    BitVec.ofInt 32 (byteInt u w i) = if u then (elem8 w i).setWidth 32 else (elem8 w i).signExtend 32 := by
  cases u with
  | false =>
    rw [byteInt_signed]
    rfl
  | true =>
    rw [byteInt_unsigned, BitVec.ofInt_natCast, BitVec.ofNat_toNat]
    rfl

theorem pack16_toNat (lo hi : BitVec 16) : pack16 lo.toNat hi.toNat = hi ++ lo := by
  apply BitVec.eq_of_toNat_eq
  rw [toNat_append_eq_add, pack16, BitVec.toNat_ofNat]
  omega

/-- A packed operation in bit vectors, where its function of integers is one of 16-bit elements. -/
theorem packed2_eq {f : Int → Int → Int} {F : BitVec 16 → BitVec 16 → BitVec 16}
    (h : ∀ p q, BitVec.ofInt 16 (f p.toInt q.toInt) = F p q) (x y : W32) :
    packed2 x y f = F (elem16 x 1) (elem16 y 1) ++ F (elem16 x 0) (elem16 y 0) := by
  simp only [packed2, ← toNat_elem16, intOfBits_signed (w := 16) (by decide), bitsOfInt_eq, pack16_toNat, h]

theorem ofInt_max (p q : BitVec 16) : BitVec.ofInt 16 (max p.toInt q.toInt) = if p.slt q then q else p := by
  simp only [BitVec.slt, decide_eq_true_eq]
  split
  · rw [max_eq_right (by omega), BitVec.ofInt_toInt]
  · rw [max_eq_left (by omega), BitVec.ofInt_toInt]

theorem idot4V_eq (u : Bool) (x y z : W32) :
    let ext (v : BitVec 8) : W32 := if u then v.setWidth 32 else v.signExtend 32
    idot4V u x y z = z + ext (elem8 x 0) * ext (elem8 y 0) + ext (elem8 x 1) * ext (elem8 y 1)
      + ext (elem8 x 2) * ext (elem8 y 2) + ext (elem8 x 3) * ext (elem8 y 3) := by
  have hr : List.range 4 = [0, 1, 2, 3] := rfl
  simp only [idot4V, ofI, hr, List.foldl_cons, List.foldl_nil, BitVec.ofInt_add, BitVec.ofInt_mul, ofInt_byteInt,
    BitVec.ofInt_toInt]

/-- A word put together from its four bytes. -/
theorem ofNat_bytes (b0 b1 b2 b3 : BitVec 8) :
    BitVec.ofNat 32 (b0.toNat + 256 * b1.toNat + 65536 * b2.toNat + 16777216 * b3.toNat) = b3 ++ b2 ++ b1 ++ b0 := by
  apply BitVec.eq_of_toNat_eq
  simp only [toNat_append_eq_add, BitVec.toNat_ofNat]
  omega

/-- Byte n of two words, of which x is the lower. -/
theorem pair_byte (x y : W32) {n : Nat} (hn : n < 8) : (y.toNat * 2 ^ 32 + x.toNat) / 2 ^ (8 * n) % 256 =
    (if n < 4 then elem8 x n else elem8 y (n - 4)).toNat := by
  have hx := x.isLt
  split <;> (rw [toNat_elem8]; interval_cases n <;> omega)

/-- The byte that PRMT takes for a nibble of its selector (R118). -/
def permByte (x y : W32) (n : Nat) : BitVec 8 :=
  if n < 4 then elem8 x n else if n < 8 then elem8 y (n - 4) else 0

theorem toNat_permByte (x y : W32) (n : Nat) :
    (permByte x y n).toNat = if n < 8 then (y.toNat * 2 ^ 32 + x.toNat) / 2 ^ (8 * n) % 256 else 0 := by
  unfold permByte
  by_cases h : n < 8
  · rw [if_pos h, if_pos h, pair_byte x y h]
  · rw [if_neg h, if_neg h, if_neg (by omega)]
    rfl

/-- The element of a that WIDEN extends into register d + i (R119). -/
def widened (op : WidenOp) (w : W32) (i : Nat) : W32 :=
  match op with
  | .sb => (elem8 w i).signExtend 32
  | .zb => (elem8 w i).setWidth 32
  | .sh => (elem16 w i).signExtend 32
  | .zh => (elem16 w i).setWidth 32

/-! Comparisons, selection and moves (R107, R112 to R114). -/

theorem icmpV_lt (x y : W32) : icmpV .lt x y = x.slt y := rfl
theorem icmpV_le (x y : W32) : icmpV .le x y = x.sle y := rfl
theorem icmpV_ltu (x y : W32) : icmpV .ltu x y = x.ult y := rfl
theorem icmpV_leu (x y : W32) : icmpV .leu x y = x.ule y := rfl

theorem getLsbD_lowHalf {i : Nat} (h : i < 32) : (0x0000FFFF : W32).getLsbD i = decide (i < 16) := by
  revert i
  decide

/-- MOVHI keeps the low half of its source under a new high half (R114). -/
theorem append_eq_mask_or (hi : BitVec 16) (x : W32) :
    (hi ++ x.setWidth 16 : BitVec (16 + 16)) = (x &&& 0x0000FFFF : W32) ||| (hi.setWidth 32 <<< 16) := by
  apply BitVec.eq_of_getLsbD_eq
  intro i h
  have hm := getLsbD_lowHalf h
  simp only [BitVec.getLsbD_append, BitVec.getLsbD_or, BitVec.getLsbD_and, BitVec.getLsbD_shiftLeft,
    BitVec.getLsbD_setWidth, hm]
  by_cases hi : i < 16
  · simp [hi]
  · simp [hi, h]
    omega

section
variable {s : State} {c : IssueCtx} {l : LaneRef} {t : Thread} {d a b e : Reg} {kd : BitVec 3} {kc : KSel}

/-- A comparison into a predicate, its value said in other words. -/
theorem isetp_gives {cc : ICmp} {v : Bool} (h : icmpV cc (s.operand l a).val (s.operand l b).val = v) :
    Gives (.isetp cc kd a b kc) s c l t 2 [] [(kd, v && (s.rf l).ksel kc)] 0 := by
  subst h
  exact gives_of rfl rfl rfl rfl rfl

theorem sel_gives :
    let x := s.operand l a
    let y := s.operand l b
    let p := (s.rf l).ksel kc
    Gives (.sel d a b kc) s c l t 2 [(d, if p then x.val else y.val, .fixed (if p then x.tag else y.tag))] [] 0 := by
  intro x y p
  rw [← apply_ite TW.val, ← apply_ite TW.tag]
  exact gives_of rfl rfl rfl rfl rfl

theorem movhi_gives {imm : BitVec 16} :
    let x := s.operand l a
    Gives (.movhi d a imm) s c l t 2
      [(d, (x.val &&& 0x0000FFFF : W32) ||| (imm.setWidth 32 <<< 16), .fixed x.tag)] [] 0 := by
  intro x
  rw [← append_eq_mask_or]
  exact gives_of rfl rfl rfl rfl rfl

/-! Packed elements (R117 to R119). -/

theorem exec_iadd2 : exec (.iadd2 d a b) s =
    execLanes s (.lat 2) fun _ l => packed2Res s l d a b true fun x y => x + y := rfl
theorem exec_iadd2s : exec (.iadd2s d a b) s =
    execLanes s (.lat 2) fun _ l => packed2Res s l d a b true fun x y => (clampInt 16 true (x + y)).1 := rfl
theorem exec_imax2 : exec (.imax2 d a b) s =
    execLanes s (.lat 2) fun _ l => packed2Res s l d a b false fun x y => max x y := rfl

/-- A packed word on two registers, its operation said of two 16-bit elements (R117). -/
theorem packed_gives {i : Instr} {dom : Bool} {f : Int → Int → Int} {F : BitVec 16 → BitVec 16 → BitVec 16}
    (h : exec i s = execLanes s (.lat 2) fun _ l => packed2Res s l d a b dom f)
    (hf : ∀ p q, BitVec.ofInt 16 (f p.toInt q.toInt) = F p q) :
    let x := s.operand l a
    let y := s.operand l b
    Gives i s c l t 2 [(d, F (elem16 x.val 1) (elem16 y.val 1) ++ F (elem16 x.val 0) (elem16 y.val 0),
      .rule [⟨x.tag, false⟩, ⟨y.tag, false⟩] (if dom then some [i16Mag x, i16Mag y] else none) false)] [] 0 := by
  intro x y
  rw [← packed2_eq hf]
  exact packed2_gives h

/-- R117: the dot product modulo 2^32. -/
theorem idot4_gives {u : Bool} :
    let x := s.operand l a
    let y := s.operand l b
    let z := s.operand l e
    let ext (v : BitVec 8) : W32 := if u then v.setWidth 32 else v.signExtend 32
    Gives (.idot4 d a b e u) s c l t 4
      [(d, z.val + ext (elem8 x.val 0) * ext (elem8 y.val 0) + ext (elem8 x.val 1) * ext (elem8 y.val 1)
          + ext (elem8 x.val 2) * ext (elem8 y.val 2) + ext (elem8 x.val 3) * ext (elem8 y.val 3),
        .rule [⟨x.tag, false⟩, ⟨y.tag, false⟩, ⟨z.tag, false⟩] none false)] [] 0 := by
  intro x y z ext
  have h : exec (.idot4 d a b e u) s = execLanes s (.lat 4) fun _ l =>
      int3 s l d a b e (fun _ _ _ => none) fun x y z => (idot4V u x y z, Exc.none) := rfl
  rw [← idot4V_eq]
  exact int3_gives h

theorem prmt_gives :
    let x := s.operand l a
    let y := s.operand l b
    let z := s.operand l e
    let nib (j : Nat) : Nat := z.val.toNat / 2 ^ (4 * j) % 16
    let pick (j : Nat) : BitVec 8 := permByte x.val y.val (nib j)
    let tag (j : Nat) : TSrc := ⟨if nib j < 4 then x.tag else if nib j < 8 then y.tag else 0, false⟩
    Gives (.prmt d a b e) s c l t 2
      [(d, pick 3 ++ pick 2 ++ pick 1 ++ pick 0, .rule [tag 0, tag 1, tag 2, tag 3] none false)] [] 0 := by
  intro x y z nib pick tag
  rw [← ofNat_bytes]
  simp only [pick, toNat_permByte]
  exact gives_of rfl rfl rfl rfl rfl

theorem widen_gives {op : WidenOp} :
    let x := s.operand l a
    Gives (.widen d a op) s c l t 4
      ((List.range op.regs).map fun i => (regPlus d i, widened op x.val i, .fixed x.tag)) [] 0 := by
  intro x
  refine gives_of rfl rfl ?_ rfl rfl
  simp only [flatResults, List.flatMap_cons, List.flatMap_nil, List.append_nil, List.map_map]
  refine List.map_congr_left fun i _ => ?_
  cases op with
  | sb => simp [widened, ofI, ofInt_byteInt, x]
  | zb => simp [widened, ofI, ofInt_byteInt, x]
  | sh => simp [widened, ofI, ofInt_half16, x]
  | zh => simp [widened, ofNat_half16, x]

end

/-! Reads of code (R20, R115, R160): what a read through a function's pages leaves alone. -/

namespace State

/-- The threads and the word being issued: what a read of memory leaves alone. -/
def front (s : State) : List Group × Option IssueCtx := (s.groups, s.cur)

theorem physWrite_front (s : State) (pa : Nat) (bs : List Byte) : (s.physWrite pa bs).front = s.front := by
  unfold physWrite
  dsimp only
  split <;> split <;> rfl

theorem physPut_front (s : State) (pa : Nat) (bs : List Byte) : (s.physPut pa bs).front = s.front := by
  unfold physPut
  split
  · rfl
  · exact physWrite_front s pa bs

theorem countCorrected_front (s : State) (line n : Nat) : (s.countCorrected line n).front = s.front := by
  unfold countCorrected
  dsimp only
  split <;> rfl

theorem meetError_front (s : State) (e : Nat × LineErr) : (s.meetError e).front = s.front := by
  unfold meetError
  dsimp only
  split
  · exact countCorrected_front _ _ _
  · rfl
  · rfl

/-- What each step of a fold leaves of the front, the fold leaves. -/
theorem foldl_front {β : Type} {F : State → β → State} (hF : ∀ s x, (F s x).front = s.front) (xs : List β) (s : State) :
    (xs.foldl F s).front = s.front := by
  induction xs generalizing s with
  | nil => rfl
  | cons x xs ih => rw [List.foldl_cons, ih, hF]

theorem meetErrors_front (s : State) (pa n : Nat) : (s.meetErrors pa n).front = s.front :=
  foldl_front meetError_front _ s

theorem walkErrors_front (s : State) (fn : Nat) (va : W64) (level table : Nat) :
    (s.walkErrors fn va level table).front = s.front := by
  induction level generalizing s table with
  | zero =>
    unfold walkErrors
    split
    · exact meetErrors_front _ _ _
    · rfl
  | succ n ih =>
    unfold walkErrors
    dsimp only
    split
    · split
      · rw [ih, meetErrors_front]
      · exact meetErrors_front _ _ _
    · rfl

theorem recordUse_front (s : State) (e : TlbEntry) (writes : Bool) : (s.recordUse e writes).2.1.front = s.front := by
  unfold recordUse
  dsimp only
  generalize ((0x800 : W64) ||| if writes then 0x1000 else 0) = use
  split
  · rfl
  · split
    · rfl
    · split
      · exact meetErrors_front _ _ _
      · exact (physPut_front _ _ _).trans (meetErrors_front _ _ _)

theorem useLeaf_front (s : State) (e : TlbEntry) (kind : AccKind) (va : W64) :
    (s.useLeaf e kind va).2.1.front = s.front := by
  have hr := recordUse_front s e kind.writes
  unfold useLeaf
  dsimp only
  split
  · rfl
  · split
    · rfl
    · split <;> (next h => rw [h] at hr; exact hr)

theorem keepTlb_front (s : State) (e : TlbEntry) : (s.keepTlb e).front = s.front := rfl

theorem translate_front (s : State) (loc fn : Nat) (va : W64) (kind : AccKind) :
    (s.translate loc fn va kind).2.front = s.front := by
  unfold translate
  split
  · rfl
  · dsimp only
    split
    · have hu := useLeaf_front s ‹TlbEntry› kind va
      split <;> split <;> exact hu
    · split
      · rfl
      · have he := walkErrors_front s fn va 3 (bits (s.fnMemOf fn).root 51 12 * 4096)
        split
        · exact he
        · exact he
        · split
          · rw [foldl_front (fun s l => keepTlb_front s _), useLeaf_front, he]
          · rw [useLeaf_front, he]

theorem physCheck_front (s : State) (fn pa tier n : Nat) (tagged whole : Bool) :
    (s.physCheck fn pa tier n tagged whole).2.front = s.front := by
  unfold physCheck
  dsimp only
  split
  · rfl
  · split <;> split <;> split <;> simp only [meetErrors_front]

theorem countSent_front (s : State) (tier : Nat) : (s.countSent tier).front = s.front := by
  unfold countSent
  split
  · split <;> rfl
  · rfl

theorem accessPage_front (s : State) (loc fn : Nat) (va : W64) (n : Nat) (kind : AccKind) :
    (s.accessPage loc fn va n kind).2.front = s.front := by
  have ht := translate_front s loc fn va kind
  unfold accessPage
  split
  · next pa tier k tagged s1 hq =>
    rw [hq] at ht
    have hp := physCheck_front s1 fn pa tier n tagged
      (decide (kind = .write) && decide (pa % 64 = 0) && decide (n % 64 = 0))
    split
    · next hq2 => rw [countSent_front, ← ht, ← hp, hq2]
    · next hq2 => rw [← ht, ← hp, hq2]
  · exact ht

/-- A read of a code word moves no thread (R20, R160): it fills caches, sets page bits and counts errors. -/
theorem codeWord_front (s : State) (core launch : Nat) (a : W64) : (s.codeWord core launch a).2.front = s.front := by
  unfold codeWord
  split
  · rfl
  · next l _ =>
    have ha := accessPage_front s (coreLoc core) l.fn a 8 .fetch
    dsimp only
    split
    · rfl
    · split
      · rfl
      · split <;> (next hq => rw [hq] at ha; exact ha)

theorem codeWords_front (s : State) (core launch : Nat) (a : W64) (n : Nat) :
    (s.codeWords core launch a n).2.front = s.front := by
  induction n generalizing s a with
  | zero => rfl
  | succ n ih =>
    have hw := codeWord_front s core launch a
    unfold codeWords
    split
    · next hq =>
      rw [hq] at hw
      exact hw
    · next hq =>
      rw [hq] at hw
      exact (ih _ _).trans hw

/-- A reading of code words that meets no fault gives as many as it was asked for. -/
theorem codeWords_length {s : State} {core launch : Nat} {a : W64} {n : Nat} {ws : List W64}
    (h : (s.codeWords core launch a n).1 = (ws, none)) : ws.length = n := by
  induction n generalizing s a ws with
  | zero =>
    simp only [codeWords, Prod.mk.injEq] at h
    simp [← h.1]
  | succ n ih =>
    unfold codeWords at h
    split at h
    · simp at h
    · next w s1 hq =>
      obtain ⟨hws, hbad⟩ := Prod.mk.inj h
      rw [← hws, List.length_cons, ih (Prod.ext rfl hbad)]

theorem thread?_of_front {s s' : State} (h : s'.front = s.front) (t : ThreadId) : s'.thread? t = s.thread? t :=
  thread?_of_groups (congrArg Prod.fst h) t

theorem cur_of_front {s s' : State} (h : s'.front = s.front) : s'.cur = s.cur := congrArg Prod.snd h

end State

/-! Literals (R32, R115). -/

/-- The i-th 32-bit word of a literal, low word first (R32). -/
def literalWord (ws : List W64) (i : Nat) : W32 := ((ws.getD (i / 2) 0) >>> (32 * (i % 2))).setWidth 32

/-- The halves of the words read, one after another, are the literal's words in order. -/
theorem take_literal (ws : List W64) (n : Nat) (h : n ≤ 2 * ws.length) :
    (ws.flatMap fun (w : W64) => [(w.setWidth 32 : W32), ((w >>> 32).setWidth 32 : W32)]).take n =
      (List.range n).map (literalWord ws) := by
  induction ws generalizing n with
  | nil =>
    obtain rfl : n = 0 := by simpa using h
    rfl
  | cons w ws ih =>
    match n with
    | 0 => rfl
    | 1 => simp [literalWord]
    | n + 2 =>
      have hs : ∀ i, literalWord (w :: ws) (i + 2) = literalWord ws i := fun i => by simp [literalWord]
      have h0 : literalWord (w :: ws) 0 = w.setWidth 32 := by simp [literalWord]
      have h1 : literalWord (w :: ws) 1 = (w >>> 32).setWidth 32 := by simp [literalWord]
      have hr : List.range (n + 2) = 0 :: 1 :: (List.range n).map (· + 2) := by
        simp [List.range_succ_eq_map, Function.comp_def]
      have hn : n ≤ 2 * ws.length := by
        rw [List.length_cons] at h
        omega
      simp only [List.flatMap_cons, List.cons_append, List.nil_append, List.take_succ_cons, ih n hn, hr, List.map_cons,
        List.map_map, Function.comp_def, hs, h0, h1]

/-- The registers that LDK writes, with their values. -/
def literalWrites (d : Reg) (n : Nat) (ws : List W64) : List (Reg × W32) :=
  (List.range n).map fun i => (regPlus d i, literalWord ws i)

/-- LDK whose literal is code puts the literal's words in flight, lane by lane, after the reading of them (R115). -/
theorem exec_ldk {s : State} {c : IssueCtx} {r : LaunchRec} {d : Reg} {off : BitVec 16} {count : BitVec 8} {ws : List W64}
    (hc : s.cur = some c) (hr : s.recOf c = some r)
    (hw : (s.codeWords c.core c.launch (r.addrOf (r.idxOf c.pc + 1 + off.signExtend 32)) ((count.toNat + 1) / 2)).1 =
      (ws, none)) :
    ∃ s1, s1.front = s.front ∧ exec (.ldk d off count) s = eachLane s1 fun c s l =>
      s.inFlight c l 6 true ((literalWrites d count.toNat ws).map fun p => (p.1, ⟨p.2, 0⟩)) := by
  have hi : s.idxNow c = r.idxOf c.pc := by simp only [State.idxNow, hr]
  have hn : count.toNat ≤ 2 * ws.length := by
    have := State.codeWords_length hw
    omega
  refine ⟨_, State.codeWords_front s c.core c.launch (r.addrOf (r.idxOf c.pc + 1 + off.signExtend 32))
    ((count.toNat + 1) / 2), ?_⟩
  change execLdk d off count s = _
  simp only [execLdk, hc, hr, hi, hw, take_literal ws _ hn, literalWrites, regRange, List.map_map, List.zip_map',
    Function.comp_def]

theorem ldk_gives {s : State} {c : IssueCtx} {l : LaneRef} {t : Thread} {r : LaunchRec} {d : Reg} {off : BitVec 16}
    {count : BitVec 8} {ws : List W64} (hr : s.recOf c = some r)
    (hw : (s.codeWords c.core c.launch (r.addrOf (r.idxOf c.pc + 1 + off.signExtend 32)) ((count.toNat + 1) / 2)).1 =
      (ws, none)) :
    Gives (.ldk d off count) s c l t 6 ((literalWrites d count.toNat ws).map fun p => (p.1, p.2, .fixed 0)) [] 0 := by
  intro h _
  obtain ⟨s1, hf, hx⟩ := exec_ldk (d := d) h.issuing hr hw
  have hc : s1.cur = some c := (State.cur_of_front hf).trans h.issuing
  have ht : s1.thread? l.tid = some t := (State.thread?_of_front hf l.tid).trans h.thread
  obtain ⟨s0, h0, h1⟩ := State.foldl_lane _
    (fun s m hm => State.thread?_inFlight_other s c 6 true _ hm) h.own h.lane h.once ht
  refine ⟨_, (literalWrites d count.toNat ws).map fun _ => 0, by rw [hx, eachLane, hc], ?_, ?_⟩
  · exact tagsFor_map_const _ _ (.fixed 0) 0 fun g hg => Option.some.inj hg
  · rw [tagged_map_const, h1, State.thread?_inFlight_same s0 6 _ h.full h.own h0]
    simp [Thread.given, predLandings]

/-! The claims. -/

/-- Settles O4: each comparison's relation on bit vectors, then the words that choose or move a value. -/
theorem comparesSelectsMoves : Obligations.ComparesSelectsMoves := by
  unfold Obligations.ComparesSelectsMoves
  intro s c l t d a b kd kc imm x y p
  exact ⟨isetp_gives rfl, isetp_gives rfl, isetp_gives (icmpV_lt _ _), isetp_gives (icmpV_le _ _),
    isetp_gives (icmpV_lt _ _), isetp_gives (icmpV_le _ _), isetp_gives (icmpV_ltu _ _), isetp_gives (icmpV_leu _ _),
    isetp_gives (icmpV_ltu _ _), isetp_gives (icmpV_leu _ _), sel_gives, gives_of rfl rfl rfl rfl rfl,
    gives_of rfl rfl rfl rfl rfl, gives_of rfl rfl rfl rfl rfl, movhi_gives⟩

/-- Settles O6, element by element: each packed function of integers is one of 16-bit vectors, and PRMT's and WIDEN's remainders
are bytes and half-words. -/
theorem packedIntegers : Obligations.PackedIntegers := by
  unfold Obligations.PackedIntegers
  intro s c l t d a b e u
  refine ⟨?add, ?addSat, ?max, idot4_gives, ?prmt, ?sb, ?zb, ?sh, ?zh⟩
  case add =>
    exact packed_gives exec_iadd2 (F := fun p q => p + q)
      fun p q => by rw [BitVec.ofInt_add, BitVec.ofInt_toInt, BitVec.ofInt_toInt]
  case addSat =>
    exact packed_gives exec_iadd2s
      (F := fun p q => BitVec.ofInt 16 (max (-(2 ^ 15)) (min (p.toInt + q.toInt) (2 ^ 15 - 1))))
      fun p q => by rw [clampInt_signed]
  case max => exact packed_gives exec_imax2 (F := fun p q => if p.slt q then q else p) ofInt_max
  case prmt => exact prmt_gives
  case sb => exact widen_gives
  case zb => exact widen_gives
  case sh => exact widen_gives
  case zh => exact widen_gives

/-- Settles O14: the literal's words are read once, before the lanes, and the reading moves no thread. -/
theorem literalsAndTags : Obligations.LiteralsAndTags := by
  unfold Obligations.LiteralsAndTags
  constructor
  · intro s c l t d a b
    refine ⟨?tagget, ?value, ?null, ?copy, ?birth⟩ <;> exact gives_of rfl rfl rfl rfl rfl
  · intro s c l t d off count r ws hr hw
    refine (ldk_gives hr hw).cast ?_ rfl rfl
    rw [literalWrites, List.map_map]
    rfl

end Sys2Proof.Machine
end
